-- ==== Sys2Proof/Word.lean ====
section
/-! DEFINITION. Words, bytes and bus addresses of the KD11-D (spec 00_scope R6, R9, R10). -/

namespace Sys2Proof

/-- A 16-bit word: register contents, memory words, program addresses (R6). -/
abbrev Word := BitVec 16

/-- An 8-bit byte, the addressable unit (R43). -/
abbrev Byte := BitVec 8

/-- An 18-bit UNIBUS address (R6, R62). -/
abbrev BusAddr := BitVec 18

end Sys2Proof
end

