-- ==== Sys2Proof/Config.lean ====
section
/-! DEFINITION. What the system around the processor fixes (spec 00_scope R7, 93_implementation_defined part 1a),
and the free values of the points the spec refuses to choose (opaque: no proof can see one). -/

namespace Sys2Proof

/-- What stands behind a window of bus addresses. -/
inductive SlaveKind where
  /-- Memory that answers reads and writes. -/
  | memory
  /-- Memory that answers reads, times out on writes and keeps what it holds (R149, R312, V8.10). -/
  | readOnly
  /-- Memory that answers reads, and a write too late: it may or may not have taken it (R71). -/
  | slow
  /-- A device register: it answers, and what it answers is the device's business (R76, U17). -/
  | device
  deriving DecidableEq, Repr

/-- One window of MEM_MAP: `size` bytes from the bus address `base`. -/
structure Region where
  base : Nat
  size : Nat
  kind : SlaveKind
  deriving DecidableEq, Repr

/-- One window of ADDR18: the program addresses from `base`, `size` bytes, go out with `high` on A17 and A16. -/
structure HighWindow where
  base : Nat
  size : Nat
  high : BitVec 2
  deriving DecidableEq, Repr

/-- The parameters of rule R7 that are fixed while the machine runs. -/
structure Config where
  /-- MEM_MAP: the windows that answer; the first one that holds an address decides. -/
  memMap : List Region
  /-- ADDR18: A17 and A16 of each program address; the first window that holds an address decides, 0 where none does.
  A15 to A00 are the program address itself (R62, R434). -/
  addr18 : List HighWindow
  /-- PARITY_ENABLED, jumpers W1 and W2 (R72). -/
  parityEnabled : Bool
  /-- SBC_LITERAL: the literal reading of SBC's C and V (decision D8). -/
  sbcLiteral : Bool
  deriving DecidableEq, Repr

/-- The default of ADDR18 (D1): program addresses 160000 to 177777 go out with A17 = A16 = 1. -/
def Config.ioPage : List HighWindow := [⟨0o160000, 0o20000, 3⟩]

/-- The configuration of the spec's own test vectors (95: "memory answers at 000000 to 157777"), ADDR18 by decision D1,
parity detection on, SBC by decision D8. DESIGN CHOICE, unsafe (entries 4, 5, 8, 23). -/
def Config.standard : Config :=
  { memMap := [⟨0o000000, 0o160000, .memory⟩], addr18 := Config.ioPage, parityEnabled := true, sbcLiteral := false }

/-- PSW_WRITE_CC: N, Z, V, C after a write to 777776, one free value per write (R31, D6, U3). Safe (entry 6). -/
opaque Config.freeCC : Nat → BitVec 4

/-- Free words: the two unspecified values of `JSR SP` and `RTS SP` (U6), a device register's data (U17), the data
lines of a read that nothing answers and the location of a slow slave after a write that timed out (R71), and the registers after a cold
power-up (U1). Safe (entries 14, 18, 22, 32). -/
opaque Config.freeWord : Nat → Word

end Sys2Proof
end

