-- ==== Sys2Proof/Syntax.lean ====
section
/-! DEFINITION. The instructions of the KD11-D: one constructor per row of spec/opcode_table.json. An instruction
is its one 16-bit word; the words its addressing modes use are read when the mode needs them (R101, R144). -/

namespace Sys2Proof

/-- The eight general registers (R20). R6 is the stack pointer, R7 the program counter (R21, R22). -/
inductive Reg where
  | r0 | r1 | r2 | r3 | r4 | r5 | r6 | r7
  deriving DecidableEq, Repr

/-- The eight addressing modes (R140), in the order of their codes 0 to 7. -/
inductive Mode where
  | register | deferred | autoInc | autoIncDef | autoDec | autoDecDef | index | indexDef
  deriving DecidableEq, Repr

/-- A 6-bit operand specifier `SS` or `DD` (R102). -/
structure Operand where
  mode : Mode
  reg : Reg
  deriving DecidableEq, Repr

/-- Operand size of an instruction (R13). -/
inductive Size where
  | byte | word
  deriving DecidableEq, Repr

/-- The instructions, one constructor per row of the opcode table. -/
inductive Instr where
  -- operate group (44_operate_and_cc)
  /-- R281 -/ | halt
  /-- R284 -/ | wait
  /-- R288 -/ | rti
  /-- R262 -/ | bpt
  /-- R263 -/ | iot
  /-- R286 -/ | reset
  /-- R289 -/ | rtt
  -- program control and JMP, SWAB
  /-- R200; mode 0 is the row JMP_Rn -/ | jmp (dst : Operand)
  /-- R268 -/ | rts (link : Reg)
  /-- R295 -/ | ccop (set n z v c : Bool)
  /-- R204 -/ | swab (dst : Operand)
  -- branches: a signed offset in words (R240)
  /-- R241 -/ | br (offset : BitVec 8)
  /-- R242 -/ | bne (offset : BitVec 8)
  /-- R243 -/ | beq (offset : BitVec 8)
  /-- R244 -/ | bge (offset : BitVec 8)
  /-- R245 -/ | blt (offset : BitVec 8)
  /-- R246 -/ | bgt (offset : BitVec 8)
  /-- R247 -/ | ble (offset : BitVec 8)
  /-- R248 -/ | bpl (offset : BitVec 8)
  /-- R249 -/ | bmi (offset : BitVec 8)
  /-- R250 -/ | bhi (offset : BitVec 8)
  /-- R251 -/ | blos (offset : BitVec 8)
  /-- R252 -/ | bvc (offset : BitVec 8)
  /-- R253 -/ | bvs (offset : BitVec 8)
  /-- R254 -/ | bcc (offset : BitVec 8)
  /-- R254, second name of BCC -/ | bhis (offset : BitVec 8)
  /-- R255 -/ | bcs (offset : BitVec 8)
  /-- R255, second name of BCS -/ | blo (offset : BitVec 8)
  /-- R266; mode 0 is the row JSR_Rn -/ | jsr (link : Reg) (dst : Operand)
  -- single operand, word (41_single_operand)
  /-- R172 -/ | clr (dst : Operand)
  /-- R173 -/ | com (dst : Operand)
  /-- R174 -/ | inc (dst : Operand)
  /-- R175 -/ | dec (dst : Operand)
  /-- R176 -/ | neg (dst : Operand)
  /-- R177 -/ | adc (dst : Operand)
  /-- R178 -/ | sbc (dst : Operand)
  /-- R179 -/ | tst (dst : Operand)
  /-- R181 -/ | ror (dst : Operand)
  /-- R182 -/ | rol (dst : Operand)
  /-- R183 -/ | asr (dst : Operand)
  /-- R184 -/ | asl (dst : Operand)
  -- single operand, byte
  /-- R172 -/ | clrb (dst : Operand)
  /-- R173 -/ | comb (dst : Operand)
  /-- R174 -/ | incb (dst : Operand)
  /-- R175 -/ | decb (dst : Operand)
  /-- R176 -/ | negb (dst : Operand)
  /-- R177 -/ | adcb (dst : Operand)
  /-- R178 -/ | sbcb (dst : Operand)
  /-- R179 -/ | tstb (dst : Operand)
  /-- R181 -/ | rorb (dst : Operand)
  /-- R182 -/ | rolb (dst : Operand)
  /-- R183 -/ | asrb (dst : Operand)
  /-- R184 -/ | aslb (dst : Operand)
  -- double operand (42_double_operand)
  /-- R212 -/ | mov (src dst : Operand)
  /-- R214 -/ | cmp (src dst : Operand)
  /-- R216 -/ | bit (src dst : Operand)
  /-- R218 -/ | bic (src dst : Operand)
  /-- R220 -/ | bis (src dst : Operand)
  /-- R222 -/ | add (src dst : Operand)
  /-- R213 -/ | movb (src dst : Operand)
  /-- R215 -/ | cmpb (src dst : Operand)
  /-- R217 -/ | bitb (src dst : Operand)
  /-- R219 -/ | bicb (src dst : Operand)
  /-- R221 -/ | bisb (src dst : Operand)
  /-- R223 -/ | sub (src dst : Operand)
  -- traps with a byte the processor ignores (R108, R116)
  /-- R264 -/ | emt (code : BitVec 8)
  /-- R265 -/ | trap (code : BitVec 8)
  -- illegal instructions (R119)
  /-- JMP with mode 0 -/ | jmpRn (dst : Reg)
  /-- JSR with mode 0 -/ | jsrRn (link dst : Reg)
  -- reserved codes (R118), one constructor per row of the table, with the bits the row's mask leaves free
  /-- 000007 -/ | reserved000007
  /-- 000010-000017 -/ | reserved000010 (low : BitVec 3)
  /-- 000020-000037 -/ | reserved000020 (low : BitVec 4)
  /-- 000040-000077 -/ | reserved000040 (low : BitVec 5)
  /-- 000210-000217 -/ | reserved000210 (low : BitVec 3)
  /-- 000220-000237 -/ | reserved000220 (low : BitVec 4)
  /-- 006400-006777 -/ | reserved006400 (low : BitVec 8)
  /-- 007000-007777 -/ | reserved007000 (low : BitVec 9)
  /-- 070000-077777 -/ | reserved070000 (low : BitVec 12)
  /-- 106400-106777 -/ | reserved106400 (low : BitVec 8)
  /-- 107000-107777 -/ | reserved107000 (low : BitVec 9)
  /-- 170000-177777 -/ | reserved170000 (low : BitVec 12)
  deriving DecidableEq, Repr

end Sys2Proof
end

