-- ==== Sys2Proof/Machine/State.lean ====
section
/-! DEFINITION. The state of the KD11-D as plain data, the reasons a step can stop, and the state after reset. -/

namespace Sys2Proof.Machine

/-- The general registers, words 0 to 7 of the scratch pad (R20): `r6` is SP (R21), `r7` is PC (R22). -/
structure Regs where
  r0 : Word
  r1 : Word
  r2 : Word
  r3 : Word
  r4 : Word
  r5 : Word
  r6 : Word
  r7 : Word
  deriving DecidableEq, Repr

/-- The scratch-pad words R10 to R17, which no instruction names (R39). -/
structure Scratch where
  /-- Source address storage. -/
  r10 : Word
  /-- Source data storage. -/
  r11 : Word
  /-- Destination address storage. -/
  r12 : Word
  /-- Temporary: the vector during trap entry and power-up. -/
  r13 : Word
  /-- Unused. -/
  r14 : Word
  /-- Unused. -/
  r15 : Word
  /-- Unused. -/
  r16 : Word
  /-- Temporary of SWAB. -/
  r17 : Word
  deriving DecidableEq, Repr

/-- The run state (R42). -/
inductive RunState where
  /-- Held in initialise; the next thing to happen is the restart routine (R381, R382). -/
  | init
  /-- Executing instructions. -/
  | run
  /-- After WAIT, until a service request (R284). -/
  | wait
  /-- The clock is stopped and the console owns the bus (R281, R315, R330). -/
  | halted
  /-- DC LO asserted (R384). -/
  | off
  deriving DecidableEq, Repr

/-- The four bus-request levels (R326). -/
inductive BrLevel where
  | br4 | br5 | br6 | br7
  deriving DecidableEq, Repr

/-- What a device on a bus-request line will do when it is granted the bus. -/
inductive BusRequest where
  /-- It sends INTR with this vector (R327). -/
  | vector (v : Word)
  /-- It takes the grant and never sends INTR (U14). -/
  | silent
  deriving DecidableEq, Repr

/-- The kinds of UNIBUS cycle (R63, R64). -/
inductive CycleKind where
  | dati | datip | dato | datob
  deriving DecidableEq, Repr

/-- One UNIBUS cycle of the processor, as a device on the bus sees it (R4, R63). -/
structure BusCycle where
  kind : CycleKind
  addr : BusAddr
  /-- The data lines; for a DATOB only the byte written, zero-extended. -/
  data : Word
  /-- SSYN came within 22 microseconds (R71). -/
  ssyn : Bool
  deriving DecidableEq, Repr

/-- A write cycle of another bus master: DMA (R332), or the console (R34). -/
inductive MasterCycle where
  | write (a : BusAddr) (v : Word)
  | writeByte (a : BusAddr) (v : Byte)
  deriving DecidableEq, Repr

/-- What the world outside the processor can do to it (R16; 93_implementation_defined part 1a). -/
inductive Input where
  /-- A device asserts BR n, behind the requests already on that line's grant chain (R326, R327). -/
  | request (level : BrLevel) (r : BusRequest)
  /-- Every device drops BR n. -/
  | withdraw (level : BrLevel)
  /-- The HLT RQST line changes (R330). -/
  | haltRequest (on : Bool)
  /-- The console lets a halted processor go on (R282, R331). -/
  | goOn
  /-- AC LO changes (R324, R383). -/
  | acLo (on : Bool)
  /-- DC LO changes (R381, R384). -/
  | dcLo (on : Bool)
  /-- The PUP one-shot ends: the 2 ms after start-up are over (R381). -/
  | pupEnds
  /-- The PDWN one-shot ends (R385). -/
  | pdwnEnds
  /-- Another device pulses BUS INIT (R386). -/
  | busInit
  /-- Another bus master writes now, between two steps. -/
  | master (c : MasterCycle)
  /-- NPR: other masters will take the bus before the processor's coming cycles, one list of writes before each, behind
  those already waiting (R85, R332). -/
  | npr (batches : List (List MasterCycle))
  /-- Memory begins or ceases to answer reads of the word at `a` with PA = 0, PB = 1 (R72). -/
  | parity (a : BusAddr) (bad : Bool)
  deriving DecidableEq, Repr

/-- Memory: the listed bytes by 18-bit bus address, in the canonical form `Memory.wf` of Machine/Ops.lean. -/
abbrev Memory := List Host.Cell

/-- Everything the spec gives the machine (10_state R20 to R45; INVENTORY.md, State). -/
structure State where
  /-- R0 to R7 (R20). -/
  regs : Regs
  /-- The processor status word: priority 7:5, T 4, N 3, Z 2, V 1, C 0 (R27). -/
  psw : BitVec 8
  /-- R10 to R17 (R39). -/
  scratch : Scratch
  /-- The B register (R40). -/
  b : Word
  /-- The instruction register (R40). -/
  ir : Word
  /-- BE, the bus-error flag (R41). -/
  be : Bool
  /-- PE, the parity-error flag; the bus error that is pending is a parity error (R41, R316). -/
  pe : Bool
  /-- STOV, the stack-overflow flag (R41, R320). -/
  stov : Bool
  /-- TBIT_FLAG, the trace flag (R41, R322). -/
  tbitFlag : Bool
  /-- PFAIL, the power-fail flag (R41, R324). -/
  pfail : Bool
  /-- The run state (R42). -/
  run : RunState
  /-- A granted halt request interrupted a WAIT, to which Continue goes back (R285, D16). -/
  waitHeld : Bool
  /-- Memory (R43). -/
  mem : Memory
  /-- The requests on BR4, in grant-chain order (R326). -/
  br4 : List BusRequest
  /-- The requests on BR5. -/
  br5 : List BusRequest
  /-- The requests on BR6. -/
  br6 : List BusRequest
  /-- The requests on BR7. -/
  br7 : List BusRequest
  /-- HLT RQST (R330). -/
  haltRequest : Bool
  /-- AC LO (R324). -/
  acLo : Bool
  /-- The PUP one-shot is running: AC LO is ignored (R324, R381). -/
  pup : Bool
  /-- The PDWN one-shot is running (R324, R385). -/
  pdwn : Bool
  /-- The word addresses whose reads memory answers with PA = 0, PB = 1 (R72). -/
  parityBad : List Nat
  /-- The model's own: how many INIT pulses the processor has put on the UNIBUS (R286, R380). -/
  initPulses : Nat
  /-- The model's own: the events to come, the head list before the next SERVICE (entry 21). -/
  inputs : List (List Input)
  /-- The model's own: the write cycles other masters run before the processor's coming bus cycles, the head list
  before the next one (R75, R85, R332; entry 21). -/
  npr : List (List MasterCycle)
  /-- The model's own: the processor's bus cycles so far, newest first (R4, R76; entry 22). -/
  bus : List BusCycle
  /-- The model's own: how many free values have been drawn (entry 6). -/
  draws : Nat
  /-- The parameters of the system around the processor (R7). -/
  cfg : Config
  deriving DecidableEq, Repr

/-- Why a step stops with a fault. No instruction's meaning stops; only `step` does. -/
inductive Fault where
  /-- `step`, in the run state INIT with AC LO still asserted at the end of the INIT pulse: what the processor does
  is not described (R381, 91_not_in_source N18). Safe. -/
  | acLoAtStart
  /-- `step`, where a device takes a granted interrupt and never sends INTR: the processor waits for ever (R371,
  U14). Safe. -/
  | grantHung
  deriving DecidableEq, Repr

/-- Why a step is refused. -/
inductive Refusal where
  /-- `exec`, for an instruction that has no meaning yet; no arm of this model answers so. Safe. -/
  | notModelled (mnemonic : String)
  deriving DecidableEq, Repr

/-- The machine after the power-up sequence, just before the first instruction is fetched (R44). The spec fixes PC
and PSW (memory words 24 and 26, which the empty memory reads as 0: entries 1, 2), R13 = 26, B = the word from
location 26, IR = 100000 (the last value INIT forces), the flags clear (D12) and the run state. Every other
register is 0: DESIGN CHOICE, unsafe (entry 3). -/
def State.reset : State where
  regs := ⟨0, 0, 0, 0, 0, 0, 0, 0⟩
  psw := 0
  scratch := ⟨0, 0, 0, 0o26, 0, 0, 0, 0⟩
  b := 0
  ir := 0o100000
  be := false
  pe := false
  stov := false
  tbitFlag := false
  pfail := false
  run := .run
  waitHeld := false
  mem := []
  br4 := []
  br5 := []
  br6 := []
  br7 := []
  haltRequest := false
  acLo := false
  pup := true
  pdwn := false
  parityBad := []
  initPulses := 0
  inputs := []
  npr := []
  bus := []
  draws := 0
  cfg := Config.standard

end Sys2Proof.Machine
end

