-- ==== Sys2Proof/Machine/Ops.lean ====
section
/-! DEFINITION. The named operations over registers and memory, taking an exception and returning from one. -/

namespace Sys2Proof.Machine

/-! ### Words and bytes -/

/-- `zext_16` (R10). -/
def zext (b : Byte) : Word := b.setWidth 16

/-- `sext_16` (R10). -/
def sext (b : Byte) : Word := b.signExtend 16

/-- Bits 7:0. -/
def lowByte (w : Word) : Byte := w.extractLsb' 0 8

/-- Bits 15:8. -/
def highByte (w : Word) : Byte := w.extractLsb' 8 8

/-- The word with its bytes exchanged (R39, R204). -/
def swapBytes (w : Word) : Word := lowByte w ++ highByte w

/-- An odd address (R65). -/
def isOdd (a : Word) : Bool := a.getLsbD 0

/-! ### Registers -/

/-- What a register holds (R20: none is hard-wired, none banked). -/
def Regs.get (g : Regs) : Reg → Word
  | .r0 => g.r0 | .r1 => g.r1 | .r2 => g.r2 | .r3 => g.r3
  | .r4 => g.r4 | .r5 => g.r5 | .r6 => g.r6 | .r7 => g.r7

/-- Write one register, all 16 bits. -/
def Regs.set (g : Regs) (r : Reg) (v : Word) : Regs :=
  match r with
  | .r0 => { g with r0 := v } | .r1 => { g with r1 := v } | .r2 => { g with r2 := v } | .r3 => { g with r3 := v }
  | .r4 => { g with r4 := v } | .r5 => { g with r5 := v } | .r6 => { g with r6 := v } | .r7 => { g with r7 := v }

/-- `x[r]` (R11). -/
def State.reg (s : State) (r : Reg) : Word := s.regs.get r

/-- `x[r] <- v` (R11). -/
def State.setReg (s : State) (r : Reg) (v : Word) : State := { s with regs := s.regs.set r v }

/-- `pc`, R7 (R22). -/
def State.pc (s : State) : Word := s.reg .r7

/-- `pc <- v` (R11). -/
def State.setPc (s : State) (v : Word) : State := s.setReg .r7 v

/-- `sp`, R6 (R21). -/
def State.sp (s : State) : Word := s.reg .r6

/-- `sp <- v` (R11). -/
def State.setSp (s : State) (v : Word) : State := s.setReg .r6 v

/-- Write bits 7:0 of a register and keep bits 15:8 (R23, R155, D23). -/
def State.setRegLow (s : State) (r : Reg) (v : Byte) : State := s.setReg r (highByte (s.reg r) ++ v)

/-- Write R10, the source address storage (R39). -/
def State.setR10 (s : State) (v : Word) : State := { s with scratch := { s.scratch with r10 := v } }

/-- Write R11, the source data storage (R39, R146). -/
def State.setR11 (s : State) (v : Word) : State := { s with scratch := { s.scratch with r11 := v } }

/-- Write R12, the destination address storage (R39, R148). -/
def State.setR12 (s : State) (v : Word) : State := { s with scratch := { s.scratch with r12 := v } }

/-- Write R13, the temporary of trap entry and power-up (R39, R340). -/
def State.setR13 (s : State) (v : Word) : State := { s with scratch := { s.scratch with r13 := v } }

/-- Write R17, the temporary of SWAB and of odd bytes (R39, R204, R424). -/
def State.setR17 (s : State) (v : Word) : State := { s with scratch := { s.scratch with r17 := v } }

/-- Load the B register (R40). -/
def State.setB (s : State) (v : Word) : State := { s with b := v }

/-! ### The processor status word -/

/-- The C bit (R27). -/
def State.flagC (s : State) : Bool := s.psw.getLsbD 0

/-- The V bit (R27). -/
def State.flagV (s : State) : Bool := s.psw.getLsbD 1

/-- The Z bit (R27). -/
def State.flagZ (s : State) : Bool := s.psw.getLsbD 2

/-- The N bit (R27). -/
def State.flagN (s : State) : Bool := s.psw.getLsbD 3

/-- The T bit (R27, R35). -/
def State.flagT (s : State) : Bool := s.psw.getLsbD 4

/-- The processor priority, bits 7:5 (R27, R36). -/
def State.priority (s : State) : Nat := (s.psw.extractLsb' 5 3).toNat

/-- Load all eight bits (R28 b, c, d; R342, D22): bits 15:8 of the word are ignored. -/
def State.loadPsw (s : State) (w : Word) : State := { s with psw := lowByte w }

/-- A write to 777776 (R30, R31): bits 7:4 are loaded; N, Z, V, C become a free value (D6, entry 6). -/
def State.writePsw (s : State) (v : Byte) : State :=
  { s with psw := v.extractLsb' 4 4 ++ Config.freeCC s.draws, draws := s.draws + 1 }

/-! ### Bytes of memory -/

/-- What a byte of memory that is not listed reads as: 0. DESIGN CHOICE, unsafe (entry 1). -/
def Memory.unlisted : Byte := 0

/-- The byte at a bus address. -/
def Memory.read : Memory → Nat → Byte
  | [], _ => Memory.unlisted
  | (k, v) :: rest, a => if k = a then v else Memory.read rest a

/-- Write one byte and keep the canonical form: writing the value of an unlisted byte removes the entry. -/
def Memory.write : Memory → Nat → Byte → Memory
  | [], a, v => if v = Memory.unlisted then [] else [(a, v)]
  | (k, x) :: rest, a, v =>
    if k < a then (k, x) :: Memory.write rest a v
    else if k = a then (if v = Memory.unlisted then rest else (a, v) :: rest)
    else if v = Memory.unlisted then (k, x) :: rest else (a, v) :: (k, x) :: rest

/-- Addresses at least `lo`, strictly rising, below 2^18, and no entry equal to what an unlisted byte reads as. -/
def Memory.wfFrom : Nat → Memory → Bool
  | _, [] => true
  | lo, (k, v) :: rest => decide (lo ≤ k) && decide (k < 2 ^ 18) && v != Memory.unlisted && Memory.wfFrom (k + 1) rest

/-- The canonical form of memory. -/
def Memory.wf (m : Memory) : Bool := Memory.wfFrom 0 m

/-- The word at an even bus address: low byte at the address, high byte above it (R60, R61). -/
def Memory.readWord (m : Memory) (a : Nat) : Word := Memory.read m (a + 1) ++ Memory.read m a

/-- Write a word at an even bus address (R60, R61). -/
def Memory.writeWord (m : Memory) (a : Nat) (v : Word) : Memory :=
  Memory.write (Memory.write m a (lowByte v)) (a + 1) (highByte v)

/-! ### The address space -/

/-- A17 and A16 of the word at a program address, by the first window of ADDR18 that holds it (R62). -/
def highBits : List HighWindow → Nat → BitVec 2
  | [], _ => 0
  | w :: rest, a => if w.base ≤ a ∧ a < w.base + w.size then w.high else highBits rest a

/-- `ADDR18(a)` (R62, R434): A15 to A00 are the program address; A17 and A16 are the parameter's, the same for both
bytes of a word (entry 5). -/
def addr18 (c : Config) (a : Word) : BusAddr := highBits c.addr18 (a.toNat / 2 * 2) ++ a

/-- The bus address of the word that holds a byte: slaves ignore A00 on a read (R67, G7). -/
def wordBase (a : BusAddr) : Nat := a.toNat / 2 * 2

/-- The first window of MEM_MAP that holds an address (R7, R80, R317). -/
def slaveIn : List Region → Nat → Option SlaveKind
  | [], _ => none
  | g :: rest, a => if g.base ≤ a ∧ a < g.base + g.size then some g.kind else slaveIn rest a

/-- What answers at a bus address while the processor runs. -/
inductive Target where
  /-- The PSW's own address, odd byte included (R29, R30). -/
  | psw
  /-- 777700 to 777717: answered, read as 0, writes discarded (R33). -/
  | registers
  /-- Memory or a device. -/
  | slave (k : SlaveKind)
  /-- Nothing: no SSYN within 22 microseconds (R71, R317). -/
  | absent
  deriving DecidableEq, Repr

/-- What answers at the word with bus address `a` (R66, R80). -/
def target (c : Config) (a : Nat) : Target :=
  if a = 0o777776 then .psw
  else if 0o777700 ≤ a ∧ a ≤ 0o777716 then .registers
  else match slaveIn c.memMap a with
    | some k => .slave k
    | none => .absent

/-! ### Bus cycles -/

/-- How a bus cycle of the processor fails (R312, R316). -/
inductive BusFault where
  /-- No SSYN, or an odd word address (R65, R71). -/
  | busError
  /-- A read answered with PA = 0, PB = 1 (R72). -/
  | parityError
  deriving DecidableEq, Repr

/-- The result of a sequence of microsteps: a value and the state, or the failed bus cycle and the state it left
(R312, R314: everything before the failing cycle stays, nothing after it happens). -/
inductive Res (α : Type) where
  | ok (a : α) (s : State)
  | err (e : BusFault) (s : State)
  deriving Repr

/-- Go on where the microsteps so far succeeded; a failed cycle abandons the rest (R12, R312). -/
def Res.andThen {α β : Type} (r : Res α) (f : α → State → Res β) : Res β :=
  match r with
  | .ok a s => f a s
  | .err e s => .err e s

/-- The next free word and the state that has drawn it (entry 6). -/
def State.drawn (s : State) : State := { s with draws := s.draws + 1 }

/-- The free word the state would draw next. -/
def State.freeWord (s : State) : Word := Config.freeWord s.draws

/-- What answers a program address. -/
def State.targetOf (s : State) (a : Word) : Target := target s.cfg (wordBase (addr18 s.cfg a))

/-- Memory answers the read of this word with a parity error, and the processor looks (R66, R72). -/
def State.parityFails (s : State) (a : Nat) : Bool := s.cfg.parityEnabled && s.parityBad.contains a

/-- A word written by another bus master while the processor owns its registers: memory, or the PSW at 777776; the
register window and odd word addresses take nothing (R33, R332; entry 27). -/
def State.dmaWrite (s : State) (a : BusAddr) (v : Word) : State :=
  if 0o777700 ≤ a.toNat ∧ a.toNat ≤ 0o777717 then s
  else if a.getLsbD 0 then s
  else if a.toNat = 0o777776 then s.writePsw (lowByte v)
  else match slaveIn s.cfg.memMap a.toNat with
    | some .memory => { s with mem := s.mem.writeWord a.toNat v }
    | some .readOnly => s
    | some .slow => { s.drawn with mem := s.mem.writeWord a.toNat s.freeWord }
    | some .device => s
    | none => s

/-- A byte written by another bus master; the odd byte of the PSW keeps nothing (R30; entry 27). -/
def State.dmaWriteByte (s : State) (a : BusAddr) (v : Byte) : State :=
  if 0o777700 ≤ a.toNat ∧ a.toNat ≤ 0o777717 then s
  else if a.toNat = 0o777776 then s.writePsw v
  else if a.toNat = 0o777777 then s
  else match slaveIn s.cfg.memMap (wordBase a) with
    | some .memory => { s with mem := s.mem.write a.toNat v }
    | some .readOnly => s
    | some .slow => { s.drawn with mem := s.mem.write a.toNat (lowByte s.freeWord) }
    | some .device => s
    | none => s

/-- One write cycle of another bus master. -/
def State.dma (s : State) : MasterCycle → State
  | .write a v => s.dmaWrite a v
  | .writeByte a v => s.dmaWriteByte a v

/-- The bus is free for the processor's next cycle: the cycles of the other masters that come before it are over
(R85, R332, R451). -/
def State.granted (s : State) : State :=
  match s.npr with
  | [] => s
  | now :: later => now.foldl State.dma { s with npr := later }

/-- A bus cycle of the processor has been on the bus. -/
def State.logged (s : State) (k : CycleKind) (a v : Word) (ssyn : Bool) : State :=
  { s with bus := ⟨k, addr18 s.cfg a, v, ssyn⟩ :: s.bus }

/-- What the strobe that ends a read cycle clocks in (R451): the PSW at its own address (R32), 0 in the register window
(R33), the word of memory. What a device answers, and what the lines carry where nothing answers, is a free value
(R71, R76, U17; entries 22, 32). -/
def State.lines (s : State) (a : Word) : Word :=
  match s.targetOf a with
  | .psw => zext s.psw
  | .registers => 0
  | .slave .memory => s.mem.readWord (wordBase (addr18 s.cfg a))
  | .slave .readOnly => s.mem.readWord (wordBase (addr18 s.cfg a))
  | .slave .slow => s.mem.readWord (wordBase (addr18 s.cfg a))
  | .slave .device => s.freeWord
  | .absent => s.freeWord

/-- How a read cycle fails: nothing answers, or a parity error (R66, R71, R72). -/
def State.readError (s : State) (a : Word) : Option BusFault :=
  match s.targetOf a with
  | .psw => none
  | .registers => none
  | .slave .memory => if s.parityFails (wordBase (addr18 s.cfg a)) then some .parityError else none
  | .slave .readOnly => if s.parityFails (wordBase (addr18 s.cfg a)) then some .parityError else none
  | .slave .slow => if s.parityFails (wordBase (addr18 s.cfg a)) then some .parityError else none
  | .slave .device => none
  | .absent => some .busError

/-- The strobe of a read cycle: B takes the lines, with or without an error (R451). -/
def State.strobed (s : State) (k : CycleKind) (a : Word) : State :=
  { s.logged k a (s.lines a) (s.targetOf a != .absent) with
    b := s.lines a
    draws := match s.targetOf a with
      | .psw => s.draws
      | .registers => s.draws
      | .slave .memory => s.draws
      | .slave .readOnly => s.draws
      | .slave .slow => s.draws
      | .slave .device => s.draws + 1
      | .absent => s.draws + 1 }

/-- The read cycle of the word that holds a program address, the bus being free (R66, R67, R451). -/
def busRead (k : CycleKind) (a : Word) (s : State) : Res Word :=
  match s.readError a with
  | some e => .err e (s.strobed k a)
  | none => .ok (s.lines a) (s.strobed k a)

/-- A read of an operand or of a word of the instruction (R66, R67). At an odd word address nothing is on the bus and
the strobe clocks in a free value (R65, R451; entry 32). A byte comes back zero-extended; the odd-byte microroutines
exchange the bytes of the B register first, through R17 (R67, R424; entry 24). -/
def readAs (k : CycleKind) (sz : Size) (a : Word) (s : State) : Res Word :=
  match sz with
  | .word => if isOdd a then .err .busError (s.granted.drawn.setB s.granted.freeWord) else busRead k a s.granted
  | .byte => (busRead k a s.granted).andThen fun w s =>
      if isOdd a then .ok (zext (highByte w)) ((s.setR17 (swapBytes w)).setB (swapBytes w))
      else .ok (zext (lowByte w)) s

/-- `MemRead(addr, n)`: a DATI (R64, R66, R67). -/
def memRead (sz : Size) (a : Word) (s : State) : Res Word := readAs .dati sz a s

/-- `MemReadModify(addr, n)`: a DATIP; the write of the same instruction follows, and no other master has the bus in
between (R70, R75). -/
def memReadModify (sz : Size) (a : Word) (s : State) : Res Word := readAs .datip sz a s

/-- The DATO cycle of `MemWrite(addr, 2, v)`, the bus being the processor's (R65, R68). A write that times out stores
nothing (R312), but at a slow slave, whose location is unspecified afterwards: a free value (R71; entry 32). -/
def memWriteWord (a v : Word) (s : State) : Res Unit :=
  if isOdd a then .err .busError s
  else match s.targetOf a with
    | .psw => .ok () ((s.logged .dato a v true).writePsw (lowByte v))
    | .registers => .ok () (s.logged .dato a v true)
    | .slave .memory =>
      .ok () { s.logged .dato a v true with mem := s.mem.writeWord (wordBase (addr18 s.cfg a)) v }
    | .slave .readOnly => .err .busError (s.logged .dato a v false)
    | .slave .slow =>
      .err .busError { (s.logged .dato a v false).drawn with
        mem := s.mem.writeWord (wordBase (addr18 s.cfg a)) s.freeWord }
    | .slave .device => .ok () (s.logged .dato a v true)
    | .absent => .err .busError (s.logged .dato a v false)

/-- The DATOB cycle of `MemWrite(addr, 1, v)` (R69): only the addressed byte changes. The odd byte of the PSW takes a
write and keeps nothing (R30). -/
def memWriteByte (a : Word) (v : Byte) (s : State) : Res Unit :=
  match s.targetOf a with
  | .psw =>
    if isOdd a then .ok () (s.logged .datob a (zext v) true)
    else .ok () ((s.logged .datob a (zext v) true).writePsw v)
  | .registers => .ok () (s.logged .datob a (zext v) true)
  | .slave .memory => .ok () { s.logged .datob a (zext v) true with mem := s.mem.write (addr18 s.cfg a).toNat v }
  | .slave .readOnly => .err .busError (s.logged .datob a (zext v) false)
  | .slave .slow =>
    .err .busError { (s.logged .datob a (zext v) false).drawn with
      mem := s.mem.write (addr18 s.cfg a).toNat (lowByte s.freeWord) }
  | .slave .device => .ok () (s.logged .datob a (zext v) true)
  | .absent => .err .busError (s.logged .datob a (zext v) false)

/-- `MemWrite(addr, n, v)`; a byte is `v[7:0]` (R68, R69). -/
def memWrite (sz : Size) (a v : Word) (s : State) : Res Unit :=
  match sz with
  | .word => memWriteWord a v s
  | .byte => memWriteByte a (lowByte v) s

/-! ### The stack -/

/-- `StackCheck()`: a checked decrement has left R6 below 400 (R154, R320, D11). -/
def State.stackCheck (s : State) : State := if highByte s.sp = 0 then { s with stov := true } else s

/-- The first half of a checked push (R21, R266, R340): R6 is decremented and stays so; then the bus is taken. -/
def State.pushReady (s : State) : State := (s.setSp (s.sp - 2)).stackCheck.granted

/-- A checked push (R21, R266, R340). -/
def push (v : Word) (s : State) : Res Unit := memWriteWord s.pushReady.sp v s.pushReady

/-- The checked push of the PSW, which drives the data lines itself (R340: `UNIBUS DATA_PSW`). -/
def pushPsw (s : State) : Res Unit := push (zext s.pushReady.psw) s

/-- A pop (R21): R6 is increased only after the read has succeeded. -/
def pop (s : State) : Res Word :=
  (memRead .word s.sp s).andThen fun v s => .ok v (s.setSp (s.sp + 2))

/-! ### Taking an exception -/

/-- The vector SERVICE takes for a failed bus cycle (R312, R316, R347). -/
def BusFault.vector : BusFault → Word
  | .busError => 0o4
  | .parityError => 0o114

/-- A bus cycle of a trap or restart sequence other than TRAP-3 has failed: the sequence is abandoned where it is
and BE, with PE for parity, waits for SERVICE (R345, D17; entry 17). -/
def State.pendBusError (s : State) (e : BusFault) : State := { s with be := true, pe := e == .parityError }

/-- A failed bus cycle at TRAP-3: the IR is cleared, which is HALT, and the processor halts (R315). B keeps the vector:
what the SERV of the forced SERVICE (`B_UNIBUS DATA`, R460) reads before the halt is not stated (UNVERIFIED, unsafe:
entry 24). -/
def State.doubleBusError (s : State) : State := { s with ir := 0, run := .halted }

/-- TRAP-8 to TRAP-12: load PC from the vector and the PSW from the word after it (R340, R382). -/
def loadVector (v : Word) (s : State) : State :=
  match memRead .word v s with
  | .err e s => s.pendBusError e
  | .ok t s =>
    match memRead .word (v + 2) ((s.setR13 (v + 2)).setPc t) with
    | .err e s => s.pendBusError e
    | .ok u s => s.loadPsw u

/-- TAKING AN EXCEPTION: the trap sequence `Trap(v)` of every trap and interrupt (R340, R461): SERV has loaded the
vector into B; TRAP-1 to TRAP-12 save it in R13, push the PSW, push PC and load both from the vector. -/
def trapSequence (v : Word) (s : State) : State :=
  match pushPsw ((s.setB v).setR13 v) with
  | .err _ s => s.doubleBusError
  | .ok _ s =>
    match push s.pc (s.setB s.pc) with
    | .err e s => s.pendBusError e
    | .ok _ s => loadVector v s

/-- RETURNING FROM ONE: pop PC, then the PSW, all eight bits (R288, R289, D13). -/
def returnFromTrap (s : State) : Res Unit :=
  (pop s).andThen fun t s => (pop (s.setPc t)).andThen fun u s => .ok () (s.loadPsw u)

/-! ### The end of an instruction -/

/-- The completion of an instruction: with the T bit set, the trace flag is set (R310, R322, D10). -/
def State.complete (s : State) : State := if s.flagT then { s with tbitFlag := true } else s

/-- A bus cycle of the instruction has failed: it did not complete, and SERVICE takes the error before anything else
(R312, R314, R323 f, R325 order 2). -/
def State.takeBusError (s : State) (e : BusFault) : State := trapSequence e.vector s

/-- An instruction trap (R260, R318): the instruction completes with no other effect, the IR is overwritten with
100000 and SERVICE runs the trap sequence before looking at the trace flag (R323 e, R325 order 3). -/
def instructionTrap (v : Word) (s : State) : State := trapSequence v { s.complete with ir := 0o100000 }

/-- How an instruction ends: completed, or aborted by a failed bus cycle whose trap is taken (R310, R312). -/
def finish (r : Res Unit) : Host.Outcome State Fault Refusal :=
  match r with
  | .ok _ s => .next s.complete
  | .err e s => .next (s.takeBusError e)

end Sys2Proof.Machine
end

