-- ==== Sys2Proof/Machine/Flags.lean ====
section
/-! DEFINITION. Every result and condition-code computation of the spec, over W-bit values (41_single_operand R170:
W = 16 for a word instruction, 8 for a byte instruction), and the branch conditions. -/

namespace Sys2Proof.Machine

/-- The four condition codes (R27). -/
structure CC where
  n : Bool
  z : Bool
  v : Bool
  c : Bool
  deriving DecidableEq, Repr

/-- N, Z, V, C as PSW bits 3:0 (R27). -/
def CC.bits (f : CC) : BitVec 4 := BitVec.ofBool f.n ++ BitVec.ofBool f.z ++ BitVec.ofBool f.v ++ BitVec.ofBool f.c

/-- The condition codes of the PSW (R27). -/
def State.cc (s : State) : CC := ⟨s.flagN, s.flagZ, s.flagV, s.flagC⟩

/-- LOAD CC: load N, Z, V, C and keep bits 7:4 (R28 a, R35). -/
def State.setCC (s : State) (f : CC) : State := { s with psw := s.psw.extractLsb' 4 4 ++ f.bits }

/-- A W-bit result with the condition codes that go with it. -/
structure AluOut (w : Nat) where
  r : BitVec w
  cc : CC
  deriving DecidableEq, Repr

/-- The ALU microstep: the result is in B and the condition codes are loaded, before any write-back (R171, R210, R441,
R442). Bits 15:8 of B after a byte result are 0: the spec does not say what they are (R432). UNVERIFIED, unsafe
(entry 24). -/
def State.loadAlu (s : State) {w : Nat} (o : AluOut w) : State := (s.setCC o.cc).setB (o.r.setWidth 16)

/-- N and Z of a result, as every instruction takes them but SWAB and the branches (R170), with V and C as given. -/
def codes {w : Nat} (r : BitVec w) (v c : Bool) : AluOut w := ⟨r, ⟨r.msb, r == 0, v, c⟩⟩

/-! ### Single operand; the first argument is the condition codes before -/

/-- CLR (R172). -/
def aluClr {w : Nat} (_ : CC) (_ : BitVec w) : AluOut w := ⟨0, ⟨false, true, false, false⟩⟩

/-- COM (R173). -/
def aluCom {w : Nat} (_ : CC) (d : BitVec w) : AluOut w := codes (d ^^^ BitVec.allOnes w) false true

/-- INC (R174). -/
def aluInc {w : Nat} (f : CC) (d : BitVec w) : AluOut w := codes (d + 1) (d == BitVec.intMax w) f.c

/-- DEC (R175). -/
def aluDec {w : Nat} (f : CC) (d : BitVec w) : AluOut w := codes (d - 1) (d == BitVec.intMin w) f.c

/-- NEG (R176). -/
def aluNeg {w : Nat} (_ : CC) (d : BitVec w) : AluOut w := codes (0 - d) (0 - d == BitVec.intMin w) (0 - d != 0)

/-- The C bit as a number. -/
def carryIn (w : Nat) (c : Bool) : BitVec w := if c then 1 else 0

/-- ADC (R177). -/
def aluAdc {w : Nat} (f : CC) (d : BitVec w) : AluOut w :=
  codes (d + carryIn w f.c) (d == BitVec.intMax w && f.c) (d == BitVec.allOnes w && f.c)

/-- SBC (R178): by decision D8, or by the literal text of the table where SBC_LITERAL is set (U8; entry 8). -/
def aluSbc {w : Nat} (literal : Bool) (f : CC) (d : BitVec w) : AluOut w :=
  if literal then codes (d - carryIn w f.c) (d == BitVec.intMin w) (!(d == 0 && f.c))
  else codes (d - carryIn w f.c) (d == BitVec.intMin w && f.c) (d == 0 && f.c)

/-- TST (R179). -/
def aluTst {w : Nat} (_ : CC) (d : BitVec w) : AluOut w := codes d false false

/-- N, Z, V, C of the rotates and shifts: V is the new N exclusive-or the new C (R180). -/
def shiftCodes {w : Nat} (r : BitVec w) (c : Bool) : AluOut w := codes r (r.msb ^^ c) c

/-- ROR (R181). -/
def aluRor {w : Nat} (f : CC) (d : BitVec w) : AluOut w :=
  shiftCodes ((d >>> 1) ||| (if f.c then BitVec.intMin w else 0)) (d.getLsbD 0)

/-- ROL (R182). -/
def aluRol {w : Nat} (f : CC) (d : BitVec w) : AluOut w := shiftCodes ((d <<< 1) ||| carryIn w f.c) d.msb

/-- ASR (R183). -/
def aluAsr {w : Nat} (_ : CC) (d : BitVec w) : AluOut w :=
  shiftCodes ((d >>> 1) ||| (d &&& BitVec.intMin w)) (d.getLsbD 0)

/-- ASL (R184). -/
def aluAsl {w : Nat} (_ : CC) (d : BitVec w) : AluOut w := shiftCodes (d <<< 1) d.msb

/-- SWAB: N and Z look at the low byte of the result (R204). -/
def aluSwab (_ : CC) (d : Word) : AluOut 16 :=
  ⟨swapBytes d, ⟨(lowByte (swapBytes d)).msb, lowByte (swapBytes d) == 0, false, false⟩⟩

/-! ### Double operand; condition codes before, source, destination -/

/-- MOV (R212, R213): the source's own N and Z, V cleared, C kept. -/
def aluMov {w : Nat} (f : CC) (s : BitVec w) : AluOut w := codes s false f.c

/-- CMP: source minus destination; C is the borrow (R214, R215). -/
def aluCmp {w : Nat} (_ : CC) (s d : BitVec w) : AluOut w :=
  codes (s - d) (s.msb != d.msb && d.msb == (s - d).msb) (decide (s.toNat < d.toNat))

/-- BIT (R216, R217). -/
def aluBit {w : Nat} (f : CC) (s d : BitVec w) : AluOut w := codes (s &&& d) false f.c

/-- BIC (R218, R219). -/
def aluBic {w : Nat} (f : CC) (s d : BitVec w) : AluOut w := codes ((s ^^^ BitVec.allOnes w) &&& d) false f.c

/-- BIS (R220, R221). -/
def aluBis {w : Nat} (f : CC) (s d : BitVec w) : AluOut w := codes (s ||| d) false f.c

/-- ADD: C is the carry out of the top bit (R222). -/
def aluAdd {w : Nat} (_ : CC) (s d : BitVec w) : AluOut w :=
  codes (s + d) (s.msb == d.msb && (s + d).msb != s.msb) (decide (2 ^ w ≤ s.toNat + d.toNat))

/-- SUB: destination minus source; C is the borrow (R223). -/
def aluSub {w : Nat} (_ : CC) (s d : BitVec w) : AluOut w :=
  codes (d - s) (s.msb != d.msb && s.msb == (d - s).msb) (decide (d.toNat < s.toNat))

/-- The condition-code operators: set or clear the selected codes, keep the others (R295). -/
def ccOperate (set : Bool) (m f : CC) : CC :=
  if set then ⟨f.n || m.n, f.z || m.z, f.v || m.v, f.c || m.c⟩
  else ⟨f.n && !m.n, f.z && !m.z, f.v && !m.v, f.c && !m.c⟩

/-! ### Branch conditions (R241 to R255) -/

/-- R244: (N XOR V) = 0. -/
def CC.ge (f : CC) : Bool := !(f.n ^^ f.v)

/-- R245: (N XOR V) = 1. -/
def CC.lt (f : CC) : Bool := f.n ^^ f.v

/-- R246: (Z OR (N XOR V)) = 0. -/
def CC.gt (f : CC) : Bool := !(f.z || (f.n ^^ f.v))

/-- R247: (Z OR (N XOR V)) = 1. -/
def CC.le (f : CC) : Bool := f.z || (f.n ^^ f.v)

/-- R250: (C OR Z) = 0. -/
def CC.hi (f : CC) : Bool := !(f.c || f.z)

/-- R251: (C OR Z) = 1. -/
def CC.los (f : CC) : Bool := f.c || f.z

end Sys2Proof.Machine
end

