-- ==== Sys2Proof/Machine/Operands.lean ====
section
/-! DEFINITION. Addressing modes and operand access (spec 40_addressing_modes R140 to R155). -/

namespace Sys2Proof.Machine

/-- Where an operand is. -/
inductive Loc where
  | reg (r : Reg)
  | mem (a : Word)
  deriving DecidableEq, Repr

/-- `STEP(r, size)`: 1 for a byte instruction and R0 to R5, else 2 (R24, R141). -/
def stepSize (sz : Size) (r : Reg) : Word :=
  match sz, r with
  | .word, _ => 2
  | .byte, .r6 => 2
  | .byte, .r7 => 2
  | .byte, _ => 1

/-- The decrement of modes 4 and 5, checked where the register is R6 (R144, R154, R321). -/
def autoDecrement (r : Reg) (n : Word) (s : State) : State :=
  if r = .r6 then (s.setReg r (s.reg r - n)).stackCheck else s.setReg r (s.reg r - n)

/-- Which scratch-pad word holds an operand's address: R10 for a source, R12 for a destination (R39). -/
inductive Side where
  | source
  | destination
  deriving DecidableEq, Repr

/-- An address is put into the scratch-pad word that will drive the bus (R39, R148, R434). -/
def State.noteAddress (s : State) (side : Side) (a : Word) : State :=
  match side with
  | .source => s.setR10 a
  | .destination => s.setR12 a

/-- The first part of modes 6 and 7: the index word is read, PC stepped, and B holds X + Rn (R143, R144: NDM6-1 to
NDM6-3). -/
def indexed (o : Operand) (s : State) : Res Word :=
  (memRead .word s.pc s).andThen fun x s =>
    .ok (x + (s.setPc (s.pc + 2)).reg o.reg) ((s.setPc (s.pc + 2)).setB (x + (s.setPc (s.pc + 2)).reg o.reg))

/-- The operand's place: the register itself in mode 0, else `EA(mode, r, size)` with the register and PC updates of
the mode, in the order of R144. The pointer of mode 7 is read at an address no register holds, so that it is in R10 or
R12 first (R434; entry 24). -/
def locate (side : Side) (sz : Size) (o : Operand) (s : State) : Res Loc :=
  match o.mode with
  | .register => .ok (.reg o.reg) s
  | .deferred => .ok (.mem (s.reg o.reg)) s
  | .autoInc => .ok (.mem (s.reg o.reg)) s
  | .autoIncDef =>
    (memRead .word (s.reg o.reg) s).andThen fun a s => .ok (.mem a) (s.setReg o.reg (s.reg o.reg + 2))
  | .autoDec => .ok (.mem (s.reg o.reg - stepSize sz o.reg)) (autoDecrement o.reg (stepSize sz o.reg) s)
  | .autoDecDef =>
    (memRead .word (s.reg o.reg - 2) (autoDecrement o.reg 2 s)).andThen fun a s => .ok (.mem a) s
  | .index => (indexed o s).andThen fun a s => .ok (.mem a) s
  | .indexDef => (indexed o s).andThen fun p s =>
      (memRead .word p (s.noteAddress side p)).andThen fun a s => .ok (.mem a) s

/-- `PostInc(mode, r, size)`: the step of mode 2, after the first cycle at its address has succeeded (R145). -/
def postInc (sz : Size) (o : Operand) (s : State) : State :=
  if o.mode = .autoInc then s.setReg o.reg (s.reg o.reg + stepSize sz o.reg) else s

/-- The operand at a place: all 16 bits of a register, or one read cycle, of which a byte is zero-extended (R146,
R147, R148). A byte instruction uses bits 7:0. -/
def readLoc (k : CycleKind) (sz : Size) (l : Loc) (s : State) : Res Word :=
  match l with
  | .mem a => readAs k sz a s
  | .reg r => .ok (s.reg r) s

/-- R10 takes the address of a source operand in memory, but for modes 1 and 2, which drive the bus from the register
itself (R39, R434, SM2-1 of R460). UNVERIFIED, unsafe (entry 24). -/
def noteSource (o : Operand) (l : Loc) (s : State) : State :=
  match l with
  | .reg _ => s
  | .mem a => if o.mode = .deferred ∨ o.mode = .autoInc then s else s.noteAddress .source a

/-- R12 takes the address of a destination operand in memory (R39, R148), and the destination address of JMP and JSR,
which R266 puts into "an internal processor register" it does not name. It takes it before the operand's cycle, which
may fail, in every mode; but in modes 1, 2 and 4 the register itself drives the bus (R64, R434), and when R12 is loaded
there is not stated. UNVERIFIED, unsafe (entry 24). -/
def noteDestination (l : Loc) (s : State) : State :=
  match l with
  | .reg _ => s
  | .mem a => s.noteAddress .destination a

/-- `SrcRead(size)`: the source operand, copied into R11 (R146, R152). A byte operand from memory stands zero-extended
there. UNVERIFIED, unsafe (entry 24). -/
def srcRead (sz : Size) (o : Operand) (s : State) : Res Word :=
  (locate .source sz o s).andThen fun l s => (readLoc .dati sz l (noteSource o l s)).andThen fun v s =>
    .ok v ((postInc sz o s).setR11 v)

/-- `DstRead(size)`: the destination of CMP, BIT and TST (R147). R12 takes its address before the cycle (entry 24). -/
def dstRead (sz : Size) (o : Operand) (s : State) : Res Word :=
  (locate .destination sz o s).andThen fun l s => (readLoc .dati sz l (noteDestination l s)).andThen fun v s =>
    .ok v (postInc sz o s)

/-- The old value of a destination that will be written, and where it is. -/
structure Dest where
  loc : Loc
  val : Word
  deriving DecidableEq, Repr

/-- `DstModifyRead(size)`: the read half of a modifying destination is a DATIP (R70, R148). R12 is loaded before that
cycle, so also where it fails (UNVERIFIED, unsafe: entry 24). -/
def dstModifyRead (sz : Size) (o : Operand) (s : State) : Res Dest :=
  (locate .destination sz o s).andThen fun l s => (readLoc .datip sz l (noteDestination l s)).andThen fun v s =>
    .ok ⟨l, v⟩ (postInc sz o s)

/-- A byte result that goes to an odd address has its bytes exchanged through R17 first (R424). UNVERIFIED, unsafe
(entry 24). -/
def exchangeOdd (a v : Word) (s : State) : State := if isOdd a then s.setR17 (swapBytes v) else s

/-- `DstWrite(size, v)` (R149): a byte result replaces bits 7:0 of a register (R155). -/
def dstWrite (sz : Size) (l : Loc) (v : Word) (s : State) : Res Unit :=
  match l, sz with
  | .mem a, .word => memWrite .word a v s
  | .mem a, .byte => memWrite .byte a v (exchangeOdd a v s)
  | .reg r, .word => .ok () (s.setReg r v)
  | .reg r, .byte => .ok () (s.setRegLow r (lowByte v))

/-- `DstWriteOnly(size, v)` of MOV and MOVB: the destination is read, the value discarded, the source put into B (R441:
`B_A`), and written (R150, D9). -/
def dstWriteOnly (sz : Size) (o : Operand) (v : Word) (s : State) : Res Unit :=
  (dstModifyRead sz o s).andThen fun d s => dstWrite sz d.loc v (s.setB v)

/-- `DstAddress()` of JMP and JSR: the address, no cycle at it, and the mode 2 step after it was taken (R151). Mode 0
gives the register place, which JMP and JSR treat as the illegal instruction (R119). -/
def dstAddress (o : Operand) (s : State) : Res Loc :=
  (locate .destination .word o s).andThen fun l s => .ok l (postInc .word o (noteDestination l s))

/-! ### Execution templates -/

/-- A modifying single-operand instruction on words (R171). -/
def modifyWord (op : CC → Word → AluOut 16) (dst : Operand) (s : State) : Res Unit :=
  (dstModifyRead .word dst s).andThen fun d s => dstWrite .word d.loc (op s.cc d.val).r (s.loadAlu (op s.cc d.val))

/-- A modifying single-operand instruction on bytes (R171). -/
def modifyByte (op : CC → Byte → AluOut 8) (dst : Operand) (s : State) : Res Unit :=
  (dstModifyRead .byte dst s).andThen fun d s =>
    dstWrite .byte d.loc (zext (op s.cc (lowByte d.val)).r) (s.loadAlu (op s.cc (lowByte d.val)))

/-- A single-operand instruction that only reads, on words (R179). -/
def testWord (op : CC → Word → AluOut 16) (dst : Operand) (s : State) : Res Unit :=
  (dstRead .word dst s).andThen fun d s => .ok () (s.loadAlu (op s.cc d))

/-- A single-operand instruction that only reads, on bytes (R179). -/
def testByte (op : CC → Byte → AluOut 8) (dst : Operand) (s : State) : Res Unit :=
  (dstRead .byte dst s).andThen fun d s => .ok () (s.loadAlu (op s.cc (lowByte d)))

/-- A modifying double-operand instruction on words (R210): all source steps, then all destination steps (R152). -/
def combineWord (op : CC → Word → Word → AluOut 16) (src dst : Operand) (s : State) : Res Unit :=
  (srcRead .word src s).andThen fun v s => modifyWord (fun f d => op f v d) dst s

/-- A modifying double-operand instruction on bytes (R210, R211). -/
def combineByte (op : CC → Byte → Byte → AluOut 8) (src dst : Operand) (s : State) : Res Unit :=
  (srcRead .byte src s).andThen fun v s => modifyByte (fun f d => op f (lowByte v) d) dst s

/-- A double-operand instruction that only reads, on words (R210). -/
def compareWord (op : CC → Word → Word → AluOut 16) (src dst : Operand) (s : State) : Res Unit :=
  (srcRead .word src s).andThen fun v s => testWord (fun f d => op f v d) dst s

/-- A double-operand instruction that only reads, on bytes (R210, R211). -/
def compareByte (op : CC → Byte → Byte → AluOut 8) (src dst : Operand) (s : State) : Res Unit :=
  (srcRead .byte src s).andThen fun v s => testByte (fun f d => op f (lowByte v) d) dst s

end Sys2Proof.Machine
end

