-- ==== Sys2Proof/Machine/Branch.lean ====
section
/-! DEFINITION. The branches (spec 43_program_control R240 to R255). -/

namespace Sys2Proof.Machine

/-- A branch (R240): with the condition true, PC moves by the signed word offset; nothing else happens. The microsteps
that extend and shift the offset are not printed: B keeps the instruction word, the branch taken or not (UNVERIFIED,
unsafe: entry 24). -/
def branchIf (cond : Bool) (offset : BitVec 8) (s : State) : Host.Outcome State Fault Refusal :=
  finish (.ok () (if cond then s.setPc (s.pc + 2 * sext offset) else s))

/-- BR (R241). -/
def execBr (offset : BitVec 8) (s : State) : Host.Outcome State Fault Refusal := branchIf true offset s

/-- BNE (R242). -/
def execBne (offset : BitVec 8) (s : State) : Host.Outcome State Fault Refusal := branchIf (!s.flagZ) offset s

/-- BEQ (R243). -/
def execBeq (offset : BitVec 8) (s : State) : Host.Outcome State Fault Refusal := branchIf s.flagZ offset s

/-- BGE (R244). -/
def execBge (offset : BitVec 8) (s : State) : Host.Outcome State Fault Refusal := branchIf s.cc.ge offset s

/-- BLT (R245). -/
def execBlt (offset : BitVec 8) (s : State) : Host.Outcome State Fault Refusal := branchIf s.cc.lt offset s

/-- BGT (R246). -/
def execBgt (offset : BitVec 8) (s : State) : Host.Outcome State Fault Refusal := branchIf s.cc.gt offset s

/-- BLE (R247). -/
def execBle (offset : BitVec 8) (s : State) : Host.Outcome State Fault Refusal := branchIf s.cc.le offset s

/-- BPL (R248). -/
def execBpl (offset : BitVec 8) (s : State) : Host.Outcome State Fault Refusal := branchIf (!s.flagN) offset s

/-- BMI (R249). -/
def execBmi (offset : BitVec 8) (s : State) : Host.Outcome State Fault Refusal := branchIf s.flagN offset s

/-- BHI (R250). -/
def execBhi (offset : BitVec 8) (s : State) : Host.Outcome State Fault Refusal := branchIf s.cc.hi offset s

/-- BLOS (R251). -/
def execBlos (offset : BitVec 8) (s : State) : Host.Outcome State Fault Refusal := branchIf s.cc.los offset s

/-- BVC (R252). -/
def execBvc (offset : BitVec 8) (s : State) : Host.Outcome State Fault Refusal := branchIf (!s.flagV) offset s

/-- BVS (R253). -/
def execBvs (offset : BitVec 8) (s : State) : Host.Outcome State Fault Refusal := branchIf s.flagV offset s

/-- BCC (R254). -/
def execBcc (offset : BitVec 8) (s : State) : Host.Outcome State Fault Refusal := branchIf (!s.flagC) offset s

/-- BHIS (R254, second name of BCC). -/
def execBhis (offset : BitVec 8) (s : State) : Host.Outcome State Fault Refusal := branchIf (!s.flagC) offset s

/-- BCS (R255). -/
def execBcs (offset : BitVec 8) (s : State) : Host.Outcome State Fault Refusal := branchIf s.flagC offset s

/-- BLO (R255, second name of BCS). -/
def execBlo (offset : BitVec 8) (s : State) : Host.Outcome State Fault Refusal := branchIf s.flagC offset s

end Sys2Proof.Machine
end

