-- ==== Sys2Proof/Machine/DoubleOperand.lean ====
section
/-! DEFINITION. The double-operand instructions (spec 42_double_operand R210 to R225). -/

namespace Sys2Proof.Machine

/-- MOV (R212): the condition codes are set before the destination is reached, in the order of R212 itself, which the
vector V8.5 confirms, computed with the order of R152 as part D of the vectors reads it (entry 9). -/
def execMov (src dst : Operand) (s : State) : Host.Outcome State Fault Refusal :=
  finish ((srcRead .word src s).andThen fun v s => dstWriteOnly .word dst v (s.setCC (aluMov s.cc v).cc))

/-- MOVB (R213): as MOV on a byte, but a register destination takes all 16 bits, sign-extended. -/
def execMovb (src dst : Operand) (s : State) : Host.Outcome State Fault Refusal :=
  finish ((srcRead .byte src s).andThen fun v s =>
    if dst.mode = .register then
      .ok () (((s.setCC (aluMov s.cc (lowByte v)).cc).setB v).setReg dst.reg (sext (lowByte v)))
    else dstWriteOnly .byte dst v (s.setCC (aluMov s.cc (lowByte v)).cc))

/-- CMP (R214). -/
def execCmp (src dst : Operand) (s : State) : Host.Outcome State Fault Refusal := finish (compareWord aluCmp src dst s)

/-- CMPB (R215). -/
def execCmpb (src dst : Operand) (s : State) : Host.Outcome State Fault Refusal := finish (compareByte aluCmp src dst s)

/-- BIT (R216). -/
def execBit (src dst : Operand) (s : State) : Host.Outcome State Fault Refusal := finish (compareWord aluBit src dst s)

/-- BITB (R217). -/
def execBitb (src dst : Operand) (s : State) : Host.Outcome State Fault Refusal := finish (compareByte aluBit src dst s)

/-- BIC (R218). -/
def execBic (src dst : Operand) (s : State) : Host.Outcome State Fault Refusal := finish (combineWord aluBic src dst s)

/-- BICB (R219). -/
def execBicb (src dst : Operand) (s : State) : Host.Outcome State Fault Refusal := finish (combineByte aluBic src dst s)

/-- BIS (R220). -/
def execBis (src dst : Operand) (s : State) : Host.Outcome State Fault Refusal := finish (combineWord aluBis src dst s)

/-- BISB (R221). -/
def execBisb (src dst : Operand) (s : State) : Host.Outcome State Fault Refusal := finish (combineByte aluBis src dst s)

/-- ADD (R222). -/
def execAdd (src dst : Operand) (s : State) : Host.Outcome State Fault Refusal := finish (combineWord aluAdd src dst s)

/-- SUB (R223). -/
def execSub (src dst : Operand) (s : State) : Host.Outcome State Fault Refusal := finish (combineWord aluSub src dst s)

end Sys2Proof.Machine
end

