-- ==== Sys2Proof/Machine/Operate.lean ====
section
/-! DEFINITION. The operate group and the condition-code operators (spec 44_operate_and_cc R280 to R296). -/

namespace Sys2Proof.Machine

/-- HALT (R281): the clock stops; PC already points at the next instruction; pending conditions stay pending. B keeps the
instruction word, as in WAIT, RESET and the condition-code operators (entry 24). -/
def execHalt (s : State) : Host.Outcome State Fault Refusal := finish (.ok () { s with run := .halted })

/-- WAIT (R284): no bus cycles until a service request. -/
def execWait (s : State) : Host.Outcome State Fault Refusal := finish (.ok () { s with run := .wait })

/-- The INIT pulse of RESET or of another device as the processor sees it: the IR is forced to 100000, and the devices,
initialised, drop their requests (R45, R287, R380). -/
def State.busReset (s : State) : State :=
  { s with ir := 0o100000, br4 := [], br5 := [], br6 := [], br7 := [] }

/-- RESET (R286, R287): one INIT pulse on the UNIBUS; registers, PSW, PC and the pending flags are unchanged (D12). -/
def execReset (s : State) : Host.Outcome State Fault Refusal := finish (.ok () { s.busReset with initPulses := s.initPulses + 1 })

/-- RTI (R288, R290): the completion looks at the T bit that was popped. -/
def execRti (s : State) : Host.Outcome State Fault Refusal := finish (returnFromTrap s)

/-- RTT (R289, R291): as RTI, but its completion sets no trace flag. -/
def execRtt (s : State) : Host.Outcome State Fault Refusal :=
  match returnFromTrap s with
  | .ok _ s => .next s
  | .err e s => .next (s.takeBusError e)

/-- The condition-code operators (R295). -/
def execCcop (set n z v c : Bool) (s : State) : Host.Outcome State Fault Refusal :=
  finish (.ok () (s.setCC (ccOperate set ⟨n, z, v, c⟩ s.cc)))

end Sys2Proof.Machine
end

