-- ==== Sys2Proof/Machine/ProgramControl.lean ====
section
/-! DEFINITION. JMP, JSR, RTS, the trap instructions, and the illegal and reserved codes (spec 41 R200 to R203, 43 R260 to R269, 30 R118, R119). -/

namespace Sys2Proof.Machine

/-- JMP (R200, R202): PC takes the destination's address; mode 0 is the illegal instruction (R201). B keeps what the
address calculation left in it (entry 24). -/
def execJmp (dst : Operand) (s : State) : Host.Outcome State Fault Refusal :=
  match dst.mode with
  | .register => .next (instructionTrap 0o10 s)
  | _ => finish ((dstAddress dst s).andThen fun l s =>
      match l with
      | .mem a => .ok () (s.setPc a)
      | .reg _ => .ok () s)

/-- The push and the linkage of JSR, with the destination address taken (R266). With R6 as the linkage register the
word pushed and the final R6 are free values (R267 d, U6; entry 14). The microsteps of JSR are not printed: B keeps what
the address calculation left in it (UNVERIFIED, unsafe: entry 24). -/
def linkTo (link : Reg) (a : Word) (s : State) : Res Unit :=
  if link = .r6 then
    (push s.freeWord s.drawn).andThen fun _ s => .ok () ((s.drawn.setReg .r6 s.freeWord).setPc a)
  else
    (push (s.reg link) s).andThen fun _ s => .ok () ((s.setReg link s.pc).setPc a)

/-- JSR (R266, R267): the address first, then the push, then the linkage; mode 0 is the illegal instruction. -/
def execJsr (link : Reg) (dst : Operand) (s : State) : Host.Outcome State Fault Refusal :=
  match dst.mode with
  | .register => .next (instructionTrap 0o10 s)
  | _ => finish ((dstAddress dst s).andThen fun l s =>
      match l with
      | .mem a => linkTo link a s
      | .reg _ => .ok () s)

/-- RTS (R268, R269): PC takes the register before the pop. With R6 as the linkage register its final value is a free
value (R269 c, U6; entry 14). -/
def execRts (link : Reg) (s : State) : Host.Outcome State Fault Refusal :=
  finish ((pop (s.setPc (s.reg link))).andThen fun t s =>
    if link = .r6 then .ok () (s.drawn.setReg .r6 s.freeWord) else .ok () (s.setReg link t))

/-- BPT (R262). -/
def execBpt (s : State) : Host.Outcome State Fault Refusal := .next (instructionTrap 0o14 s)

/-- IOT (R263). -/
def execIot (s : State) : Host.Outcome State Fault Refusal := .next (instructionTrap 0o20 s)

/-- EMT (R264); the low byte is ignored (R116). -/
def execEmt (_code : BitVec 8) (s : State) : Host.Outcome State Fault Refusal := .next (instructionTrap 0o30 s)

/-- TRAP (R265); the low byte is ignored (R116). -/
def execTrap (_code : BitVec 8) (s : State) : Host.Outcome State Fault Refusal := .next (instructionTrap 0o34 s)

/-- JMP with mode 0, illegal (R119, R201). -/
def execJmpRn (_dst : Reg) (s : State) : Host.Outcome State Fault Refusal := .next (instructionTrap 0o10 s)

/-- JSR with mode 0, illegal; nothing is pushed before the trap (R119, R267 a). -/
def execJsrRn (_link _dst : Reg) (s : State) : Host.Outcome State Fault Refusal := .next (instructionTrap 0o10 s)

/-- A reserved code: no effect before the trap (R118, R318). -/
def reservedTrap (s : State) : Host.Outcome State Fault Refusal := .next (instructionTrap 0o10 s)

/-- The reserved codes 000007 (R118). -/
def execReserved000007 (s : State) : Host.Outcome State Fault Refusal := reservedTrap s

/-- The reserved codes 000010-000017 (R118). -/
def execReserved000010 (_low : BitVec 3) (s : State) : Host.Outcome State Fault Refusal := reservedTrap s

/-- The reserved codes 000020-000037 (R118). -/
def execReserved000020 (_low : BitVec 4) (s : State) : Host.Outcome State Fault Refusal := reservedTrap s

/-- The reserved codes 000040-000077 (R118). -/
def execReserved000040 (_low : BitVec 5) (s : State) : Host.Outcome State Fault Refusal := reservedTrap s

/-- The reserved codes 000210-000217 (R118). -/
def execReserved000210 (_low : BitVec 3) (s : State) : Host.Outcome State Fault Refusal := reservedTrap s

/-- The reserved codes 000220-000237 (R118). -/
def execReserved000220 (_low : BitVec 4) (s : State) : Host.Outcome State Fault Refusal := reservedTrap s

/-- The reserved codes 006400-006777 (R118). -/
def execReserved006400 (_low : BitVec 8) (s : State) : Host.Outcome State Fault Refusal := reservedTrap s

/-- The reserved codes 007000-007777 (R118). -/
def execReserved007000 (_low : BitVec 9) (s : State) : Host.Outcome State Fault Refusal := reservedTrap s

/-- The reserved codes 070000-077777 (R118). -/
def execReserved070000 (_low : BitVec 12) (s : State) : Host.Outcome State Fault Refusal := reservedTrap s

/-- The reserved codes 106400-106777 (R118). -/
def execReserved106400 (_low : BitVec 8) (s : State) : Host.Outcome State Fault Refusal := reservedTrap s

/-- The reserved codes 107000-107777 (R118). -/
def execReserved107000 (_low : BitVec 9) (s : State) : Host.Outcome State Fault Refusal := reservedTrap s

/-- The reserved codes 170000-177777 (R118). -/
def execReserved170000 (_low : BitVec 12) (s : State) : Host.Outcome State Fault Refusal := reservedTrap s

end Sys2Proof.Machine
end

