-- ==== Sys2Proof/Machine/SingleOperand.lean ====
section
/-! DEFINITION. The single-operand instructions and SWAB (spec 41_single_operand R170 to R184, R204). -/

namespace Sys2Proof.Machine

/-- CLR (R172). The destination is read first and the value discarded (R150). -/
def execClr (dst : Operand) (s : State) : Host.Outcome State Fault Refusal := finish (modifyWord aluClr dst s)

/-- COM (R173). -/
def execCom (dst : Operand) (s : State) : Host.Outcome State Fault Refusal := finish (modifyWord aluCom dst s)

/-- INC (R174). -/
def execInc (dst : Operand) (s : State) : Host.Outcome State Fault Refusal := finish (modifyWord aluInc dst s)

/-- DEC (R175). -/
def execDec (dst : Operand) (s : State) : Host.Outcome State Fault Refusal := finish (modifyWord aluDec dst s)

/-- NEG (R176). -/
def execNeg (dst : Operand) (s : State) : Host.Outcome State Fault Refusal := finish (modifyWord aluNeg dst s)

/-- ADC (R177). -/
def execAdc (dst : Operand) (s : State) : Host.Outcome State Fault Refusal := finish (modifyWord aluAdc dst s)

/-- SBC (R178). With the reading of C and V that SBC_LITERAL selects. -/
def execSbc (dst : Operand) (s : State) : Host.Outcome State Fault Refusal := finish (modifyWord (aluSbc s.cfg.sbcLiteral) dst s)

/-- TST (R179). -/
def execTst (dst : Operand) (s : State) : Host.Outcome State Fault Refusal := finish (testWord aluTst dst s)

/-- ROR (R181). -/
def execRor (dst : Operand) (s : State) : Host.Outcome State Fault Refusal := finish (modifyWord aluRor dst s)

/-- ROL (R182). -/
def execRol (dst : Operand) (s : State) : Host.Outcome State Fault Refusal := finish (modifyWord aluRol dst s)

/-- ASR (R183). -/
def execAsr (dst : Operand) (s : State) : Host.Outcome State Fault Refusal := finish (modifyWord aluAsr dst s)

/-- ASL (R184). -/
def execAsl (dst : Operand) (s : State) : Host.Outcome State Fault Refusal := finish (modifyWord aluAsl dst s)

/-- CLRB (R172). -/
def execClrb (dst : Operand) (s : State) : Host.Outcome State Fault Refusal := finish (modifyByte aluClr dst s)

/-- COMB (R173). -/
def execComb (dst : Operand) (s : State) : Host.Outcome State Fault Refusal := finish (modifyByte aluCom dst s)

/-- INCB (R174). -/
def execIncb (dst : Operand) (s : State) : Host.Outcome State Fault Refusal := finish (modifyByte aluInc dst s)

/-- DECB (R175). -/
def execDecb (dst : Operand) (s : State) : Host.Outcome State Fault Refusal := finish (modifyByte aluDec dst s)

/-- NEGB (R176). -/
def execNegb (dst : Operand) (s : State) : Host.Outcome State Fault Refusal := finish (modifyByte aluNeg dst s)

/-- ADCB (R177). -/
def execAdcb (dst : Operand) (s : State) : Host.Outcome State Fault Refusal := finish (modifyByte aluAdc dst s)

/-- SBCB (R178). -/
def execSbcb (dst : Operand) (s : State) : Host.Outcome State Fault Refusal := finish (modifyByte (aluSbc s.cfg.sbcLiteral) dst s)

/-- TSTB (R179). -/
def execTstb (dst : Operand) (s : State) : Host.Outcome State Fault Refusal := finish (testByte aluTst dst s)

/-- RORB (R181). -/
def execRorb (dst : Operand) (s : State) : Host.Outcome State Fault Refusal := finish (modifyByte aluRor dst s)

/-- ROLB (R182). -/
def execRolb (dst : Operand) (s : State) : Host.Outcome State Fault Refusal := finish (modifyByte aluRol dst s)

/-- ASRB (R183). -/
def execAsrb (dst : Operand) (s : State) : Host.Outcome State Fault Refusal := finish (modifyByte aluAsr dst s)

/-- ASLB (R184). -/
def execAslb (dst : Operand) (s : State) : Host.Outcome State Fault Refusal := finish (modifyByte aluAsl dst s)

/-- SWAB (R204). The exchanged word also passes through R17 and stays there (R39, R424; DEDUCED, entry 24). -/
def execSwab (dst : Operand) (s : State) : Host.Outcome State Fault Refusal :=
  finish ((dstModifyRead .word dst s).andThen fun d s =>
    dstWrite .word d.loc (aluSwab s.cc d.val).r ((s.loadAlu (aluSwab s.cc d.val)).setR17 (aluSwab s.cc d.val).r))

end Sys2Proof.Machine
end

