-- ==== Sys2Proof/WellFormed.lean ====
section
/-! DEFINITION. Which instruction terms stand for a row of the opcode table, and the one name each word decodes to. -/

namespace Sys2Proof

/-- JMP and JSR with destination mode 0 are other rows of the table, the illegal instructions JMP_Rn and JSR_Rn,
which take precedence (R119, R201, R267 a). Every other combination of fields is legal (R120). -/
def Instr.wf : Instr → Bool
  | .jmp dst => dst.mode != .register
  | .jsr _ dst => dst.mode != .register
  | .halt => true
  | .wait => true
  | .rti => true
  | .bpt => true
  | .iot => true
  | .reset => true
  | .rtt => true
  | .rts _ => true
  | .ccop _ _ _ _ _ => true
  | .swab _ => true
  | .br _ => true
  | .bne _ => true
  | .beq _ => true
  | .bge _ => true
  | .blt _ => true
  | .bgt _ => true
  | .ble _ => true
  | .bpl _ => true
  | .bmi _ => true
  | .bhi _ => true
  | .blos _ => true
  | .bvc _ => true
  | .bvs _ => true
  | .bcc _ => true
  | .bhis _ => true
  | .bcs _ => true
  | .blo _ => true
  | .clr _ => true
  | .com _ => true
  | .inc _ => true
  | .dec _ => true
  | .neg _ => true
  | .adc _ => true
  | .sbc _ => true
  | .tst _ => true
  | .ror _ => true
  | .rol _ => true
  | .asr _ => true
  | .asl _ => true
  | .clrb _ => true
  | .comb _ => true
  | .incb _ => true
  | .decb _ => true
  | .negb _ => true
  | .adcb _ => true
  | .sbcb _ => true
  | .tstb _ => true
  | .rorb _ => true
  | .rolb _ => true
  | .asrb _ => true
  | .aslb _ => true
  | .mov _ _ => true
  | .cmp _ _ => true
  | .bit _ _ => true
  | .bic _ _ => true
  | .bis _ _ => true
  | .add _ _ => true
  | .movb _ _ => true
  | .cmpb _ _ => true
  | .bitb _ _ => true
  | .bicb _ _ => true
  | .bisb _ _ => true
  | .sub _ _ => true
  | .emt _ => true
  | .trap _ => true
  | .jmpRn _ => true
  | .jsrRn _ _ => true
  | .reserved000007 => true
  | .reserved000010 _ => true
  | .reserved000020 _ => true
  | .reserved000040 _ => true
  | .reserved000210 _ => true
  | .reserved000220 _ => true
  | .reserved006400 _ => true
  | .reserved007000 _ => true
  | .reserved070000 _ => true
  | .reserved106400 _ => true
  | .reserved107000 _ => true
  | .reserved170000 _ => true

/-- BHIS and BLO are second mnemonics of BCC and BCS with the same codes (R254, R255): the name a word decodes to. -/
def Instr.canonical : Instr → Instr
  | .bhis offset => .bcc offset
  | .blo offset => .bcs offset
  | .halt => .halt
  | .wait => .wait
  | .rti => .rti
  | .bpt => .bpt
  | .iot => .iot
  | .reset => .reset
  | .rtt => .rtt
  | .jmp a => .jmp a
  | .rts a => .rts a
  | .ccop a b c d e => .ccop a b c d e
  | .swab a => .swab a
  | .br a => .br a
  | .bne a => .bne a
  | .beq a => .beq a
  | .bge a => .bge a
  | .blt a => .blt a
  | .bgt a => .bgt a
  | .ble a => .ble a
  | .bpl a => .bpl a
  | .bmi a => .bmi a
  | .bhi a => .bhi a
  | .blos a => .blos a
  | .bvc a => .bvc a
  | .bvs a => .bvs a
  | .bcc a => .bcc a
  | .bcs a => .bcs a
  | .jsr a b => .jsr a b
  | .clr a => .clr a
  | .com a => .com a
  | .inc a => .inc a
  | .dec a => .dec a
  | .neg a => .neg a
  | .adc a => .adc a
  | .sbc a => .sbc a
  | .tst a => .tst a
  | .ror a => .ror a
  | .rol a => .rol a
  | .asr a => .asr a
  | .asl a => .asl a
  | .clrb a => .clrb a
  | .comb a => .comb a
  | .incb a => .incb a
  | .decb a => .decb a
  | .negb a => .negb a
  | .adcb a => .adcb a
  | .sbcb a => .sbcb a
  | .tstb a => .tstb a
  | .rorb a => .rorb a
  | .rolb a => .rolb a
  | .asrb a => .asrb a
  | .aslb a => .aslb a
  | .mov a b => .mov a b
  | .cmp a b => .cmp a b
  | .bit a b => .bit a b
  | .bic a b => .bic a b
  | .bis a b => .bis a b
  | .add a b => .add a b
  | .movb a b => .movb a b
  | .cmpb a b => .cmpb a b
  | .bitb a b => .bitb a b
  | .bicb a b => .bicb a b
  | .bisb a b => .bisb a b
  | .sub a b => .sub a b
  | .emt a => .emt a
  | .trap a => .trap a
  | .jmpRn a => .jmpRn a
  | .jsrRn a b => .jsrRn a b
  | .reserved000007 => .reserved000007
  | .reserved000010 a => .reserved000010 a
  | .reserved000020 a => .reserved000020 a
  | .reserved000040 a => .reserved000040 a
  | .reserved000210 a => .reserved000210 a
  | .reserved000220 a => .reserved000220 a
  | .reserved006400 a => .reserved006400 a
  | .reserved007000 a => .reserved007000 a
  | .reserved070000 a => .reserved070000 a
  | .reserved106400 a => .reserved106400 a
  | .reserved107000 a => .reserved107000 a
  | .reserved170000 a => .reserved170000 a

end Sys2Proof
end

