-- ==== Sys2Proof/Decode.lean ====
section
/-! DEFINITION. Decoding and encoding (spec 30_encoding R100 to R119; opcode map R113). Every 16-bit value is some
row of the map, so decoding a word never fails; decoding bytes fails only where fewer than two are there. -/

namespace Sys2Proof

/-! ### Fields -/

/-- The register a 3-bit field names (R102). -/
def Reg.ofBits (b : BitVec 3) : Reg :=
  match b.toNat with
  | 0 => .r0 | 1 => .r1 | 2 => .r2 | 3 => .r3 | 4 => .r4 | 5 => .r5 | 6 => .r6 | _ => .r7

/-- The 3-bit number of a register (R102). -/
def Reg.bits : Reg → BitVec 3
  | .r0 => 0 | .r1 => 1 | .r2 => 2 | .r3 => 3 | .r4 => 4 | .r5 => 5 | .r6 => 6 | .r7 => 7

/-- The addressing mode a 3-bit field names (R140). -/
def Mode.ofBits (b : BitVec 3) : Mode :=
  match b.toNat with
  | 0 => .register | 1 => .deferred | 2 => .autoInc | 3 => .autoIncDef
  | 4 => .autoDec | 5 => .autoDecDef | 6 => .index | _ => .indexDef

/-- The 3-bit code of an addressing mode (R140). -/
def Mode.bits : Mode → BitVec 3
  | .register => 0 | .deferred => 1 | .autoInc => 2 | .autoIncDef => 3
  | .autoDec => 4 | .autoDecDef => 5 | .index => 6 | .indexDef => 7

/-- A 6-bit operand specifier: mode in the upper three bits, register in the lower three (R102). -/
def Operand.ofBits (b : BitVec 6) : Operand :=
  ⟨Mode.ofBits (b.extractLsb' 3 3), Reg.ofBits (b.extractLsb' 0 3)⟩

/-- The 6 bits of an operand specifier (R102). -/
def Operand.bits (o : Operand) : BitVec 6 := o.mode.bits ++ o.reg.bits

/-- The destination specifier `DD`, bits 5:0 (R102). -/
def fieldDst (w : Word) : Operand := Operand.ofBits (w.extractLsb' 0 6)

/-- The source specifier `SS`, bits 11:6 (R102). -/
def fieldSrc (w : Word) : Operand := Operand.ofBits (w.extractLsb' 6 6)

/-- The low byte: a branch offset (R105), or the bits EMT and TRAP ignore (R108). -/
def fieldByte (w : Word) : BitVec 8 := w.extractLsb' 0 8

/-! ### Decoding -/

/-- Codes 000000 to 000377 (R112, last case; R109, R110, R113). -/
def decodeOperate (w : Word) : Instr :=
  match (w.extractLsb' 6 2).toNat with
  | 0 =>
    match (w.extractLsb' 0 6).toNat with
    | 0 => .halt
    | 1 => .wait
    | 2 => .rti
    | 3 => .bpt
    | 4 => .iot
    | 5 => .reset
    | 6 => .rtt
    | 7 => .reserved000007
    | _ =>
      if w.getLsbD 5 then .reserved000040 (w.extractLsb' 0 5)
      else if w.getLsbD 4 then .reserved000020 (w.extractLsb' 0 4)
      else .reserved000010 (w.extractLsb' 0 3)
  | 1 => if (fieldDst w).mode = .register then .jmpRn (fieldDst w).reg else .jmp (fieldDst w)
  | 2 =>
    if w.getLsbD 5 then .ccop (w.getLsbD 4) (w.getLsbD 3) (w.getLsbD 2) (w.getLsbD 1) (w.getLsbD 0)
    else if w.getLsbD 4 then .reserved000220 (w.extractLsb' 0 4)
    else if w.getLsbD 3 then .reserved000210 (w.extractLsb' 0 3)
    else .rts (Reg.ofBits (w.extractLsb' 0 3))
  | _ => .swab (fieldDst w)

/-- Codes 005000 to 005777: CLR to TST by bits 8:6 (R104, R112). -/
def decodeSingle (w : Word) : Instr :=
  match (w.extractLsb' 6 3).toNat with
  | 0 => .clr (fieldDst w)
  | 1 => .com (fieldDst w)
  | 2 => .inc (fieldDst w)
  | 3 => .dec (fieldDst w)
  | 4 => .neg (fieldDst w)
  | 5 => .adc (fieldDst w)
  | 6 => .sbc (fieldDst w)
  | _ => .tst (fieldDst w)

/-- Codes 105000 to 105777: the byte forms (R104, R117). -/
def decodeSingleB (w : Word) : Instr :=
  match (w.extractLsb' 6 3).toNat with
  | 0 => .clrb (fieldDst w)
  | 1 => .comb (fieldDst w)
  | 2 => .incb (fieldDst w)
  | 3 => .decb (fieldDst w)
  | 4 => .negb (fieldDst w)
  | 5 => .adcb (fieldDst w)
  | 6 => .sbcb (fieldDst w)
  | _ => .tstb (fieldDst w)

/-- Codes 006000 to 006377: the rotates and shifts by bits 7:6 (R104, R112). -/
def decodeShift (w : Word) : Instr :=
  match (w.extractLsb' 6 2).toNat with
  | 0 => .ror (fieldDst w)
  | 1 => .rol (fieldDst w)
  | 2 => .asr (fieldDst w)
  | _ => .asl (fieldDst w)

/-- Codes 106000 to 106377: the byte rotates and shifts (R104, R117). -/
def decodeShiftB (w : Word) : Instr :=
  match (w.extractLsb' 6 2).toNat with
  | 0 => .rorb (fieldDst w)
  | 1 => .rolb (fieldDst w)
  | 2 => .asrb (fieldDst w)
  | _ => .aslb (fieldDst w)

/-- Codes 000000 to 007777, by bits 11:8 (R105, R106, R112, R113). -/
def decodeLow (w : Word) : Instr :=
  match (w.extractLsb' 8 4).toNat with
  | 0 => decodeOperate w
  | 1 => .br (fieldByte w)
  | 2 => .bne (fieldByte w)
  | 3 => .beq (fieldByte w)
  | 4 => .bge (fieldByte w)
  | 5 => .blt (fieldByte w)
  | 6 => .bgt (fieldByte w)
  | 7 => .ble (fieldByte w)
  | 8 | 9 =>
    if (fieldDst w).mode = .register then .jsrRn (Reg.ofBits (w.extractLsb' 6 3)) (fieldDst w).reg
    else .jsr (Reg.ofBits (w.extractLsb' 6 3)) (fieldDst w)
  | 10 | 11 => decodeSingle w
  | 12 => decodeShift w
  | 13 => .reserved006400 (w.extractLsb' 0 8)
  | _ => .reserved007000 (w.extractLsb' 0 9)

/-- Codes 100000 to 107777, by bits 11:8 (R105, R108, R112, R113). -/
def decodeHigh (w : Word) : Instr :=
  match (w.extractLsb' 8 4).toNat with
  | 0 => .bpl (fieldByte w)
  | 1 => .bmi (fieldByte w)
  | 2 => .bhi (fieldByte w)
  | 3 => .blos (fieldByte w)
  | 4 => .bvc (fieldByte w)
  | 5 => .bvs (fieldByte w)
  | 6 => .bcc (fieldByte w)
  | 7 => .bcs (fieldByte w)
  | 8 => .emt (fieldByte w)
  | 9 => .trap (fieldByte w)
  | 10 | 11 => decodeSingleB w
  | 12 => decodeShiftB w
  | 13 => .reserved106400 (w.extractLsb' 0 8)
  | _ => .reserved107000 (w.extractLsb' 0 9)

/-- The instruction a 16-bit word is (R112, R113): the double-operand group by bits 15:12, else one of the two
groups above. -/
def decodeWord (w : Word) : Instr :=
  match (w.extractLsb' 12 4).toNat with
  | 0 => decodeLow w
  | 1 => .mov (fieldSrc w) (fieldDst w)
  | 2 => .cmp (fieldSrc w) (fieldDst w)
  | 3 => .bit (fieldSrc w) (fieldDst w)
  | 4 => .bic (fieldSrc w) (fieldDst w)
  | 5 => .bis (fieldSrc w) (fieldDst w)
  | 6 => .add (fieldSrc w) (fieldDst w)
  | 7 => .reserved070000 (w.extractLsb' 0 12)
  | 8 => decodeHigh w
  | 9 => .movb (fieldSrc w) (fieldDst w)
  | 10 => .cmpb (fieldSrc w) (fieldDst w)
  | 11 => .bitb (fieldSrc w) (fieldDst w)
  | 12 => .bicb (fieldSrc w) (fieldDst w)
  | 13 => .bisb (fieldSrc w) (fieldDst w)
  | 14 => .sub (fieldSrc w) (fieldDst w)
  | _ => .reserved170000 (w.extractLsb' 0 12)

/-- Why bytes hold no instruction. -/
inductive DecodeError where
  /-- Fewer than the two bytes of an instruction word. -/
  | truncated
  deriving DecidableEq, Repr

/-- The instruction at the head of some bytes, and the bytes after its one word. The byte at the lower address is
the word's low byte (R61, R73). -/
def decode : List Byte → Except DecodeError (Instr × List Byte)
  | lo :: hi :: rest => .ok (decodeWord (hi ++ lo), rest)
  | _ => .error .truncated

/-! ### Encoding -/

/-- The word of an instruction, from the match column of the opcode table and the fields of R102 to R110. -/
def encodeWord : Instr → Word
  | .halt => 0o000000
  | .wait => 0o000001
  | .rti => 0o000002
  | .bpt => 0o000003
  | .iot => 0o000004
  | .reset => 0o000005
  | .rtt => 0o000006
  | .jmp dst => (0o0001#10 ++ dst.bits : BitVec 16)
  | .rts link => (0o00020#13 ++ link.bits : BitVec 16)
  | .ccop set n z v c =>
    (0o0005#11 ++ BitVec.ofBool set ++ BitVec.ofBool n ++ BitVec.ofBool z ++ BitVec.ofBool v ++ BitVec.ofBool c : BitVec 16)
  | .swab dst => (0o0003#10 ++ dst.bits : BitVec 16)
  | .br offset => (0o001#8 ++ offset : BitVec 16)
  | .bne offset => (0o002#8 ++ offset : BitVec 16)
  | .beq offset => (0o003#8 ++ offset : BitVec 16)
  | .bge offset => (0o004#8 ++ offset : BitVec 16)
  | .blt offset => (0o005#8 ++ offset : BitVec 16)
  | .bgt offset => (0o006#8 ++ offset : BitVec 16)
  | .ble offset => (0o007#8 ++ offset : BitVec 16)
  | .bpl offset => (0o200#8 ++ offset : BitVec 16)
  | .bmi offset => (0o201#8 ++ offset : BitVec 16)
  | .bhi offset => (0o202#8 ++ offset : BitVec 16)
  | .blos offset => (0o203#8 ++ offset : BitVec 16)
  | .bvc offset => (0o204#8 ++ offset : BitVec 16)
  | .bvs offset => (0o205#8 ++ offset : BitVec 16)
  | .bcc offset => (0o206#8 ++ offset : BitVec 16)
  | .bhis offset => (0o206#8 ++ offset : BitVec 16)
  | .bcs offset => (0o207#8 ++ offset : BitVec 16)
  | .blo offset => (0o207#8 ++ offset : BitVec 16)
  | .jsr link dst => (0o004#7 ++ link.bits ++ dst.bits : BitVec 16)
  | .clr dst => (0o0050#10 ++ dst.bits : BitVec 16)
  | .com dst => (0o0051#10 ++ dst.bits : BitVec 16)
  | .inc dst => (0o0052#10 ++ dst.bits : BitVec 16)
  | .dec dst => (0o0053#10 ++ dst.bits : BitVec 16)
  | .neg dst => (0o0054#10 ++ dst.bits : BitVec 16)
  | .adc dst => (0o0055#10 ++ dst.bits : BitVec 16)
  | .sbc dst => (0o0056#10 ++ dst.bits : BitVec 16)
  | .tst dst => (0o0057#10 ++ dst.bits : BitVec 16)
  | .ror dst => (0o0060#10 ++ dst.bits : BitVec 16)
  | .rol dst => (0o0061#10 ++ dst.bits : BitVec 16)
  | .asr dst => (0o0062#10 ++ dst.bits : BitVec 16)
  | .asl dst => (0o0063#10 ++ dst.bits : BitVec 16)
  | .clrb dst => (0o1050#10 ++ dst.bits : BitVec 16)
  | .comb dst => (0o1051#10 ++ dst.bits : BitVec 16)
  | .incb dst => (0o1052#10 ++ dst.bits : BitVec 16)
  | .decb dst => (0o1053#10 ++ dst.bits : BitVec 16)
  | .negb dst => (0o1054#10 ++ dst.bits : BitVec 16)
  | .adcb dst => (0o1055#10 ++ dst.bits : BitVec 16)
  | .sbcb dst => (0o1056#10 ++ dst.bits : BitVec 16)
  | .tstb dst => (0o1057#10 ++ dst.bits : BitVec 16)
  | .rorb dst => (0o1060#10 ++ dst.bits : BitVec 16)
  | .rolb dst => (0o1061#10 ++ dst.bits : BitVec 16)
  | .asrb dst => (0o1062#10 ++ dst.bits : BitVec 16)
  | .aslb dst => (0o1063#10 ++ dst.bits : BitVec 16)
  | .mov src dst => (0o01#4 ++ src.bits ++ dst.bits : BitVec 16)
  | .cmp src dst => (0o02#4 ++ src.bits ++ dst.bits : BitVec 16)
  | .bit src dst => (0o03#4 ++ src.bits ++ dst.bits : BitVec 16)
  | .bic src dst => (0o04#4 ++ src.bits ++ dst.bits : BitVec 16)
  | .bis src dst => (0o05#4 ++ src.bits ++ dst.bits : BitVec 16)
  | .add src dst => (0o06#4 ++ src.bits ++ dst.bits : BitVec 16)
  | .movb src dst => (0o11#4 ++ src.bits ++ dst.bits : BitVec 16)
  | .cmpb src dst => (0o12#4 ++ src.bits ++ dst.bits : BitVec 16)
  | .bitb src dst => (0o13#4 ++ src.bits ++ dst.bits : BitVec 16)
  | .bicb src dst => (0o14#4 ++ src.bits ++ dst.bits : BitVec 16)
  | .bisb src dst => (0o15#4 ++ src.bits ++ dst.bits : BitVec 16)
  | .sub src dst => (0o16#4 ++ src.bits ++ dst.bits : BitVec 16)
  | .emt code => (0o210#8 ++ code : BitVec 16)
  | .trap code => (0o211#8 ++ code : BitVec 16)
  | .jmpRn dst => (0o0001#10 ++ 0#3 ++ dst.bits : BitVec 16)
  | .jsrRn link dst => (0o004#7 ++ link.bits ++ 0#3 ++ dst.bits : BitVec 16)
  | .reserved000007 => 0o000007
  | .reserved000010 low => (1#13 ++ low : BitVec 16)
  | .reserved000020 low => (1#12 ++ low : BitVec 16)
  | .reserved000040 low => (1#11 ++ low : BitVec 16)
  | .reserved000210 low => (17#13 ++ low : BitVec 16)
  | .reserved000220 low => (9#12 ++ low : BitVec 16)
  | .reserved006400 low => (13#8 ++ low : BitVec 16)
  | .reserved007000 low => (7#7 ++ low : BitVec 16)
  | .reserved070000 low => (7#4 ++ low : BitVec 16)
  | .reserved106400 low => (141#8 ++ low : BitVec 16)
  | .reserved107000 low => (71#7 ++ low : BitVec 16)
  | .reserved170000 low => (15#4 ++ low : BitVec 16)

/-- The words of an instruction. The words its addressing modes use are operands in memory, not part of it. -/
def encode (i : Instr) : List Word := [encodeWord i]

/-- The bytes of a word as memory holds them, the low byte first (R61). -/
def wordBytes (w : Word) : List Byte := [w.extractLsb' 0 8, w.extractLsb' 8 8]

/-! ### The opcode table's numbering -/

/-- The first `n` bytes of the number `w`, least significant first. -/
def natBytes : Nat → Nat → List Byte
  | 0, _ => []
  | n + 1, w => BitVec.ofNat 8 w :: natBytes n (w / 256)

/-- An instruction whose bits are `w`, `nbits` of them, and the zero bits above, up to the longest instruction of
three words (R101): the first word is bits 15:0, at the lowest address. -/
def tableBytes (nbits w : Nat) : List Byte := natBytes 6 (w % 2 ^ nbits)

/-- What the decoder reads from a word numbered as spec/opcode_table.json numbers it. -/
def decodeTableWord (nbits w : Nat) : Option Instr :=
  match decode (tableBytes nbits w) with
  | .ok (i, _) => some i
  | .error _ => none

end Sys2Proof
end

