-- ==== Sys2Proof/Machine/Inputs.lean ====
section
/-! DEFINITION. What the world outside does to the processor: the input events of spec 93_implementation_defined
part 1a, taken in before SERVICE (entry 21). -/

namespace Sys2Proof.Machine

/-- The requests on one bus-request line, in grant-chain order (R326). -/
def State.requests (s : State) : BrLevel → List BusRequest
  | .br4 => s.br4 | .br5 => s.br5 | .br6 => s.br6 | .br7 => s.br7

/-- Replace the requests on one line. -/
def State.setRequests (s : State) (l : BrLevel) (q : List BusRequest) : State :=
  match l with
  | .br4 => { s with br4 := q } | .br5 => { s with br5 := q } | .br6 => { s with br6 := q } | .br7 => { s with br7 := q }

/-- The scratch-pad word that bus address bits 3:0 select while the processor is halted (R34, R425). -/
def State.scratchWord (s : State) (k : Nat) : Word :=
  match k with
  | 0 => s.regs.r0 | 1 => s.regs.r1 | 2 => s.regs.r2 | 3 => s.regs.r3
  | 4 => s.regs.r4 | 5 => s.regs.r5 | 6 => s.regs.r6 | 7 => s.regs.r7
  | 8 => s.scratch.r10 | 9 => s.scratch.r11 | 10 => s.scratch.r12 | 11 => s.scratch.r13
  | 12 => s.scratch.r14 | 13 => s.scratch.r15 | 14 => s.scratch.r16 | _ => s.scratch.r17

/-- Write the scratch-pad word that bus address bits 3:0 select (R34, R425); word 17 stores its data with the bytes
exchanged (R39, R424). -/
def State.setScratchWord (s : State) (k : Nat) (v : Word) : State :=
  match k with
  | 0 => s.setReg .r0 v | 1 => s.setReg .r1 v | 2 => s.setReg .r2 v | 3 => s.setReg .r3 v
  | 4 => s.setReg .r4 v | 5 => s.setReg .r5 v | 6 => s.setReg .r6 v | 7 => s.setReg .r7 v
  | 8 => s.setR10 v | 9 => s.setR11 v | 10 => s.setR12 v | 11 => s.setR13 v
  | 12 => { s with scratch := { s.scratch with r14 := v } }
  | 13 => { s with scratch := { s.scratch with r15 := v } }
  | 14 => { s with scratch := { s.scratch with r16 := v } }
  | _ => s.setR17 (swapBytes v)

/-- What another bus master reads in a word cycle (R34, R435): the scratch pad only while the processor is halted, the
PSW always, memory. `none` where neither the processor nor memory answers; a device's data is its own. Where the master
puts an odd address on the lines the word that holds it answers, as A00 is ignored on a read (R67, G7): 777777 answers
with the PSW as 777776 does. DEDUCED, unsafe (entry 27). -/
def State.masterRead (s : State) (a : BusAddr) : Option Word :=
  if 0o777700 ≤ a.toNat ∧ a.toNat ≤ 0o777717 then
    if s.run = .halted then some (s.scratchWord (a.toNat % 16)) else none
  else if wordBase a = 0o777776 then some (zext s.psw)
  else match slaveIn s.cfg.memMap (wordBase a) with
    | some .memory => some (s.mem.readWord (wordBase a))
    | some .readOnly => some (s.mem.readWord (wordBase a))
    | some .slow => some (s.mem.readWord (wordBase a))
    | some .device => none
    | none => none

/-- A write cycle of another bus master between two steps: DMA (R332), or the console, which reaches the scratch pad of
a halted processor (R34). -/
def State.master (s : State) (c : MasterCycle) : State :=
  match c with
  | .write a v =>
    if s.run = .halted ∧ 0o777700 ≤ a.toNat ∧ a.toNat ≤ 0o777717 then s.setScratchWord (a.toNat % 16) v
    else s.dma c
  | .writeByte _ _ => s.dma c

/-- The INIT of a power-up or of the end of a momentary power failure (R380 1 and 2, R385): it is put on the UNIBUS,
the pending flags are clear (D12), and the restart routine comes next. -/
def State.powerInit (s : State) : State :=
  { s.busReset with
    run := .init, waitHeld := false, be := false, pe := false, stov := false, tbitFlag := false, pfail := false
    pup := false, pdwn := false, initPulses := s.initPulses + 1 }

/-- What the registers hold when power comes back: nothing the spec states, so free values (U1, D18; entry 18). -/
def State.coldRegisters (s : State) : State :=
  let w := fun k => Config.freeWord (s.draws + k)
  { s with
    regs := ⟨w 0, w 1, w 2, w 3, w 4, w 5, w 6, w 7⟩
    scratch := ⟨w 8, w 9, w 10, w 11, w 12, w 13, w 14, w 15⟩
    b := w 16
    psw := lowByte (w 17)
    draws := s.draws + 18 }

/-- AC LO changes: its assertion, once the PUP window is over, sets PFAIL and fires PDWN (R324, R383). -/
def State.setAcLo (s : State) (on : Bool) : State :=
  if on && !s.acLo && !s.pup && s.run != .init && s.run != .off then
    { s with acLo := true, pfail := true, pdwn := true }
  else { s with acLo := on }

/-- DC LO changes: asserted, nothing is predictable (R384); negated again, a cold power-up (R381). -/
def State.setDcLo (s : State) (on : Bool) : State :=
  if on then { s with run := .off, waitHeld := false, pup := false, pdwn := false }
  else if s.run = .off then s.coldRegisters.powerInit else s

/-- A halted processor goes on: with the fetch at PC, or back into the WAIT it was held in (R282, R285, R331, D15). -/
def State.goOn (s : State) : State :=
  if s.run = .halted then { s with run := if s.waitHeld then .wait else .run, waitHeld := false } else s

/-- Memory begins or ceases to answer reads of a word with a parity error (R72; entry 23). -/
def State.setParity (s : State) (a : BusAddr) (bad : Bool) : State :=
  { s with parityBad :=
      if bad then wordBase a :: s.parityBad.filter (· != wordBase a) else s.parityBad.filter (· != wordBase a) }

/-- One input event. -/
def State.accept (s : State) : Input → State
  | .request l r => s.setRequests l (s.requests l ++ [r])
  | .withdraw l => s.setRequests l []
  | .haltRequest on => { s with haltRequest := on }
  | .goOn => s.goOn
  | .acLo on => s.setAcLo on
  | .dcLo on => s.setDcLo on
  | .pupEnds => { s with pup := false }
  | .pdwnEnds => if s.pdwn then s.powerInit else s
  | .busInit => s.busReset
  | .master c => s.master c
  | .npr batches => { s with npr := s.npr ++ batches }
  | .parity a bad => s.setParity a bad

/-- Take in the events since the last SERVICE, in order. -/
def State.takeInputs (s : State) : State :=
  match s.inputs with
  | [] => s
  | now :: later => now.foldl State.accept { s with inputs := later }

end Sys2Proof.Machine
end

