-- ==== Sys2Proof/Machine/Service.lean ====
section
/-! DEFINITION. Between instructions: the SERVICE arbitration, the restart routine and the fetch (spec 60 R310, R325 to
R330; 70 R382; 20 R73). -/

namespace Sys2Proof.Machine

/-- A condition that SERVICE takes, in the order of R325. HALT (order 1) and the instruction traps (order 3) are taken
by the step that runs the instruction. -/
inductive Service where
  /-- Order 2: a bus or parity error left by an abandoned trap or restart sequence (R345). -/
  | busError
  /-- Order 4. -/
  | trace
  /-- Order 5. -/
  | stackOverflow
  /-- Order 6. -/
  | powerFail
  /-- Order 7. -/
  | haltSwitch
  /-- Order 8 to 11: the request granted, and those left on its line (R327). -/
  | interrupt (l : BrLevel) (r : BusRequest) (rest : List BusRequest)
  deriving DecidableEq, Repr

/-- The number of a bus-request level. -/
def BrLevel.number : BrLevel → Nat
  | .br4 => 4 | .br5 => 5 | .br6 => 6 | .br7 => 7

/-- The grant of one line: it must be asserted and above the processor priority (R326). -/
def grant (l : BrLevel) (s : State) : Option Service :=
  match s.requests l with
  | [] => none
  | r :: rest => if s.priority < l.number then some (.interrupt l r rest) else none

/-- The bus request that wins, highest level first (R325 orders 8 to 11, R326). -/
def arbitrate (s : State) : Option Service :=
  match grant .br7 s with
  | some c => some c
  | none => match grant .br6 s with
    | some c => some c
    | none => match grant .br5 s with
      | some c => some c
      | none => grant .br4 s

/-- The first condition present, in the order of R325. -/
def pendingService (s : State) : Option Service :=
  if s.be then some .busError
  else if s.tbitFlag then some .trace
  else if s.stov then some .stackOverflow
  else if s.pfail then some .powerFail
  else if s.haltRequest then some .haltSwitch
  else arbitrate s

/-- Serve one condition: clear it and run its trap or interrupt sequence, or grant the halt (R325, R327, R330). The
vectors are those of R347; trace and stack overflow by decisions D2 and D3 (entry 11). A trap or interrupt leaves B as
`trapSequence` says; what SERV's `B_UNIBUS DATA` (R460) brings where the halt request is granted is not stated, and B
keeps what it held (UNVERIFIED, unsafe: entry 24). -/
def serve (c : Service) (s : State) : Host.Outcome State Fault Refusal :=
  match c with
  | .busError =>
    .next (trapSequence (if s.pe then 0o114 else 0o4) { s with be := false, pe := false, run := .run })
  | .trace => .next (trapSequence 0o14 { s with tbitFlag := false, run := .run })
  | .stackOverflow => .next (trapSequence 0o4 { s with stov := false, run := .run })
  | .powerFail => .next (trapSequence 0o24 { s with pfail := false, run := .run })
  | .haltSwitch => .next { s with haltRequest := false, waitHeld := s.run == .wait, run := .halted }
  | .interrupt l (.vector v) rest => .next (trapSequence v ({ s with run := .run }.setRequests l rest))
  | .interrupt _ .silent _ => .fault .grantHung

/-- The restart routine REST-1 to REST-8 and the tail of the trap sequence (R382); PUP is fired (R381). -/
def restart (s : State) : State :=
  loadVector 0o24 (((({ s with run := .run, pup := true }.setB s.pc).setReg .r5 s.pc)).setR13 0o24)

/-- F1 and F2: read the word at PC into B and IR, then step PC; a failed read leaves PC (R73, R310, R313). The strobe
that ends the cycle loads both registers, failed or not (R451; entry 32). -/
def fetch (s : State) : Res Word :=
  match memRead .word s.pc s with
  | .ok w s => .ok w ({ s with ir := w }.setPc (s.pc + 2))
  | .err e s => .err e { s with ir := s.b }

/-- Put bytes at successive program addresses. -/
def placeBytes : List Byte → Word → State → State
  | [], _, s => s
  | v :: rest, a, s => placeBytes rest (a + 1) { s with mem := s.mem.write (addr18 s.cfg a).toNat v }

end Sys2Proof.Machine
end

