-- ==== Sys2Proof/Machine/Step.lean ====
section
/-! DEFINITION. One step: one instruction, or one trap, interrupt or restart sequence (spec 60 R310; decision D19). -/

namespace Sys2Proof.Machine

/-- Fetch, decode and execute one instruction (R310). A failed fetch takes the bus-error trap (R313). -/
def runInstruction (s : State) : Host.Outcome State Fault Refusal :=
  match fetch s with
  | .ok w s => exec (decodeWord w) s
  | .err e s => .next (s.takeBusError e)

/-- One step, after the events have been taken in (R42, R310, R325). A halted processor, a waiting one with nothing to
serve, and one whose power is off stay as they are (D15, D16, U16; entry 28). -/
def stepAfterInputs (s : State) : Host.Outcome State Fault Refusal :=
  match s.run with
  | .off => .next s
  | .halted => .next s
  | .init => if s.acLo then .fault .acLoAtStart else .next (restart s)
  | .wait => match pendingService s with
    | some c => serve c s
    | none => .next s
  | .run => match pendingService s with
    | some c => serve c s
    | none => runInstruction s

/-- One step of the machine. -/
def step (s : State) : Host.Outcome State Fault Refusal := stepAfterInputs s.takeInputs

/-- The state with an instruction of the opcode table, its bits numbered as the table numbers them, stored at PC with
zero words after it up to the longest instruction. -/
def State.withFetchWord (s : State) (nbits w : Nat) : State := placeBytes (tableBytes nbits w) s.pc s

end Sys2Proof.Machine
end

