-- ==== Sys2Proof/Safety.lean ====
section
/-! DEFINITION. The terms the statements use: what of a state a program can see, when an operand's bus cycles succeed,
what a completed operand access leaves, and the invariant every step keeps. Written from the spec beside the machine,
without the machine's own sequencing. -/

namespace Sys2Proof.Machine

/-! ### What is seen -/

/-- The state without the registers no instruction can name or read: B, IR and R10 to R17 (R39, R40). -/
def State.visible (s : State) : State := { s with b := 0, ir := 0, scratch := ⟨0, 0, 0, 0, 0, 0, 0, 0⟩ }

/-- The instruction is carried out and leaves the visible state of `t`. -/
def Completes (i : Instr) (s t : State) : Prop := ∃ u, exec i s = .next u ∧ u.visible = t.visible

/-- The processor is running, no event is waiting to be taken in, and SERVICE finds nothing to do: the next step
fetches (R310, R325 order 12). -/
def State.ready (s : State) : Bool := s.inputs == [] && s.run == .run && (pendingService s).isNone

/-! ### Memory as a program addresses it -/

/-- The word the lines carry in a read of a program address, the bus being free: the PSW at its own address, 0 in the
register window, memory's word; a free value where a device or nothing answers (R32, R33, R66, R71, R76). -/
def State.wordAt (s : State) (a : Word) : Word :=
  match s.targetOf a with
  | .psw => zext s.psw
  | .registers => 0
  | .slave .memory => s.mem.readWord (wordBase (addr18 s.cfg a))
  | .slave .readOnly => s.mem.readWord (wordBase (addr18 s.cfg a))
  | .slave .slow => s.mem.readWord (wordBase (addr18 s.cfg a))
  | .slave .device => Config.freeWord s.draws
  | .absent => Config.freeWord s.draws

/-- The byte a byte read of a program address takes of the word (R67); the odd byte of the PSW is 0 (R32). -/
def State.byteAt (s : State) (a : Word) : Byte :=
  match s.targetOf a with
  | .psw => if isOdd a then 0 else s.psw
  | .registers => 0
  | .slave .memory => s.mem.read (addr18 s.cfg a).toNat
  | .slave .readOnly => s.mem.read (addr18 s.cfg a).toNat
  | .slave .slow => s.mem.read (addr18 s.cfg a).toNat
  | .slave .device => (Config.freeWord s.draws).extractLsb' (if isOdd a then 8 else 0) 8
  | .absent => (Config.freeWord s.draws).extractLsb' (if isOdd a then 8 else 0) 8

/-- What an operand of this size at an address is; a byte is zero-extended. -/
def State.valueAt (s : State) (sz : Size) (a : Word) : Word :=
  match sz with
  | .word => s.wordAt a
  | .byte => zext (s.byteAt a)

/-- How a read of this size fails: a word at an odd address, an address nothing answers, a parity error (R65, R71,
R72); `none` where it is answered. -/
def State.readFails (s : State) (sz : Size) (a : Word) : Option BusFault :=
  if sz = .word ∧ isOdd a then some .busError
  else match s.targetOf a with
    | .absent => some .busError
    | .slave .memory => if s.parityFails (wordBase (addr18 s.cfg a)) then some .parityError else none
    | .slave .readOnly => if s.parityFails (wordBase (addr18 s.cfg a)) then some .parityError else none
    | .slave .slow => if s.parityFails (wordBase (addr18 s.cfg a)) then some .parityError else none
    | _ => none

/-- A write of this size fails: a word at an odd address, or an address no slave takes a write at (R65, R71). -/
def State.writeFails (s : State) (sz : Size) (a : Word) : Bool :=
  (sz == .word && isOdd a) || s.targetOf a == .absent || s.targetOf a == .slave .readOnly ||
    s.targetOf a == .slave .slow

/-- A read of this size is answered, by memory, the processor's own addresses or a device. -/
def State.readable (s : State) (sz : Size) (a : Word) : Bool := (s.readFails sz a).isNone

/-- A write of this size is taken, by memory, the processor's own addresses or a device. -/
def State.writable (s : State) (sz : Size) (a : Word) : Bool := !s.writeFails sz a

/-- What a read cycle brings: the other masters' cycles come first (R78, R85). -/
def State.gets (s : State) (sz : Size) (a : Word) : Word := s.granted.valueAt sz a

/-- What is seen after a read cycle, whether it succeeds or fails: the other masters' cycles, the processor's own on the
bus, and a free value used up where a device or nothing answers. A word cycle at an odd address is not on the bus
(R65). -/
def State.after (s : State) (k : CycleKind) (sz : Size) (a : Word) : State :=
  let t := s.granted
  if sz = .word ∧ isOdd a then { t with draws := t.draws + 1 }
  else match t.targetOf a with
    | .absent => { t with bus := ⟨k, addr18 t.cfg a, t.wordAt a, false⟩ :: t.bus, draws := t.draws + 1 }
    | .slave .device => { t with bus := ⟨k, addr18 t.cfg a, t.wordAt a, true⟩ :: t.bus, draws := t.draws + 1 }
    | _ => { t with bus := ⟨k, addr18 t.cfg a, t.wordAt a, true⟩ :: t.bus }

/-- A word written by a cycle that is answered: the PSW's own address loads bits 7:4 and leaves N, Z, V, C open (R30,
R31), the register window discards it (R33), memory keeps it, a device takes it (R76). -/
def State.withWord (s : State) (a v : Word) : State :=
  let t : State := { s with bus := ⟨.dato, addr18 s.cfg a, v, true⟩ :: s.bus }
  match s.targetOf a with
  | .psw => t.writePsw (lowByte v)
  | .slave .memory => { t with mem := s.mem.writeWord (addr18 s.cfg a).toNat v }
  | _ => t

/-- A byte written by a cycle that is answered; the odd byte of the PSW keeps nothing (R30). -/
def State.withByte (s : State) (a : Word) (v : Byte) : State :=
  let t : State := { s with bus := ⟨.datob, addr18 s.cfg a, zext v, true⟩ :: s.bus }
  match s.targetOf a with
  | .psw => if isOdd a then t else t.writePsw v
  | .slave .memory => { t with mem := s.mem.write (addr18 s.cfg a).toNat v }
  | _ => t

/-- The kind of the write cycle of an operand of this size (R64). -/
def writeKind : Size → CycleKind
  | .word => .dato
  | .byte => .datob

/-- A value of this size written by a cycle that is answered; a byte is bits 7:0. -/
def State.withValue (s : State) (sz : Size) (a v : Word) : State :=
  match sz with
  | .word => s.withWord a v
  | .byte => s.withByte a (lowByte v)

/-- What a word write that fails leaves: at an odd address nothing was on the bus (R65); nothing is stored (R312, V8.10),
but the location of a slow slave holds a free value afterwards (R71). -/
def State.withoutWord (s : State) (a v : Word) : State :=
  let t : State := { s with bus := ⟨.dato, addr18 s.cfg a, v, false⟩ :: s.bus }
  if isOdd a then s
  else match s.targetOf a with
    | .slave .slow =>
      { t with mem := s.mem.writeWord (addr18 s.cfg a).toNat (Config.freeWord s.draws), draws := s.draws + 1 }
    | _ => t

/-- What a byte write that fails leaves (R71, R312). -/
def State.withoutByte (s : State) (a : Word) (v : Byte) : State :=
  let t : State := { s with bus := ⟨.datob, addr18 s.cfg a, zext v, false⟩ :: s.bus }
  match s.targetOf a with
  | .slave .slow =>
    { t with mem := s.mem.write (addr18 s.cfg a).toNat (lowByte (Config.freeWord s.draws)), draws := s.draws + 1 }
  | _ => t

/-- The bus addresses of the bytes of memory that an answered write of this size at a program address changes (R68,
R69). -/
def State.bytesAt (s : State) (sz : Size) (a : Word) : List Nat :=
  match s.targetOf a with
  | .slave .memory => match sz with
    | .word => [(addr18 s.cfg a).toNat, (addr18 s.cfg a).toNat + 1]
    | .byte => [(addr18 s.cfg a).toNat]
  | _ => []

/-! ### An operand access -/

/-- The register of an index mode as the mode adds it: R7 has stepped over the index word (R143). -/
def indexBase (o : Operand) (s : State) : Word := if o.reg = .r7 then s.pc + 2 else s.reg o.reg

/-- X + Rn of modes 6 and 7 (R144). -/
def indexSum (o : Operand) (s : State) : Word := s.gets .word s.pc + indexBase o s

/-- The index word of modes 6 and 7 has been read and PC stepped over it (R144). -/
def indexStep (s : State) : State := (s.after .dati .word s.pc).setPc (s.pc + 2)

/-- A register decremented by a mode; R6 below 400 sets the stack-overflow flag (R154). -/
def decremented (r : Reg) (n : Word) (s : State) : State :=
  if r = .r6 ∧ (s.reg r - n).toNat < 0o400 then { s.setReg r (s.reg r - n) with stov := true }
  else s.setReg r (s.reg r - n)

/-- The operand's place by the table of modes (R140, R142). -/
def operandPlace (sz : Size) (o : Operand) (s : State) : Loc :=
  match o.mode with
  | .register => .reg o.reg
  | .deferred => .mem (s.reg o.reg)
  | .autoInc => .mem (s.reg o.reg)
  | .autoIncDef => .mem (s.gets .word (s.reg o.reg))
  | .autoDec => .mem (s.reg o.reg - stepSize sz o.reg)
  | .autoDecDef => .mem (s.gets .word (s.reg o.reg - 2))
  | .index => .mem (indexSum o s)
  | .indexDef => .mem ((indexStep s).gets .word (indexSum o s))

/-- The state in which the operand's own cycle begins: the words the mode reads have been read, and the registers it
steps are stepped, but for the step of mode 2, which follows the operand's cycle (R144, R145). -/
def operandReach (sz : Size) (o : Operand) (s : State) : State :=
  match o.mode with
  | .register => s
  | .deferred => s
  | .autoInc => s
  | .autoIncDef => (s.after .dati .word (s.reg o.reg)).setReg o.reg (s.reg o.reg + 2)
  | .autoDec => decremented o.reg (stepSize sz o.reg) s
  | .autoDecDef => (decremented o.reg 2 s).after .dati .word (s.reg o.reg - 2)
  | .index => indexStep s
  | .indexDef => (indexStep s).after .dati .word (indexSum o s)

/-- The step of mode 2 (R141, R145). -/
def stepped (sz : Size) (o : Operand) (s : State) : State :=
  if o.mode = .autoInc then s.setReg o.reg (s.reg o.reg + stepSize sz o.reg) else s

/-- The operand has been read, by a DATI, or by a DATIP where it will be written (R64, R144 to R148). -/
def operandStep (k : CycleKind) (sz : Size) (o : Operand) (s : State) : State :=
  match operandPlace sz o s with
  | .reg _ => s
  | .mem a => stepped sz o ((operandReach sz o s).after k sz a)

/-- The address of JMP or JSR has been worked out; there is no cycle at it (R151). -/
def addressStep (o : Operand) (s : State) : State := stepped .word o (operandReach .word o s)

/-- The index word and the pointer word an operand's mode reads are answered (R144). -/
def pointersReadable (o : Operand) (s : State) : Bool :=
  match o.mode with
  | .register => true
  | .deferred => true
  | .autoInc => true
  | .autoIncDef => s.readable .word (s.reg o.reg)
  | .autoDec => true
  | .autoDecDef => s.readable .word (s.reg o.reg - 2)
  | .index => s.readable .word s.pc
  | .indexDef => s.readable .word s.pc && s.readable .word (indexSum o s)

/-- Every read cycle of the operand succeeds. -/
def operandReadable (sz : Size) (o : Operand) (s : State) : Bool :=
  pointersReadable o s && match operandPlace sz o s with
    | .reg _ => true
    | .mem a => s.readable sz a

/-- Every read cycle of the operand, and the write of a result back to it, succeeds. -/
def operandWritable (sz : Size) (o : Operand) (s : State) : Bool :=
  operandReadable sz o s && match operandPlace sz o s with
    | .reg _ => true
    | .mem a => s.writable sz a

/-- The operand's value: all 16 bits of a register (R146), else what its cycle brings. -/
def operandValue (sz : Size) (o : Operand) (s : State) : Word :=
  match operandPlace sz o s with
  | .mem a => (operandReach sz o s).gets sz a
  | .reg r => s.reg r

/-- The operand of a byte instruction: bits 7:0 (R146, R155). -/
def operandByte (o : Operand) (s : State) : Byte := lowByte (operandValue .byte o s)

/-- A word result stored at a place (R149). -/
def storeWord (l : Loc) (v : Word) (s : State) : State :=
  match l with
  | .reg r => s.setReg r v
  | .mem a => s.withWord a v

/-- A byte result stored at a place; a register keeps bits 15:8 (R149, R155). -/
def storeByte (l : Loc) (v : Byte) (s : State) : State :=
  match l with
  | .reg r => s.setReg r ((s.reg r &&& 0o177400) ||| zext v)
  | .mem a => s.withByte a v

/-- A word instruction has read its destination, has set the codes, and has stored its result. -/
def afterWord (dst : Operand) (r : Word) (f : CC) (s : State) : State :=
  (storeWord (operandPlace .word dst s) r ((operandStep .datip .word dst s).setCC f)).complete

/-- A byte instruction has read its destination, has set the codes, and has stored its result. -/
def afterByte (dst : Operand) (r : Byte) (f : CC) (s : State) : State :=
  (storeByte (operandPlace .byte dst s) r ((operandStep .datip .byte dst s).setCC f)).complete

/-- An instruction that only reads its destination has read it and has set the codes. -/
def afterTest (sz : Size) (dst : Operand) (f : CC) (s : State) : State :=
  ((operandStep .dati sz dst s).setCC f).complete

/-- The C bit an instruction works with, its operand having been read (R171): with a DMA write to the PSW between the
fetch and that read, the C bit written. -/
def carryAt (k : CycleKind) (sz : Size) (o : Operand) (s : State) : Bool := (operandStep k sz o s).flagC

/-! ### An operand access that fails -/

/-- A read cycle made in state `s`: it fails and leaves what is seen after it, or it is answered and `go` says what
follows. -/
def abortRead (k : CycleKind) (sz : Size) (a : Word) (s : State) (go : Option (BusFault × State)) :
    Option (BusFault × State) :=
  match s.readFails sz a with
  | some e => some (e, s.after k sz a)
  | none => go

/-- The failed bus cycle of an address calculation and the state it leaves: what earlier cycles did stays, the register
of the failed reference is not stepped in mode 3 and is decremented in mode 5, PC is not advanced over an index word
that cannot be read (R144, R153, R314; D20). `none` where no cycle fails. -/
def addressAborted (o : Operand) (s : State) : Option (BusFault × State) :=
  match o.mode with
  | .register => none
  | .deferred => none
  | .autoInc => none
  | .autoIncDef => abortRead .dati .word (s.reg o.reg) s none
  | .autoDec => none
  | .autoDecDef => abortRead .dati .word (s.reg o.reg - 2) (decremented o.reg 2 s) none
  | .index => abortRead .dati .word s.pc s none
  | .indexDef => abortRead .dati .word s.pc s (abortRead .dati .word (indexSum o s) (indexStep s) none)

/-- The failed bus cycle of an operand access and the state it leaves: in the address calculation, or in the operand's
own cycle, after which the register of mode 2 is not stepped (R144, R145, R153, R314; D20). `none` where no cycle
fails. -/
def operandAborted (k : CycleKind) (sz : Size) (o : Operand) (s : State) : Option (BusFault × State) :=
  match addressAborted o s with
  | some f => some f
  | none => match operandPlace sz o s with
    | .reg _ => none
    | .mem a => abortRead k sz a (operandReach sz o s) none

/-- `carry_N(a + b + c)` (R10): the carry out of the top bit of an addition. -/
def carryOut {w : Nat} (a b : BitVec w) (c : Bool) : Bool := decide (2 ^ w ≤ a.toNat + b.toNat + c.toNat)

/-- A branch taken or not: PC moves by twice the signed offset, modulo 2^16 (R240). -/
def branched (taken : Bool) (offset : BitVec 8) (s : State) : State :=
  if taken then s.setPc (BitVec.ofInt 16 (s.pc.toNat + 2 * offset.toInt)) else s

/-- MOV and MOVB have read their source and set the codes; the destination is worked out from here (R212, R213). -/
def moved (sz : Size) (src : Operand) (s : State) : State :=
  match sz with
  | .word => (operandStep .dati .word src s).setCC
      ⟨(operandValue .word src s).msb, operandValue .word src s == 0, false, carryAt .dati .word src s⟩
  | .byte => (operandStep .dati .byte src s).setCC
      ⟨(operandByte src s).msb, operandByte src s == 0, false, carryAt .dati .byte src s⟩

/-! ### A completed trap entry -/

/-- The stack pointer lowered for a push, and the bus taken; R6 below 400 sets the stack-overflow flag (R21, R154). -/
def lowered (s : State) : State := (decremented .r6 2 s).granted

/-- A word pushed on the stack (R21). -/
def pushed (v : Word) (s : State) : State := (lowered s).withWord (s.sp - 2) v

/-- What a push that fails leaves (R314 e). -/
def unpushed (v : Word) (s : State) : State := (lowered s).withoutWord (s.sp - 2) v

/-- The PSW pushed, and then PC (R340, TRAP-2 to TRAP-6). -/
def saved (s : State) : State := pushed s.pc (pushed (zext (lowered s).psw) s)

/-- The two pushes of a trap sequence done, PC and PSW taken from the vector (R340). -/
def entered (v : Word) (s : State) : State :=
  let t := saved s
  let u := (t.after .dati .word v).setPc (t.gets .word v)
  { u.after .dati .word (v + 2) with psw := lowByte (u.gets .word (v + 2)) }

/-- The four bus cycles of the trap sequence succeed. -/
def entryAnswers (v : Word) (s : State) : Bool :=
  s.writable .word (s.sp - 2) && s.writable .word (s.sp - 4) && s.readable .word v && s.readable .word (v + 2)

/-- A word popped off the stack, into nothing yet (R21). -/
def popped (s : State) : State := (s.after .dati .word s.sp).setSp (s.sp + 2)

/-! ### What an instruction may touch -/

/-- The bus cycles an instruction makes after its fetch (R64, R74). -/
inductive Shape where
  /-- None. -/
  | plain
  /-- The destination is read. -/
  | test (sz : Size) (dst : Operand)
  /-- The destination is read and written. -/
  | modify (sz : Size) (dst : Operand)
  /-- Source and destination are read. -/
  | compare (sz : Size) (src dst : Operand)
  /-- Source and destination are read, the destination is written. -/
  | combine (sz : Size) (src dst : Operand)
  /-- As `combine`, with the codes set before the destination is reached. -/
  | move (sz : Size) (src dst : Operand)
  /-- Only the words the destination's mode reads. -/
  | jump (dst : Operand)
  /-- As `jump`, then one push. -/
  | call (link : Reg) (dst : Operand)
  /-- One pop. -/
  | ret (link : Reg)
  /-- Two pops. -/
  | unwind
  /-- The trap sequence with a vector. -/
  | trap (v : Word)
  deriving DecidableEq, Repr

/-- The bus cycles of each instruction. -/
def shapeOf : Instr → Shape
  | .halt => .plain
  | .wait => .plain
  | .rti => .unwind
  | .bpt => .trap 0o14
  | .iot => .trap 0o20
  | .reset => .plain
  | .rtt => .unwind
  | .jmp a => .jump a
  | .rts a => .ret a
  | .ccop _ _ _ _ _ => .plain
  | .swab a => .modify .word a
  | .br _ => .plain
  | .bne _ => .plain
  | .beq _ => .plain
  | .bge _ => .plain
  | .blt _ => .plain
  | .bgt _ => .plain
  | .ble _ => .plain
  | .bpl _ => .plain
  | .bmi _ => .plain
  | .bhi _ => .plain
  | .blos _ => .plain
  | .bvc _ => .plain
  | .bvs _ => .plain
  | .bcc _ => .plain
  | .bhis _ => .plain
  | .bcs _ => .plain
  | .blo _ => .plain
  | .jsr a b => .call a b
  | .clr a => .modify .word a
  | .com a => .modify .word a
  | .inc a => .modify .word a
  | .dec a => .modify .word a
  | .neg a => .modify .word a
  | .adc a => .modify .word a
  | .sbc a => .modify .word a
  | .tst a => .test .word a
  | .ror a => .modify .word a
  | .rol a => .modify .word a
  | .asr a => .modify .word a
  | .asl a => .modify .word a
  | .clrb a => .modify .byte a
  | .comb a => .modify .byte a
  | .incb a => .modify .byte a
  | .decb a => .modify .byte a
  | .negb a => .modify .byte a
  | .adcb a => .modify .byte a
  | .sbcb a => .modify .byte a
  | .tstb a => .test .byte a
  | .rorb a => .modify .byte a
  | .rolb a => .modify .byte a
  | .asrb a => .modify .byte a
  | .aslb a => .modify .byte a
  | .mov a b => .move .word a b
  | .cmp a b => .compare .word a b
  | .bit a b => .compare .word a b
  | .bic a b => .combine .word a b
  | .bis a b => .combine .word a b
  | .add a b => .combine .word a b
  | .movb a b => .move .byte a b
  | .cmpb a b => .compare .byte a b
  | .bitb a b => .compare .byte a b
  | .bicb a b => .combine .byte a b
  | .bisb a b => .combine .byte a b
  | .sub a b => .combine .word a b
  | .emt _ => .trap 0o30
  | .trap _ => .trap 0o34
  | .jmpRn _ => .trap 0o10
  | .jsrRn _ _ => .trap 0o10
  | .reserved000007 => .trap 0o10
  | .reserved000010 _ => .trap 0o10
  | .reserved000020 _ => .trap 0o10
  | .reserved000040 _ => .trap 0o10
  | .reserved000210 _ => .trap 0o10
  | .reserved000220 _ => .trap 0o10
  | .reserved006400 _ => .trap 0o10
  | .reserved007000 _ => .trap 0o10
  | .reserved070000 _ => .trap 0o10
  | .reserved106400 _ => .trap 0o10
  | .reserved107000 _ => .trap 0o10
  | .reserved170000 _ => .trap 0o10

/-- Every bus cycle of the instruction is answered. -/
def Shape.answered (s : State) : Shape → Bool
  | .plain => true
  | .test sz dst => operandReadable sz dst s
  | .modify sz dst => operandWritable sz dst s
  | .compare sz src dst => operandReadable sz src s && operandReadable sz dst (operandStep .dati sz src s)
  | .combine sz src dst => operandReadable sz src s && operandWritable sz dst (operandStep .dati sz src s)
  | .move sz src dst => operandReadable sz src s && operandWritable sz dst (moved sz src s)
  | .jump dst => dst.mode != .register && pointersReadable dst s
  | .call _ dst =>
    dst.mode != .register && pointersReadable dst s && s.writable .word ((addressStep dst s).sp - 2)
  | .ret _ => s.readable .word s.sp
  | .unwind => s.readable .word s.sp && s.readable .word (s.sp + 2)
  | .trap v => entryAnswers v s

/-- The program addresses the instruction stores to, with the size of each store. -/
def Shape.stores (s : State) : Shape → List (Size × Word)
  | .modify sz dst => place sz (operandPlace sz dst s)
  | .combine sz src dst => place sz (operandPlace sz dst (operandStep .dati sz src s))
  | .move sz src dst => place sz (operandPlace sz dst (moved sz src s))
  | .call _ dst => [(.word, (addressStep dst s).sp - 2)]
  | .trap _ => [(.word, s.sp - 2), (.word, s.sp - 4)]
  | .plain => []
  | .test _ _ => []
  | .compare _ _ _ => []
  | .jump _ => []
  | .ret _ => []
  | .unwind => []
where
  place (sz : Size) : Loc → List (Size × Word)
    | .reg _ => []
    | .mem a => [(sz, a)]

/-- The bus addresses of the bytes of memory the instruction stores to. -/
def Shape.bytes (s : State) (k : Shape) : List Nat := (k.stores s).flatMap fun p => s.bytesAt p.1 p.2

/-- The registers an operand's mode steps. -/
def stepsOf (o : Operand) : List Reg :=
  match o.mode with
  | .register => []
  | .deferred => []
  | .autoInc => [o.reg]
  | .autoIncDef => [o.reg]
  | .autoDec => [o.reg]
  | .autoDecDef => [o.reg]
  | .index => [.r7]
  | .indexDef => [.r7]

/-- The registers the instruction may write: destination registers, those its addressing modes step, R6 where it uses
the stack, and PC. -/
def Shape.registers : Shape → List Reg
  | .plain => [.r7]
  | .test _ dst => .r7 :: stepsOf dst
  | .modify _ dst => .r7 :: stepsOf dst ++ named dst
  | .compare _ src dst => .r7 :: stepsOf src ++ stepsOf dst
  | .combine _ src dst => .r7 :: stepsOf src ++ stepsOf dst ++ named dst
  | .move _ src dst => .r7 :: stepsOf src ++ stepsOf dst ++ named dst
  | .jump dst => .r7 :: stepsOf dst
  | .call link dst => .r7 :: .r6 :: link :: stepsOf dst
  | .ret link => [.r7, .r6, link]
  | .unwind => [.r7, .r6]
  | .trap _ => [.r7, .r6]
where
  named (o : Operand) : List Reg := if o.mode = .register then [o.reg] else []

/-- The instruction loads all of the PSW (R28 b, c). -/
def Shape.loadsPsw : Shape → Bool
  | .unwind => true
  | .trap _ => true
  | .plain => false
  | .test _ _ => false
  | .modify _ _ => false
  | .compare _ _ _ => false
  | .combine _ _ _ => false
  | .move _ _ _ => false
  | .jump _ => false
  | .call _ _ => false
  | .ret _ => false

/-! ### The invariant -/

/-- What every step keeps: memory is in its canonical form; a pending parity error is a pending bus error; a held
WAIT is held by a halt; during INIT no flag is pending and neither one-shot runs (D12); PDWN never runs with the
power off. No step ends in INIT (it goes on through the restart routine), so that its clause speaks of where a step may
begin. -/
structure Inv (s : State) : Prop where
  mem : s.mem.wf = true
  parity : s.pe = true → s.be = true
  held : s.waitHeld = true → s.run = .halted
  init : s.run = .init →
    s.be = false ∧ s.stov = false ∧ s.tbitFlag = false ∧ s.pfail = false ∧ s.pup = false ∧ s.pdwn = false
  off : s.run = .off → s.pdwn = false

end Sys2Proof.Machine
end

