-- ==== Sys2Proof/Certificates/Slice0/Obligations.lean ====
section
/-! DEFINITION. The statements for the provers. Each formalises the rules its docstring names. -/

open Sys2Proof Sys2Proof.Machine

/-- State.reset is the machine after the power-up sequence over the empty memory (model's choices: log entries 1, 2, 3). -/
def Obligations.ResetIsAfterPowerUp : Prop :=
  State.reset.pc = State.reset.wordAt 0o24 ∧ State.reset.psw = lowByte (State.reset.wordAt 0o26) ∧
    State.reset.scratch.r13 = 0o26 ∧ State.reset.b = State.reset.wordAt 0o26 ∧ State.reset.ir = 0o100000 ∧
    State.reset.be = false ∧ State.reset.pe = false ∧ State.reset.stov = false ∧ State.reset.tbitFlag = false ∧
    State.reset.pfail = false ∧ State.reset.run = .run ∧ State.reset.pup = true ∧ State.reset.npr = [] ∧ State.reset.bus = [] ∧
    State.reset.ready = true

/-- The state after reset satisfies the invariant that every step keeps. -/
def Obligations.ResetSatisfiesInvariant : Prop :=
  Inv State.reset

/-- Every step keeps the invariant, from every state that has it (no step ends in INIT: that clause is about the states before). -/
def Obligations.StepKeepsInvariant : Prop :=
  ∀ s t : State, Inv s → step s = .next t → Inv t

/-- What every instruction leaves unchanged: memory outside its stores, other registers, PSW 7:4, flags (RESET keeps the flags: D12, entry 29).
Other masters' batches used up by a cycle: entry 21. The record of the cycles: entry 22. Free words of devices and failed reads: entries 22, 32. -/
def Obligations.InstructionFrame : Prop :=
  ∀ (i : Instr) (s : State), s.mem.wf = true → (shapeOf i).answered s = true →
    ∃ t, exec i s = .next t ∧
      (s.npr = [] → ∀ a, a ∉ (shapeOf i).bytes s → t.mem.read a = s.mem.read a) ∧
      (∀ r, r ∉ (shapeOf i).registers → t.reg r = s.reg r) ∧
      (s.npr = [] → (shapeOf i).loadsPsw = false → (∀ p ∈ (shapeOf i).stores s, s.targetOf p.2 ≠ .psw) →
        t.psw.extractLsb' 4 4 = s.psw.extractLsb' 4 4) ∧
      t.be = s.be ∧ t.pe = s.pe ∧ t.pfail = s.pfail ∧ t.waitHeld = s.waitHeld ∧ t.cfg = s.cfg ∧
      t.parityBad = s.parityBad ∧ t.haltRequest = s.haltRequest ∧ t.acLo = s.acLo ∧ t.pup = s.pup ∧
      t.pdwn = s.pdwn ∧ t.inputs = s.inputs ∧ t.scratch.r14 = s.scratch.r14 ∧ t.scratch.r15 = s.scratch.r15 ∧
      t.scratch.r16 = s.scratch.r16 ∧ (s.stov = true → t.stov = true) ∧ (s.tbitFlag = true → t.tbitFlag = true) ∧
      (i ≠ .halt → i ≠ .wait → t.run = s.run) ∧
      (i ≠ .reset → t.br4 = s.br4 ∧ t.br5 = s.br5 ∧ t.br6 = s.br6 ∧ t.br7 = s.br7 ∧ t.initPulses = s.initPulses)

/-- Decoding an encoded well-formed instruction gives it back, and encoding what any word decodes to gives the word back. -/
def Obligations.DecodeAndEncodeAgree : Prop :=
  (∀ (i : Instr) (rest : List Byte), i.wf = true →
      decode (wordBytes (encodeWord i) ++ rest) = .ok (i.canonical, rest)) ∧
    ∀ w : Word, (decodeWord w).wf = true ∧ (decodeWord w).canonical = decodeWord w ∧ encodeWord (decodeWord w) = w

/-- The opcode map: which instruction every range of codes is (RTI, RTT codes by D4, reserved codes by D5; entries 12, 13). -/
def Obligations.OpcodeMapIsComplete : Prop :=
  (decodeWord 0o000000 = .halt ∧ decodeWord 0o000001 = .wait ∧ decodeWord 0o000002 = .rti ∧
    decodeWord 0o000003 = .bpt ∧ decodeWord 0o000004 = .iot ∧ decodeWord 0o000005 = .reset ∧
    decodeWord 0o000006 = .rtt) ∧
  ∀ w : Word,
    let n := w.toNat
    let dst := Operand.ofBits (w.extractLsb' 0 6)
    let src := Operand.ofBits (w.extractLsb' 6 6)
    let low := w.extractLsb' 0 8
    let link := Reg.ofBits (w.extractLsb' 6 3)
    ((0o000007 ≤ n ∧ n ≤ 0o000077) ∨ (0o000210 ≤ n ∧ n ≤ 0o000237) ∨ (0o006400 ≤ n ∧ n ≤ 0o007777) ∨
      (0o070000 ≤ n ∧ n ≤ 0o077777) ∨ (0o106400 ≤ n ∧ n ≤ 0o107777) ∨ 0o170000 ≤ n →
        shapeOf (decodeWord w) = .trap 0o10) ∧
    (0o000100 ≤ n → n ≤ 0o000107 → decodeWord w = .jmpRn dst.reg) ∧
    (0o000110 ≤ n → n ≤ 0o000177 → decodeWord w = .jmp dst) ∧
    (0o000200 ≤ n → n ≤ 0o000207 → decodeWord w = .rts dst.reg) ∧
    (0o000240 ≤ n → n ≤ 0o000277 →
      decodeWord w = .ccop (w.getLsbD 4) (w.getLsbD 3) (w.getLsbD 2) (w.getLsbD 1) (w.getLsbD 0)) ∧
    (0o000300 ≤ n → n ≤ 0o000377 → decodeWord w = .swab dst) ∧
    (0o000400 ≤ n → n ≤ 0o000777 → decodeWord w = .br low) ∧
    (0o001000 ≤ n → n ≤ 0o001377 → decodeWord w = .bne low) ∧
    (0o001400 ≤ n → n ≤ 0o001777 → decodeWord w = .beq low) ∧
    (0o002000 ≤ n → n ≤ 0o002377 → decodeWord w = .bge low) ∧
    (0o002400 ≤ n → n ≤ 0o002777 → decodeWord w = .blt low) ∧
    (0o003000 ≤ n → n ≤ 0o003377 → decodeWord w = .bgt low) ∧
    (0o003400 ≤ n → n ≤ 0o003777 → decodeWord w = .ble low) ∧
    (0o004000 ≤ n → n ≤ 0o004777 →
      decodeWord w = if dst.mode = .register then .jsrRn link dst.reg else .jsr link dst) ∧
    (0o005000 ≤ n → n ≤ 0o005077 → decodeWord w = .clr dst) ∧
    (0o005100 ≤ n → n ≤ 0o005177 → decodeWord w = .com dst) ∧
    (0o005200 ≤ n → n ≤ 0o005277 → decodeWord w = .inc dst) ∧
    (0o005300 ≤ n → n ≤ 0o005377 → decodeWord w = .dec dst) ∧
    (0o005400 ≤ n → n ≤ 0o005477 → decodeWord w = .neg dst) ∧
    (0o005500 ≤ n → n ≤ 0o005577 → decodeWord w = .adc dst) ∧
    (0o005600 ≤ n → n ≤ 0o005677 → decodeWord w = .sbc dst) ∧
    (0o005700 ≤ n → n ≤ 0o005777 → decodeWord w = .tst dst) ∧
    (0o006000 ≤ n → n ≤ 0o006077 → decodeWord w = .ror dst) ∧
    (0o006100 ≤ n → n ≤ 0o006177 → decodeWord w = .rol dst) ∧
    (0o006200 ≤ n → n ≤ 0o006277 → decodeWord w = .asr dst) ∧
    (0o006300 ≤ n → n ≤ 0o006377 → decodeWord w = .asl dst) ∧
    (0o010000 ≤ n → n ≤ 0o017777 → decodeWord w = .mov src dst) ∧
    (0o020000 ≤ n → n ≤ 0o027777 → decodeWord w = .cmp src dst) ∧
    (0o030000 ≤ n → n ≤ 0o037777 → decodeWord w = .bit src dst) ∧
    (0o040000 ≤ n → n ≤ 0o047777 → decodeWord w = .bic src dst) ∧
    (0o050000 ≤ n → n ≤ 0o057777 → decodeWord w = .bis src dst) ∧
    (0o060000 ≤ n → n ≤ 0o067777 → decodeWord w = .add src dst) ∧
    (0o100000 ≤ n → n ≤ 0o100377 → decodeWord w = .bpl low) ∧
    (0o100400 ≤ n → n ≤ 0o100777 → decodeWord w = .bmi low) ∧
    (0o101000 ≤ n → n ≤ 0o101377 → decodeWord w = .bhi low) ∧
    (0o101400 ≤ n → n ≤ 0o101777 → decodeWord w = .blos low) ∧
    (0o102000 ≤ n → n ≤ 0o102377 → decodeWord w = .bvc low) ∧
    (0o102400 ≤ n → n ≤ 0o102777 → decodeWord w = .bvs low) ∧
    (0o103000 ≤ n → n ≤ 0o103377 → decodeWord w = .bcc low) ∧
    (0o103400 ≤ n → n ≤ 0o103777 → decodeWord w = .bcs low) ∧
    (0o104000 ≤ n → n ≤ 0o104377 → decodeWord w = .emt low) ∧
    (0o104400 ≤ n → n ≤ 0o104777 → decodeWord w = .trap low) ∧
    (0o105000 ≤ n → n ≤ 0o105077 → decodeWord w = .clrb dst) ∧
    (0o105100 ≤ n → n ≤ 0o105177 → decodeWord w = .comb dst) ∧
    (0o105200 ≤ n → n ≤ 0o105277 → decodeWord w = .incb dst) ∧
    (0o105300 ≤ n → n ≤ 0o105377 → decodeWord w = .decb dst) ∧
    (0o105400 ≤ n → n ≤ 0o105477 → decodeWord w = .negb dst) ∧
    (0o105500 ≤ n → n ≤ 0o105577 → decodeWord w = .adcb dst) ∧
    (0o105600 ≤ n → n ≤ 0o105677 → decodeWord w = .sbcb dst) ∧
    (0o105700 ≤ n → n ≤ 0o105777 → decodeWord w = .tstb dst) ∧
    (0o106000 ≤ n → n ≤ 0o106077 → decodeWord w = .rorb dst) ∧
    (0o106100 ≤ n → n ≤ 0o106177 → decodeWord w = .rolb dst) ∧
    (0o106200 ≤ n → n ≤ 0o106277 → decodeWord w = .asrb dst) ∧
    (0o106300 ≤ n → n ≤ 0o106377 → decodeWord w = .aslb dst) ∧
    (0o110000 ≤ n → n ≤ 0o117777 → decodeWord w = .movb src dst) ∧
    (0o120000 ≤ n → n ≤ 0o127777 → decodeWord w = .cmpb src dst) ∧
    (0o130000 ≤ n → n ≤ 0o137777 → decodeWord w = .bitb src dst) ∧
    (0o140000 ≤ n → n ≤ 0o147777 → decodeWord w = .bicb src dst) ∧
    (0o150000 ≤ n → n ≤ 0o157777 → decodeWord w = .bisb src dst) ∧
    (0o160000 ≤ n → n ≤ 0o167777 → decodeWord w = .sub src dst)

/-- Words written out from the encodings decode to the instructions they stand for. -/
def Obligations.SampleWordsDecode : Prop :=
  decodeWord 0o060001 = .add ⟨.register, .r0⟩ ⟨.register, .r1⟩ ∧ decodeWord 0o005023 = .clr ⟨.autoInc, .r3⟩ ∧
    decodeWord 0o115465 = .movb ⟨.autoDecDef, .r4⟩ ⟨.index, .r5⟩ ∧ decodeWord 0o001375 = .bne 0o375 ∧
    decodeWord 0o004537 = .jsr .r5 ⟨.autoIncDef, .r7⟩ ∧ decodeWord 0o000205 = .rts .r5 ∧
    decodeWord 0o104001 = .emt 0o001 ∧ decodeWord 0o000243 = .ccop false false false true true ∧
    decodeWord 0o000000 = .halt

/-- A step of a processor with nothing to serve runs the instruction whose bytes stand at PC.
Other masters' batches used up by a cycle: entry 21. The record of the cycles: entry 22. Free words of devices and failed reads: entries 22, 32. -/
def Obligations.StepRunsDecodedInstruction : Prop :=
  ∀ (s : State) (i : Instr), s.ready = true → s.readable .word s.pc = true →
    let w := s.gets .word s.pc
    (s.npr = [] → lowByte w = s.byteAt s.pc ∧ highByte w = s.byteAt (s.pc + 1)) ∧
    (decode [lowByte w, highByte w] = .ok (i, []) →
      step s = exec i (({ s.after .dati .word s.pc with ir := w, b := w } : State).setPc (s.pc + 2)))

/-- A failed fetch of any instruction-stream word leaves PC, and the trap pushes it (entries 21, 32; PSW word pushed: D7, entry 7). -/
def Obligations.FetchFailureKeepsPc : Prop :=
  (∀ (s : State) (e : BusFault), s.ready = true → s.readFails .word s.pc = some e →
      (s.after .dati .word s.pc).regs = s.regs ∧
      ∃ t, step s = .next t ∧ t.visible = ((s.after .dati .word s.pc).takeBusError e).visible ∧
        (entryAnswers e.vector s = true → t.visible = (entered e.vector (s.after .dati .word s.pc)).visible)) ∧
    ∀ (s : State) (o : Operand) (e : BusFault), s.readFails .word s.pc = some e →
      o.mode = .index ∨ o.mode = .indexDef ∨ (o.reg = .r7 ∧ (o.mode = .autoInc ∨ o.mode = .autoIncDef)) →
      (∃ t, srcRead .word o s = .err e t ∧ t.visible = (s.after .dati .word s.pc).visible ∧ t.regs = s.regs) ∧
        (∃ t, dstRead .word o s = .err e t ∧ t.visible = (s.after .dati .word s.pc).visible ∧ t.regs = s.regs) ∧
        ∃ t, dstModifyRead .word o s = .err e t ∧ t.regs = s.regs ∧
          t.visible = (s.after (if o.mode = .autoInc then .datip else .dati) .word s.pc).visible

/-- A word holds its low byte at its even address and its high byte at the odd one (R61, the spec's inference: entry 31). -/
def Obligations.ByteOrderIsLittleEndian : Prop :=
  (∀ (s : State) (a v : Word), s.mem.wf = true → s.npr = [] → isOdd a = false → s.targetOf a = .slave .memory →
      s.parityFails (wordBase (addr18 s.cfg a)) = false →
      ∃ t, memWriteWord a v s = .ok () t ∧ t.mem.wf = true ∧
        (∃ u, memRead .byte a t = .ok (zext (v.extractLsb' 0 8)) u) ∧
        (∃ u, memRead .byte (a + 1) t = .ok (zext (v.extractLsb' 8 8)) u) ∧
        ∃ u, memRead .word a t = .ok v u) ∧
    (∀ (s : State) (a : Word) (lo hi : Byte), s.mem.wf = true → s.npr = [] → isOdd a = false →
      s.targetOf a = .slave .memory → s.parityFails (wordBase (addr18 s.cfg a)) = false →
      ∃ t u, memWriteByte a lo s = .ok () t ∧ memWriteByte (a + 1) hi t = .ok () u ∧
        ∃ x, memRead .word a u = .ok (hi ++ lo) x) ∧
    ∀ (s t : State) (w : Word), memRead .word s.pc s = .ok w t →
      fetch s = .ok w (({ t with ir := w } : State).setPc (t.pc + 2))

/-- A word access at an odd address is a bus error that touches nothing; a byte may be there (schedule: entry 21; free word drawn: entry 32). -/
def Obligations.OddWordAccessFails : Prop :=
  (∀ (s : State) (a v : Word), isOdd a = true →
      (∃ t, memRead .word a s = .err .busError t ∧
        t.visible = ({ s.granted with draws := s.granted.draws + 1 } : State).visible) ∧
      (∃ t, memReadModify .word a s = .err .busError t ∧
        t.visible = ({ s.granted with draws := s.granted.draws + 1 } : State).visible) ∧
      memWriteWord a v s = .err .busError s) ∧
    (∀ s : State, isOdd s.pc = true → ∃ t, fetch s = .err .busError t ∧
        t.visible = ({ s.granted with draws := s.granted.draws + 1 } : State).visible) ∧
    (∀ s : State, isOdd s.sp = true → ∃ t, pop s = .err .busError t ∧
        t.visible = ({ s.granted with draws := s.granted.draws + 1 } : State).visible) ∧
    (∀ (s : State) (v : Word), isOdd (s.sp - 2) = true →
      push v s = .err .busError (decremented .r6 2 s).granted) ∧
    (∀ (s : State) (side : Side) (r : Reg), isOdd (s.reg r) = true →
      ∃ t, locate side .byte ⟨.autoIncDef, r⟩ s = .err .busError t ∧
        t.visible = ({ s.granted with draws := s.granted.draws + 1 } : State).visible) ∧
    (∀ (s : State) (side : Side) (r : Reg), isOdd (s.reg r - 2) = true →
      let u := (decremented r 2 s).granted
      ∃ t, locate side .byte ⟨.autoDecDef, r⟩ s = .err .busError t ∧
        t.visible = ({ u with draws := u.draws + 1 } : State).visible) ∧
    (∀ (s : State) (side : Side) (r : Reg) (m : Mode), m = .index ∨ m = .indexDef → isOdd s.pc = true →
      ∃ t, locate side .byte ⟨m, r⟩ s = .err .busError t ∧
        t.visible = ({ s.granted with draws := s.granted.draws + 1 } : State).visible) ∧
    (∀ (s : State) (side : Side) (r : Reg), s.readable .word s.pc = true →
      isOdd (indexSum ⟨.indexDef, r⟩ s) = true →
      let u := (indexStep s).granted
      ∃ t, locate side .byte ⟨.indexDef, r⟩ s = .err .busError t ∧
        t.visible = ({ u with draws := u.draws + 1 } : State).visible) ∧
    ∀ (s : State) (a : Word), isOdd a = true → s.targetOf a = .slave .memory →
      s.parityFails (wordBase (addr18 s.cfg a)) = false →
        ∃ t, memRead .byte a s = .ok (zext (s.granted.mem.read (addr18 s.cfg a).toNat)) t

/-- A write to 777776 loads priority and T; one to the odd byte changes nothing (R30's inference: entry 27; DATOB record: entry 22). -/
def Obligations.PswAddressWrite : Prop :=
  (∀ (s : State) (a v : Word), addr18 s.cfg a = 0o777776 → ∃ t, memWriteWord a v s = .ok () t ∧
      t.psw.extractLsb' 5 3 = v.extractLsb' 5 3 ∧ t.psw.getLsbD 4 = v.getLsbD 4 ∧
      t = { s with psw := t.psw, draws := t.draws, bus := ⟨.dato, addr18 s.cfg a, v, true⟩ :: s.bus }) ∧
    (∀ (s : State) (a : Word) (v : Byte), addr18 s.cfg a = 0o777776 → ∃ t, memWriteByte a v s = .ok () t ∧
      t.psw.extractLsb' 5 3 = v.extractLsb' 5 3 ∧ t.psw.getLsbD 4 = v.getLsbD 4 ∧
      t = { s with psw := t.psw, draws := t.draws, bus := ⟨.datob, addr18 s.cfg a, zext v, true⟩ :: s.bus }) ∧
    ∀ (s : State) (a : Word) (v : Byte), addr18 s.cfg a = 0o777777 →
      memWriteByte a v s = .ok () { s with bus := ⟨.datob, addr18 s.cfg a, zext v, true⟩ :: s.bus }

/-- A running program reads 0 from 777700 to 777717, and its writes there are discarded without a bus error. -/
def Obligations.RegisterWindowWhileRunning : Prop :=
  ∀ (s : State) (a : Word), 0o777700 ≤ (addr18 s.cfg a).toNat → (addr18 s.cfg a).toNat ≤ 0o777717 →
    (isOdd a = false →
      (∃ t, memRead .word a s = .ok 0 t ∧ t.visible = ({ s.granted with bus := t.bus } : State).visible) ∧
      ∀ v, ∃ t, memWriteWord a v s = .ok () t ∧ t = { s with bus := t.bus }) ∧
    (∃ t, memRead .byte a s = .ok 0 t ∧ t.visible = ({ s.granted with bus := t.bus } : State).visible) ∧
    ∀ v, ∃ t, memWriteByte a v s = .ok () t ∧ t = { s with bus := t.bus }

/-- A program address is A15 to A00 of its bus address; A17 and A16 are the parameter ADDR18, by default those of D1 (entry 5). -/
def Obligations.ProgramAddressOnTheBus : Prop :=
  (∀ (c : Config) (a : Word), (addr18 c a).toNat % 2 ^ 16 = a.toNat ∧
      (isOdd a = false → (addr18 c (a + 1)).toNat = (addr18 c a).toNat + 1)) ∧
    (∀ (c : Config) (a : Word), c.addr18 = Config.ioPage →
      (addr18 c a).toNat = if 0o160000 ≤ a.toNat then a.toNat + 0o600000 else a.toNat) ∧
    Config.standard.addr18 = Config.ioPage ∧ addr18 Config.standard 0o177700 = 0o777700 ∧
    addr18 Config.standard 0o177776 = 0o777776

/-- In a halted processor a bus master reads and writes R0-R7, R10-R17, the PSW (R17 exchanged: entry 24; PSW's upper byte 0: D7, entry 7). -/
def Obligations.HaltedScratchPadOnTheBus : Prop :=
  (∀ (s : State) (a : BusAddr) (v : Word), s.run = .halted → 0o777700 ≤ a.toNat → a.toNat ≤ 0o777717 →
      (s.master (.write a v)).masterRead a = some (if a = 0o777717 then lowByte v ++ highByte v else v) ∧
        s.master (.write a v) = { s with regs := (s.master (.write a v)).regs, scratch := (s.master (.write a v)).scratch } ∧
        ∀ b : BusAddr, 0o777700 ≤ b.toNat → b.toNat ≤ 0o777717 → b ≠ a →
          (s.master (.write a v)).masterRead b = s.masterRead b) ∧
    ∀ s : State, s.run = .halted →
      s.masterRead 0o777700 = some (s.reg .r0) ∧ s.masterRead 0o777701 = some (s.reg .r1) ∧
      s.masterRead 0o777702 = some (s.reg .r2) ∧ s.masterRead 0o777703 = some (s.reg .r3) ∧
      s.masterRead 0o777704 = some (s.reg .r4) ∧ s.masterRead 0o777705 = some (s.reg .r5) ∧
      s.masterRead 0o777706 = some (s.reg .r6) ∧ s.masterRead 0o777707 = some (s.reg .r7) ∧
      s.masterRead 0o777710 = some s.scratch.r10 ∧ s.masterRead 0o777711 = some s.scratch.r11 ∧
      s.masterRead 0o777712 = some s.scratch.r12 ∧ s.masterRead 0o777713 = some s.scratch.r13 ∧
      s.masterRead 0o777714 = some s.scratch.r14 ∧ s.masterRead 0o777715 = some s.scratch.r15 ∧
      s.masterRead 0o777716 = some s.scratch.r16 ∧ s.masterRead 0o777717 = some s.scratch.r17 ∧
      s.masterRead 0o777776 = some (zext s.psw) ∧
      ∀ v : Word, (s.master (.write 0o777776 v)).psw.extractLsb' 4 4 = v.extractLsb' 4 4

/-- An instruction whose operand read fails takes the bus or parity trap (modes 3, 5, 7: D20, entry 19; MOV, CLR: D9, V8.5, entry 9).
The schedule of other masters is entry 21, the record of the cycles entry 22, the free words a failed read draws entry 32. -/
def Obligations.AbortedOperandTakesTheTrap : Prop :=
  (∀ (i : Instr) (k : CycleKind) (sz : Size) (dst : Operand) (s u : State) (e : BusFault),
      (shapeOf i = .test sz dst ∧ k = .dati) ∨ (shapeOf i = .modify sz dst ∧ k = .datip) →
      operandAborted k sz dst s = some (e, u) →
      ∃ t, exec i s = .next t ∧ t.visible = (u.takeBusError e).visible) ∧
    (∀ (i : Instr) (sz : Size) (src dst : Operand) (s u : State) (e : BusFault),
      shapeOf i = .compare sz src dst ∨ shapeOf i = .combine sz src dst ∨ shapeOf i = .move sz src dst →
      operandAborted .dati sz src s = some (e, u) →
      ∃ t, exec i s = .next t ∧ t.visible = (u.takeBusError e).visible) ∧
    (∀ (i : Instr) (k : CycleKind) (sz : Size) (src dst : Operand) (s u : State) (e : BusFault),
      (shapeOf i = .compare sz src dst ∧ k = .dati) ∨ (shapeOf i = .combine sz src dst ∧ k = .datip) →
      operandReadable sz src s = true → operandAborted k sz dst (operandStep .dati sz src s) = some (e, u) →
      ∃ t, exec i s = .next t ∧ t.visible = (u.takeBusError e).visible) ∧
    ∀ (i : Instr) (sz : Size) (src dst : Operand) (s u : State) (e : BusFault),
      shapeOf i = .move sz src dst → operandReadable sz src s = true →
      operandAborted .datip sz dst (moved sz src s) = some (e, u) →
      ∃ t, exec i s = .next t ∧ t.visible = (u.takeBusError e).visible

/-- JMP, JSR and RTS whose pointer, index word, push or pop fails take the trap (D20: entry 19; RTS: D14; JSR SP: entry 14).
The schedule of other masters is entry 21, the record of the cycles entry 22, the free words a failed read draws entry 32. -/
def Obligations.JumpAndCallFailures : Prop :=
  (∀ (link : Reg) (dst : Operand) (s u : State) (e : BusFault), addressAborted dst s = some (e, u) →
      (∃ t, exec (.jmp dst) s = .next t ∧ t.visible = (u.takeBusError e).visible) ∧
        ∃ t, exec (.jsr link dst) s = .next t ∧ t.visible = (u.takeBusError e).visible) ∧
    (∀ (link : Reg) (dst : Operand) (s : State), dst.mode ≠ .register → pointersReadable dst s = true →
      let u := addressStep dst s
      u.writeFails .word (u.sp - 2) = true →
      (link ≠ .r6 → ∃ t, exec (.jsr link dst) s = .next t ∧
        t.visible = ((unpushed (u.reg link) u).takeBusError .busError).visible) ∧
      (link = .r6 → ∃ t w, exec (.jsr link dst) s = .next t ∧
        t.visible = ((unpushed w u.drawn).takeBusError .busError).visible)) ∧
    ∀ (link : Reg) (s : State) (e : BusFault), s.readFails .word s.sp = some e →
      ∃ t, exec (.rts link) s = .next t ∧
        t.visible = ((((s.after .dati .word s.sp).setPc (s.reg link))).takeBusError e).visible

/-- If the write-back of any instruction fails, its codes and register steps stay and the trap is taken (location: R71, entry 32).
The schedule of other masters is entry 21, the record of the cycles entry 22, the free words a failed read draws entry 32. -/
def Obligations.FailedWriteKeepsNewCodes : Prop :=
  (∀ p ∈ [(Instr.clr, fun _ => aluClr), (.com, fun _ => aluCom), (.inc, fun _ => aluInc), (.dec, fun _ => aluDec),
        (.neg, fun _ => aluNeg), (.adc, fun _ => aluAdc), (.sbc, fun s : State => aluSbc s.cfg.sbcLiteral),
        (.ror, fun _ => aluRor), (.rol, fun _ => aluRol), (.asr, fun _ => aluAsr), (.asl, fun _ => aluAsl),
        (.swab, fun _ => aluSwab)],
      ∀ (dst : Operand) (s : State) (a : Word), operandReadable .word dst s = true →
        operandPlace .word dst s = .mem a → s.writeFails .word a = true →
        let u := operandStep .datip .word dst s
        let o := p.2 s u.cc (operandValue .word dst s)
        ∃ t, exec (p.1 dst) s = .next t ∧
          t.visible = (((u.setCC o.cc).withoutWord a o.r).takeBusError .busError).visible) ∧
    (∀ p ∈ [(Instr.clrb, fun _ => aluClr), (.comb, fun _ => aluCom), (.incb, fun _ => aluInc),
        (.decb, fun _ => aluDec), (.negb, fun _ => aluNeg), (.adcb, fun _ => aluAdc),
        (.sbcb, fun s : State => aluSbc s.cfg.sbcLiteral), (.rorb, fun _ => aluRor), (.rolb, fun _ => aluRol),
        (.asrb, fun _ => aluAsr), (.aslb, fun _ => aluAsl)],
      ∀ (dst : Operand) (s : State) (a : Word), operandReadable .byte dst s = true →
        operandPlace .byte dst s = .mem a → s.writeFails .byte a = true →
        let u := operandStep .datip .byte dst s
        let o := p.2 s u.cc (operandByte dst s)
        ∃ t, exec (p.1 dst) s = .next t ∧
          t.visible = (((u.setCC o.cc).withoutByte a o.r).takeBusError .busError).visible) ∧
    (∀ p ∈ [(Instr.bic, aluBic), (.bis, aluBis), (.add, aluAdd), (.sub, aluSub)],
      ∀ (src dst : Operand) (s : State) (a : Word), operandReadable .word src s = true →
        let x := operandStep .dati .word src s
        operandReadable .word dst x = true → operandPlace .word dst x = .mem a → x.writeFails .word a = true →
        let u := operandStep .datip .word dst x
        let o := p.2 u.cc (operandValue .word src s) (operandValue .word dst x)
        ∃ t, exec (p.1 src dst) s = .next t ∧
          t.visible = (((u.setCC o.cc).withoutWord a o.r).takeBusError .busError).visible) ∧
    (∀ p ∈ [(Instr.bicb, aluBic), (.bisb, aluBis)],
      ∀ (src dst : Operand) (s : State) (a : Word), operandReadable .byte src s = true →
        let x := operandStep .dati .byte src s
        operandReadable .byte dst x = true → operandPlace .byte dst x = .mem a → x.writeFails .byte a = true →
        let u := operandStep .datip .byte dst x
        let o := p.2 u.cc (operandByte src s) (operandByte dst x)
        ∃ t, exec (p.1 src dst) s = .next t ∧
          t.visible = (((u.setCC o.cc).withoutByte a o.r).takeBusError .busError).visible) ∧
    (∀ (src dst : Operand) (s : State) (a : Word), operandReadable .word src s = true →
        let x := moved .word src s
        operandReadable .word dst x = true → operandPlace .word dst x = .mem a → x.writeFails .word a = true →
        ∃ t, exec (.mov src dst) s = .next t ∧ t.visible =
          (((operandStep .datip .word dst x).withoutWord a (operandValue .word src s)).takeBusError .busError).visible) ∧
    ∀ (src dst : Operand) (s : State) (a : Word), operandReadable .byte src s = true →
        let x := moved .byte src s
        operandReadable .byte dst x = true → operandPlace .byte dst x = .mem a → x.writeFails .byte a = true →
        ∃ t, exec (.movb src dst) s = .next t ∧ t.visible =
          (((operandStep .datip .byte dst x).withoutByte a (operandByte src s)).takeBusError .busError).visible

/-- R11 holds the source operand, R12 a modified destination's address (R10; R12 of CMP, BIT, TST, JMP, JSR; mode 7; bytes: UNVERIFIED, entry 24). -/
def Obligations.OperandScratchWords : Prop :=
  (∀ (sz : Size) (o : Operand) (s : State), operandReadable sz o s = true →
      ∃ t, srcRead sz o s = .ok (operandValue sz o s) t ∧ t.scratch.r11 = operandValue sz o s ∧
        (o.mode = .register → t.scratch.r11 = s.reg o.reg) ∧
        ∀ a, operandPlace sz o s = .mem a → o.mode ≠ .deferred → o.mode ≠ .autoInc → t.scratch.r10 = a) ∧
    (∀ (sz : Size) (o : Operand) (s : State) (a : Word), operandReadable sz o s = true →
      operandPlace sz o s = .mem a →
      (∃ v t, dstRead sz o s = .ok v t ∧ t.scratch.r12 = a) ∧
        ∃ d t, dstModifyRead sz o s = .ok d t ∧ t.scratch.r12 = a) ∧
    (∀ (o : Operand) (s : State) (a : Word), pointersReadable o s = true → operandPlace .word o s = .mem a →
      ∃ l t, dstAddress o s = .ok l t ∧ t.scratch.r12 = a) ∧
    ∀ (sz : Size) (r : Reg) (s : State) (e : BusFault), s.readable .word s.pc = true →
      s.readFails .word (indexSum ⟨.indexDef, r⟩ s) = some e →
      (∃ t, srcRead sz ⟨.indexDef, r⟩ s = .err e t ∧ t.scratch.r10 = indexSum ⟨.indexDef, r⟩ s) ∧
        (∃ t, dstRead sz ⟨.indexDef, r⟩ s = .err e t ∧ t.scratch.r12 = indexSum ⟨.indexDef, r⟩ s) ∧
        (∃ t, dstModifyRead sz ⟨.indexDef, r⟩ s = .err e t ∧ t.scratch.r12 = indexSum ⟨.indexDef, r⟩ s) ∧
        ∃ t, dstAddress ⟨.indexDef, r⟩ s = .err e t ∧ t.scratch.r12 = indexSum ⟨.indexDef, r⟩ s

/-- The UNIBUS cycles of fetch, push, pop, trap and mode 0, 1 operands, in order (MOV, CLR: D9, entry 9; PSW word: D7, entry 7; record: entry 22).
Other masters' batches used up by a cycle: entry 21. The record of the cycles: entry 22. Free words of devices and failed reads: entries 22, 32. -/
def Obligations.BusCyclesOfEachAccess : Prop :=
  (∀ s : State, s.readable .word s.pc = true →
      ∃ t, fetch s = .ok (s.gets .word s.pc) t ∧
        t.bus = ⟨.dati, addr18 s.cfg s.pc, s.gets .word s.pc, true⟩ :: s.bus) ∧
    (∀ (i : Instr) (sz : Size) (r : Reg) (s : State), shapeOf i = .test sz ⟨.deferred, r⟩ →
      s.readable sz (s.reg r) = true →
      ∃ t, exec i s = .next t ∧ t.bus = ⟨.dati, addr18 s.cfg (s.reg r), s.granted.wordAt (s.reg r), true⟩ :: s.bus) ∧
    (∀ (i : Instr) (sz : Size) (r : Reg) (s : State), shapeOf i = .modify sz ⟨.deferred, r⟩ →
      s.readable sz (s.reg r) = true → s.writable sz (s.reg r) = true →
      ∃ t v, exec i s = .next t ∧ t.bus =
        ⟨writeKind sz, addr18 s.cfg (s.reg r), v, true⟩ ::
          ⟨.datip, addr18 s.cfg (s.reg r), s.granted.wordAt (s.reg r), true⟩ :: s.bus) ∧
    (∀ (i : Instr) (sz : Size) (src : Operand) (r : Reg) (s : State),
      src.mode = .register ∨ src.mode = .deferred → operandReadable sz src s = true → s.readable sz (s.reg r) = true →
      let u := operandStep .dati sz src s
      let x := moved sz src s
      let before := if src.mode = .register then s.bus
        else ⟨.dati, addr18 s.cfg (s.reg src.reg), s.granted.wordAt (s.reg src.reg), true⟩ :: s.bus
      (shapeOf i = .compare sz src ⟨.deferred, r⟩ →
        ∃ t, exec i s = .next t ∧ t.bus = ⟨.dati, addr18 s.cfg (s.reg r), u.granted.wordAt (s.reg r), true⟩ :: before) ∧
      (shapeOf i = .combine sz src ⟨.deferred, r⟩ → s.writable sz (s.reg r) = true →
        ∃ t v, exec i s = .next t ∧ t.bus =
          ⟨writeKind sz, addr18 s.cfg (s.reg r), v, true⟩ ::
            ⟨.datip, addr18 s.cfg (s.reg r), u.granted.wordAt (s.reg r), true⟩ :: before) ∧
      (shapeOf i = .move sz src ⟨.deferred, r⟩ → s.writable sz (s.reg r) = true →
        ∃ t, exec i s = .next t ∧ t.bus =
          ⟨writeKind sz, addr18 s.cfg (s.reg r),
              match sz with | .word => operandValue .word src s | .byte => zext (operandByte src s), true⟩ ::
            ⟨.datip, addr18 s.cfg (s.reg r), x.granted.wordAt (s.reg r), true⟩ :: before)) ∧
    (∀ (v : Word) (s : State), s.writable .word (s.sp - 2) = true →
      ∃ t, push v s = .ok () t ∧ t.bus = ⟨.dato, addr18 s.cfg (s.sp - 2), v, true⟩ :: s.bus) ∧
    (∀ s : State, s.readable .word s.sp = true →
      ∃ v t, pop s = .ok v t ∧ t.bus = ⟨.dati, addr18 s.cfg s.sp, v, true⟩ :: s.bus) ∧
    ∀ (v : Word) (s : State), entryAnswers v s = true → ∃ z, (trapSequence v s).psw = lowByte z ∧
      (trapSequence v s).bus =
        ⟨.dati, addr18 s.cfg (v + 2), z, true⟩ :: ⟨.dati, addr18 s.cfg v, (trapSequence v s).pc, true⟩ ::
        ⟨.dato, addr18 s.cfg (s.sp - 4), s.pc, true⟩ ::
        ⟨.dato, addr18 s.cfg (s.sp - 2), zext (lowered s).psw, true⟩ :: s.bus

/-- Other masters write between two bus cycles, not between a DATIP and its write (entries 21, 22; MOV, CLR: D9, entry 9; PSW word: D7, entry 7).
Other masters' batches used up by a cycle: entry 21. The record of the cycles: entry 22. Free words of devices and failed reads: entries 22, 32. -/
def Obligations.DmaBetweenBusCycles : Prop :=
  (∀ s : State, ∃ m p n, s.granted = { s with mem := m, psw := p, draws := n, npr := s.npr.tail }) ∧
    (∀ (s : State) (now : List MasterCycle) (c : MasterCycle) (later : List (List MasterCycle)),
      s.npr = (now ++ [c]) :: later → s.granted = ({ s with npr := now :: later } : State).granted.dma c) ∧
    (∀ (s : State) (a v : Word) (now : List MasterCycle) (later : List (List MasterCycle)), s.mem.wf = true →
      s.npr = (now ++ [.write (addr18 s.cfg a) v]) :: later → isOdd a = false → s.targetOf a = .slave .memory →
      s.parityFails (wordBase (addr18 s.cfg a)) = false → ∃ t, memRead .word a s = .ok v t ∧ t.npr = later) ∧
    (∀ (s : State) (b : List (List MasterCycle)), s.accept (.npr b) = { s with npr := s.npr ++ b }) ∧
    (∀ (i : Instr) (sz : Size) (r : Reg) (s : State), s.readable sz (s.reg r) = true → s.writable sz (s.reg r) = true →
      (shapeOf i = .modify sz ⟨.deferred, r⟩ →
        ∃ t v, exec i s = .next t ∧ t.npr = s.npr.tail ∧ t.mem = (s.granted.withValue sz (s.reg r) v).mem ∧
          t.bus = ⟨writeKind sz, addr18 s.cfg (s.reg r), v, true⟩ ::
            ⟨.datip, addr18 s.cfg (s.reg r), s.granted.wordAt (s.reg r), true⟩ :: s.bus)) ∧
    (∀ (i : Instr) (sz : Size) (src : Operand) (r : Reg) (s : State),
      src.mode = .register ∨ src.mode = .deferred → operandReadable sz src s = true →
      s.readable sz (s.reg r) = true → s.writable sz (s.reg r) = true →
      let u := operandStep .dati sz src s
      let x := moved sz src s
      let rest := if src.mode = .register then s.npr.tail else s.npr.tail.tail
      let before := if src.mode = .register then s.bus
        else ⟨.dati, addr18 s.cfg (s.reg src.reg), s.granted.wordAt (s.reg src.reg), true⟩ :: s.bus
      (shapeOf i = .combine sz src ⟨.deferred, r⟩ →
        ∃ t v, exec i s = .next t ∧ t.npr = rest ∧ t.mem = (u.granted.withValue sz (s.reg r) v).mem ∧
          t.bus = ⟨writeKind sz, addr18 s.cfg (s.reg r), v, true⟩ ::
            ⟨.datip, addr18 s.cfg (s.reg r), u.granted.wordAt (s.reg r), true⟩ :: before) ∧
      (shapeOf i = .move sz src ⟨.deferred, r⟩ →
        ∃ t v, exec i s = .next t ∧ t.npr = rest ∧ t.mem = (x.granted.withValue sz (s.reg r) v).mem ∧
          t.bus = ⟨writeKind sz, addr18 s.cfg (s.reg r), v, true⟩ ::
            ⟨.datip, addr18 s.cfg (s.reg r), x.granted.wordAt (s.reg r), true⟩ :: before)) ∧
    ∀ (v : Word) (s : State), entryAnswers v s = true →
      let p := (decremented .r6 2 s).granted
      let a := p.withWord (s.sp - 2) (zext p.psw)
      let b := (decremented .r6 2 a).granted.withWord (s.sp - 4) s.pc
      let d := b.after .dati .word v
      (trapSequence v s).npr = s.npr.tail.tail.tail.tail ∧ (trapSequence v s).pc = b.granted.wordAt v ∧
        (trapSequence v s).psw = lowByte (d.granted.wordAt (v + 2)) ∧ (trapSequence v s).mem = d.granted.mem

/-- The trap sequence pushes PSW then PC and loads both from the vector (upper byte pushed as 0: D7, entry 7).
Other masters' batches used up by a cycle: entry 21. The record of the cycles: entry 22. Free words of devices and failed reads: entries 22, 32. -/
def Obligations.TrapSequenceEntry : Prop :=
  ∀ (v : Word) (s : State), entryAnswers v s = true →
    (trapSequence v s).visible = (entered v s).visible ∧ (trapSequence v s).scratch = (s.setR13 (v + 2)).scratch ∧
      (trapSequence v s).sp = s.sp - 4 ∧
      (s.mem.wf = true → s.npr = [] → s.targetOf (s.sp - 2) = .slave .memory →
        s.targetOf (s.sp - 4) = .slave .memory →
        (trapSequence v s).wordAt (s.sp - 2) = zext s.psw ∧ (trapSequence v s).wordAt (s.sp - 4) = s.pc)

/-- A bus error at the first push of a trap sequence clears IR and halts, R6 lowered by 2; a later one does not (D17: entry 17; schedule: entry 21).
Other masters' batches used up by a cycle: entry 21. The record of the cycles: entry 22. Free words of devices and failed reads: entries 22, 32. -/
def Obligations.DoubleBusErrorHalts : Prop :=
  (∀ (v : Word) (s : State), isOdd (s.sp - 2) = true ∨ s.targetOf (s.sp - 2) = .absent →
      (trapSequence v s).run = .halted ∧ (trapSequence v s).ir = 0 ∧ (trapSequence v s).sp = s.sp - 2 ∧
      (trapSequence v s).pc = s.pc ∧ (∀ r, r ≠ .r6 → (trapSequence v s).reg r = s.reg r) ∧
      (trapSequence v s).mem = s.granted.mem ∧ (trapSequence v s).psw = s.granted.psw ∧
      (s.npr = [] → (trapSequence v s).mem = s.mem ∧ (trapSequence v s).psw = s.psw ∧
        (trapSequence v s).visible =
          ({ decremented .r6 2 s with run := .halted, bus := (trapSequence v s).bus } : State).visible)) ∧
    ∀ (v : Word) (s : State), s.writeFails .word (s.sp - 2) = false → (trapSequence v s).run = s.run

/-- A bus error later in a trap sequence abandons it there; the next step takes Trap(004) (D17: entry 17; entries 21, 32; PSW word: D7, entry 7). -/
def Obligations.LaterTrapErrorIsServedNext : Prop :=
  (∀ (v : Word) (s : State), s.writable .word (s.sp - 2) = true →
    (s.writeFails .word (s.sp - 4) = true →
      (trapSequence v s).visible =
        ((unpushed s.pc (pushed (zext (lowered s).psw) s)).pendBusError .busError).visible) ∧
    (s.writable .word (s.sp - 4) = true →
      (∀ e, s.readFails .word v = some e →
        (trapSequence v s).visible = (((saved s).after .dati .word v).pendBusError e).visible) ∧
      ∀ e, s.readable .word v = true → s.readFails .word (v + 2) = some e →
        let t := saved s
        let u := (t.after .dati .word v).setPc (t.gets .word v)
        (trapSequence v s).visible = ((u.after .dati .word (v + 2)).pendBusError e).visible)) ∧
  (∀ (s : State) (e : BusFault), s.inputs = [] → s.run = .run →
      step (s.pendBusError e) = .next (trapSequence e.vector { s with be := false, pe := false })) ∧
  ∀ (v : Word) (s : State), s.writeFails .word (s.sp - 2) = true →
    (trapSequence v s).visible = ({ unpushed (zext (lowered s).psw) s with run := .halted } : State).visible

/-- SERVICE takes the first pending condition in the order of Table 13 (vectors by D2, D3: entry 11; a granted request is consumed: entry 21). -/
def Obligations.ServiceOrder : Prop :=
  ∀ s : State, s.inputs = [] → s.run = .run →
    (s.be = true → step s = .next (trapSequence (if s.pe then 0o114 else 0o4) { s with be := false, pe := false })) ∧
    (s.be = false → s.tbitFlag = true → step s = .next (trapSequence 0o14 { s with tbitFlag := false })) ∧
    (s.be = false → s.tbitFlag = false → s.stov = true →
      step s = .next (trapSequence 0o4 { s with stov := false })) ∧
    (s.be = false → s.tbitFlag = false → s.stov = false → s.pfail = true →
      step s = .next (trapSequence 0o24 { s with pfail := false })) ∧
    (s.be = false → s.tbitFlag = false → s.stov = false → s.pfail = false → s.haltRequest = true →
      ∃ t, step s = .next t ∧ t.run = .halted) ∧
    (s.be = false → s.tbitFlag = false → s.stov = false → s.pfail = false → s.haltRequest = false →
      (∀ v rest, s.br7 = .vector v :: rest → s.priority < 7 →
        step s = .next (trapSequence v { s with br7 := rest })) ∧
      (s.br7 = [] → ∀ v rest, s.br6 = .vector v :: rest → s.priority < 6 →
        step s = .next (trapSequence v { s with br6 := rest })) ∧
      (s.br7 = [] → s.br6 = [] → ∀ v rest, s.br5 = .vector v :: rest → s.priority < 5 →
        step s = .next (trapSequence v { s with br5 := rest })) ∧
      (s.br7 = [] → s.br6 = [] → s.br5 = [] → ∀ v rest, s.br4 = .vector v :: rest → s.priority < 4 →
        step s = .next (trapSequence v { s with br4 := rest })) ∧
      (s.br7 = [] → s.br6 = [] → s.br5 = [] → s.br4 = [] → step s = runInstruction s))

/-- BR n is granted only above the processor priority, the highest asserted line winning; an ungranted request stays asserted. -/
def Obligations.BusRequestPriority : Prop :=
  (∀ (s : State) (l : BrLevel) (r : BusRequest) (rest : List BusRequest),
      arbitrate s = some (.interrupt l r rest) ↔
        s.requests l = r :: rest ∧ s.priority < l.number ∧
          ∀ m : BrLevel, l.number < m.number → s.requests m = []) ∧
    (∀ s : State, s.priority = 7 → arbitrate s = none) ∧
    (∀ (s : State) (l : BrLevel), s.priority ≤ 3 → s.requests l ≠ [] → ∃ c, arbitrate s = some c) ∧
    ∀ s : State, s.run = .wait → s.inputs = [] → s.be = false → s.tbitFlag = false → s.stov = false →
      s.pfail = false → s.haltRequest = false →
      (∀ l : BrLevel, s.requests l ≠ [] → l.number ≤ s.priority) → ∃ b, step s = .next { s with b := b }

/-- A granted bus request runs the trap sequence with the device's vector (request consumed: entry 21; PSW word pushed: D7, entry 7).
Other masters' batches used up by a cycle: entry 21. The record of the cycles: entry 22. Free words of devices and failed reads: entries 22, 32. -/
def Obligations.InterruptEntry : Prop :=
  ∀ (s : State) (l : BrLevel) (v : Word) (rest : List BusRequest),
    s.run = .run ∨ s.run = .wait → s.inputs = [] → s.be = false → s.tbitFlag = false → s.stov = false →
    s.pfail = false → s.haltRequest = false → arbitrate s = some (.interrupt l (.vector v) rest) →
    entryAnswers v s = true →
    ∃ t, step s = .next t ∧
      t.visible = ((entered v ({ s with run := .run } : State)).setRequests l rest).visible

/-- Every completed instruction but RTT sets the trace flag by the T bit after it (D10: entry 10; vector D2: entry 11; WAIT D16: entry 16). -/
def Obligations.TraceFlagAtCompletion : Prop :=
  (∀ (i : Instr) (s : State), i ≠ .rtt → (∀ v, shapeOf i ≠ .trap v) → (shapeOf i).answered s = true →
      ∃ t, exec i s = .next t ∧ t.tbitFlag = (t.flagT || s.tbitFlag)) ∧
    (∀ (i : Instr) (v : Word) (s : State), shapeOf i = .trap v → entryAnswers v s = true →
      ∃ t, exec i s = .next t ∧ t.tbitFlag = (s.flagT || s.tbitFlag)) ∧
    ∀ s : State, s.tbitFlag = true → s.be = false → s.inputs = [] → s.run = .run ∨ s.run = .wait →
      step s = .next (trapSequence 0o14 { s with tbitFlag := false, run := .run })

/-- An RTI that sets the T bit is traced before the instruction at the restored PC (D2: entry 11; D7: entry 7; D10: entry 10).
Other masters' batches used up by a cycle: entry 21. The record of the cycles: entry 22. Free words of devices and failed reads: entries 22, 32. -/
def Obligations.RtiTracesAtOnce : Prop :=
  ∀ s : State, s.readable .word s.sp = true → s.readable .word (s.sp + 2) = true →
    let x := (popped s).setPc (s.gets .word s.sp)
    let w := x.gets .word x.sp
    w.getLsbD 4 = true →
    ∃ t, exec .rti s = .next t ∧ t.tbitFlag = true ∧ t.pc = s.gets .word s.sp ∧ t.psw = lowByte w ∧
      (s.be = false → s.inputs = [] → s.run = .run → ∃ u, step t = .next u ∧
        u = trapSequence 0o14 { t with tbitFlag := false } ∧
        (entryAnswers 0o14 t = true →
          u.visible = (entered 0o14 ({ t with tbitFlag := false } : State)).visible ∧
          (t.mem.wf = true → t.npr = [] → t.targetOf (t.sp - 2) = .slave .memory →
            t.targetOf (t.sp - 4) = .slave .memory →
            u.wordAt (t.sp - 4) = s.gets .word s.sp ∧ u.wordAt (t.sp - 2) = zext (lowByte w) ∧
            (u.wordAt (t.sp - 2)).getLsbD 4 = true)))

/-- The completion of an RTT sets no trace flag: the instruction at the restored PC runs, and its completion sets it. -/
def Obligations.RttLetsOneInstructionRun : Prop :=
  ∀ s : State, s.readable .word s.sp = true → s.readable .word (s.sp + 2) = true →
    let y := (popped s).setPc (s.gets .word s.sp)
    ∃ t, exec .rtt s = .next t ∧ t.tbitFlag = s.tbitFlag ∧ t.pc = s.gets .word s.sp ∧
      t.psw = lowByte (y.gets .word y.sp) ∧
      (t.ready = true → step t = runInstruction t ∧
        ∀ (w : Word) (u : State), fetch t = .ok w u → decodeWord w ≠ .rtt → (∀ v, shapeOf (decodeWord w) ≠ .trap v) →
          (shapeOf (decodeWord w)).answered u = true →
          ∃ x, step t = .next x ∧ (x.flagT = true → x.tbitFlag = true)) ∧
      (t.inputs = [] → t.run = .run → ∀ c, pendingService t = some c → step t = serve c t)

/-- AC LO after the PUP window sets PFAIL, served through 024 at any priority (WAIT: D16, entry 16; HALTED: entry 28; PSW word: D7, entry 7).
Other masters' batches used up by a cycle: entry 21. The record of the cycles: entry 22. Free words of devices and failed reads: entries 22, 32. -/
def Obligations.PowerFailTrap : Prop :=
  (∀ s : State, s.run = .run ∨ s.run = .wait ∨ s.run = .halted → s.acLo = false → s.pup = false →
      s.accept (.acLo true) = { s with acLo := true, pfail := true, pdwn := true }) ∧
    (∀ s : State, s.acLo = true ∨ s.pup = true → s.accept (.acLo true) = { s with acLo := true }) ∧
    ∀ s : State, s.pfail = true → s.inputs = [] → s.be = false → s.tbitFlag = false → s.stov = false →
      s.run = .run ∨ s.run = .wait →
      step s = .next (trapSequence 0o24 { s with pfail := false, run := .run }) ∧
        (entryAnswers 0o24 s = true →
          (trapSequence 0o24 { s with pfail := false, run := .run }).visible =
            (entered 0o24 ({ s with pfail := false, run := .run } : State)).visible)

/-- The restart routine puts the old PC in R5, loads PC and PSW from 24 and 26, pushes nothing (other registers kept: D18, entry 18).
Other masters' batches used up by a cycle: entry 21. The record of the cycles: entry 22. Free words of devices and failed reads: entries 22, 32. -/
def Obligations.RestartRoutine : Prop :=
  ∀ s : State, s.run = .init → s.inputs = [] → s.acLo = false → s.readable .word 0o24 = true →
    s.readable .word 0o26 = true →
    let u := (s.after .dati .word 0o24).setPc (s.gets .word 0o24)
    ∃ t, step s = .next t ∧ t.scratch.r13 = 0o26 ∧
      t.visible = ({ (u.after .dati .word 0o26).setReg .r5 s.pc with
        psw := lowByte (u.gets .word 0o26), pup := true, run := .run } : State).visible

/-- When PDWN ends after a momentary power failure the machine goes through INIT and the restart routine, registers and memory kept. -/
def Obligations.MomentaryPowerFailureRestarts : Prop :=
  ∀ (s : State) (later : List (List Input)), s.pdwn = true → s.run ≠ .off → s.acLo = false →
    s.inputs = [.pdwnEnds] :: later → s.readable .word 0o24 = true → s.readable .word 0o26 = true →
    ∃ t, step s = .next t ∧ t.run = .run ∧ t.initPulses = s.initPulses + 1 ∧ (s.npr = [] → t.mem = s.mem) ∧
      t.reg .r5 = s.pc ∧ t.pc = s.gets .word 0o24 ∧
      t.psw = lowByte ((s.after .dati .word 0o24).gets .word 0o26) ∧
      ∀ r, r ≠ .r5 → r ≠ .r7 → t.reg r = s.reg r

/-- When DC LO is negated the machine powers up by the restart routine (choices: registers, memory kept: D18, entry 18; OFF stays: entry 28; D12: entry 29).
Other masters' batches used up by a cycle: entry 21. The record of the cycles: entry 22. Free words of devices and failed reads: entries 22, 32. -/
def Obligations.PowerUpThroughDcLo : Prop :=
  (∀ s : State, s.run = .off → s.inputs = [] → step s = .next s) ∧
    ∀ (s : State) (later : List (List Input)), s.run = .off → s.inputs = [.dcLo false] :: later → s.acLo = false →
      s.npr = [] → s.readable .word 0o24 = true → s.readable .word 0o26 = true →
      s.targetOf 0o24 ≠ .slave .device → s.targetOf 0o26 ≠ .slave .device →
      ∃ t, step s = .next t ∧ t.run = .run ∧ t.pup = true ∧ t.initPulses = s.initPulses + 1 ∧
        t.pc = s.wordAt 0o24 ∧ t.psw = lowByte (s.wordAt 0o26) ∧ t.scratch.r13 = 0o26 ∧
        t.reg .r5 = (({ s with inputs := later } : State).accept (.dcLo false)).pc ∧
        t.be = false ∧ t.pe = false ∧ t.stov = false ∧ t.tbitFlag = false ∧ t.pfail = false ∧ t.pdwn = false ∧
        t.waitHeld = false ∧ t.mem = s.mem ∧ t.inputs = later

/-- The halt request is granted in SERVICE above every interrupt and below power fail: HALTED (out of WAIT: D16, entries 15, 16). -/
def Obligations.HaltRequestGranted : Prop :=
  ∀ s : State, s.haltRequest = true → s.inputs = [] → s.run = .run ∨ s.run = .wait → s.be = false →
    s.tbitFlag = false → s.stov = false →
    (s.pfail = false → ∃ t, step s = .next t ∧ t.run = .halted ∧ t.regs = s.regs ∧ t.psw = s.psw ∧
      t.scratch = s.scratch ∧ t.mem = s.mem ∧ t.br4 = s.br4 ∧ t.br5 = s.br5 ∧ t.br6 = s.br6 ∧ t.br7 = s.br7) ∧
    (s.pfail = true → step s = .next (trapSequence 0o24 { s with pfail := false, run := .run }))

/-- HALTED is absorbing until Continue, which resumes the fetch at PC, or a held WAIT (D15, D16: entry 15). -/
def Obligations.HaltedUntilTheConsoleGoesOn : Prop :=
  (∀ s : State, s.run = .halted → s.inputs = [] → step s = .next s) ∧
    (∀ (s : State) (later : List (List Input)), s.run = .halted → s.waitHeld = false → s.inputs = [.goOn] :: later →
      pendingService s = none → step s = runInstruction { s with run := .run, inputs := later }) ∧
    ∀ (s : State) (later : List (List Input)), s.run = .halted → s.waitHeld = true → s.inputs = [.goOn] :: later →
      pendingService s = none → ∃ b, step s = .next { s with run := .wait, waitHeld := false, inputs := later, b := b }

/-- CLR and CLRB put 0 at the destination, after reading it (D9: entry 9), and set only Z (upper byte of a register kept: D23, entry 33).
Other masters' batches used up by a cycle: entry 21. The record of the cycles: entry 22. Free words of devices and failed reads: entries 22, 32. -/
def Obligations.ClrResult : Prop :=
  ∀ (dst : Operand) (s : State),
    decodeWord (0o0050#10 ++ dst.bits : BitVec 16) = .clr dst ∧
    decodeWord (0o1050#10 ++ dst.bits : BitVec 16) = .clrb dst ∧
    (operandWritable .word dst s = true → Completes (.clr dst) s (afterWord dst 0 ⟨false, true, false, false⟩ s)) ∧
    (operandWritable .byte dst s = true → Completes (.clrb dst) s (afterByte dst 0 ⟨false, true, false, false⟩ s))

/-- COM complements, NEG negates, TST only reads: N, Z, V, C by the rules (upper byte of a register kept: D23, entry 33).
Other masters' batches used up by a cycle: entry 21. The record of the cycles: entry 22. Free words of devices and failed reads: entries 22, 32. -/
def Obligations.ComNegTstResult : Prop :=
  ∀ (dst : Operand) (s : State),
    decodeWord (0o0051#10 ++ dst.bits : BitVec 16) = .com dst ∧
    decodeWord (0o1051#10 ++ dst.bits : BitVec 16) = .comb dst ∧
    (operandWritable .word dst s = true → Completes (.com dst) s
      (let d := operandValue .word dst s
       let r : Word := d ^^^ 0o177777
       afterWord dst r ⟨r.msb, r == 0, false, true⟩ s)) ∧
    (operandWritable .byte dst s = true → Completes (.comb dst) s
      (let d := operandByte dst s
       let r : Byte := d ^^^ 0o377
       afterByte dst r ⟨r.msb, r == 0, false, true⟩ s)) ∧
    decodeWord (0o0054#10 ++ dst.bits : BitVec 16) = .neg dst ∧
    decodeWord (0o1054#10 ++ dst.bits : BitVec 16) = .negb dst ∧
    (operandWritable .word dst s = true → Completes (.neg dst) s
      (let d := operandValue .word dst s
       let r : Word := 0 - d
       afterWord dst r ⟨r.msb, r == 0, r == 0o100000, r != 0⟩ s)) ∧
    (operandWritable .byte dst s = true → Completes (.negb dst) s
      (let d := operandByte dst s
       let r : Byte := 0 - d
       afterByte dst r ⟨r.msb, r == 0, r == 0o200, r != 0⟩ s)) ∧
    decodeWord (0o0057#10 ++ dst.bits : BitVec 16) = .tst dst ∧
    decodeWord (0o1057#10 ++ dst.bits : BitVec 16) = .tstb dst ∧
    (operandReadable .word dst s = true → Completes (.tst dst) s
      (let d := operandValue .word dst s
       afterTest .word dst ⟨d.msb, d == 0, false, false⟩ s)) ∧
    (operandReadable .byte dst s = true → Completes (.tstb dst) s
      (let d := operandByte dst s
       afterTest .byte dst ⟨d.msb, d == 0, false, false⟩ s))

/-- INC and DEC add and subtract 1 with wrap, V at the signed limit, C kept (upper byte of a register kept: D23, entry 33).
Other masters' batches used up by a cycle: entry 21. The record of the cycles: entry 22. Free words of devices and failed reads: entries 22, 32. -/
def Obligations.IncDecResult : Prop :=
  ∀ (dst : Operand) (s : State),
    decodeWord (0o0052#10 ++ dst.bits : BitVec 16) = .inc dst ∧
    decodeWord (0o1052#10 ++ dst.bits : BitVec 16) = .incb dst ∧
    (operandWritable .word dst s = true → Completes (.inc dst) s
      (let d := operandValue .word dst s
       let c := carryAt .datip .word dst s
       let r : Word := d + 1
       afterWord dst r ⟨r.msb, r == 0, d == 0o077777, c⟩ s)) ∧
    (operandWritable .byte dst s = true → Completes (.incb dst) s
      (let d := operandByte dst s
       let c := carryAt .datip .byte dst s
       let r : Byte := d + 1
       afterByte dst r ⟨r.msb, r == 0, d == 0o177, c⟩ s)) ∧
    decodeWord (0o0053#10 ++ dst.bits : BitVec 16) = .dec dst ∧
    decodeWord (0o1053#10 ++ dst.bits : BitVec 16) = .decb dst ∧
    (operandWritable .word dst s = true → Completes (.dec dst) s
      (let d := operandValue .word dst s
       let c := carryAt .datip .word dst s
       let r : Word := d - 1
       afterWord dst r ⟨r.msb, r == 0, d == 0o100000, c⟩ s)) ∧
    (operandWritable .byte dst s = true → Completes (.decb dst) s
      (let d := operandByte dst s
       let c := carryAt .datip .byte dst s
       let r : Byte := d - 1
       afterByte dst r ⟨r.msb, r == 0, d == 0o200, c⟩ s))

/-- ADC and ADCB add the carry to the destination (upper byte of a register kept: D23, entry 33).
Other masters' batches used up by a cycle: entry 21. The record of the cycles: entry 22. Free words of devices and failed reads: entries 22, 32. -/
def Obligations.AdcResult : Prop :=
  ∀ (dst : Operand) (s : State),
    decodeWord (0o0055#10 ++ dst.bits : BitVec 16) = .adc dst ∧
    decodeWord (0o1055#10 ++ dst.bits : BitVec 16) = .adcb dst ∧
    (operandWritable .word dst s = true → Completes (.adc dst) s
      (let d := operandValue .word dst s
       let c := carryAt .datip .word dst s
       let r : Word := d + (if c then 1 else 0 : Word)
       afterWord dst r ⟨r.msb, r == 0, d == 0o077777 && c, d == 0o177777 && c⟩ s)) ∧
    (operandWritable .byte dst s = true → Completes (.adcb dst) s
      (let d := operandByte dst s
       let c := carryAt .datip .byte dst s
       let r : Byte := d + (if c then 1 else 0 : Byte)
       afterByte dst r ⟨r.msb, r == 0, d == 0o177 && c, d == 0o377 && c⟩ s))

/-- SBC and SBCB subtract the carry; C and V by D8, or literally with SBC_LITERAL (entry 8) (upper byte of a register kept: D23, entry 33).
Other masters' batches used up by a cycle: entry 21. The record of the cycles: entry 22. Free words of devices and failed reads: entries 22, 32. -/
def Obligations.SbcResult : Prop :=
  ∀ (dst : Operand) (s : State),
    decodeWord (0o0056#10 ++ dst.bits : BitVec 16) = .sbc dst ∧
    decodeWord (0o1056#10 ++ dst.bits : BitVec 16) = .sbcb dst ∧
    (operandWritable .word dst s = true → Completes (.sbc dst) s
      (let d := operandValue .word dst s
       let c := carryAt .datip .word dst s
       let r : Word := d - (if c then 1 else 0 : Word)
       afterWord dst r (if s.cfg.sbcLiteral then ⟨r.msb, r == 0, d == 0o100000, !(d == 0 && c)⟩
         else ⟨r.msb, r == 0, d == 0o100000 && c, d == 0 && c⟩) s)) ∧
    (operandWritable .byte dst s = true → Completes (.sbcb dst) s
      (let d := operandByte dst s
       let c := carryAt .datip .byte dst s
       let r : Byte := d - (if c then 1 else 0 : Byte)
       afterByte dst r (if s.cfg.sbcLiteral then ⟨r.msb, r == 0, d == 0o200, !(d == 0 && c)⟩
         else ⟨r.msb, r == 0, d == 0o200 && c, d == 0 && c⟩) s))

/-- ROR, ROL, ASR, ASL: rotates through C and arithmetic shifts; V is the new N xor the new C (upper byte of a register kept: D23, entry 33).
Other masters' batches used up by a cycle: entry 21. The record of the cycles: entry 22. Free words of devices and failed reads: entries 22, 32. -/
def Obligations.RotateShiftResult : Prop :=
  ∀ (dst : Operand) (s : State),
    decodeWord (0o0060#10 ++ dst.bits : BitVec 16) = .ror dst ∧
    decodeWord (0o1060#10 ++ dst.bits : BitVec 16) = .rorb dst ∧
    (operandWritable .word dst s = true → Completes (.ror dst) s
      (let d := operandValue .word dst s
       let c := carryAt .datip .word dst s
       let r : Word := (if c then 0o100000 else 0 : Word) ||| (d >>> 1)
       afterWord dst r ⟨r.msb, r == 0, r.msb ^^ d.getLsbD 0, d.getLsbD 0⟩ s)) ∧
    (operandWritable .byte dst s = true → Completes (.rorb dst) s
      (let d := operandByte dst s
       let c := carryAt .datip .byte dst s
       let r : Byte := (if c then 0o200 else 0 : Byte) ||| (d >>> 1)
       afterByte dst r ⟨r.msb, r == 0, r.msb ^^ d.getLsbD 0, d.getLsbD 0⟩ s)) ∧
    decodeWord (0o0061#10 ++ dst.bits : BitVec 16) = .rol dst ∧
    decodeWord (0o1061#10 ++ dst.bits : BitVec 16) = .rolb dst ∧
    (operandWritable .word dst s = true → Completes (.rol dst) s
      (let d := operandValue .word dst s
       let c := carryAt .datip .word dst s
       let r : Word := (d <<< 1) ||| (if c then 1 else 0 : Word)
       afterWord dst r ⟨r.msb, r == 0, r.msb ^^ d.msb, d.msb⟩ s)) ∧
    (operandWritable .byte dst s = true → Completes (.rolb dst) s
      (let d := operandByte dst s
       let c := carryAt .datip .byte dst s
       let r : Byte := (d <<< 1) ||| (if c then 1 else 0 : Byte)
       afterByte dst r ⟨r.msb, r == 0, r.msb ^^ d.msb, d.msb⟩ s)) ∧
    decodeWord (0o0062#10 ++ dst.bits : BitVec 16) = .asr dst ∧
    decodeWord (0o1062#10 ++ dst.bits : BitVec 16) = .asrb dst ∧
    (operandWritable .word dst s = true → Completes (.asr dst) s
      (let d := operandValue .word dst s
       let r : Word := (d >>> 1) ||| (d &&& 0o100000)
       afterWord dst r ⟨r.msb, r == 0, r.msb ^^ d.getLsbD 0, d.getLsbD 0⟩ s)) ∧
    (operandWritable .byte dst s = true → Completes (.asrb dst) s
      (let d := operandByte dst s
       let r : Byte := (d >>> 1) ||| (d &&& 0o200)
       afterByte dst r ⟨r.msb, r == 0, r.msb ^^ d.getLsbD 0, d.getLsbD 0⟩ s)) ∧
    decodeWord (0o0063#10 ++ dst.bits : BitVec 16) = .asl dst ∧
    decodeWord (0o1063#10 ++ dst.bits : BitVec 16) = .aslb dst ∧
    (operandWritable .word dst s = true → Completes (.asl dst) s
      (let d := operandValue .word dst s
       let r : Word := d <<< 1
       afterWord dst r ⟨r.msb, r == 0, r.msb ^^ d.msb, d.msb⟩ s)) ∧
    (operandWritable .byte dst s = true → Completes (.aslb dst) s
      (let d := operandByte dst s
       let r : Byte := d <<< 1
       afterByte dst r ⟨r.msb, r == 0, r.msb ^^ d.msb, d.msb⟩ s))

/-- SWAB exchanges the bytes; N, Z of the low byte, V, C cleared; an odd destination traps (mode 3 stepped: D20, entry 19; R17: R39, entry 24).
The batch of other masters' cycles and the free word that the odd read uses up are entries 21 and 32. -/
def Obligations.SwabResult : Prop :=
  ∀ (dst : Operand) (s : State),
    decodeWord (0o0003#10 ++ dst.bits : BitVec 16) = .swab dst ∧
    (operandWritable .word dst s = true →
      let d := operandValue .word dst s
      let r : Word := (d <<< 8) ||| (d >>> 8)
      Completes (.swab dst) s (afterWord dst r ⟨r.getLsbD 7, r &&& 0o377 == 0, false, false⟩ s) ∧
        ∃ t, exec (.swab dst) s = .next t ∧ t.scratch.r17 = r) ∧
    (∀ a, operandPlace .word dst s = .mem a → isOdd a = true → pointersReadable dst s = true →
      ∃ t e u, exec (.swab dst) s = .next t ∧ operandAborted .datip .word dst s = some (e, u) ∧ e = .busError ∧
        t.visible = (u.takeBusError .busError).visible)

/-- MOV and MOVB copy the source, MOVB to a register with sign extension (a memory destination is read first: D9, entry 9).
Other masters' batches used up by a cycle: entry 21. The record of the cycles: entry 22. Free words of devices and failed reads: entries 22, 32. -/
def Obligations.MovResult : Prop :=
  ∀ (src dst : Operand) (s : State),
    decodeWord (0o01#4 ++ src.bits ++ dst.bits : BitVec 16) = .mov src dst ∧
    (operandReadable .word src s = true →
      let v := operandValue .word src s
      let u := (operandStep .dati .word src s).setCC ⟨v.msb, v == 0, false, carryAt .dati .word src s⟩
      operandWritable .word dst u = true → Completes (.mov src dst) s
        (storeWord (operandPlace .word dst u) v (operandStep .datip .word dst u)).complete) ∧
    decodeWord (0o11#4 ++ src.bits ++ dst.bits : BitVec 16) = .movb src dst ∧
    (operandReadable .byte src s = true →
      let v := operandByte src s
      let u := (operandStep .dati .byte src s).setCC ⟨v.msb, v == 0, false, carryAt .dati .byte src s⟩
      (dst.mode = .register → Completes (.movb src dst) s (u.setReg dst.reg (v.signExtend 16)).complete) ∧
      (dst.mode ≠ .register → operandWritable .byte dst u = true → Completes (.movb src dst) s
        (storeByte (operandPlace .byte dst u) v (operandStep .datip .byte dst u)).complete))

/-- CMP and CMPB set the codes of source minus destination and write nothing. -/
def Obligations.CmpResult : Prop :=
  ∀ (src dst : Operand) (s : State),
    decodeWord (0o02#4 ++ src.bits ++ dst.bits : BitVec 16) = .cmp src dst ∧
    (operandReadable .word src s = true → operandReadable .word dst (operandStep .dati .word src s) = true →
      Completes (.cmp src dst) s
        (let v := operandValue .word src s
         let u := operandStep .dati .word src s
         let d := operandValue .word dst u
         let r : Word := v - d
         afterTest .word dst ⟨r.msb, r == 0, v.msb != d.msb && d.msb == r.msb, !carryOut v (d ^^^ 0o177777) true⟩ u)) ∧
    decodeWord (0o12#4 ++ src.bits ++ dst.bits : BitVec 16) = .cmpb src dst ∧
    (operandReadable .byte src s = true → operandReadable .byte dst (operandStep .dati .byte src s) = true →
      Completes (.cmpb src dst) s
        (let v := operandByte src s
         let u := operandStep .dati .byte src s
         let d := operandByte dst u
         let r : Byte := v - d
         afterTest .byte dst ⟨r.msb, r == 0, v.msb != d.msb && d.msb == r.msb, !carryOut v (d ^^^ 0o377) true⟩ u))

/-- BIT, BIC and BIS: N and Z of the result, V cleared, C kept; BIT writes nothing (upper byte of a register kept: D23, entry 33).
Other masters' batches used up by a cycle: entry 21. The record of the cycles: entry 22. Free words of devices and failed reads: entries 22, 32. -/
def Obligations.LogicalResult : Prop :=
  ∀ (src dst : Operand) (s : State),
    decodeWord (0o03#4 ++ src.bits ++ dst.bits : BitVec 16) = .bit src dst ∧
    (operandReadable .word src s = true → operandReadable .word dst (operandStep .dati .word src s) = true →
      Completes (.bit src dst) s
        (let v := operandValue .word src s
         let u := operandStep .dati .word src s
         let d := operandValue .word dst u
         let c := carryAt .dati .word dst u
         let r : Word := v &&& d
         afterTest .word dst ⟨r.msb, r == 0, false, c⟩ u)) ∧
    decodeWord (0o13#4 ++ src.bits ++ dst.bits : BitVec 16) = .bitb src dst ∧
    (operandReadable .byte src s = true → operandReadable .byte dst (operandStep .dati .byte src s) = true →
      Completes (.bitb src dst) s
        (let v := operandByte src s
         let u := operandStep .dati .byte src s
         let d := operandByte dst u
         let c := carryAt .dati .byte dst u
         let r : Byte := v &&& d
         afterTest .byte dst ⟨r.msb, r == 0, false, c⟩ u)) ∧
    decodeWord (0o04#4 ++ src.bits ++ dst.bits : BitVec 16) = .bic src dst ∧
    (operandReadable .word src s = true → operandWritable .word dst (operandStep .dati .word src s) = true →
      Completes (.bic src dst) s
        (let v := operandValue .word src s
         let u := operandStep .dati .word src s
         let d := operandValue .word dst u
         let c := carryAt .datip .word dst u
         let r : Word := (v ^^^ 0o177777) &&& d
         afterWord dst r ⟨r.msb, r == 0, false, c⟩ u)) ∧
    decodeWord (0o14#4 ++ src.bits ++ dst.bits : BitVec 16) = .bicb src dst ∧
    (operandReadable .byte src s = true → operandWritable .byte dst (operandStep .dati .byte src s) = true →
      Completes (.bicb src dst) s
        (let v := operandByte src s
         let u := operandStep .dati .byte src s
         let d := operandByte dst u
         let c := carryAt .datip .byte dst u
         let r : Byte := (v ^^^ 0o377) &&& d
         afterByte dst r ⟨r.msb, r == 0, false, c⟩ u)) ∧
    decodeWord (0o05#4 ++ src.bits ++ dst.bits : BitVec 16) = .bis src dst ∧
    (operandReadable .word src s = true → operandWritable .word dst (operandStep .dati .word src s) = true →
      Completes (.bis src dst) s
        (let v := operandValue .word src s
         let u := operandStep .dati .word src s
         let d := operandValue .word dst u
         let c := carryAt .datip .word dst u
         let r : Word := v ||| d
         afterWord dst r ⟨r.msb, r == 0, false, c⟩ u)) ∧
    decodeWord (0o15#4 ++ src.bits ++ dst.bits : BitVec 16) = .bisb src dst ∧
    (operandReadable .byte src s = true → operandWritable .byte dst (operandStep .dati .byte src s) = true →
      Completes (.bisb src dst) s
        (let v := operandByte src s
         let u := operandStep .dati .byte src s
         let d := operandByte dst u
         let c := carryAt .datip .byte dst u
         let r : Byte := v ||| d
         afterByte dst r ⟨r.msb, r == 0, false, c⟩ u))

/-- ADD and SUB put the sum and destination minus source at the destination, with signed overflow and carry or borrow. -/
def Obligations.AddSubResult : Prop :=
  ∀ (src dst : Operand) (s : State),
    decodeWord (0o06#4 ++ src.bits ++ dst.bits : BitVec 16) = .add src dst ∧
    (operandReadable .word src s = true → operandWritable .word dst (operandStep .dati .word src s) = true →
      Completes (.add src dst) s
        (let v := operandValue .word src s
         let u := operandStep .dati .word src s
         let d := operandValue .word dst u
         let r : Word := v + d
         afterWord dst r ⟨r.msb, r == 0, v.msb == d.msb && r.msb != v.msb, carryOut v d false⟩ u)) ∧
    decodeWord (0o16#4 ++ src.bits ++ dst.bits : BitVec 16) = .sub src dst ∧
    (operandReadable .word src s = true → operandWritable .word dst (operandStep .dati .word src s) = true →
      Completes (.sub src dst) s
        (let v := operandValue .word src s
         let u := operandStep .dati .word src s
         let d := operandValue .word dst u
         let r : Word := d - v
         afterWord dst r ⟨r.msb, r == 0, v.msb != d.msb && v.msb == r.msb, !carryOut d (v ^^^ 0o177777) true⟩ u))

/-- BR, BNE, BEQ, BGE, BLT, BGT and BLE branch on their conditions and change only PC. -/
def Obligations.SignedBranches : Prop :=
  ∀ (offset : BitVec 8) (s : State),
    decodeWord (0o001#8 ++ offset : BitVec 16) = .br offset ∧
    (∃ b, exec (.br offset) s = .next { (branched (true) offset s).complete with b := b }) ∧
    decodeWord (0o002#8 ++ offset : BitVec 16) = .bne offset ∧
    (∃ b, exec (.bne offset) s = .next { (branched (!s.flagZ) offset s).complete with b := b }) ∧
    decodeWord (0o003#8 ++ offset : BitVec 16) = .beq offset ∧
    (∃ b, exec (.beq offset) s = .next { (branched (s.flagZ) offset s).complete with b := b }) ∧
    decodeWord (0o004#8 ++ offset : BitVec 16) = .bge offset ∧
    (∃ b, exec (.bge offset) s = .next { (branched (!(s.flagN ^^ s.flagV)) offset s).complete with b := b }) ∧
    decodeWord (0o005#8 ++ offset : BitVec 16) = .blt offset ∧
    (∃ b, exec (.blt offset) s = .next { (branched (s.flagN ^^ s.flagV) offset s).complete with b := b }) ∧
    decodeWord (0o006#8 ++ offset : BitVec 16) = .bgt offset ∧
    (∃ b, exec (.bgt offset) s = .next { (branched (!(s.flagZ || (s.flagN ^^ s.flagV))) offset s).complete with b := b }) ∧
    decodeWord (0o007#8 ++ offset : BitVec 16) = .ble offset ∧
    (∃ b, exec (.ble offset) s = .next { (branched (s.flagZ || (s.flagN ^^ s.flagV)) offset s).complete with b := b })

/-- BPL, BMI, BHI, BLOS, BVC, BVS, BCC (BHIS) and BCS (BLO) branch on their conditions and change only PC. -/
def Obligations.FlagBranches : Prop :=
  ∀ (offset : BitVec 8) (s : State),
    decodeWord (0o200#8 ++ offset : BitVec 16) = .bpl offset ∧
    (∃ b, exec (.bpl offset) s = .next { (branched (!s.flagN) offset s).complete with b := b }) ∧
    decodeWord (0o201#8 ++ offset : BitVec 16) = .bmi offset ∧
    (∃ b, exec (.bmi offset) s = .next { (branched (s.flagN) offset s).complete with b := b }) ∧
    decodeWord (0o202#8 ++ offset : BitVec 16) = .bhi offset ∧
    (∃ b, exec (.bhi offset) s = .next { (branched (!(s.flagC || s.flagZ)) offset s).complete with b := b }) ∧
    decodeWord (0o203#8 ++ offset : BitVec 16) = .blos offset ∧
    (∃ b, exec (.blos offset) s = .next { (branched (s.flagC || s.flagZ) offset s).complete with b := b }) ∧
    decodeWord (0o204#8 ++ offset : BitVec 16) = .bvc offset ∧
    (∃ b, exec (.bvc offset) s = .next { (branched (!s.flagV) offset s).complete with b := b }) ∧
    decodeWord (0o205#8 ++ offset : BitVec 16) = .bvs offset ∧
    (∃ b, exec (.bvs offset) s = .next { (branched (s.flagV) offset s).complete with b := b }) ∧
    decodeWord (0o206#8 ++ offset : BitVec 16) = .bcc offset ∧
    (∃ b, exec (.bcc offset) s = .next { (branched (!s.flagC) offset s).complete with b := b }) ∧
    decodeWord (0o207#8 ++ offset : BitVec 16) = .bcs offset ∧
    (∃ b, exec (.bcs offset) s = .next { (branched (s.flagC) offset s).complete with b := b }) ∧
    (∃ b, exec (.bhis offset) s = .next { (branched (!s.flagC) offset s).complete with b := b }) ∧
    encodeWord (.bhis offset) = encodeWord (.bcc offset) ∧
    (∃ b, exec (.blo offset) s = .next { (branched s.flagC offset s).complete with b := b }) ∧
    encodeWord (.blo offset) = encodeWord (.bcs offset)

/-- BPT, IOT, EMT and TRAP trap through 14, 20, 30 and 34; EMT and TRAP ignore their low byte (PSW word pushed: D7, entry 7).
Other masters' batches used up by a cycle: entry 21. The record of the cycles: entry 22. Free words of devices and failed reads: entries 22, 32. -/
def Obligations.TrapInstructions : Prop :=
  ∀ (code : BitVec 8) (s : State),
    decodeWord 0o000003 = .bpt ∧ decodeWord 0o000004 = .iot ∧
    decodeWord (0o210#8 ++ code : BitVec 16) = .emt code ∧ decodeWord (0o211#8 ++ code : BitVec 16) = .trap code ∧
    (entryAnswers 0o14 s = true → Completes .bpt s (entered 0o14 s.complete)) ∧
    (entryAnswers 0o20 s = true → Completes .iot s (entered 0o20 s.complete)) ∧
    (entryAnswers 0o30 s = true → Completes (.emt code) s (entered 0o30 s.complete)) ∧
    (entryAnswers 0o34 s = true → Completes (.trap code) s (entered 0o34 s.complete))

/-- JMP and JSR with mode 0 and every reserved code trap through 010 and do nothing before it (D5: entry 13; PSW word: D7, entry 7).
Other masters' batches used up by a cycle: entry 21. The record of the cycles: entry 22. Free words of devices and failed reads: entries 22, 32. -/
def Obligations.IllegalAndReservedInstructions : Prop :=
  (∀ (link r : Reg) (s : State),
      decodeWord (0o0001#10 ++ 0#3 ++ r.bits : BitVec 16) = .jmpRn r ∧
      decodeWord (0o004#7 ++ link.bits ++ 0#3 ++ r.bits : BitVec 16) = .jsrRn link r ∧
      (entryAnswers 0o10 s = true →
        Completes (.jmpRn r) s (entered 0o10 s.complete) ∧ Completes (.jsrRn link r) s (entered 0o10 s.complete) ∧
        Completes (.jmp ⟨.register, r⟩) s (entered 0o10 s.complete) ∧
        Completes (.jsr link ⟨.register, r⟩) s (entered 0o10 s.complete))) ∧
  ∀ (x3 : BitVec 3) (x4 : BitVec 4) (x5 : BitVec 5) (x8 : BitVec 8) (x9 : BitVec 9) (x12 : BitVec 12) (s : State),
    entryAnswers 0o10 s = true →
    Completes .reserved000007 s (entered 0o10 s.complete) ∧
    Completes (.reserved000010 x3) s (entered 0o10 s.complete) ∧
    Completes (.reserved000020 x4) s (entered 0o10 s.complete) ∧
    Completes (.reserved000040 x5) s (entered 0o10 s.complete) ∧
    Completes (.reserved000210 x3) s (entered 0o10 s.complete) ∧
    Completes (.reserved000220 x4) s (entered 0o10 s.complete) ∧
    Completes (.reserved006400 x8) s (entered 0o10 s.complete) ∧
    Completes (.reserved007000 x9) s (entered 0o10 s.complete) ∧
    Completes (.reserved070000 x12) s (entered 0o10 s.complete) ∧
    Completes (.reserved106400 x8) s (entered 0o10 s.complete) ∧
    Completes (.reserved107000 x9) s (entered 0o10 s.complete) ∧
    Completes (.reserved170000 x12) s (entered 0o10 s.complete)

/-- JMP loads PC with the destination's address, mode 2 with the register's initial content, and makes no reference there. -/
def Obligations.JmpResult : Prop :=
  ∀ (dst : Operand) (s : State) (a : Word), dst.mode ≠ .register →
    decodeWord (0o0001#10 ++ dst.bits : BitVec 16) = .jmp dst ∧
    (pointersReadable dst s = true → operandPlace .word dst s = .mem a →
      Completes (.jmp dst) s ((addressStep dst s).setPc a).complete) ∧
    (dst.mode = .autoInc → ∃ t, exec (.jmp dst) s = .next t ∧ t.pc = s.reg dst.reg ∧
      (dst.reg ≠ .r7 → t.reg dst.reg = s.reg dst.reg + 2))

/-- JSR takes the destination address, pushes the linkage register, puts the return address there and jumps. -/
def Obligations.JsrResult : Prop :=
  ∀ (link : Reg) (dst : Operand) (s : State) (a : Word), dst.mode ≠ .register →
    decodeWord (0o004#7 ++ link.bits ++ dst.bits : BitVec 16) = .jsr link dst ∧
    (link ≠ .r6 → pointersReadable dst s = true → operandPlace .word dst s = .mem a →
      let u := addressStep dst s
      u.writable .word (u.sp - 2) = true →
      Completes (.jsr link dst) s (((pushed (u.reg link) u).setReg link u.pc).setPc a).complete)

/-- RTS loads PC from the register and pops the stack into the register. -/
def Obligations.RtsResult : Prop :=
  ∀ (link : Reg) (s : State),
    decodeWord (0o00020#13 ++ link.bits : BitVec 16) = .rts link ∧
    (link ≠ .r6 → s.readable .word s.sp = true →
      Completes (.rts link) s
        (((popped s).setPc (s.reg link)).setReg link (s.gets .word s.sp)).complete)

/-- JSR SP and RTS SP run with the pushed word and the final R6 left open (D14: free values, entry 14).
Other masters' batches used up by a cycle: entry 21. The record of the cycles: entry 22. Free words of devices and failed reads: entries 22, 32. -/
def Obligations.StackPointerLinkageIsOpen : Prop :=
  (∀ (dst : Operand) (s : State) (a : Word), dst.mode ≠ .register → pointersReadable dst s = true →
      operandPlace .word dst s = .mem a →
      let u := addressStep dst s
      u.writable .word (u.sp - 2) = true →
      ∃ (w v : Word) (n : Nat), Completes (.jsr .r6 dst) s
        ({ ((pushed w u.drawn).setSp v).setPc a with draws := n } : State).complete) ∧
    ∀ s : State, s.readable .word s.sp = true →
      ∃ (v : Word) (n : Nat), Completes (.rts .r6) s
        ({ ((popped s).setPc s.sp).setSp v with draws := n } : State).complete

/-- RTI and RTT pop PC and then the whole PSW; a failed pop leaves what the earlier one did (D4, D13: entry 12; failed cycle: entries 21, 32). -/
def Obligations.ReturnFromTrapResult : Prop :=
  decodeWord 0o000002 = .rti ∧ decodeWord 0o000006 = .rtt ∧
  ∀ s : State,
    let u := (popped s).setPc (s.gets .word s.sp)
    (s.readable .word s.sp = true → s.readable .word (s.sp + 2) = true →
      let t := ({ popped u with psw := lowByte (u.gets .word u.sp) } : State)
      Completes .rti s t.complete ∧ Completes .rtt s t) ∧
    (∀ e, s.readFails .word s.sp = some e →
      Completes .rti s ((s.after .dati .word s.sp).takeBusError e) ∧
        Completes .rtt s ((s.after .dati .word s.sp).takeBusError e)) ∧
    ∀ e, s.readable .word s.sp = true → s.readFails .word (s.sp + 2) = some e →
      Completes .rti s ((u.after .dati .word u.sp).takeBusError e) ∧
        Completes .rtt s ((u.after .dati .word u.sp).takeBusError e)

/-- HALT stops the processor with PC after it and everything else unchanged, pending conditions included. -/
def Obligations.HaltResult : Prop :=
  decodeWord 0o000000 = .halt ∧
  (∀ s : State, ∃ b, exec .halt s = .next { ({ s with run := .halted } : State).complete with b := b }) ∧
  ∀ s : State, s.ready = true → s.readable .word s.pc = true → s.gets .word s.pc = 0 →
    ∃ t, step s = .next t ∧ t.run = .halted ∧
      t.visible = ({ (s.after .dati .word s.pc).setPc (s.pc + 2) with run := .halted } : State).complete.visible

/-- WAIT stops fetching, changes nothing else, and stays until SERVICE finds a condition (D16: entry 16). -/
def Obligations.WaitResult : Prop :=
  decodeWord 0o000001 = .wait ∧
  (∀ s : State, ∃ b, exec .wait s = .next { ({ s with run := .wait } : State).complete with b := b }) ∧
  (∀ s : State, s.run = .wait → s.inputs = [] → pendingService s = none → ∃ b, step s = .next { s with b := b }) ∧
  ∀ (s : State) (c : Service), s.run = .wait → s.inputs = [] → pendingService s = some c → step s = serve c s

/-- RESET pulses INIT once and leaves registers, PSW, PC and pending flags; devices drop their requests (D12, entry 29; B kept: entry 24). -/
def Obligations.ResetInstruction : Prop :=
  decodeWord 0o000005 = .reset ∧
  ∀ s : State, ∃ t, exec .reset s = .next t ∧ t.ir = 0o100000 ∧ t.scratch = s.scratch ∧ t.b = s.b ∧
    t.visible = ({ s with br4 := [], br5 := [], br6 := [], br7 := [], initPulses := s.initPulses + 1 } : State).complete.visible

/-- The codes 000240 to 000277 set or clear the selected condition codes and change nothing else. -/
def Obligations.ConditionCodeOperators : Prop :=
  ∀ (w : BitVec 5) (s : State),
    (∃ b, exec (decodeWord (0b00000000101#11 ++ w : BitVec 16)) s = .next
      { ({ s with psw := if w.getLsbD 4 then s.psw ||| (w.extractLsb' 0 4).setWidth 8
                       else s.psw &&& ~~~((w.extractLsb' 0 4).setWidth 8) } : State).complete with b := b }) ∧
    ∀ set n z v c : Bool, decodeWord (0b00000000101#11 ++ w : BitVec 16) = .ccop set n z v c ↔
      set = w.getLsbD 4 ∧ n = w.getLsbD 3 ∧ z = w.getLsbD 2 ∧ v = w.getLsbD 1 ∧ c = w.getLsbD 0
end

