-- ==== Sys2Proof/Laws/State.lean ====
section
/-! SUPPORT. What each named update of a state leaves alone: one lemma per field and per update. -/

namespace Sys2Proof.Machine

/-! ### Registers -/

theorem Regs.get_set (g : Regs) (r q : Reg) (v : Word) : (g.set r v).get q = if r = q then v else g.get q := by
  cases r <;> cases q <;> rfl

@[simp] theorem Regs.get_set_same (g : Regs) (r : Reg) (v : Word) : (g.set r v).get r = v := by cases r <;> rfl

theorem Regs.get_set_ne (g : Regs) {r q : Reg} (v : Word) (h : r ≠ q) : (g.set r v).get q = g.get q := by
  rw [Regs.get_set, if_neg h]

@[simp] theorem Regs.set_set (g : Regs) (r : Reg) (v w : Word) : (g.set r v).set r w = g.set r w := by
  cases r <;> rfl

@[simp] theorem Regs.set_get (g : Regs) (r : Reg) : g.set r (g.get r) = g := by cases r <;> rfl

theorem State.reg_setReg (s : State) (r q : Reg) (v : Word) :
    (s.setReg r v).reg q = if r = q then v else s.reg q := Regs.get_set s.regs r q v

@[simp] theorem State.reg_setReg_same (s : State) (r : Reg) (v : Word) : (s.setReg r v).reg r = v :=
  Regs.get_set_same s.regs r v

@[simp] theorem State.pc_setPc (s : State) (v : Word) : (s.setPc v).pc = v := rfl

@[simp] theorem State.sp_setSp (s : State) (v : Word) : (s.setSp v).sp = v := rfl

@[simp] theorem State.sp_setPc (s : State) (v : Word) : (s.setPc v).sp = s.sp := rfl

@[simp] theorem State.pc_setSp (s : State) (v : Word) : (s.setSp v).pc = s.pc := rfl

theorem State.setReg_r7 (s : State) (v : Word) : s.setReg .r7 v = s.setPc v := rfl

theorem State.setReg_r6 (s : State) (v : Word) : s.setReg .r6 v = s.setSp v := rfl

/-! ### Fields -/

@[simp] theorem State.setReg_psw (s : State) (r : Reg) (v : Word) : (s.setReg r v).psw = s.psw := rfl
@[simp] theorem State.setReg_scratch (s : State) (r : Reg) (v : Word) : (s.setReg r v).scratch = s.scratch := rfl
@[simp] theorem State.setReg_b (s : State) (r : Reg) (v : Word) : (s.setReg r v).b = s.b := rfl
@[simp] theorem State.setReg_ir (s : State) (r : Reg) (v : Word) : (s.setReg r v).ir = s.ir := rfl
@[simp] theorem State.setReg_be (s : State) (r : Reg) (v : Word) : (s.setReg r v).be = s.be := rfl
@[simp] theorem State.setReg_pe (s : State) (r : Reg) (v : Word) : (s.setReg r v).pe = s.pe := rfl
@[simp] theorem State.setReg_stov (s : State) (r : Reg) (v : Word) : (s.setReg r v).stov = s.stov := rfl
@[simp] theorem State.setReg_tbitFlag (s : State) (r : Reg) (v : Word) : (s.setReg r v).tbitFlag = s.tbitFlag := rfl
@[simp] theorem State.setReg_pfail (s : State) (r : Reg) (v : Word) : (s.setReg r v).pfail = s.pfail := rfl
@[simp] theorem State.setReg_run (s : State) (r : Reg) (v : Word) : (s.setReg r v).run = s.run := rfl
@[simp] theorem State.setReg_waitHeld (s : State) (r : Reg) (v : Word) : (s.setReg r v).waitHeld = s.waitHeld := rfl
@[simp] theorem State.setReg_mem (s : State) (r : Reg) (v : Word) : (s.setReg r v).mem = s.mem := rfl
@[simp] theorem State.setReg_br4 (s : State) (r : Reg) (v : Word) : (s.setReg r v).br4 = s.br4 := rfl
@[simp] theorem State.setReg_br5 (s : State) (r : Reg) (v : Word) : (s.setReg r v).br5 = s.br5 := rfl
@[simp] theorem State.setReg_br6 (s : State) (r : Reg) (v : Word) : (s.setReg r v).br6 = s.br6 := rfl
@[simp] theorem State.setReg_br7 (s : State) (r : Reg) (v : Word) : (s.setReg r v).br7 = s.br7 := rfl
@[simp] theorem State.setReg_haltRequest (s : State) (r : Reg) (v : Word) : (s.setReg r v).haltRequest = s.haltRequest := rfl
@[simp] theorem State.setReg_acLo (s : State) (r : Reg) (v : Word) : (s.setReg r v).acLo = s.acLo := rfl
@[simp] theorem State.setReg_pup (s : State) (r : Reg) (v : Word) : (s.setReg r v).pup = s.pup := rfl
@[simp] theorem State.setReg_pdwn (s : State) (r : Reg) (v : Word) : (s.setReg r v).pdwn = s.pdwn := rfl
@[simp] theorem State.setReg_parityBad (s : State) (r : Reg) (v : Word) : (s.setReg r v).parityBad = s.parityBad := rfl
@[simp] theorem State.setReg_initPulses (s : State) (r : Reg) (v : Word) : (s.setReg r v).initPulses = s.initPulses := rfl
@[simp] theorem State.setReg_inputs (s : State) (r : Reg) (v : Word) : (s.setReg r v).inputs = s.inputs := rfl
@[simp] theorem State.setReg_npr (s : State) (r : Reg) (v : Word) : (s.setReg r v).npr = s.npr := rfl
@[simp] theorem State.setReg_bus (s : State) (r : Reg) (v : Word) : (s.setReg r v).bus = s.bus := rfl
@[simp] theorem State.setReg_draws (s : State) (r : Reg) (v : Word) : (s.setReg r v).draws = s.draws := rfl
@[simp] theorem State.setReg_cfg (s : State) (r : Reg) (v : Word) : (s.setReg r v).cfg = s.cfg := rfl

@[simp] theorem State.setPc_psw (s : State) (v : Word) : (s.setPc v).psw = s.psw := rfl
@[simp] theorem State.setPc_scratch (s : State) (v : Word) : (s.setPc v).scratch = s.scratch := rfl
@[simp] theorem State.setPc_b (s : State) (v : Word) : (s.setPc v).b = s.b := rfl
@[simp] theorem State.setPc_ir (s : State) (v : Word) : (s.setPc v).ir = s.ir := rfl
@[simp] theorem State.setPc_be (s : State) (v : Word) : (s.setPc v).be = s.be := rfl
@[simp] theorem State.setPc_pe (s : State) (v : Word) : (s.setPc v).pe = s.pe := rfl
@[simp] theorem State.setPc_stov (s : State) (v : Word) : (s.setPc v).stov = s.stov := rfl
@[simp] theorem State.setPc_tbitFlag (s : State) (v : Word) : (s.setPc v).tbitFlag = s.tbitFlag := rfl
@[simp] theorem State.setPc_pfail (s : State) (v : Word) : (s.setPc v).pfail = s.pfail := rfl
@[simp] theorem State.setPc_run (s : State) (v : Word) : (s.setPc v).run = s.run := rfl
@[simp] theorem State.setPc_waitHeld (s : State) (v : Word) : (s.setPc v).waitHeld = s.waitHeld := rfl
@[simp] theorem State.setPc_mem (s : State) (v : Word) : (s.setPc v).mem = s.mem := rfl
@[simp] theorem State.setPc_br4 (s : State) (v : Word) : (s.setPc v).br4 = s.br4 := rfl
@[simp] theorem State.setPc_br5 (s : State) (v : Word) : (s.setPc v).br5 = s.br5 := rfl
@[simp] theorem State.setPc_br6 (s : State) (v : Word) : (s.setPc v).br6 = s.br6 := rfl
@[simp] theorem State.setPc_br7 (s : State) (v : Word) : (s.setPc v).br7 = s.br7 := rfl
@[simp] theorem State.setPc_haltRequest (s : State) (v : Word) : (s.setPc v).haltRequest = s.haltRequest := rfl
@[simp] theorem State.setPc_acLo (s : State) (v : Word) : (s.setPc v).acLo = s.acLo := rfl
@[simp] theorem State.setPc_pup (s : State) (v : Word) : (s.setPc v).pup = s.pup := rfl
@[simp] theorem State.setPc_pdwn (s : State) (v : Word) : (s.setPc v).pdwn = s.pdwn := rfl
@[simp] theorem State.setPc_parityBad (s : State) (v : Word) : (s.setPc v).parityBad = s.parityBad := rfl
@[simp] theorem State.setPc_initPulses (s : State) (v : Word) : (s.setPc v).initPulses = s.initPulses := rfl
@[simp] theorem State.setPc_inputs (s : State) (v : Word) : (s.setPc v).inputs = s.inputs := rfl
@[simp] theorem State.setPc_npr (s : State) (v : Word) : (s.setPc v).npr = s.npr := rfl
@[simp] theorem State.setPc_bus (s : State) (v : Word) : (s.setPc v).bus = s.bus := rfl
@[simp] theorem State.setPc_draws (s : State) (v : Word) : (s.setPc v).draws = s.draws := rfl
@[simp] theorem State.setPc_cfg (s : State) (v : Word) : (s.setPc v).cfg = s.cfg := rfl

@[simp] theorem State.setSp_psw (s : State) (v : Word) : (s.setSp v).psw = s.psw := rfl
@[simp] theorem State.setSp_scratch (s : State) (v : Word) : (s.setSp v).scratch = s.scratch := rfl
@[simp] theorem State.setSp_b (s : State) (v : Word) : (s.setSp v).b = s.b := rfl
@[simp] theorem State.setSp_ir (s : State) (v : Word) : (s.setSp v).ir = s.ir := rfl
@[simp] theorem State.setSp_be (s : State) (v : Word) : (s.setSp v).be = s.be := rfl
@[simp] theorem State.setSp_pe (s : State) (v : Word) : (s.setSp v).pe = s.pe := rfl
@[simp] theorem State.setSp_stov (s : State) (v : Word) : (s.setSp v).stov = s.stov := rfl
@[simp] theorem State.setSp_tbitFlag (s : State) (v : Word) : (s.setSp v).tbitFlag = s.tbitFlag := rfl
@[simp] theorem State.setSp_pfail (s : State) (v : Word) : (s.setSp v).pfail = s.pfail := rfl
@[simp] theorem State.setSp_run (s : State) (v : Word) : (s.setSp v).run = s.run := rfl
@[simp] theorem State.setSp_waitHeld (s : State) (v : Word) : (s.setSp v).waitHeld = s.waitHeld := rfl
@[simp] theorem State.setSp_mem (s : State) (v : Word) : (s.setSp v).mem = s.mem := rfl
@[simp] theorem State.setSp_br4 (s : State) (v : Word) : (s.setSp v).br4 = s.br4 := rfl
@[simp] theorem State.setSp_br5 (s : State) (v : Word) : (s.setSp v).br5 = s.br5 := rfl
@[simp] theorem State.setSp_br6 (s : State) (v : Word) : (s.setSp v).br6 = s.br6 := rfl
@[simp] theorem State.setSp_br7 (s : State) (v : Word) : (s.setSp v).br7 = s.br7 := rfl
@[simp] theorem State.setSp_haltRequest (s : State) (v : Word) : (s.setSp v).haltRequest = s.haltRequest := rfl
@[simp] theorem State.setSp_acLo (s : State) (v : Word) : (s.setSp v).acLo = s.acLo := rfl
@[simp] theorem State.setSp_pup (s : State) (v : Word) : (s.setSp v).pup = s.pup := rfl
@[simp] theorem State.setSp_pdwn (s : State) (v : Word) : (s.setSp v).pdwn = s.pdwn := rfl
@[simp] theorem State.setSp_parityBad (s : State) (v : Word) : (s.setSp v).parityBad = s.parityBad := rfl
@[simp] theorem State.setSp_initPulses (s : State) (v : Word) : (s.setSp v).initPulses = s.initPulses := rfl
@[simp] theorem State.setSp_inputs (s : State) (v : Word) : (s.setSp v).inputs = s.inputs := rfl
@[simp] theorem State.setSp_npr (s : State) (v : Word) : (s.setSp v).npr = s.npr := rfl
@[simp] theorem State.setSp_bus (s : State) (v : Word) : (s.setSp v).bus = s.bus := rfl
@[simp] theorem State.setSp_draws (s : State) (v : Word) : (s.setSp v).draws = s.draws := rfl
@[simp] theorem State.setSp_cfg (s : State) (v : Word) : (s.setSp v).cfg = s.cfg := rfl

@[simp] theorem State.setRegLow_psw (s : State) (r : Reg) (v : Byte) : (s.setRegLow r v).psw = s.psw := rfl
@[simp] theorem State.setRegLow_scratch (s : State) (r : Reg) (v : Byte) : (s.setRegLow r v).scratch = s.scratch := rfl
@[simp] theorem State.setRegLow_b (s : State) (r : Reg) (v : Byte) : (s.setRegLow r v).b = s.b := rfl
@[simp] theorem State.setRegLow_ir (s : State) (r : Reg) (v : Byte) : (s.setRegLow r v).ir = s.ir := rfl
@[simp] theorem State.setRegLow_be (s : State) (r : Reg) (v : Byte) : (s.setRegLow r v).be = s.be := rfl
@[simp] theorem State.setRegLow_pe (s : State) (r : Reg) (v : Byte) : (s.setRegLow r v).pe = s.pe := rfl
@[simp] theorem State.setRegLow_stov (s : State) (r : Reg) (v : Byte) : (s.setRegLow r v).stov = s.stov := rfl
@[simp] theorem State.setRegLow_tbitFlag (s : State) (r : Reg) (v : Byte) : (s.setRegLow r v).tbitFlag = s.tbitFlag := rfl
@[simp] theorem State.setRegLow_pfail (s : State) (r : Reg) (v : Byte) : (s.setRegLow r v).pfail = s.pfail := rfl
@[simp] theorem State.setRegLow_run (s : State) (r : Reg) (v : Byte) : (s.setRegLow r v).run = s.run := rfl
@[simp] theorem State.setRegLow_waitHeld (s : State) (r : Reg) (v : Byte) : (s.setRegLow r v).waitHeld = s.waitHeld := rfl
@[simp] theorem State.setRegLow_mem (s : State) (r : Reg) (v : Byte) : (s.setRegLow r v).mem = s.mem := rfl
@[simp] theorem State.setRegLow_br4 (s : State) (r : Reg) (v : Byte) : (s.setRegLow r v).br4 = s.br4 := rfl
@[simp] theorem State.setRegLow_br5 (s : State) (r : Reg) (v : Byte) : (s.setRegLow r v).br5 = s.br5 := rfl
@[simp] theorem State.setRegLow_br6 (s : State) (r : Reg) (v : Byte) : (s.setRegLow r v).br6 = s.br6 := rfl
@[simp] theorem State.setRegLow_br7 (s : State) (r : Reg) (v : Byte) : (s.setRegLow r v).br7 = s.br7 := rfl
@[simp] theorem State.setRegLow_haltRequest (s : State) (r : Reg) (v : Byte) : (s.setRegLow r v).haltRequest = s.haltRequest := rfl
@[simp] theorem State.setRegLow_acLo (s : State) (r : Reg) (v : Byte) : (s.setRegLow r v).acLo = s.acLo := rfl
@[simp] theorem State.setRegLow_pup (s : State) (r : Reg) (v : Byte) : (s.setRegLow r v).pup = s.pup := rfl
@[simp] theorem State.setRegLow_pdwn (s : State) (r : Reg) (v : Byte) : (s.setRegLow r v).pdwn = s.pdwn := rfl
@[simp] theorem State.setRegLow_parityBad (s : State) (r : Reg) (v : Byte) : (s.setRegLow r v).parityBad = s.parityBad := rfl
@[simp] theorem State.setRegLow_initPulses (s : State) (r : Reg) (v : Byte) : (s.setRegLow r v).initPulses = s.initPulses := rfl
@[simp] theorem State.setRegLow_inputs (s : State) (r : Reg) (v : Byte) : (s.setRegLow r v).inputs = s.inputs := rfl
@[simp] theorem State.setRegLow_npr (s : State) (r : Reg) (v : Byte) : (s.setRegLow r v).npr = s.npr := rfl
@[simp] theorem State.setRegLow_bus (s : State) (r : Reg) (v : Byte) : (s.setRegLow r v).bus = s.bus := rfl
@[simp] theorem State.setRegLow_draws (s : State) (r : Reg) (v : Byte) : (s.setRegLow r v).draws = s.draws := rfl
@[simp] theorem State.setRegLow_cfg (s : State) (r : Reg) (v : Byte) : (s.setRegLow r v).cfg = s.cfg := rfl

@[simp] theorem State.setR10_regs (s : State) (v : Word) : (s.setR10 v).regs = s.regs := rfl
@[simp] theorem State.setR10_psw (s : State) (v : Word) : (s.setR10 v).psw = s.psw := rfl
@[simp] theorem State.setR10_b (s : State) (v : Word) : (s.setR10 v).b = s.b := rfl
@[simp] theorem State.setR10_ir (s : State) (v : Word) : (s.setR10 v).ir = s.ir := rfl
@[simp] theorem State.setR10_be (s : State) (v : Word) : (s.setR10 v).be = s.be := rfl
@[simp] theorem State.setR10_pe (s : State) (v : Word) : (s.setR10 v).pe = s.pe := rfl
@[simp] theorem State.setR10_stov (s : State) (v : Word) : (s.setR10 v).stov = s.stov := rfl
@[simp] theorem State.setR10_tbitFlag (s : State) (v : Word) : (s.setR10 v).tbitFlag = s.tbitFlag := rfl
@[simp] theorem State.setR10_pfail (s : State) (v : Word) : (s.setR10 v).pfail = s.pfail := rfl
@[simp] theorem State.setR10_run (s : State) (v : Word) : (s.setR10 v).run = s.run := rfl
@[simp] theorem State.setR10_waitHeld (s : State) (v : Word) : (s.setR10 v).waitHeld = s.waitHeld := rfl
@[simp] theorem State.setR10_mem (s : State) (v : Word) : (s.setR10 v).mem = s.mem := rfl
@[simp] theorem State.setR10_br4 (s : State) (v : Word) : (s.setR10 v).br4 = s.br4 := rfl
@[simp] theorem State.setR10_br5 (s : State) (v : Word) : (s.setR10 v).br5 = s.br5 := rfl
@[simp] theorem State.setR10_br6 (s : State) (v : Word) : (s.setR10 v).br6 = s.br6 := rfl
@[simp] theorem State.setR10_br7 (s : State) (v : Word) : (s.setR10 v).br7 = s.br7 := rfl
@[simp] theorem State.setR10_haltRequest (s : State) (v : Word) : (s.setR10 v).haltRequest = s.haltRequest := rfl
@[simp] theorem State.setR10_acLo (s : State) (v : Word) : (s.setR10 v).acLo = s.acLo := rfl
@[simp] theorem State.setR10_pup (s : State) (v : Word) : (s.setR10 v).pup = s.pup := rfl
@[simp] theorem State.setR10_pdwn (s : State) (v : Word) : (s.setR10 v).pdwn = s.pdwn := rfl
@[simp] theorem State.setR10_parityBad (s : State) (v : Word) : (s.setR10 v).parityBad = s.parityBad := rfl
@[simp] theorem State.setR10_initPulses (s : State) (v : Word) : (s.setR10 v).initPulses = s.initPulses := rfl
@[simp] theorem State.setR10_inputs (s : State) (v : Word) : (s.setR10 v).inputs = s.inputs := rfl
@[simp] theorem State.setR10_npr (s : State) (v : Word) : (s.setR10 v).npr = s.npr := rfl
@[simp] theorem State.setR10_bus (s : State) (v : Word) : (s.setR10 v).bus = s.bus := rfl
@[simp] theorem State.setR10_draws (s : State) (v : Word) : (s.setR10 v).draws = s.draws := rfl
@[simp] theorem State.setR10_cfg (s : State) (v : Word) : (s.setR10 v).cfg = s.cfg := rfl

@[simp] theorem State.setR11_regs (s : State) (v : Word) : (s.setR11 v).regs = s.regs := rfl
@[simp] theorem State.setR11_psw (s : State) (v : Word) : (s.setR11 v).psw = s.psw := rfl
@[simp] theorem State.setR11_b (s : State) (v : Word) : (s.setR11 v).b = s.b := rfl
@[simp] theorem State.setR11_ir (s : State) (v : Word) : (s.setR11 v).ir = s.ir := rfl
@[simp] theorem State.setR11_be (s : State) (v : Word) : (s.setR11 v).be = s.be := rfl
@[simp] theorem State.setR11_pe (s : State) (v : Word) : (s.setR11 v).pe = s.pe := rfl
@[simp] theorem State.setR11_stov (s : State) (v : Word) : (s.setR11 v).stov = s.stov := rfl
@[simp] theorem State.setR11_tbitFlag (s : State) (v : Word) : (s.setR11 v).tbitFlag = s.tbitFlag := rfl
@[simp] theorem State.setR11_pfail (s : State) (v : Word) : (s.setR11 v).pfail = s.pfail := rfl
@[simp] theorem State.setR11_run (s : State) (v : Word) : (s.setR11 v).run = s.run := rfl
@[simp] theorem State.setR11_waitHeld (s : State) (v : Word) : (s.setR11 v).waitHeld = s.waitHeld := rfl
@[simp] theorem State.setR11_mem (s : State) (v : Word) : (s.setR11 v).mem = s.mem := rfl
@[simp] theorem State.setR11_br4 (s : State) (v : Word) : (s.setR11 v).br4 = s.br4 := rfl
@[simp] theorem State.setR11_br5 (s : State) (v : Word) : (s.setR11 v).br5 = s.br5 := rfl
@[simp] theorem State.setR11_br6 (s : State) (v : Word) : (s.setR11 v).br6 = s.br6 := rfl
@[simp] theorem State.setR11_br7 (s : State) (v : Word) : (s.setR11 v).br7 = s.br7 := rfl
@[simp] theorem State.setR11_haltRequest (s : State) (v : Word) : (s.setR11 v).haltRequest = s.haltRequest := rfl
@[simp] theorem State.setR11_acLo (s : State) (v : Word) : (s.setR11 v).acLo = s.acLo := rfl
@[simp] theorem State.setR11_pup (s : State) (v : Word) : (s.setR11 v).pup = s.pup := rfl
@[simp] theorem State.setR11_pdwn (s : State) (v : Word) : (s.setR11 v).pdwn = s.pdwn := rfl
@[simp] theorem State.setR11_parityBad (s : State) (v : Word) : (s.setR11 v).parityBad = s.parityBad := rfl
@[simp] theorem State.setR11_initPulses (s : State) (v : Word) : (s.setR11 v).initPulses = s.initPulses := rfl
@[simp] theorem State.setR11_inputs (s : State) (v : Word) : (s.setR11 v).inputs = s.inputs := rfl
@[simp] theorem State.setR11_npr (s : State) (v : Word) : (s.setR11 v).npr = s.npr := rfl
@[simp] theorem State.setR11_bus (s : State) (v : Word) : (s.setR11 v).bus = s.bus := rfl
@[simp] theorem State.setR11_draws (s : State) (v : Word) : (s.setR11 v).draws = s.draws := rfl
@[simp] theorem State.setR11_cfg (s : State) (v : Word) : (s.setR11 v).cfg = s.cfg := rfl

@[simp] theorem State.setR12_regs (s : State) (v : Word) : (s.setR12 v).regs = s.regs := rfl
@[simp] theorem State.setR12_psw (s : State) (v : Word) : (s.setR12 v).psw = s.psw := rfl
@[simp] theorem State.setR12_b (s : State) (v : Word) : (s.setR12 v).b = s.b := rfl
@[simp] theorem State.setR12_ir (s : State) (v : Word) : (s.setR12 v).ir = s.ir := rfl
@[simp] theorem State.setR12_be (s : State) (v : Word) : (s.setR12 v).be = s.be := rfl
@[simp] theorem State.setR12_pe (s : State) (v : Word) : (s.setR12 v).pe = s.pe := rfl
@[simp] theorem State.setR12_stov (s : State) (v : Word) : (s.setR12 v).stov = s.stov := rfl
@[simp] theorem State.setR12_tbitFlag (s : State) (v : Word) : (s.setR12 v).tbitFlag = s.tbitFlag := rfl
@[simp] theorem State.setR12_pfail (s : State) (v : Word) : (s.setR12 v).pfail = s.pfail := rfl
@[simp] theorem State.setR12_run (s : State) (v : Word) : (s.setR12 v).run = s.run := rfl
@[simp] theorem State.setR12_waitHeld (s : State) (v : Word) : (s.setR12 v).waitHeld = s.waitHeld := rfl
@[simp] theorem State.setR12_mem (s : State) (v : Word) : (s.setR12 v).mem = s.mem := rfl
@[simp] theorem State.setR12_br4 (s : State) (v : Word) : (s.setR12 v).br4 = s.br4 := rfl
@[simp] theorem State.setR12_br5 (s : State) (v : Word) : (s.setR12 v).br5 = s.br5 := rfl
@[simp] theorem State.setR12_br6 (s : State) (v : Word) : (s.setR12 v).br6 = s.br6 := rfl
@[simp] theorem State.setR12_br7 (s : State) (v : Word) : (s.setR12 v).br7 = s.br7 := rfl
@[simp] theorem State.setR12_haltRequest (s : State) (v : Word) : (s.setR12 v).haltRequest = s.haltRequest := rfl
@[simp] theorem State.setR12_acLo (s : State) (v : Word) : (s.setR12 v).acLo = s.acLo := rfl
@[simp] theorem State.setR12_pup (s : State) (v : Word) : (s.setR12 v).pup = s.pup := rfl
@[simp] theorem State.setR12_pdwn (s : State) (v : Word) : (s.setR12 v).pdwn = s.pdwn := rfl
@[simp] theorem State.setR12_parityBad (s : State) (v : Word) : (s.setR12 v).parityBad = s.parityBad := rfl
@[simp] theorem State.setR12_initPulses (s : State) (v : Word) : (s.setR12 v).initPulses = s.initPulses := rfl
@[simp] theorem State.setR12_inputs (s : State) (v : Word) : (s.setR12 v).inputs = s.inputs := rfl
@[simp] theorem State.setR12_npr (s : State) (v : Word) : (s.setR12 v).npr = s.npr := rfl
@[simp] theorem State.setR12_bus (s : State) (v : Word) : (s.setR12 v).bus = s.bus := rfl
@[simp] theorem State.setR12_draws (s : State) (v : Word) : (s.setR12 v).draws = s.draws := rfl
@[simp] theorem State.setR12_cfg (s : State) (v : Word) : (s.setR12 v).cfg = s.cfg := rfl

@[simp] theorem State.setR13_regs (s : State) (v : Word) : (s.setR13 v).regs = s.regs := rfl
@[simp] theorem State.setR13_psw (s : State) (v : Word) : (s.setR13 v).psw = s.psw := rfl
@[simp] theorem State.setR13_b (s : State) (v : Word) : (s.setR13 v).b = s.b := rfl
@[simp] theorem State.setR13_ir (s : State) (v : Word) : (s.setR13 v).ir = s.ir := rfl
@[simp] theorem State.setR13_be (s : State) (v : Word) : (s.setR13 v).be = s.be := rfl
@[simp] theorem State.setR13_pe (s : State) (v : Word) : (s.setR13 v).pe = s.pe := rfl
@[simp] theorem State.setR13_stov (s : State) (v : Word) : (s.setR13 v).stov = s.stov := rfl
@[simp] theorem State.setR13_tbitFlag (s : State) (v : Word) : (s.setR13 v).tbitFlag = s.tbitFlag := rfl
@[simp] theorem State.setR13_pfail (s : State) (v : Word) : (s.setR13 v).pfail = s.pfail := rfl
@[simp] theorem State.setR13_run (s : State) (v : Word) : (s.setR13 v).run = s.run := rfl
@[simp] theorem State.setR13_waitHeld (s : State) (v : Word) : (s.setR13 v).waitHeld = s.waitHeld := rfl
@[simp] theorem State.setR13_mem (s : State) (v : Word) : (s.setR13 v).mem = s.mem := rfl
@[simp] theorem State.setR13_br4 (s : State) (v : Word) : (s.setR13 v).br4 = s.br4 := rfl
@[simp] theorem State.setR13_br5 (s : State) (v : Word) : (s.setR13 v).br5 = s.br5 := rfl
@[simp] theorem State.setR13_br6 (s : State) (v : Word) : (s.setR13 v).br6 = s.br6 := rfl
@[simp] theorem State.setR13_br7 (s : State) (v : Word) : (s.setR13 v).br7 = s.br7 := rfl
@[simp] theorem State.setR13_haltRequest (s : State) (v : Word) : (s.setR13 v).haltRequest = s.haltRequest := rfl
@[simp] theorem State.setR13_acLo (s : State) (v : Word) : (s.setR13 v).acLo = s.acLo := rfl
@[simp] theorem State.setR13_pup (s : State) (v : Word) : (s.setR13 v).pup = s.pup := rfl
@[simp] theorem State.setR13_pdwn (s : State) (v : Word) : (s.setR13 v).pdwn = s.pdwn := rfl
@[simp] theorem State.setR13_parityBad (s : State) (v : Word) : (s.setR13 v).parityBad = s.parityBad := rfl
@[simp] theorem State.setR13_initPulses (s : State) (v : Word) : (s.setR13 v).initPulses = s.initPulses := rfl
@[simp] theorem State.setR13_inputs (s : State) (v : Word) : (s.setR13 v).inputs = s.inputs := rfl
@[simp] theorem State.setR13_npr (s : State) (v : Word) : (s.setR13 v).npr = s.npr := rfl
@[simp] theorem State.setR13_bus (s : State) (v : Word) : (s.setR13 v).bus = s.bus := rfl
@[simp] theorem State.setR13_draws (s : State) (v : Word) : (s.setR13 v).draws = s.draws := rfl
@[simp] theorem State.setR13_cfg (s : State) (v : Word) : (s.setR13 v).cfg = s.cfg := rfl

@[simp] theorem State.setR17_regs (s : State) (v : Word) : (s.setR17 v).regs = s.regs := rfl
@[simp] theorem State.setR17_psw (s : State) (v : Word) : (s.setR17 v).psw = s.psw := rfl
@[simp] theorem State.setR17_b (s : State) (v : Word) : (s.setR17 v).b = s.b := rfl
@[simp] theorem State.setR17_ir (s : State) (v : Word) : (s.setR17 v).ir = s.ir := rfl
@[simp] theorem State.setR17_be (s : State) (v : Word) : (s.setR17 v).be = s.be := rfl
@[simp] theorem State.setR17_pe (s : State) (v : Word) : (s.setR17 v).pe = s.pe := rfl
@[simp] theorem State.setR17_stov (s : State) (v : Word) : (s.setR17 v).stov = s.stov := rfl
@[simp] theorem State.setR17_tbitFlag (s : State) (v : Word) : (s.setR17 v).tbitFlag = s.tbitFlag := rfl
@[simp] theorem State.setR17_pfail (s : State) (v : Word) : (s.setR17 v).pfail = s.pfail := rfl
@[simp] theorem State.setR17_run (s : State) (v : Word) : (s.setR17 v).run = s.run := rfl
@[simp] theorem State.setR17_waitHeld (s : State) (v : Word) : (s.setR17 v).waitHeld = s.waitHeld := rfl
@[simp] theorem State.setR17_mem (s : State) (v : Word) : (s.setR17 v).mem = s.mem := rfl
@[simp] theorem State.setR17_br4 (s : State) (v : Word) : (s.setR17 v).br4 = s.br4 := rfl
@[simp] theorem State.setR17_br5 (s : State) (v : Word) : (s.setR17 v).br5 = s.br5 := rfl
@[simp] theorem State.setR17_br6 (s : State) (v : Word) : (s.setR17 v).br6 = s.br6 := rfl
@[simp] theorem State.setR17_br7 (s : State) (v : Word) : (s.setR17 v).br7 = s.br7 := rfl
@[simp] theorem State.setR17_haltRequest (s : State) (v : Word) : (s.setR17 v).haltRequest = s.haltRequest := rfl
@[simp] theorem State.setR17_acLo (s : State) (v : Word) : (s.setR17 v).acLo = s.acLo := rfl
@[simp] theorem State.setR17_pup (s : State) (v : Word) : (s.setR17 v).pup = s.pup := rfl
@[simp] theorem State.setR17_pdwn (s : State) (v : Word) : (s.setR17 v).pdwn = s.pdwn := rfl
@[simp] theorem State.setR17_parityBad (s : State) (v : Word) : (s.setR17 v).parityBad = s.parityBad := rfl
@[simp] theorem State.setR17_initPulses (s : State) (v : Word) : (s.setR17 v).initPulses = s.initPulses := rfl
@[simp] theorem State.setR17_inputs (s : State) (v : Word) : (s.setR17 v).inputs = s.inputs := rfl
@[simp] theorem State.setR17_npr (s : State) (v : Word) : (s.setR17 v).npr = s.npr := rfl
@[simp] theorem State.setR17_bus (s : State) (v : Word) : (s.setR17 v).bus = s.bus := rfl
@[simp] theorem State.setR17_draws (s : State) (v : Word) : (s.setR17 v).draws = s.draws := rfl
@[simp] theorem State.setR17_cfg (s : State) (v : Word) : (s.setR17 v).cfg = s.cfg := rfl

@[simp] theorem State.setB_regs (s : State) (v : Word) : (s.setB v).regs = s.regs := rfl
@[simp] theorem State.setB_psw (s : State) (v : Word) : (s.setB v).psw = s.psw := rfl
@[simp] theorem State.setB_scratch (s : State) (v : Word) : (s.setB v).scratch = s.scratch := rfl
@[simp] theorem State.setB_ir (s : State) (v : Word) : (s.setB v).ir = s.ir := rfl
@[simp] theorem State.setB_be (s : State) (v : Word) : (s.setB v).be = s.be := rfl
@[simp] theorem State.setB_pe (s : State) (v : Word) : (s.setB v).pe = s.pe := rfl
@[simp] theorem State.setB_stov (s : State) (v : Word) : (s.setB v).stov = s.stov := rfl
@[simp] theorem State.setB_tbitFlag (s : State) (v : Word) : (s.setB v).tbitFlag = s.tbitFlag := rfl
@[simp] theorem State.setB_pfail (s : State) (v : Word) : (s.setB v).pfail = s.pfail := rfl
@[simp] theorem State.setB_run (s : State) (v : Word) : (s.setB v).run = s.run := rfl
@[simp] theorem State.setB_waitHeld (s : State) (v : Word) : (s.setB v).waitHeld = s.waitHeld := rfl
@[simp] theorem State.setB_mem (s : State) (v : Word) : (s.setB v).mem = s.mem := rfl
@[simp] theorem State.setB_br4 (s : State) (v : Word) : (s.setB v).br4 = s.br4 := rfl
@[simp] theorem State.setB_br5 (s : State) (v : Word) : (s.setB v).br5 = s.br5 := rfl
@[simp] theorem State.setB_br6 (s : State) (v : Word) : (s.setB v).br6 = s.br6 := rfl
@[simp] theorem State.setB_br7 (s : State) (v : Word) : (s.setB v).br7 = s.br7 := rfl
@[simp] theorem State.setB_haltRequest (s : State) (v : Word) : (s.setB v).haltRequest = s.haltRequest := rfl
@[simp] theorem State.setB_acLo (s : State) (v : Word) : (s.setB v).acLo = s.acLo := rfl
@[simp] theorem State.setB_pup (s : State) (v : Word) : (s.setB v).pup = s.pup := rfl
@[simp] theorem State.setB_pdwn (s : State) (v : Word) : (s.setB v).pdwn = s.pdwn := rfl
@[simp] theorem State.setB_parityBad (s : State) (v : Word) : (s.setB v).parityBad = s.parityBad := rfl
@[simp] theorem State.setB_initPulses (s : State) (v : Word) : (s.setB v).initPulses = s.initPulses := rfl
@[simp] theorem State.setB_inputs (s : State) (v : Word) : (s.setB v).inputs = s.inputs := rfl
@[simp] theorem State.setB_npr (s : State) (v : Word) : (s.setB v).npr = s.npr := rfl
@[simp] theorem State.setB_bus (s : State) (v : Word) : (s.setB v).bus = s.bus := rfl
@[simp] theorem State.setB_draws (s : State) (v : Word) : (s.setB v).draws = s.draws := rfl
@[simp] theorem State.setB_cfg (s : State) (v : Word) : (s.setB v).cfg = s.cfg := rfl

@[simp] theorem State.loadPsw_regs (s : State) (w : Word) : (s.loadPsw w).regs = s.regs := rfl
@[simp] theorem State.loadPsw_scratch (s : State) (w : Word) : (s.loadPsw w).scratch = s.scratch := rfl
@[simp] theorem State.loadPsw_b (s : State) (w : Word) : (s.loadPsw w).b = s.b := rfl
@[simp] theorem State.loadPsw_ir (s : State) (w : Word) : (s.loadPsw w).ir = s.ir := rfl
@[simp] theorem State.loadPsw_be (s : State) (w : Word) : (s.loadPsw w).be = s.be := rfl
@[simp] theorem State.loadPsw_pe (s : State) (w : Word) : (s.loadPsw w).pe = s.pe := rfl
@[simp] theorem State.loadPsw_stov (s : State) (w : Word) : (s.loadPsw w).stov = s.stov := rfl
@[simp] theorem State.loadPsw_tbitFlag (s : State) (w : Word) : (s.loadPsw w).tbitFlag = s.tbitFlag := rfl
@[simp] theorem State.loadPsw_pfail (s : State) (w : Word) : (s.loadPsw w).pfail = s.pfail := rfl
@[simp] theorem State.loadPsw_run (s : State) (w : Word) : (s.loadPsw w).run = s.run := rfl
@[simp] theorem State.loadPsw_waitHeld (s : State) (w : Word) : (s.loadPsw w).waitHeld = s.waitHeld := rfl
@[simp] theorem State.loadPsw_mem (s : State) (w : Word) : (s.loadPsw w).mem = s.mem := rfl
@[simp] theorem State.loadPsw_br4 (s : State) (w : Word) : (s.loadPsw w).br4 = s.br4 := rfl
@[simp] theorem State.loadPsw_br5 (s : State) (w : Word) : (s.loadPsw w).br5 = s.br5 := rfl
@[simp] theorem State.loadPsw_br6 (s : State) (w : Word) : (s.loadPsw w).br6 = s.br6 := rfl
@[simp] theorem State.loadPsw_br7 (s : State) (w : Word) : (s.loadPsw w).br7 = s.br7 := rfl
@[simp] theorem State.loadPsw_haltRequest (s : State) (w : Word) : (s.loadPsw w).haltRequest = s.haltRequest := rfl
@[simp] theorem State.loadPsw_acLo (s : State) (w : Word) : (s.loadPsw w).acLo = s.acLo := rfl
@[simp] theorem State.loadPsw_pup (s : State) (w : Word) : (s.loadPsw w).pup = s.pup := rfl
@[simp] theorem State.loadPsw_pdwn (s : State) (w : Word) : (s.loadPsw w).pdwn = s.pdwn := rfl
@[simp] theorem State.loadPsw_parityBad (s : State) (w : Word) : (s.loadPsw w).parityBad = s.parityBad := rfl
@[simp] theorem State.loadPsw_initPulses (s : State) (w : Word) : (s.loadPsw w).initPulses = s.initPulses := rfl
@[simp] theorem State.loadPsw_inputs (s : State) (w : Word) : (s.loadPsw w).inputs = s.inputs := rfl
@[simp] theorem State.loadPsw_npr (s : State) (w : Word) : (s.loadPsw w).npr = s.npr := rfl
@[simp] theorem State.loadPsw_bus (s : State) (w : Word) : (s.loadPsw w).bus = s.bus := rfl
@[simp] theorem State.loadPsw_draws (s : State) (w : Word) : (s.loadPsw w).draws = s.draws := rfl
@[simp] theorem State.loadPsw_cfg (s : State) (w : Word) : (s.loadPsw w).cfg = s.cfg := rfl

@[simp] theorem State.writePsw_regs (s : State) (v : Byte) : (s.writePsw v).regs = s.regs := rfl
@[simp] theorem State.writePsw_scratch (s : State) (v : Byte) : (s.writePsw v).scratch = s.scratch := rfl
@[simp] theorem State.writePsw_b (s : State) (v : Byte) : (s.writePsw v).b = s.b := rfl
@[simp] theorem State.writePsw_ir (s : State) (v : Byte) : (s.writePsw v).ir = s.ir := rfl
@[simp] theorem State.writePsw_be (s : State) (v : Byte) : (s.writePsw v).be = s.be := rfl
@[simp] theorem State.writePsw_pe (s : State) (v : Byte) : (s.writePsw v).pe = s.pe := rfl
@[simp] theorem State.writePsw_stov (s : State) (v : Byte) : (s.writePsw v).stov = s.stov := rfl
@[simp] theorem State.writePsw_tbitFlag (s : State) (v : Byte) : (s.writePsw v).tbitFlag = s.tbitFlag := rfl
@[simp] theorem State.writePsw_pfail (s : State) (v : Byte) : (s.writePsw v).pfail = s.pfail := rfl
@[simp] theorem State.writePsw_run (s : State) (v : Byte) : (s.writePsw v).run = s.run := rfl
@[simp] theorem State.writePsw_waitHeld (s : State) (v : Byte) : (s.writePsw v).waitHeld = s.waitHeld := rfl
@[simp] theorem State.writePsw_mem (s : State) (v : Byte) : (s.writePsw v).mem = s.mem := rfl
@[simp] theorem State.writePsw_br4 (s : State) (v : Byte) : (s.writePsw v).br4 = s.br4 := rfl
@[simp] theorem State.writePsw_br5 (s : State) (v : Byte) : (s.writePsw v).br5 = s.br5 := rfl
@[simp] theorem State.writePsw_br6 (s : State) (v : Byte) : (s.writePsw v).br6 = s.br6 := rfl
@[simp] theorem State.writePsw_br7 (s : State) (v : Byte) : (s.writePsw v).br7 = s.br7 := rfl
@[simp] theorem State.writePsw_haltRequest (s : State) (v : Byte) : (s.writePsw v).haltRequest = s.haltRequest := rfl
@[simp] theorem State.writePsw_acLo (s : State) (v : Byte) : (s.writePsw v).acLo = s.acLo := rfl
@[simp] theorem State.writePsw_pup (s : State) (v : Byte) : (s.writePsw v).pup = s.pup := rfl
@[simp] theorem State.writePsw_pdwn (s : State) (v : Byte) : (s.writePsw v).pdwn = s.pdwn := rfl
@[simp] theorem State.writePsw_parityBad (s : State) (v : Byte) : (s.writePsw v).parityBad = s.parityBad := rfl
@[simp] theorem State.writePsw_initPulses (s : State) (v : Byte) : (s.writePsw v).initPulses = s.initPulses := rfl
@[simp] theorem State.writePsw_inputs (s : State) (v : Byte) : (s.writePsw v).inputs = s.inputs := rfl
@[simp] theorem State.writePsw_npr (s : State) (v : Byte) : (s.writePsw v).npr = s.npr := rfl
@[simp] theorem State.writePsw_bus (s : State) (v : Byte) : (s.writePsw v).bus = s.bus := rfl
@[simp] theorem State.writePsw_cfg (s : State) (v : Byte) : (s.writePsw v).cfg = s.cfg := rfl

@[simp] theorem State.setCC_regs (s : State) (f : CC) : (s.setCC f).regs = s.regs := rfl
@[simp] theorem State.setCC_scratch (s : State) (f : CC) : (s.setCC f).scratch = s.scratch := rfl
@[simp] theorem State.setCC_b (s : State) (f : CC) : (s.setCC f).b = s.b := rfl
@[simp] theorem State.setCC_ir (s : State) (f : CC) : (s.setCC f).ir = s.ir := rfl
@[simp] theorem State.setCC_be (s : State) (f : CC) : (s.setCC f).be = s.be := rfl
@[simp] theorem State.setCC_pe (s : State) (f : CC) : (s.setCC f).pe = s.pe := rfl
@[simp] theorem State.setCC_stov (s : State) (f : CC) : (s.setCC f).stov = s.stov := rfl
@[simp] theorem State.setCC_tbitFlag (s : State) (f : CC) : (s.setCC f).tbitFlag = s.tbitFlag := rfl
@[simp] theorem State.setCC_pfail (s : State) (f : CC) : (s.setCC f).pfail = s.pfail := rfl
@[simp] theorem State.setCC_run (s : State) (f : CC) : (s.setCC f).run = s.run := rfl
@[simp] theorem State.setCC_waitHeld (s : State) (f : CC) : (s.setCC f).waitHeld = s.waitHeld := rfl
@[simp] theorem State.setCC_mem (s : State) (f : CC) : (s.setCC f).mem = s.mem := rfl
@[simp] theorem State.setCC_br4 (s : State) (f : CC) : (s.setCC f).br4 = s.br4 := rfl
@[simp] theorem State.setCC_br5 (s : State) (f : CC) : (s.setCC f).br5 = s.br5 := rfl
@[simp] theorem State.setCC_br6 (s : State) (f : CC) : (s.setCC f).br6 = s.br6 := rfl
@[simp] theorem State.setCC_br7 (s : State) (f : CC) : (s.setCC f).br7 = s.br7 := rfl
@[simp] theorem State.setCC_haltRequest (s : State) (f : CC) : (s.setCC f).haltRequest = s.haltRequest := rfl
@[simp] theorem State.setCC_acLo (s : State) (f : CC) : (s.setCC f).acLo = s.acLo := rfl
@[simp] theorem State.setCC_pup (s : State) (f : CC) : (s.setCC f).pup = s.pup := rfl
@[simp] theorem State.setCC_pdwn (s : State) (f : CC) : (s.setCC f).pdwn = s.pdwn := rfl
@[simp] theorem State.setCC_parityBad (s : State) (f : CC) : (s.setCC f).parityBad = s.parityBad := rfl
@[simp] theorem State.setCC_initPulses (s : State) (f : CC) : (s.setCC f).initPulses = s.initPulses := rfl
@[simp] theorem State.setCC_inputs (s : State) (f : CC) : (s.setCC f).inputs = s.inputs := rfl
@[simp] theorem State.setCC_npr (s : State) (f : CC) : (s.setCC f).npr = s.npr := rfl
@[simp] theorem State.setCC_bus (s : State) (f : CC) : (s.setCC f).bus = s.bus := rfl
@[simp] theorem State.setCC_draws (s : State) (f : CC) : (s.setCC f).draws = s.draws := rfl
@[simp] theorem State.setCC_cfg (s : State) (f : CC) : (s.setCC f).cfg = s.cfg := rfl

@[simp] theorem State.drawn_regs (s : State) : (s.drawn).regs = s.regs := rfl
@[simp] theorem State.drawn_psw (s : State) : (s.drawn).psw = s.psw := rfl
@[simp] theorem State.drawn_scratch (s : State) : (s.drawn).scratch = s.scratch := rfl
@[simp] theorem State.drawn_b (s : State) : (s.drawn).b = s.b := rfl
@[simp] theorem State.drawn_ir (s : State) : (s.drawn).ir = s.ir := rfl
@[simp] theorem State.drawn_be (s : State) : (s.drawn).be = s.be := rfl
@[simp] theorem State.drawn_pe (s : State) : (s.drawn).pe = s.pe := rfl
@[simp] theorem State.drawn_stov (s : State) : (s.drawn).stov = s.stov := rfl
@[simp] theorem State.drawn_tbitFlag (s : State) : (s.drawn).tbitFlag = s.tbitFlag := rfl
@[simp] theorem State.drawn_pfail (s : State) : (s.drawn).pfail = s.pfail := rfl
@[simp] theorem State.drawn_run (s : State) : (s.drawn).run = s.run := rfl
@[simp] theorem State.drawn_waitHeld (s : State) : (s.drawn).waitHeld = s.waitHeld := rfl
@[simp] theorem State.drawn_mem (s : State) : (s.drawn).mem = s.mem := rfl
@[simp] theorem State.drawn_br4 (s : State) : (s.drawn).br4 = s.br4 := rfl
@[simp] theorem State.drawn_br5 (s : State) : (s.drawn).br5 = s.br5 := rfl
@[simp] theorem State.drawn_br6 (s : State) : (s.drawn).br6 = s.br6 := rfl
@[simp] theorem State.drawn_br7 (s : State) : (s.drawn).br7 = s.br7 := rfl
@[simp] theorem State.drawn_haltRequest (s : State) : (s.drawn).haltRequest = s.haltRequest := rfl
@[simp] theorem State.drawn_acLo (s : State) : (s.drawn).acLo = s.acLo := rfl
@[simp] theorem State.drawn_pup (s : State) : (s.drawn).pup = s.pup := rfl
@[simp] theorem State.drawn_pdwn (s : State) : (s.drawn).pdwn = s.pdwn := rfl
@[simp] theorem State.drawn_parityBad (s : State) : (s.drawn).parityBad = s.parityBad := rfl
@[simp] theorem State.drawn_initPulses (s : State) : (s.drawn).initPulses = s.initPulses := rfl
@[simp] theorem State.drawn_inputs (s : State) : (s.drawn).inputs = s.inputs := rfl
@[simp] theorem State.drawn_npr (s : State) : (s.drawn).npr = s.npr := rfl
@[simp] theorem State.drawn_bus (s : State) : (s.drawn).bus = s.bus := rfl
@[simp] theorem State.drawn_cfg (s : State) : (s.drawn).cfg = s.cfg := rfl

@[simp] theorem State.logged_regs (s : State) (k : CycleKind) (a v : Word) (ok : Bool) : (s.logged k a v ok).regs = s.regs := rfl
@[simp] theorem State.logged_psw (s : State) (k : CycleKind) (a v : Word) (ok : Bool) : (s.logged k a v ok).psw = s.psw := rfl
@[simp] theorem State.logged_scratch (s : State) (k : CycleKind) (a v : Word) (ok : Bool) : (s.logged k a v ok).scratch = s.scratch := rfl
@[simp] theorem State.logged_b (s : State) (k : CycleKind) (a v : Word) (ok : Bool) : (s.logged k a v ok).b = s.b := rfl
@[simp] theorem State.logged_ir (s : State) (k : CycleKind) (a v : Word) (ok : Bool) : (s.logged k a v ok).ir = s.ir := rfl
@[simp] theorem State.logged_be (s : State) (k : CycleKind) (a v : Word) (ok : Bool) : (s.logged k a v ok).be = s.be := rfl
@[simp] theorem State.logged_pe (s : State) (k : CycleKind) (a v : Word) (ok : Bool) : (s.logged k a v ok).pe = s.pe := rfl
@[simp] theorem State.logged_stov (s : State) (k : CycleKind) (a v : Word) (ok : Bool) : (s.logged k a v ok).stov = s.stov := rfl
@[simp] theorem State.logged_tbitFlag (s : State) (k : CycleKind) (a v : Word) (ok : Bool) : (s.logged k a v ok).tbitFlag = s.tbitFlag := rfl
@[simp] theorem State.logged_pfail (s : State) (k : CycleKind) (a v : Word) (ok : Bool) : (s.logged k a v ok).pfail = s.pfail := rfl
@[simp] theorem State.logged_run (s : State) (k : CycleKind) (a v : Word) (ok : Bool) : (s.logged k a v ok).run = s.run := rfl
@[simp] theorem State.logged_waitHeld (s : State) (k : CycleKind) (a v : Word) (ok : Bool) : (s.logged k a v ok).waitHeld = s.waitHeld := rfl
@[simp] theorem State.logged_mem (s : State) (k : CycleKind) (a v : Word) (ok : Bool) : (s.logged k a v ok).mem = s.mem := rfl
@[simp] theorem State.logged_br4 (s : State) (k : CycleKind) (a v : Word) (ok : Bool) : (s.logged k a v ok).br4 = s.br4 := rfl
@[simp] theorem State.logged_br5 (s : State) (k : CycleKind) (a v : Word) (ok : Bool) : (s.logged k a v ok).br5 = s.br5 := rfl
@[simp] theorem State.logged_br6 (s : State) (k : CycleKind) (a v : Word) (ok : Bool) : (s.logged k a v ok).br6 = s.br6 := rfl
@[simp] theorem State.logged_br7 (s : State) (k : CycleKind) (a v : Word) (ok : Bool) : (s.logged k a v ok).br7 = s.br7 := rfl
@[simp] theorem State.logged_haltRequest (s : State) (k : CycleKind) (a v : Word) (ok : Bool) : (s.logged k a v ok).haltRequest = s.haltRequest := rfl
@[simp] theorem State.logged_acLo (s : State) (k : CycleKind) (a v : Word) (ok : Bool) : (s.logged k a v ok).acLo = s.acLo := rfl
@[simp] theorem State.logged_pup (s : State) (k : CycleKind) (a v : Word) (ok : Bool) : (s.logged k a v ok).pup = s.pup := rfl
@[simp] theorem State.logged_pdwn (s : State) (k : CycleKind) (a v : Word) (ok : Bool) : (s.logged k a v ok).pdwn = s.pdwn := rfl
@[simp] theorem State.logged_parityBad (s : State) (k : CycleKind) (a v : Word) (ok : Bool) : (s.logged k a v ok).parityBad = s.parityBad := rfl
@[simp] theorem State.logged_initPulses (s : State) (k : CycleKind) (a v : Word) (ok : Bool) : (s.logged k a v ok).initPulses = s.initPulses := rfl
@[simp] theorem State.logged_inputs (s : State) (k : CycleKind) (a v : Word) (ok : Bool) : (s.logged k a v ok).inputs = s.inputs := rfl
@[simp] theorem State.logged_npr (s : State) (k : CycleKind) (a v : Word) (ok : Bool) : (s.logged k a v ok).npr = s.npr := rfl
@[simp] theorem State.logged_draws (s : State) (k : CycleKind) (a v : Word) (ok : Bool) : (s.logged k a v ok).draws = s.draws := rfl
@[simp] theorem State.logged_cfg (s : State) (k : CycleKind) (a v : Word) (ok : Bool) : (s.logged k a v ok).cfg = s.cfg := rfl

@[simp] theorem State.setR10_reg (s : State) (v : Word) (r : Reg) : (s.setR10 v).reg r = s.reg r := rfl
@[simp] theorem State.setR10_pc (s : State) (v : Word) : (s.setR10 v).pc = s.pc := rfl
@[simp] theorem State.setR10_sp (s : State) (v : Word) : (s.setR10 v).sp = s.sp := rfl
@[simp] theorem State.setR11_reg (s : State) (v : Word) (r : Reg) : (s.setR11 v).reg r = s.reg r := rfl
@[simp] theorem State.setR11_pc (s : State) (v : Word) : (s.setR11 v).pc = s.pc := rfl
@[simp] theorem State.setR11_sp (s : State) (v : Word) : (s.setR11 v).sp = s.sp := rfl
@[simp] theorem State.setR12_reg (s : State) (v : Word) (r : Reg) : (s.setR12 v).reg r = s.reg r := rfl
@[simp] theorem State.setR12_pc (s : State) (v : Word) : (s.setR12 v).pc = s.pc := rfl
@[simp] theorem State.setR12_sp (s : State) (v : Word) : (s.setR12 v).sp = s.sp := rfl
@[simp] theorem State.setR13_reg (s : State) (v : Word) (r : Reg) : (s.setR13 v).reg r = s.reg r := rfl
@[simp] theorem State.setR13_pc (s : State) (v : Word) : (s.setR13 v).pc = s.pc := rfl
@[simp] theorem State.setR13_sp (s : State) (v : Word) : (s.setR13 v).sp = s.sp := rfl
@[simp] theorem State.setR17_reg (s : State) (v : Word) (r : Reg) : (s.setR17 v).reg r = s.reg r := rfl
@[simp] theorem State.setR17_pc (s : State) (v : Word) : (s.setR17 v).pc = s.pc := rfl
@[simp] theorem State.setR17_sp (s : State) (v : Word) : (s.setR17 v).sp = s.sp := rfl
@[simp] theorem State.setB_reg (s : State) (v : Word) (r : Reg) : (s.setB v).reg r = s.reg r := rfl
@[simp] theorem State.setB_pc (s : State) (v : Word) : (s.setB v).pc = s.pc := rfl
@[simp] theorem State.setB_sp (s : State) (v : Word) : (s.setB v).sp = s.sp := rfl
@[simp] theorem State.loadPsw_reg (s : State) (w : Word) (r : Reg) : (s.loadPsw w).reg r = s.reg r := rfl
@[simp] theorem State.loadPsw_pc (s : State) (w : Word) : (s.loadPsw w).pc = s.pc := rfl
@[simp] theorem State.loadPsw_sp (s : State) (w : Word) : (s.loadPsw w).sp = s.sp := rfl
@[simp] theorem State.writePsw_reg (s : State) (v : Byte) (r : Reg) : (s.writePsw v).reg r = s.reg r := rfl
@[simp] theorem State.writePsw_pc (s : State) (v : Byte) : (s.writePsw v).pc = s.pc := rfl
@[simp] theorem State.writePsw_sp (s : State) (v : Byte) : (s.writePsw v).sp = s.sp := rfl
@[simp] theorem State.setCC_reg (s : State) (f : CC) (r : Reg) : (s.setCC f).reg r = s.reg r := rfl
@[simp] theorem State.setCC_pc (s : State) (f : CC) : (s.setCC f).pc = s.pc := rfl
@[simp] theorem State.setCC_sp (s : State) (f : CC) : (s.setCC f).sp = s.sp := rfl
@[simp] theorem State.drawn_reg (s : State) (r : Reg) : (s.drawn).reg r = s.reg r := rfl
@[simp] theorem State.drawn_pc (s : State) : (s.drawn).pc = s.pc := rfl
@[simp] theorem State.drawn_sp (s : State) : (s.drawn).sp = s.sp := rfl
@[simp] theorem State.logged_reg (s : State) (k : CycleKind) (a v : Word) (ok : Bool) (r : Reg) : (s.logged k a v ok).reg r = s.reg r := rfl
@[simp] theorem State.logged_pc (s : State) (k : CycleKind) (a v : Word) (ok : Bool) : (s.logged k a v ok).pc = s.pc := rfl
@[simp] theorem State.logged_sp (s : State) (k : CycleKind) (a v : Word) (ok : Bool) : (s.logged k a v ok).sp = s.sp := rfl

@[simp] theorem State.stackCheck_regs (s : State) : s.stackCheck.regs = s.regs := by
  unfold State.stackCheck; split <;> rfl
@[simp] theorem State.stackCheck_psw (s : State) : s.stackCheck.psw = s.psw := by
  unfold State.stackCheck; split <;> rfl
@[simp] theorem State.stackCheck_scratch (s : State) : s.stackCheck.scratch = s.scratch := by
  unfold State.stackCheck; split <;> rfl
@[simp] theorem State.stackCheck_b (s : State) : s.stackCheck.b = s.b := by
  unfold State.stackCheck; split <;> rfl
@[simp] theorem State.stackCheck_ir (s : State) : s.stackCheck.ir = s.ir := by
  unfold State.stackCheck; split <;> rfl
@[simp] theorem State.stackCheck_be (s : State) : s.stackCheck.be = s.be := by
  unfold State.stackCheck; split <;> rfl
@[simp] theorem State.stackCheck_pe (s : State) : s.stackCheck.pe = s.pe := by
  unfold State.stackCheck; split <;> rfl
@[simp] theorem State.stackCheck_tbitFlag (s : State) : s.stackCheck.tbitFlag = s.tbitFlag := by
  unfold State.stackCheck; split <;> rfl
@[simp] theorem State.stackCheck_pfail (s : State) : s.stackCheck.pfail = s.pfail := by
  unfold State.stackCheck; split <;> rfl
@[simp] theorem State.stackCheck_run (s : State) : s.stackCheck.run = s.run := by
  unfold State.stackCheck; split <;> rfl
@[simp] theorem State.stackCheck_waitHeld (s : State) : s.stackCheck.waitHeld = s.waitHeld := by
  unfold State.stackCheck; split <;> rfl
@[simp] theorem State.stackCheck_mem (s : State) : s.stackCheck.mem = s.mem := by
  unfold State.stackCheck; split <;> rfl
@[simp] theorem State.stackCheck_br4 (s : State) : s.stackCheck.br4 = s.br4 := by
  unfold State.stackCheck; split <;> rfl
@[simp] theorem State.stackCheck_br5 (s : State) : s.stackCheck.br5 = s.br5 := by
  unfold State.stackCheck; split <;> rfl
@[simp] theorem State.stackCheck_br6 (s : State) : s.stackCheck.br6 = s.br6 := by
  unfold State.stackCheck; split <;> rfl
@[simp] theorem State.stackCheck_br7 (s : State) : s.stackCheck.br7 = s.br7 := by
  unfold State.stackCheck; split <;> rfl
@[simp] theorem State.stackCheck_haltRequest (s : State) : s.stackCheck.haltRequest = s.haltRequest := by
  unfold State.stackCheck; split <;> rfl
@[simp] theorem State.stackCheck_acLo (s : State) : s.stackCheck.acLo = s.acLo := by
  unfold State.stackCheck; split <;> rfl
@[simp] theorem State.stackCheck_pup (s : State) : s.stackCheck.pup = s.pup := by
  unfold State.stackCheck; split <;> rfl
@[simp] theorem State.stackCheck_pdwn (s : State) : s.stackCheck.pdwn = s.pdwn := by
  unfold State.stackCheck; split <;> rfl
@[simp] theorem State.stackCheck_parityBad (s : State) : s.stackCheck.parityBad = s.parityBad := by
  unfold State.stackCheck; split <;> rfl
@[simp] theorem State.stackCheck_initPulses (s : State) : s.stackCheck.initPulses = s.initPulses := by
  unfold State.stackCheck; split <;> rfl
@[simp] theorem State.stackCheck_inputs (s : State) : s.stackCheck.inputs = s.inputs := by
  unfold State.stackCheck; split <;> rfl
@[simp] theorem State.stackCheck_npr (s : State) : s.stackCheck.npr = s.npr := by
  unfold State.stackCheck; split <;> rfl
@[simp] theorem State.stackCheck_bus (s : State) : s.stackCheck.bus = s.bus := by
  unfold State.stackCheck; split <;> rfl
@[simp] theorem State.stackCheck_draws (s : State) : s.stackCheck.draws = s.draws := by
  unfold State.stackCheck; split <;> rfl
@[simp] theorem State.stackCheck_cfg (s : State) : s.stackCheck.cfg = s.cfg := by
  unfold State.stackCheck; split <;> rfl
@[simp] theorem State.stackCheck_reg (s : State) (r : Reg) : s.stackCheck.reg r = s.reg r := by
  unfold State.stackCheck; split <;> rfl

@[simp] theorem State.complete_regs (s : State) : s.complete.regs = s.regs := by
  unfold State.complete; split <;> rfl
@[simp] theorem State.complete_psw (s : State) : s.complete.psw = s.psw := by
  unfold State.complete; split <;> rfl
@[simp] theorem State.complete_scratch (s : State) : s.complete.scratch = s.scratch := by
  unfold State.complete; split <;> rfl
@[simp] theorem State.complete_b (s : State) : s.complete.b = s.b := by
  unfold State.complete; split <;> rfl
@[simp] theorem State.complete_ir (s : State) : s.complete.ir = s.ir := by
  unfold State.complete; split <;> rfl
@[simp] theorem State.complete_be (s : State) : s.complete.be = s.be := by
  unfold State.complete; split <;> rfl
@[simp] theorem State.complete_pe (s : State) : s.complete.pe = s.pe := by
  unfold State.complete; split <;> rfl
@[simp] theorem State.complete_stov (s : State) : s.complete.stov = s.stov := by
  unfold State.complete; split <;> rfl
@[simp] theorem State.complete_pfail (s : State) : s.complete.pfail = s.pfail := by
  unfold State.complete; split <;> rfl
@[simp] theorem State.complete_run (s : State) : s.complete.run = s.run := by
  unfold State.complete; split <;> rfl
@[simp] theorem State.complete_waitHeld (s : State) : s.complete.waitHeld = s.waitHeld := by
  unfold State.complete; split <;> rfl
@[simp] theorem State.complete_mem (s : State) : s.complete.mem = s.mem := by
  unfold State.complete; split <;> rfl
@[simp] theorem State.complete_br4 (s : State) : s.complete.br4 = s.br4 := by
  unfold State.complete; split <;> rfl
@[simp] theorem State.complete_br5 (s : State) : s.complete.br5 = s.br5 := by
  unfold State.complete; split <;> rfl
@[simp] theorem State.complete_br6 (s : State) : s.complete.br6 = s.br6 := by
  unfold State.complete; split <;> rfl
@[simp] theorem State.complete_br7 (s : State) : s.complete.br7 = s.br7 := by
  unfold State.complete; split <;> rfl
@[simp] theorem State.complete_haltRequest (s : State) : s.complete.haltRequest = s.haltRequest := by
  unfold State.complete; split <;> rfl
@[simp] theorem State.complete_acLo (s : State) : s.complete.acLo = s.acLo := by
  unfold State.complete; split <;> rfl
@[simp] theorem State.complete_pup (s : State) : s.complete.pup = s.pup := by
  unfold State.complete; split <;> rfl
@[simp] theorem State.complete_pdwn (s : State) : s.complete.pdwn = s.pdwn := by
  unfold State.complete; split <;> rfl
@[simp] theorem State.complete_parityBad (s : State) : s.complete.parityBad = s.parityBad := by
  unfold State.complete; split <;> rfl
@[simp] theorem State.complete_initPulses (s : State) : s.complete.initPulses = s.initPulses := by
  unfold State.complete; split <;> rfl
@[simp] theorem State.complete_inputs (s : State) : s.complete.inputs = s.inputs := by
  unfold State.complete; split <;> rfl
@[simp] theorem State.complete_npr (s : State) : s.complete.npr = s.npr := by
  unfold State.complete; split <;> rfl
@[simp] theorem State.complete_bus (s : State) : s.complete.bus = s.bus := by
  unfold State.complete; split <;> rfl
@[simp] theorem State.complete_draws (s : State) : s.complete.draws = s.draws := by
  unfold State.complete; split <;> rfl
@[simp] theorem State.complete_cfg (s : State) : s.complete.cfg = s.cfg := by
  unfold State.complete; split <;> rfl
@[simp] theorem State.complete_reg (s : State) (r : Reg) : s.complete.reg r = s.reg r := by
  unfold State.complete; split <;> rfl

/-! ### The other masters' cycles before a cycle of the processor -/

/-- A master's cycle changes memory, or the PSW, and nothing else. -/
theorem State.dma_eq (s : State) (c : MasterCycle) : ∃ m p n, s.dma c = { s with mem := m, psw := p, draws := n } := by
  cases c with
  | write a v =>
    show ∃ m p n, s.dmaWrite a v = _
    unfold State.dmaWrite
    repeat' split
    all_goals exact ⟨_, _, _, rfl⟩
  | writeByte a v =>
    show ∃ m p n, s.dmaWriteByte a v = _
    unfold State.dmaWriteByte
    repeat' split
    all_goals exact ⟨_, _, _, rfl⟩

/-- Everything the grant of the bus can do: one batch of the schedule is used up, and memory and the PSW take what it
writes. -/
theorem State.granted_eq (s : State) :
    ∃ m p n, s.granted = { s with mem := m, psw := p, draws := n, npr := s.npr.tail } := by
  have key : ∀ (l : List MasterCycle) (t : State), ∃ m p n,
      l.foldl State.dma t = { t with mem := m, psw := p, draws := n } := by
    intro l
    induction l with
    | nil => intro t; exact ⟨_, _, _, rfl⟩
    | cons c l ih =>
      intro t
      obtain ⟨m, p, n, h⟩ := State.dma_eq t c
      obtain ⟨m', p', n', h'⟩ := ih (t.dma c)
      exact ⟨m', p', n', by rw [List.foldl_cons, h', h]⟩
  unfold State.granted
  split
  · rename_i h; exact ⟨s.mem, s.psw, s.draws, by rw [h]; rw [List.tail_nil, ← h]⟩
  · rename_i now later h
    obtain ⟨m, p, n, k⟩ := key now { s with npr := later }
    exact ⟨m, p, n, by rw [k, h]; rfl⟩

/-- With nothing scheduled the bus is simply taken. -/
theorem State.granted_nil {s : State} (h : s.npr = []) : s.granted = s := by unfold State.granted; rw [h]

@[simp] theorem State.granted_npr (s : State) : s.granted.npr = s.npr.tail := by
  obtain ⟨m, p, n, h⟩ := s.granted_eq; rw [h]

@[simp] theorem State.granted_regs (s : State) : s.granted.regs = s.regs := by
  obtain ⟨m, p, n, h⟩ := s.granted_eq; rw [h]
@[simp] theorem State.granted_scratch (s : State) : s.granted.scratch = s.scratch := by
  obtain ⟨m, p, n, h⟩ := s.granted_eq; rw [h]
@[simp] theorem State.granted_b (s : State) : s.granted.b = s.b := by
  obtain ⟨m, p, n, h⟩ := s.granted_eq; rw [h]
@[simp] theorem State.granted_ir (s : State) : s.granted.ir = s.ir := by
  obtain ⟨m, p, n, h⟩ := s.granted_eq; rw [h]
@[simp] theorem State.granted_be (s : State) : s.granted.be = s.be := by
  obtain ⟨m, p, n, h⟩ := s.granted_eq; rw [h]
@[simp] theorem State.granted_pe (s : State) : s.granted.pe = s.pe := by
  obtain ⟨m, p, n, h⟩ := s.granted_eq; rw [h]
@[simp] theorem State.granted_stov (s : State) : s.granted.stov = s.stov := by
  obtain ⟨m, p, n, h⟩ := s.granted_eq; rw [h]
@[simp] theorem State.granted_tbitFlag (s : State) : s.granted.tbitFlag = s.tbitFlag := by
  obtain ⟨m, p, n, h⟩ := s.granted_eq; rw [h]
@[simp] theorem State.granted_pfail (s : State) : s.granted.pfail = s.pfail := by
  obtain ⟨m, p, n, h⟩ := s.granted_eq; rw [h]
@[simp] theorem State.granted_run (s : State) : s.granted.run = s.run := by
  obtain ⟨m, p, n, h⟩ := s.granted_eq; rw [h]
@[simp] theorem State.granted_waitHeld (s : State) : s.granted.waitHeld = s.waitHeld := by
  obtain ⟨m, p, n, h⟩ := s.granted_eq; rw [h]
@[simp] theorem State.granted_br4 (s : State) : s.granted.br4 = s.br4 := by
  obtain ⟨m, p, n, h⟩ := s.granted_eq; rw [h]
@[simp] theorem State.granted_br5 (s : State) : s.granted.br5 = s.br5 := by
  obtain ⟨m, p, n, h⟩ := s.granted_eq; rw [h]
@[simp] theorem State.granted_br6 (s : State) : s.granted.br6 = s.br6 := by
  obtain ⟨m, p, n, h⟩ := s.granted_eq; rw [h]
@[simp] theorem State.granted_br7 (s : State) : s.granted.br7 = s.br7 := by
  obtain ⟨m, p, n, h⟩ := s.granted_eq; rw [h]
@[simp] theorem State.granted_haltRequest (s : State) : s.granted.haltRequest = s.haltRequest := by
  obtain ⟨m, p, n, h⟩ := s.granted_eq; rw [h]
@[simp] theorem State.granted_acLo (s : State) : s.granted.acLo = s.acLo := by
  obtain ⟨m, p, n, h⟩ := s.granted_eq; rw [h]
@[simp] theorem State.granted_pup (s : State) : s.granted.pup = s.pup := by
  obtain ⟨m, p, n, h⟩ := s.granted_eq; rw [h]
@[simp] theorem State.granted_pdwn (s : State) : s.granted.pdwn = s.pdwn := by
  obtain ⟨m, p, n, h⟩ := s.granted_eq; rw [h]
@[simp] theorem State.granted_parityBad (s : State) : s.granted.parityBad = s.parityBad := by
  obtain ⟨m, p, n, h⟩ := s.granted_eq; rw [h]
@[simp] theorem State.granted_initPulses (s : State) : s.granted.initPulses = s.initPulses := by
  obtain ⟨m, p, n, h⟩ := s.granted_eq; rw [h]
@[simp] theorem State.granted_inputs (s : State) : s.granted.inputs = s.inputs := by
  obtain ⟨m, p, n, h⟩ := s.granted_eq; rw [h]
@[simp] theorem State.granted_bus (s : State) : s.granted.bus = s.bus := by
  obtain ⟨m, p, n, h⟩ := s.granted_eq; rw [h]
@[simp] theorem State.granted_cfg (s : State) : s.granted.cfg = s.cfg := by
  obtain ⟨m, p, n, h⟩ := s.granted_eq; rw [h]
@[simp] theorem State.granted_reg (s : State) (r : Reg) : s.granted.reg r = s.reg r := by
  unfold State.reg; rw [State.granted_regs]
@[simp] theorem State.granted_pc (s : State) : s.granted.pc = s.pc := State.granted_reg s .r7
@[simp] theorem State.granted_sp (s : State) : s.granted.sp = s.sp := State.granted_reg s .r6

/-! ### A read cycle, by what is seen of it -/

/-- A read cycle adds to the grant of the bus its own place on the bus, and perhaps a free value used up. -/
theorem State.after_eq (s : State) (k : CycleKind) (sz : Size) (a : Word) :
    ∃ l n, s.after k sz a = { s.granted with bus := l, draws := n } := by
  unfold State.after
  dsimp only
  split
  · exact ⟨_, _, rfl⟩
  · split <;> exact ⟨_, _, rfl⟩

@[simp] theorem State.after_regs (s : State) (k : CycleKind) (sz : Size) (a : Word) : (s.after k sz a).regs = s.regs := by
  obtain ⟨l, n, h⟩ := s.after_eq k sz a; rw [h]; exact s.granted_regs
@[simp] theorem State.after_psw (s : State) (k : CycleKind) (sz : Size) (a : Word) : (s.after k sz a).psw = s.granted.psw := by
  obtain ⟨l, n, h⟩ := s.after_eq k sz a; rw [h]
@[simp] theorem State.after_scratch (s : State) (k : CycleKind) (sz : Size) (a : Word) : (s.after k sz a).scratch = s.scratch := by
  obtain ⟨l, n, h⟩ := s.after_eq k sz a; rw [h]; exact s.granted_scratch
@[simp] theorem State.after_b (s : State) (k : CycleKind) (sz : Size) (a : Word) : (s.after k sz a).b = s.b := by
  obtain ⟨l, n, h⟩ := s.after_eq k sz a; rw [h]; exact s.granted_b
@[simp] theorem State.after_ir (s : State) (k : CycleKind) (sz : Size) (a : Word) : (s.after k sz a).ir = s.ir := by
  obtain ⟨l, n, h⟩ := s.after_eq k sz a; rw [h]; exact s.granted_ir
@[simp] theorem State.after_be (s : State) (k : CycleKind) (sz : Size) (a : Word) : (s.after k sz a).be = s.be := by
  obtain ⟨l, n, h⟩ := s.after_eq k sz a; rw [h]; exact s.granted_be
@[simp] theorem State.after_pe (s : State) (k : CycleKind) (sz : Size) (a : Word) : (s.after k sz a).pe = s.pe := by
  obtain ⟨l, n, h⟩ := s.after_eq k sz a; rw [h]; exact s.granted_pe
@[simp] theorem State.after_stov (s : State) (k : CycleKind) (sz : Size) (a : Word) : (s.after k sz a).stov = s.stov := by
  obtain ⟨l, n, h⟩ := s.after_eq k sz a; rw [h]; exact s.granted_stov
@[simp] theorem State.after_tbitFlag (s : State) (k : CycleKind) (sz : Size) (a : Word) : (s.after k sz a).tbitFlag = s.tbitFlag := by
  obtain ⟨l, n, h⟩ := s.after_eq k sz a; rw [h]; exact s.granted_tbitFlag
@[simp] theorem State.after_pfail (s : State) (k : CycleKind) (sz : Size) (a : Word) : (s.after k sz a).pfail = s.pfail := by
  obtain ⟨l, n, h⟩ := s.after_eq k sz a; rw [h]; exact s.granted_pfail
@[simp] theorem State.after_run (s : State) (k : CycleKind) (sz : Size) (a : Word) : (s.after k sz a).run = s.run := by
  obtain ⟨l, n, h⟩ := s.after_eq k sz a; rw [h]; exact s.granted_run
@[simp] theorem State.after_waitHeld (s : State) (k : CycleKind) (sz : Size) (a : Word) : (s.after k sz a).waitHeld = s.waitHeld := by
  obtain ⟨l, n, h⟩ := s.after_eq k sz a; rw [h]; exact s.granted_waitHeld
@[simp] theorem State.after_mem (s : State) (k : CycleKind) (sz : Size) (a : Word) : (s.after k sz a).mem = s.granted.mem := by
  obtain ⟨l, n, h⟩ := s.after_eq k sz a; rw [h]
@[simp] theorem State.after_br4 (s : State) (k : CycleKind) (sz : Size) (a : Word) : (s.after k sz a).br4 = s.br4 := by
  obtain ⟨l, n, h⟩ := s.after_eq k sz a; rw [h]; exact s.granted_br4
@[simp] theorem State.after_br5 (s : State) (k : CycleKind) (sz : Size) (a : Word) : (s.after k sz a).br5 = s.br5 := by
  obtain ⟨l, n, h⟩ := s.after_eq k sz a; rw [h]; exact s.granted_br5
@[simp] theorem State.after_br6 (s : State) (k : CycleKind) (sz : Size) (a : Word) : (s.after k sz a).br6 = s.br6 := by
  obtain ⟨l, n, h⟩ := s.after_eq k sz a; rw [h]; exact s.granted_br6
@[simp] theorem State.after_br7 (s : State) (k : CycleKind) (sz : Size) (a : Word) : (s.after k sz a).br7 = s.br7 := by
  obtain ⟨l, n, h⟩ := s.after_eq k sz a; rw [h]; exact s.granted_br7
@[simp] theorem State.after_haltRequest (s : State) (k : CycleKind) (sz : Size) (a : Word) : (s.after k sz a).haltRequest = s.haltRequest := by
  obtain ⟨l, n, h⟩ := s.after_eq k sz a; rw [h]; exact s.granted_haltRequest
@[simp] theorem State.after_acLo (s : State) (k : CycleKind) (sz : Size) (a : Word) : (s.after k sz a).acLo = s.acLo := by
  obtain ⟨l, n, h⟩ := s.after_eq k sz a; rw [h]; exact s.granted_acLo
@[simp] theorem State.after_pup (s : State) (k : CycleKind) (sz : Size) (a : Word) : (s.after k sz a).pup = s.pup := by
  obtain ⟨l, n, h⟩ := s.after_eq k sz a; rw [h]; exact s.granted_pup
@[simp] theorem State.after_pdwn (s : State) (k : CycleKind) (sz : Size) (a : Word) : (s.after k sz a).pdwn = s.pdwn := by
  obtain ⟨l, n, h⟩ := s.after_eq k sz a; rw [h]; exact s.granted_pdwn
@[simp] theorem State.after_parityBad (s : State) (k : CycleKind) (sz : Size) (a : Word) : (s.after k sz a).parityBad = s.parityBad := by
  obtain ⟨l, n, h⟩ := s.after_eq k sz a; rw [h]; exact s.granted_parityBad
@[simp] theorem State.after_initPulses (s : State) (k : CycleKind) (sz : Size) (a : Word) : (s.after k sz a).initPulses = s.initPulses := by
  obtain ⟨l, n, h⟩ := s.after_eq k sz a; rw [h]; exact s.granted_initPulses
@[simp] theorem State.after_inputs (s : State) (k : CycleKind) (sz : Size) (a : Word) : (s.after k sz a).inputs = s.inputs := by
  obtain ⟨l, n, h⟩ := s.after_eq k sz a; rw [h]; exact s.granted_inputs
@[simp] theorem State.after_npr (s : State) (k : CycleKind) (sz : Size) (a : Word) : (s.after k sz a).npr = s.npr.tail := by
  obtain ⟨l, n, h⟩ := s.after_eq k sz a; rw [h]; exact s.granted_npr
@[simp] theorem State.after_cfg (s : State) (k : CycleKind) (sz : Size) (a : Word) : (s.after k sz a).cfg = s.cfg := by
  obtain ⟨l, n, h⟩ := s.after_eq k sz a; rw [h]; exact s.granted_cfg
@[simp] theorem State.after_reg (s : State) (k : CycleKind) (sz : Size) (a : Word) (r : Reg) :
    (s.after k sz a).reg r = s.reg r := by
  unfold State.reg; rw [State.after_regs]
@[simp] theorem State.after_pc (s : State) (k : CycleKind) (sz : Size) (a : Word) : (s.after k sz a).pc = s.pc :=
  State.after_reg s k sz a .r7
@[simp] theorem State.after_sp (s : State) (k : CycleKind) (sz : Size) (a : Word) : (s.after k sz a).sp = s.sp :=
  State.after_reg s k sz a .r6

/-! ### What is seen -/

@[simp] theorem State.visible_regs (s : State) : s.visible.regs = s.regs := rfl
@[simp] theorem State.visible_psw (s : State) : s.visible.psw = s.psw := rfl
@[simp] theorem State.visible_be (s : State) : s.visible.be = s.be := rfl
@[simp] theorem State.visible_pe (s : State) : s.visible.pe = s.pe := rfl
@[simp] theorem State.visible_stov (s : State) : s.visible.stov = s.stov := rfl
@[simp] theorem State.visible_tbitFlag (s : State) : s.visible.tbitFlag = s.tbitFlag := rfl
@[simp] theorem State.visible_pfail (s : State) : s.visible.pfail = s.pfail := rfl
@[simp] theorem State.visible_run (s : State) : s.visible.run = s.run := rfl
@[simp] theorem State.visible_waitHeld (s : State) : s.visible.waitHeld = s.waitHeld := rfl
@[simp] theorem State.visible_mem (s : State) : s.visible.mem = s.mem := rfl
@[simp] theorem State.visible_br4 (s : State) : s.visible.br4 = s.br4 := rfl
@[simp] theorem State.visible_br5 (s : State) : s.visible.br5 = s.br5 := rfl
@[simp] theorem State.visible_br6 (s : State) : s.visible.br6 = s.br6 := rfl
@[simp] theorem State.visible_br7 (s : State) : s.visible.br7 = s.br7 := rfl
@[simp] theorem State.visible_haltRequest (s : State) : s.visible.haltRequest = s.haltRequest := rfl
@[simp] theorem State.visible_acLo (s : State) : s.visible.acLo = s.acLo := rfl
@[simp] theorem State.visible_pup (s : State) : s.visible.pup = s.pup := rfl
@[simp] theorem State.visible_pdwn (s : State) : s.visible.pdwn = s.pdwn := rfl
@[simp] theorem State.visible_parityBad (s : State) : s.visible.parityBad = s.parityBad := rfl
@[simp] theorem State.visible_initPulses (s : State) : s.visible.initPulses = s.initPulses := rfl
@[simp] theorem State.visible_inputs (s : State) : s.visible.inputs = s.inputs := rfl
@[simp] theorem State.visible_npr (s : State) : s.visible.npr = s.npr := rfl
@[simp] theorem State.visible_bus (s : State) : s.visible.bus = s.bus := rfl
@[simp] theorem State.visible_draws (s : State) : s.visible.draws = s.draws := rfl
@[simp] theorem State.visible_cfg (s : State) : s.visible.cfg = s.cfg := rfl

@[simp] theorem State.visible_visible (s : State) : s.visible.visible = s.visible := rfl

@[simp] theorem State.visible_reg (s : State) (r : Reg) : s.visible.reg r = s.reg r := rfl

@[simp] theorem State.visible_pc (s : State) : s.visible.pc = s.pc := rfl

@[simp] theorem State.visible_sp (s : State) : s.visible.sp = s.sp := rfl

@[simp] theorem State.setB_visible (s : State) (v : Word) : (s.setB v).visible = s.visible := rfl
@[simp] theorem State.setR10_visible (s : State) (v : Word) : (s.setR10 v).visible = s.visible := rfl
@[simp] theorem State.setR11_visible (s : State) (v : Word) : (s.setR11 v).visible = s.visible := rfl
@[simp] theorem State.setR12_visible (s : State) (v : Word) : (s.setR12 v).visible = s.visible := rfl
@[simp] theorem State.setR13_visible (s : State) (v : Word) : (s.setR13 v).visible = s.visible := rfl
@[simp] theorem State.setR17_visible (s : State) (v : Word) : (s.setR17 v).visible = s.visible := rfl

theorem State.visible_setReg (s : State) (r : Reg) (v : Word) : (s.setReg r v).visible = s.visible.setReg r v := rfl
theorem State.visible_setPc (s : State) (v : Word) : (s.setPc v).visible = s.visible.setPc v := rfl
theorem State.visible_setSp (s : State) (v : Word) : (s.setSp v).visible = s.visible.setSp v := rfl
theorem State.visible_setRegLow (s : State) (r : Reg) (v : Byte) : (s.setRegLow r v).visible = s.visible.setRegLow r v := rfl
theorem State.visible_loadPsw (s : State) (w : Word) : (s.loadPsw w).visible = s.visible.loadPsw w := rfl
theorem State.visible_writePsw (s : State) (v : Byte) : (s.writePsw v).visible = s.visible.writePsw v := rfl
theorem State.visible_setCC (s : State) (f : CC) : (s.setCC f).visible = s.visible.setCC f := rfl
theorem State.visible_drawn (s : State) : (s.drawn).visible = s.visible.drawn := rfl
theorem State.visible_logged (s : State) (k : CycleKind) (a v : Word) (ok : Bool) : (s.logged k a v ok).visible = s.visible.logged k a v ok := rfl

theorem State.visible_stackCheck (s : State) : s.stackCheck.visible = s.visible.stackCheck :=
  apply_ite State.visible _ _ _

theorem State.visible_complete (s : State) : s.complete.visible = s.visible.complete :=
  apply_ite State.visible _ _ _

theorem State.visible_dma (s : State) (c : MasterCycle) : (s.dma c).visible = s.visible.dma c := by
  cases c with
  | write a v =>
    show (s.dmaWrite a v).visible = s.visible.dmaWrite a v
    unfold State.dmaWrite
    dsimp only [State.visible_cfg]
    repeat' split
    all_goals rfl
  | writeByte a v =>
    show (s.dmaWriteByte a v).visible = s.visible.dmaWriteByte a v
    unfold State.dmaWriteByte
    dsimp only [State.visible_cfg]
    repeat' split
    all_goals rfl

theorem State.visible_granted (s : State) : s.granted.visible = s.visible.granted := by
  have key : ∀ (l : List MasterCycle) (t : State), (l.foldl State.dma t).visible = l.foldl State.dma t.visible := by
    intro l
    induction l with
    | nil => intro t; rfl
    | cons c l ih => intro t; rw [List.foldl_cons, List.foldl_cons, ih, State.visible_dma]
  unfold State.granted
  rw [show s.visible.npr = s.npr from rfl]
  split
  · rfl
  · exact key _ _

theorem State.visible_after (s : State) (k : CycleKind) (sz : Size) (a : Word) :
    (s.after k sz a).visible = s.visible.after k sz a := by
  unfold State.after
  rw [← State.visible_granted]
  dsimp only
  split
  · rfl
  · rw [show s.granted.visible.targetOf a = s.granted.targetOf a from rfl]
    split <;> rfl

end Sys2Proof.Machine
end

