-- ==== Sys2Proof/Laws/Memory.lean ====
section
/-! SUPPORT. Memory: reads after writes, and the canonical form every write keeps. -/

namespace Sys2Proof.Machine

/-! ### Reads after writes -/

theorem Memory.read_write (m : Memory) (a b : Nat) (v : Byte) (h : m.wf = true) :
    (m.write a v).read b = if b = a then v else m.read b := by
  suffices H : ∀ lo, Memory.wfFrom lo m = true → (m.write a v).read b = if b = a then v else m.read b from H 0 h
  clear h
  induction m with
  | nil =>
    intro lo _
    simp only [Memory.write]
    split
    · rename_i hv; simp [Memory.read, hv]
    · simp only [Memory.read]; split <;> split <;> simp_all
  | cons c rest ih =>
    obtain ⟨k, x⟩ := c
    intro lo hw
    simp only [Memory.wfFrom, Bool.and_eq_true, decide_eq_true_eq] at hw
    obtain ⟨⟨⟨hlo, hk⟩, hx⟩, hr⟩ := hw
    have low : ∀ (t : Memory) (n : Nat), Memory.wfFrom n t = true → ∀ c, c < n → t.read c = Memory.unlisted := by
      intro t
      induction t with
      | nil => intros; rfl
      | cons d t iht =>
        obtain ⟨j, y⟩ := d
        intro n ht c hc
        simp only [Memory.wfFrom, Bool.and_eq_true, decide_eq_true_eq] at ht
        obtain ⟨⟨⟨h1, h2⟩, h3⟩, h4⟩ := ht
        simp only [Memory.read]
        rw [if_neg (by omega)]
        exact iht (j + 1) h4 c (by omega)
    simp only [Memory.write]
    by_cases h1 : k < a
    · rw [if_pos h1]
      simp only [Memory.read]
      rw [ih (k + 1) hr]
      by_cases hb : b = a
      · subst hb; rw [if_neg (by omega)]; simp
      · simp [hb]
    · rw [if_neg h1]
      by_cases h2 : k = a
      · subst h2
        by_cases hv : v = Memory.unlisted
        · rw [if_pos rfl, if_pos hv]
          by_cases hb : b = k
          · subst hb; rw [if_pos rfl, low rest (b + 1) hr b (by omega), hv]
          · rw [if_neg hb]; simp only [Memory.read]; rw [if_neg (fun h => hb h.symm)]
        · rw [if_pos rfl, if_neg hv]
          simp only [Memory.read]
          by_cases hb : b = k
          · simp [hb]
          · have hkb : ¬ k = b := fun h => hb h.symm
            rw [if_neg hkb, if_neg hb, if_neg hkb]
      · rw [if_neg h2]
        by_cases hv : v = Memory.unlisted
        · rw [if_pos hv]
          by_cases hb : b = a
          · subst hb; rw [if_pos rfl]; simp only [Memory.read]
            rw [if_neg h2, low rest (k + 1) hr b (by omega), hv]
          · rw [if_neg hb]
        · rw [if_neg hv]
          by_cases hb : b = a
          · subst hb; simp [Memory.read]
          · rw [if_neg hb]
            have hab : ¬ a = b := fun h => hb h.symm
            show (if a = b then v else _) = _
            rw [if_neg hab]

/-! ### The canonical form -/

theorem Memory.write_wfFrom (m : Memory) (a : Nat) (v : Byte) (ha : a < 2 ^ 18) :
    ∀ lo, Memory.wfFrom lo m = true → lo ≤ a → Memory.wfFrom lo (m.write a v) = true := by
  induction m with
  | nil =>
    intro lo _ hle
    simp only [Memory.write]
    split
    · rfl
    · rename_i hv; simp [Memory.wfFrom, hle, show a < 262144 from ha, hv]
  | cons c rest ih =>
    obtain ⟨k, x⟩ := c
    intro lo hw hle
    simp only [Memory.wfFrom, Bool.and_eq_true, decide_eq_true_eq] at hw
    obtain ⟨⟨⟨hlo, hk⟩, hx⟩, hr⟩ := hw
    have mono : ∀ n, n ≤ k + 1 → Memory.wfFrom n rest = true := by
      intro n hn
      cases rest with
      | nil => rfl
      | cons d t =>
        obtain ⟨j, y⟩ := d
        simp only [Memory.wfFrom, Bool.and_eq_true, decide_eq_true_eq] at hr ⊢
        exact ⟨⟨⟨by omega, hr.1.1.2⟩, hr.1.2⟩, hr.2⟩
    simp only [Memory.write]
    by_cases h1 : k < a
    · rw [if_pos h1]
      simp [Memory.wfFrom, hlo, show k < 262144 from hk, hx, ih (k + 1) hr (by omega)]
    · rw [if_neg h1]
      by_cases h2 : k = a
      · rw [if_pos h2]
        split
        · exact mono lo (by omega)
        · rename_i hv
          subst h2
          simp [Memory.wfFrom, hle, show k < 262144 from hk, hv, hr]
      · rw [if_neg h2]
        split
        · simp [Memory.wfFrom, hlo, show k < 262144 from hk, hx, hr]
        · rename_i hv
          have : a + 1 ≤ k := by omega
          simp [Memory.wfFrom, hle, show a < 262144 from ha, hv, this, show k < 262144 from hk, hx, hr]

theorem Memory.write_wf (m : Memory) (a : Nat) (v : Byte) (h : m.wf = true) (ha : a < 2 ^ 18) :
    (m.write a v).wf = true := Memory.write_wfFrom m a v ha 0 h (Nat.zero_le a)

theorem Memory.writeWord_wf (m : Memory) (a : Nat) (v : Word) (h : m.wf = true) (ha : a + 1 < 2 ^ 18) :
    (m.writeWord a v).wf = true :=
  Memory.write_wf _ _ _ (Memory.write_wf _ _ _ h (by omega)) ha

theorem State.reset_mem_wf : State.reset.mem.wf = true := by decide

/-! ### Words and their bytes -/

theorem append_toNat (h l : Byte) : (h ++ l : Word).toNat = h.toNat * 256 + l.toNat := by
  have hl : l.toNat < 2 ^ 8 := l.isLt
  show (BitVec.append h l).toNat = _
  have := BitVec.toNat_append h l
  rw [← Nat.shiftLeft_add_eq_or_of_lt hl, Nat.shiftLeft_eq] at this
  exact this

theorem lowByte_toNat (v : Word) : (lowByte v).toNat = v.toNat % 256 := by
  simp [lowByte, BitVec.extractLsb'_toNat]

theorem highByte_toNat (v : Word) : (highByte v).toNat = v.toNat / 256 := by
  have := v.isLt
  simp only [highByte, BitVec.extractLsb'_toNat, Nat.shiftRight_eq_div_pow]
  omega

@[simp] theorem lowByte_append (h l : Byte) : lowByte (h ++ l) = l := by
  have := h.isLt
  have := l.isLt
  apply BitVec.eq_of_toNat_eq
  rw [lowByte_toNat, append_toNat]
  omega

@[simp] theorem highByte_append (h l : Byte) : highByte (h ++ l) = h := by
  have := h.isLt
  have := l.isLt
  apply BitVec.eq_of_toNat_eq
  rw [highByte_toNat, append_toNat]
  omega

@[simp] theorem highByte_append_lowByte (v : Word) : highByte v ++ lowByte v = v := by
  apply BitVec.eq_of_toNat_eq
  rw [append_toNat, lowByte_toNat, highByte_toNat]
  omega

theorem Memory.read_writeWord (m : Memory) (a b : Nat) (v : Word) (h : m.wf = true) (ha : a + 1 < 2 ^ 18) :
    (m.writeWord a v).read b = if b = a + 1 then highByte v else if b = a then lowByte v else m.read b := by
  unfold Memory.writeWord
  rw [Memory.read_write _ _ _ _ (Memory.write_wf _ _ _ h (by omega)), Memory.read_write _ _ _ _ h]

theorem Memory.readWord_writeWord (m : Memory) (a : Nat) (v : Word) (h : m.wf = true) (ha : a + 1 < 2 ^ 18) :
    (m.writeWord a v).readWord a = v := by
  unfold Memory.readWord
  rw [Memory.read_writeWord _ _ _ _ h ha, Memory.read_writeWord _ _ _ _ h ha]
  simp

theorem Memory.readWord_writeWord_ne (m : Memory) (a b : Nat) (v : Word) (h : m.wf = true) (ha : a + 1 < 2 ^ 18)
    (hab : a + 1 < b ∨ b + 1 < a) : (m.writeWord a v).readWord b = m.readWord b := by
  unfold Memory.readWord
  rw [Memory.read_writeWord _ _ _ _ h ha, Memory.read_writeWord _ _ _ _ h ha,
    if_neg (by omega), if_neg (by omega), if_neg (by omega), if_neg (by omega)]

theorem Memory.lowByte_readWord (m : Memory) (a : Nat) : lowByte (m.readWord a) = m.read a := lowByte_append _ _

theorem Memory.highByte_readWord (m : Memory) (a : Nat) : highByte (m.readWord a) = m.read (a + 1) :=
  highByte_append _ _

/-! ### Addresses -/

theorem isOdd_iff (a : Word) : isOdd a = true ↔ a.toNat % 2 = 1 := by
  simp only [isOdd, BitVec.getLsbD, Nat.testBit_zero, decide_eq_true_eq]

theorem addr18_toNat (c : Config) (a : Word) :
    (addr18 c a).toNat = (highBits c.addr18 (a.toNat / 2 * 2)).toNat * 65536 + a.toNat := by
  unfold addr18
  show (highBits c.addr18 (a.toNat / 2 * 2) ++ a).toNat = _
  rw [BitVec.toNat_append, ← Nat.shiftLeft_add_eq_or_of_lt a.isLt, Nat.shiftLeft_eq]

/-- The default of ADDR18 (D1). -/
theorem addr18_ioPage {c : Config} (h : c.addr18 = Config.ioPage) (a : Word) :
    (addr18 c a).toNat = if 0o160000 ≤ a.toNat then a.toNat + 0o600000 else a.toNat := by
  have ha := a.isLt
  rw [addr18_toNat, h]
  unfold Config.ioPage highBits highBits
  dsimp only
  by_cases k : 0o160000 ≤ a.toNat
  · rw [if_pos (by omega), if_pos k]; show 3 * 65536 + _ = _; omega
  · rw [if_neg (by omega), if_neg k]; show 0 * 65536 + _ = _; omega

theorem wordBase_even (a : BusAddr) : wordBase a % 2 = 0 := by unfold wordBase; omega

theorem wordBase_lt (a : BusAddr) : wordBase a + 1 < 2 ^ 18 := by
  have := a.isLt; unfold wordBase; omega

theorem wordBase_addr18_even (c : Config) (a : Word) (h : isOdd a = false) :
    wordBase (addr18 c a) = (addr18 c a).toNat := by
  have h2 : a.toNat % 2 = 0 := by
    have : ¬ a.toNat % 2 = 1 := fun h' => by rw [(isOdd_iff a).mpr h'] at h; cases h
    omega
  unfold wordBase
  rw [addr18_toNat]
  omega

theorem wordBase_addr18_odd (c : Config) (a : Word) (h : isOdd a = true) :
    wordBase (addr18 c a) + 1 = (addr18 c a).toNat := by
  have h2 := (isOdd_iff a).mp h
  unfold wordBase
  rw [addr18_toNat]
  omega

/-- The byte above an even program address has the next bus address. -/
theorem addr18_succ (c : Config) (a : Word) (h : isOdd a = false) :
    (addr18 c (a + 1)).toNat = (addr18 c a).toNat + 1 := by
  have h2 : a.toNat % 2 = 0 := by
    have : ¬ a.toNat % 2 = 1 := fun h' => by rw [(isOdd_iff a).mpr h'] at h; cases h
    omega
  have ha := a.isLt
  have h1 : (a + 1).toNat = a.toNat + 1 := by
    rw [BitVec.toNat_add]; show (a.toNat + 1) % 65536 = _; omega
  rw [addr18_toNat, addr18_toNat, h1, show (a.toNat + 1) / 2 * 2 = a.toNat / 2 * 2 by omega]
  omega

/-- No two program addresses share a bus address. -/
theorem addr18_inj {c : Config} {a b : Word} (h : (addr18 c a).toNat = (addr18 c b).toNat) : a = b := by
  have ha := a.isLt
  have hb := b.isLt
  rw [addr18_toNat, addr18_toNat] at h
  apply BitVec.eq_of_toNat_eq
  omega

end Sys2Proof.Machine
end

