-- ==== Sys2Proof/Laws/Ops.lean ====
section
/-! SUPPORT. What each shared operation over the bus and the stack can do, said once. -/

namespace Sys2Proof.Machine

/-! ### Sequencing -/

@[simp] theorem Res.andThen_ok {α β : Type} (a : α) (s : State) (f : α → State → Res β) :
    (Res.ok a s).andThen f = f a s := rfl

@[simp] theorem Res.andThen_err {α β : Type} (e : BusFault) (s : State) (f : α → State → Res β) :
    (Res.err e s).andThen f = .err e s := rfl

theorem Res.andThen_eq_ok {α β : Type} {r : Res α} {f : α → State → Res β} {b : β} {t : State}
    (h : r.andThen f = .ok b t) : ∃ a s, r = .ok a s ∧ f a s = .ok b t := by
  cases r with
  | ok a s => exact ⟨a, s, rfl, h⟩
  | err e s => cases h

theorem Res.andThen_eq_err {α β : Type} {r : Res α} {f : α → State → Res β} {e : BusFault} {t : State}
    (h : r.andThen f = .err e t) : r = .err e t ∨ ∃ a s, r = .ok a s ∧ f a s = .err e t := by
  cases r with
  | ok a s => exact .inr ⟨a, s, rfl, h⟩
  | err e' s => cases h; exact .inl rfl

/-! ### Bytes -/

theorem zext_toNat (v : Byte) : (zext v).toNat = v.toNat := by
  have := v.isLt
  simp only [zext, BitVec.toNat_setWidth]
  omega

@[simp] theorem lowByte_zext (v : Byte) : lowByte (zext v) = v := by
  have := v.isLt
  apply BitVec.eq_of_toNat_eq
  rw [lowByte_toNat, zext_toNat]
  omega

@[simp] theorem highByte_zext (v : Byte) : highByte (zext v) = 0 := by
  have := v.isLt
  apply BitVec.eq_of_toNat_eq
  rw [highByte_toNat, zext_toNat]
  show _ = 0
  omega

theorem highByte_eq_zero (v : Word) : highByte v = 0 ↔ v.toNat < 0o400 := by
  have := v.isLt
  rw [← BitVec.toNat_inj, highByte_toNat]
  show v.toNat / 256 = 0 ↔ _
  omega

theorem zext_lowByte (v : Word) : zext (lowByte v) = v &&& 0o377 := by
  apply BitVec.eq_of_toNat_eq
  rw [zext_toNat, lowByte_toNat, BitVec.toNat_and]
  exact (Nat.and_two_pow_sub_one_eq_mod v.toNat 8).symm

theorem keepHigh (v : Word) (b : Byte) : highByte v ++ b = (v &&& 0o177400) ||| zext b := by
  apply BitVec.eq_of_getLsbD_eq
  intro i hi
  have hb := BitVec.getLsbD_append (x := highByte v) (y := b) (i := i)
  show (highByte v ++ b).getLsbD i = _
  rw [hb]
  simp only [highByte, zext, BitVec.getLsbD_or, BitVec.getLsbD_and, BitVec.getLsbD_setWidth,
    BitVec.getLsbD_extractLsb']
  interval_cases i <;> simp

/-! ### What a cycle depends on -/

/-- How a read or write is answered depends on the configuration and the parity answers alone. -/
theorem readFails_congr {s t : State} (hc : s.cfg = t.cfg) (hp : s.parityBad = t.parityBad) (sz : Size) (a : Word) :
    s.readFails sz a = t.readFails sz a := by
  unfold State.readFails State.targetOf State.parityFails
  rw [hc, hp]

theorem targetOf_congr {s t : State} (hc : s.cfg = t.cfg) (a : Word) : s.targetOf a = t.targetOf a := by
  unfold State.targetOf; rw [hc]

theorem readable_congr {s t : State} (hc : s.cfg = t.cfg) (hp : s.parityBad = t.parityBad) (sz : Size) (a : Word) :
    s.readable sz a = t.readable sz a := by
  unfold State.readable
  rw [readFails_congr hc hp]

theorem writeFails_congr {s t : State} (hc : s.cfg = t.cfg) (sz : Size) (a : Word) :
    s.writeFails sz a = t.writeFails sz a := by
  unfold State.writeFails; rw [targetOf_congr hc]

theorem writable_congr {s t : State} (hc : s.cfg = t.cfg) (sz : Size) (a : Word) :
    s.writable sz a = t.writable sz a := by
  unfold State.writable; rw [writeFails_congr hc]

@[simp] theorem granted_readFails (s : State) (sz : Size) (a : Word) : s.granted.readFails sz a = s.readFails sz a :=
  readFails_congr s.granted_cfg s.granted_parityBad sz a

@[simp] theorem granted_targetOf (s : State) (a : Word) : s.granted.targetOf a = s.targetOf a :=
  targetOf_congr s.granted_cfg a

@[simp] theorem granted_writeFails (s : State) (sz : Size) (a : Word) : s.granted.writeFails sz a = s.writeFails sz a :=
  writeFails_congr s.granted_cfg sz a

@[simp] theorem after_readFails (s : State) (k : CycleKind) (z : Size) (x : Word) (sz : Size) (a : Word) :
    (s.after k z x).readFails sz a = s.readFails sz a := readFails_congr (by simp) (by simp) sz a

@[simp] theorem after_readable (s : State) (k : CycleKind) (z : Size) (x : Word) (sz : Size) (a : Word) :
    (s.after k z x).readable sz a = s.readable sz a := readable_congr (by simp) (by simp) sz a

@[simp] theorem after_writeFails (s : State) (k : CycleKind) (z : Size) (x : Word) (sz : Size) (a : Word) :
    (s.after k z x).writeFails sz a = s.writeFails sz a := writeFails_congr (by simp) sz a

theorem wordAt_congr {s t : State} (hc : s.cfg = t.cfg) (hw : s.psw = t.psw) (hm : s.mem = t.mem)
    (hd : s.draws = t.draws) (a : Word) : s.wordAt a = t.wordAt a := by
  unfold State.wordAt State.targetOf; rw [hc, hw, hm, hd]

theorem valueAt_congr {s t : State} (hc : s.cfg = t.cfg) (hw : s.psw = t.psw) (hm : s.mem = t.mem)
    (hd : s.draws = t.draws) (sz : Size) (a : Word) : s.valueAt sz a = t.valueAt sz a := by
  cases sz with
  | word => exact wordAt_congr hc hw hm hd a
  | byte => unfold State.valueAt State.byteAt State.targetOf; rw [hc, hw, hm, hd]

/-- The byte of a word that a byte read takes (R67). -/
theorem byteAt_eq (s : State) (a : Word) :
    s.byteAt a = if isOdd a then highByte (s.wordAt a) else lowByte (s.wordAt a) := by
  unfold State.byteAt State.wordAt
  cases ht : s.targetOf a with
  | psw => cases isOdd a <;> simp
  | registers =>
    cases isOdd a
    · rfl
    · exact (by decide : (0 : Byte) = highByte 0)
  | absent => cases isOdd a <;> rfl
  | slave k =>
    have hm : s.mem.read (addr18 s.cfg a).toNat =
        if isOdd a then highByte (s.mem.readWord (wordBase (addr18 s.cfg a)))
        else lowByte (s.mem.readWord (wordBase (addr18 s.cfg a))) := by
      cases ho : isOdd a
      · rw [if_neg (by simp), Memory.lowByte_readWord, wordBase_addr18_even _ a ho]
      · rw [if_pos rfl, Memory.highByte_readWord, wordBase_addr18_odd _ a ho]
    cases k with
    | device => cases isOdd a <;> rfl
    | memory => exact hm
    | readOnly => exact hm
    | slow => exact hm

/-! ### Reads -/

theorem lines_eq (s : State) (a : Word) : s.lines a = s.wordAt a := by
  unfold State.lines State.wordAt
  cases s.targetOf a with
  | slave k => cases k <;> rfl
  | _ => rfl

theorem readError_eq {s : State} {sz : Size} {a : Word} (h : ¬ (sz = .word ∧ isOdd a = true)) :
    s.readError a = s.readFails sz a := by
  unfold State.readError State.readFails
  rw [if_neg h]
  split <;> simp_all

/-- The strobe, by what is seen of it: B takes the lines. -/
theorem strobed_eq {s : State} {k : CycleKind} {sz : Size} {a : Word} (h : ¬ (sz = .word ∧ isOdd a = true)) :
    s.granted.strobed k a = (s.after k sz a).setB (s.granted.wordAt a) := by
  unfold State.strobed State.after
  rw [lines_eq]
  dsimp only
  rw [if_neg h]
  cases ht : s.granted.targetOf a with
  | slave k => cases k <;> rfl
  | _ => rfl

/-- Everything a read can do: fail or bring the value, by `readFails` alone; either way the cycle is on the bus and B
is loaded, and R17 where the byte is an odd one. -/
theorem readAs_cases (k : CycleKind) (sz : Size) (a : Word) (s : State) : ∃ b w,
    (w = s.scratch.r17 ∨ sz = .byte ∧ isOdd a = true) ∧
    ((s.readFails sz a = none ∧ readAs k sz a s = .ok (s.gets sz a) (((s.after k sz a).setB b).setR17 w)) ∨
      ∃ e, s.readFails sz a = some e ∧ readAs k sz a s = .err e (((s.after k sz a).setB b).setR17 w)) := by
  by_cases ho : sz = .word ∧ isOdd a = true
  · obtain ⟨rfl, ho⟩ := ho
    refine ⟨s.granted.freeWord, s.scratch.r17, .inl rfl, .inr ⟨.busError, by simp [State.readFails, ho], ?_⟩⟩
    have e : s.after .dati .word a = s.granted.drawn := by
      unfold State.after; dsimp only; rw [if_pos ⟨rfl, ho⟩]; rfl
    have e' : s.after k .word a = s.granted.drawn := by
      unfold State.after; dsimp only; rw [if_pos ⟨rfl, ho⟩]; rfl
    simp only [readAs, ho, if_true]
    rw [e', ← State.granted_scratch s]
    rfl
  · have hs := strobed_eq (s := s) (k := k) ho
    have hr : busRead k a s.granted = match s.readFails sz a with
        | some e => .err e ((s.after k sz a).setB (s.granted.wordAt a))
        | none => .ok (s.granted.wordAt a) ((s.after k sz a).setB (s.granted.wordAt a)) := by
      unfold busRead
      cases hf : s.readFails sz a <;> simp only [readError_eq ho, granted_readFails, lines_eq, hs, hf]
    have h17 : ∀ b, ((s.after k sz a).setB b).setR17 s.scratch.r17 = (s.after k sz a).setB b := by
      intro b; rw [← State.after_scratch s k sz a]; rfl
    cases sz with
    | word =>
      have ho' : isOdd a = false := by simpa using ho
      refine ⟨s.granted.wordAt a, s.scratch.r17, .inl rfl, ?_⟩
      rw [h17]
      simp only [readAs, ho', Bool.false_eq_true, if_false, hr]
      cases hf : s.readFails .word a with
      | none => exact .inl ⟨rfl, rfl⟩
      | some e => exact .inr ⟨e, rfl, rfl⟩
    | byte =>
      cases hf : s.readFails .byte a with
      | some e =>
        refine ⟨s.granted.wordAt a, s.scratch.r17, .inl rfl, .inr ⟨e, rfl, ?_⟩⟩
        rw [h17]
        simp only [readAs, hr, hf, Res.andThen_err]
      | none =>
        have hv : s.gets .byte a = zext (s.granted.byteAt a) := rfl
        rw [hv, byteAt_eq]
        cases hodd : isOdd a
        · refine ⟨s.granted.wordAt a, s.scratch.r17, .inl rfl, .inl ⟨rfl, ?_⟩⟩
          rw [h17]
          simp only [readAs, hr, hf, Res.andThen_ok, hodd, Bool.false_eq_true, if_false]
        · refine ⟨swapBytes (s.granted.wordAt a), swapBytes (s.granted.wordAt a), .inr ⟨rfl, rfl⟩, .inl ⟨rfl, ?_⟩⟩
          simp only [readAs, hr, hf, Res.andThen_ok, hodd, if_true]
          rfl

/-- A read that is answered. -/
theorem readAs_readable {s : State} {k : CycleKind} {sz : Size} {a : Word} (h : s.readable sz a = true) :
    ∃ t, readAs k sz a s = .ok (s.gets sz a) t ∧ t.visible = (s.after k sz a).visible := by
  obtain ⟨b, w, -, ⟨-, h2⟩ | ⟨e, h1, -⟩⟩ := readAs_cases k sz a s
  · exact ⟨_, h2, rfl⟩
  · simp [State.readable, h1] at h

/-- A read that fails. -/
theorem readAs_fails {s : State} {k : CycleKind} {sz : Size} {a : Word} {e : BusFault}
    (h : s.readFails sz a = some e) : ∃ t, readAs k sz a s = .err e t ∧ t.visible = (s.after k sz a).visible := by
  obtain ⟨b, w, -, ⟨h1, -⟩ | ⟨e', h1, h2⟩⟩ := readAs_cases k sz a s
  · rw [h] at h1; cases h1
  · rw [h] at h1; cases h1; exact ⟨_, h2, rfl⟩

/-- The scratch pad after a word read is as before. -/
theorem readAs_word_scratch {s : State} {k : CycleKind} {a : Word} :
    (∀ v t, readAs k .word a s = .ok v t → t.scratch = s.scratch) ∧
      ∀ e t, readAs k .word a s = .err e t → t.scratch = s.scratch := by
  obtain ⟨b, w, hw, h⟩ := readAs_cases k .word a s
  have hw : w = s.scratch.r17 := by simpa using hw
  have e : (((s.after k .word a).setB b).setR17 w).scratch = s.scratch := by
    rw [hw, ← State.after_scratch s k .word a]; rfl
  rcases h with ⟨-, h⟩ | ⟨e', -, h⟩ <;> rw [h] <;> constructor <;> intro v t ht <;> cases ht <;> exact e

theorem readable_even {s : State} {a : Word} (h : s.readable .word a = true) : isOdd a = false := by
  cases ho : isOdd a
  · rfl
  · simp [State.readable, State.readFails, ho] at h

/-- A word read that is answered, exactly. -/
theorem memRead_word {s : State} {a : Word} (h : s.readable .word a = true) :
    memRead .word a s = .ok (s.gets .word a) ((s.after .dati .word a).setB (s.gets .word a)) := by
  have ho := readable_even h
  have hn : ¬ ((Size.word = Size.word) ∧ isOdd a = true) := by simp [ho]
  have hf : s.granted.readError a = none := by
    rw [readError_eq hn, granted_readFails]; simpa [State.readable, Option.isNone_iff_eq_none] using h
  simp only [memRead, readAs, ho, Bool.false_eq_true, if_false, busRead, hf, lines_eq, strobed_eq hn]
  rfl

/-! ### Writes -/

theorem memWriteWord_fails {s : State} {a : Word} (v : Word) (h : s.writeFails .word a = true) :
    memWriteWord a v s = .err .busError (s.withoutWord a v) := by
  unfold memWriteWord State.withoutWord
  cases ho : isOdd a
  · rw [if_neg (by simp), if_neg (by simp)]
    simp only [State.writeFails, ho, Bool.and_false, Bool.false_or, Bool.or_eq_true, beq_iff_eq] at h
    rcases h with (h | h) | h
    · rw [h]; rfl
    · rw [h]; rfl
    · rw [h, wordBase_addr18_even _ a ho]; rfl
  · rw [if_pos rfl, if_pos rfl]

theorem memWriteByte_fails {s : State} {a : Word} (v : Byte) (h : s.writeFails .byte a = true) :
    memWriteByte a v s = .err .busError (s.withoutByte a v) := by
  unfold memWriteByte State.withoutByte
  simp only [State.writeFails, Bool.or_eq_true, beq_iff_eq] at h
  rcases h with ((h | h) | h) | h
  · simp at h
  all_goals rw [h]; rfl

theorem writable_even {s : State} {a : Word} (h : s.writable .word a = true) : isOdd a = false := by
  cases ho : isOdd a
  · rfl
  · simp [State.writable, State.writeFails, ho] at h

theorem memWriteWord_writable {s : State} {a : Word} (v : Word) (h : s.writable .word a = true) :
    memWriteWord a v s = .ok () (s.withWord a v) := by
  have ho := writable_even h
  simp only [State.writable, State.writeFails, ho, Bool.and_false, Bool.false_or, Bool.not_eq_true',
    Bool.or_eq_false_iff, beq_eq_false_iff_ne, ne_eq] at h
  unfold memWriteWord State.withWord
  rw [if_neg (by simp [ho])]
  cases ht : s.targetOf a with
  | slave k =>
    cases k with
    | memory => dsimp only; rw [wordBase_addr18_even _ a ho]; rfl
    | readOnly => exact absurd ht h.1.2
    | slow => exact absurd ht h.2
    | device => rfl
  | absent => exact absurd ht h.1.1
  | psw => rfl
  | registers => rfl

theorem memWriteByte_writable {s : State} {a : Word} (v : Byte) (h : s.writable .byte a = true) :
    memWriteByte a v s = .ok () (s.withByte a v) := by
  simp only [State.writable, State.writeFails, Bool.not_eq_true', Bool.or_eq_false_iff, beq_eq_false_iff_ne,
    ne_eq] at h
  obtain ⟨⟨⟨_, h1⟩, h2⟩, h3⟩ := h
  unfold memWriteByte State.withByte
  cases ht : s.targetOf a with
  | slave k =>
    cases k with
    | memory => rfl
    | readOnly => exact absurd ht h2
    | slow => exact absurd ht h3
    | device => rfl
  | absent => exact absurd ht h1
  | psw => dsimp only; split <;> rfl
  | registers => rfl

/-- Everything a word write can do: be taken, or fail, by `writeFails` alone. -/
theorem memWriteWord_cases (a v : Word) (s : State) :
    memWriteWord a v s = .ok () (s.withWord a v) ∨ memWriteWord a v s = .err .busError (s.withoutWord a v) := by
  cases h : s.writeFails .word a
  · exact .inl (memWriteWord_writable v (by simp [State.writable, h]))
  · exact .inr (memWriteWord_fails v h)

/-- Everything a byte write can do. -/
theorem memWriteByte_cases (a : Word) (v : Byte) (s : State) :
    memWriteByte a v s = .ok () (s.withByte a v) ∨ memWriteByte a v s = .err .busError (s.withoutByte a v) := by
  cases h : s.writeFails .byte a
  · exact .inl (memWriteByte_writable v (by simp [State.writable, h]))
  · exact .inr (memWriteByte_fails v h)

/-- A write changes memory, the PSW, the draws and the record of the bus, and nothing else. -/
theorem withWord_eq (s : State) (a v : Word) :
    ∃ m p n l, s.withWord a v = { s with mem := m, psw := p, draws := n, bus := l } := by
  unfold State.withWord; dsimp only; split <;> exact ⟨_, _, _, _, rfl⟩

theorem withByte_eq (s : State) (a : Word) (v : Byte) :
    ∃ m p n l, s.withByte a v = { s with mem := m, psw := p, draws := n, bus := l } := by
  unfold State.withByte; dsimp only; repeat' split
  all_goals exact ⟨_, _, _, _, rfl⟩

theorem withoutWord_eq (s : State) (a v : Word) :
    ∃ m n l, s.withoutWord a v = { s with mem := m, draws := n, bus := l } := by
  unfold State.withoutWord; dsimp only; repeat' split
  all_goals exact ⟨_, _, _, rfl⟩

theorem withoutByte_eq (s : State) (a : Word) (v : Byte) :
    ∃ m n l, s.withoutByte a v = { s with mem := m, draws := n, bus := l } := by
  unfold State.withoutByte; dsimp only; repeat' split
  all_goals exact ⟨_, _, _, rfl⟩

@[simp] theorem withWord_cfg (s : State) (a v : Word) : (s.withWord a v).cfg = s.cfg := by
  obtain ⟨m, p, n, l, h⟩ := withWord_eq s a v; rw [h]

@[simp] theorem withWord_regs (s : State) (a v : Word) : (s.withWord a v).regs = s.regs := by
  obtain ⟨m, p, n, l, h⟩ := withWord_eq s a v; rw [h]

@[simp] theorem withWord_scratch (s : State) (a v : Word) : (s.withWord a v).scratch = s.scratch := by
  obtain ⟨m, p, n, l, h⟩ := withWord_eq s a v; rw [h]

@[simp] theorem withWord_parityBad (s : State) (a v : Word) : (s.withWord a v).parityBad = s.parityBad := by
  obtain ⟨m, p, n, l, h⟩ := withWord_eq s a v; rw [h]

@[simp] theorem withWord_npr (s : State) (a v : Word) : (s.withWord a v).npr = s.npr := by
  obtain ⟨m, p, n, l, h⟩ := withWord_eq s a v; rw [h]

/-! ### What the grant of the bus depends on -/

/-- A master's cycle works on memory, the PSW and the draws, by the configuration. -/
theorem dma_congr {s t : State} (hc : s.cfg = t.cfg) (hm : s.mem = t.mem) (hw : s.psw = t.psw)
    (hd : s.draws = t.draws) (c : MasterCycle) :
    (s.dma c).mem = (t.dma c).mem ∧ (s.dma c).psw = (t.dma c).psw ∧ (s.dma c).draws = (t.dma c).draws := by
  cases c with
  | write a v =>
    show (s.dmaWrite a v).mem = (t.dmaWrite a v).mem ∧ (s.dmaWrite a v).psw = (t.dmaWrite a v).psw ∧
      (s.dmaWrite a v).draws = (t.dmaWrite a v).draws
    unfold State.dmaWrite State.writePsw State.drawn State.freeWord
    rw [hc, hm, hd]
    repeat' split
    all_goals exact ⟨by first | exact hm | rfl, by first | exact hw | rfl, by first | exact hd | rfl⟩
  | writeByte a v =>
    show (s.dmaWriteByte a v).mem = (t.dmaWriteByte a v).mem ∧
      (s.dmaWriteByte a v).psw = (t.dmaWriteByte a v).psw ∧
      (s.dmaWriteByte a v).draws = (t.dmaWriteByte a v).draws
    unfold State.dmaWriteByte State.writePsw State.drawn State.freeWord
    rw [hc, hm, hd]
    repeat' split
    all_goals exact ⟨by first | exact hm | rfl, by first | exact hw | rfl, by first | exact hd | rfl⟩

theorem dma_cfg (s : State) (c : MasterCycle) : (s.dma c).cfg = s.cfg := by
  obtain ⟨m, p, n, h⟩ := s.dma_eq c; rw [h]

theorem granted_congr {s t : State} (hc : s.cfg = t.cfg) (hm : s.mem = t.mem) (hw : s.psw = t.psw)
    (hd : s.draws = t.draws) (hn : s.npr = t.npr) :
    s.granted.mem = t.granted.mem ∧ s.granted.psw = t.granted.psw ∧ s.granted.draws = t.granted.draws := by
  have key : ∀ (l : List MasterCycle) (x y : State), x.cfg = y.cfg → x.mem = y.mem → x.psw = y.psw →
      x.draws = y.draws → (l.foldl State.dma x).mem = (l.foldl State.dma y).mem ∧
        (l.foldl State.dma x).psw = (l.foldl State.dma y).psw ∧
        (l.foldl State.dma x).draws = (l.foldl State.dma y).draws := by
    intro l
    induction l with
    | nil => intro x y _ h1 h2 h3; exact ⟨h1, h2, h3⟩
    | cons c l ih =>
      intro x y h0 h1 h2 h3
      obtain ⟨k1, k2, k3⟩ := dma_congr h0 h1 h2 h3 c
      exact ih _ _ ((dma_cfg x c).trans (h0.trans (dma_cfg y c).symm)) k1 k2 k3
  unfold State.granted
  rw [hn]
  split
  · exact ⟨hm, hw, hd⟩
  · exact key _ _ _ hc hm hw hd

/-- What a read cycle brings depends on memory, the PSW, the free values, the schedule of the other masters and the
configuration. -/
theorem gets_congr {s t : State} (hc : s.cfg = t.cfg) (hm : s.mem = t.mem) (hw : s.psw = t.psw)
    (hd : s.draws = t.draws) (hn : s.npr = t.npr) (sz : Size) (a : Word) : s.gets sz a = t.gets sz a := by
  obtain ⟨k1, k2, k3⟩ := granted_congr hc hm hw hd hn
  exact valueAt_congr (by simp [hc]) k2 k1 k3 sz a

@[simp] theorem setReg_gets (s : State) (r : Reg) (v : Word) (sz : Size) (a : Word) :
    (s.setReg r v).gets sz a = s.gets sz a :=
  gets_congr (s := s.setReg r v) (t := s) (by rfl) (by rfl) (by rfl) (by rfl) (by rfl) sz a

@[simp] theorem setPc_gets (s : State) (v : Word) (sz : Size) (a : Word) : (s.setPc v).gets sz a = s.gets sz a :=
  setReg_gets s .r7 v sz a

@[simp] theorem setSp_gets (s : State) (v : Word) (sz : Size) (a : Word) : (s.setSp v).gets sz a = s.gets sz a :=
  setReg_gets s .r6 v sz a

/-- With no other master on the bus a read brings what stands there. -/
theorem gets_nil {s : State} (h : s.npr = []) (sz : Size) (a : Word) : s.gets sz a = s.valueAt sz a := by
  unfold State.gets; rw [State.granted_nil h]

/-- The grant works on memory, the PSW, the free values and the schedule alone, so that it commutes with a change of
anything else: `t` is `s` with other fields changed. -/
theorem granted_like {s t : State} (hc : s.cfg = t.cfg) (hm : s.mem = t.mem) (hw : s.psw = t.psw)
    (hd : s.draws = t.draws) (hn : s.npr = t.npr) :
    t.granted = { t with mem := s.granted.mem, psw := s.granted.psw, draws := s.granted.draws, npr := s.npr.tail } := by
  obtain ⟨k1, k2, k3⟩ := granted_congr hc hm hw hd hn
  obtain ⟨m, p, n, h⟩ := t.granted_eq
  rw [k1, k2, k3, hn, h]

/-- What is seen after a read cycle commutes with a change of anything the cycle does not work on. -/
theorem after_like {s t : State} (hc : s.cfg = t.cfg) (hm : s.mem = t.mem) (hw : s.psw = t.psw)
    (hd : s.draws = t.draws) (hn : s.npr = t.npr) (hb : s.bus = t.bus) (k : CycleKind) (sz : Size) (a : Word) :
    t.after k sz a = { t with
      mem := (s.after k sz a).mem, psw := (s.after k sz a).psw, draws := (s.after k sz a).draws
      npr := (s.after k sz a).npr, bus := (s.after k sz a).bus } := by
  have hg := granted_like hc hm hw hd hn
  have hgb : s.granted.bus = t.granted.bus := by rw [State.granted_bus, State.granted_bus, hb]
  have hgw : s.granted.wordAt a = t.granted.wordAt a := by
    obtain ⟨k1, k2, k3⟩ := granted_congr hc hm hw hd hn
    exact wordAt_congr (by simp [hc]) k2 k1 k3 a
  have hgt : s.granted.targetOf a = t.granted.targetOf a := targetOf_congr (by simp [hc]) a
  have hgn : s.granted.npr = s.npr.tail := s.granted_npr
  have hgc : s.granted.cfg = t.granted.cfg := by simp [hc]
  unfold State.after
  dsimp only
  rw [hgw, hgt, hgc]
  split
  · rw [hg]; simp only [hgn, State.granted_bus, hb]
  · split <;> (rw [hg]; simp only [hgn, State.granted_bus, hb])

/-- A register written before the grant or after it. -/
theorem setReg_granted (s : State) (r : Reg) (v : Word) : (s.setReg r v).granted = s.granted.setReg r v := by
  rw [granted_like (s := s) (t := s.setReg r v) rfl rfl rfl rfl rfl]
  obtain ⟨m, p, n, h⟩ := s.granted_eq
  rw [h]; rfl

/-- A register written before a read cycle or after it. -/
theorem setReg_after (s : State) (r : Reg) (v : Word) (k : CycleKind) (sz : Size) (a : Word) :
    (s.setReg r v).after k sz a = (s.after k sz a).setReg r v := by
  rw [after_like (s := s) (t := s.setReg r v) rfl rfl rfl rfl rfl rfl]
  obtain ⟨l, n, h⟩ := s.after_eq k sz a
  obtain ⟨m, p, n', h'⟩ := s.granted_eq
  rw [h, h']; rfl

/-! ### The stack -/

theorem stackCheck_setSp (s : State) : (s.setSp (s.sp - 2)).stackCheck = decremented .r6 2 s := by
  unfold State.stackCheck decremented
  simp only [State.sp_setSp, highByte_eq_zero, true_and]
  rfl

theorem autoDecrement_eq (r : Reg) (n : Word) (s : State) : autoDecrement r n s = decremented r n s := by
  unfold autoDecrement decremented State.stackCheck
  by_cases h : r = .r6
  · subst h
    simp only [if_true, true_and, highByte_eq_zero, State.sp, State.reg_setReg_same]
  · simp [h]

theorem pushReady_eq (s : State) : s.pushReady = lowered s := by
  unfold State.pushReady lowered; rw [stackCheck_setSp]

/-- A decrement changes the registers and the stack-overflow flag, and nothing else. -/
theorem decremented_eq (r : Reg) (n : Word) (s : State) :
    ∃ f, decremented r n s = { s.setReg r (s.reg r - n) with stov := f } := by
  unfold decremented; split <;> exact ⟨_, rfl⟩

@[simp] theorem decremented_mem (r : Reg) (n : Word) (s : State) : (decremented r n s).mem = s.mem := by
  obtain ⟨f, h⟩ := decremented_eq r n s; rw [h]; rfl

@[simp] theorem decremented_psw (r : Reg) (n : Word) (s : State) : (decremented r n s).psw = s.psw := by
  obtain ⟨f, h⟩ := decremented_eq r n s; rw [h]; rfl

@[simp] theorem decremented_cfg (r : Reg) (n : Word) (s : State) : (decremented r n s).cfg = s.cfg := by
  obtain ⟨f, h⟩ := decremented_eq r n s; rw [h]; rfl

@[simp] theorem decremented_parityBad (r : Reg) (n : Word) (s : State) :
    (decremented r n s).parityBad = s.parityBad := by
  obtain ⟨f, h⟩ := decremented_eq r n s; rw [h]; rfl

@[simp] theorem decremented_draws (r : Reg) (n : Word) (s : State) : (decremented r n s).draws = s.draws := by
  obtain ⟨f, h⟩ := decremented_eq r n s; rw [h]; rfl

@[simp] theorem decremented_npr (r : Reg) (n : Word) (s : State) : (decremented r n s).npr = s.npr := by
  obtain ⟨f, h⟩ := decremented_eq r n s; rw [h]; rfl

@[simp] theorem decremented_scratch (r : Reg) (n : Word) (s : State) : (decremented r n s).scratch = s.scratch := by
  obtain ⟨f, h⟩ := decremented_eq r n s; rw [h]; rfl

theorem decremented_reg (r q : Reg) (n : Word) (s : State) :
    (decremented r n s).reg q = if r = q then s.reg r - n else s.reg q := by
  obtain ⟨f, h⟩ := decremented_eq r n s; rw [h]; exact State.reg_setReg s r q _

@[simp] theorem decremented_gets (r : Reg) (n : Word) (s : State) (sz : Size) (a : Word) :
    (decremented r n s).gets sz a = s.gets sz a := gets_congr (by simp) (by simp) (by simp) (by simp) (by simp) sz a

@[simp] theorem lowered_cfg (s : State) : (lowered s).cfg = s.cfg := by simp [lowered]

@[simp] theorem lowered_parityBad (s : State) : (lowered s).parityBad = s.parityBad := by simp [lowered]

@[simp] theorem lowered_scratch (s : State) : (lowered s).scratch = s.scratch := by simp [lowered]

theorem lowered_reg (s : State) (r : Reg) : (lowered s).reg r = if .r6 = r then s.sp - 2 else s.reg r := by
  unfold lowered; rw [State.granted_reg]; exact decremented_reg .r6 r 2 s

@[simp] theorem lowered_sp (s : State) : (lowered s).sp = s.sp - 2 := lowered_reg s .r6

@[simp] theorem lowered_pc (s : State) : (lowered s).pc = s.pc := lowered_reg s .r7

/-- A push whose write is taken. -/
theorem push_writable {s : State} (v : Word) (h : s.writable .word (s.sp - 2) = true) :
    push v s = .ok () (pushed v s) := by
  unfold push pushed
  rw [pushReady_eq, lowered_sp]
  exact memWriteWord_writable v (by rw [writable_congr (lowered_cfg s)]; exact h)

/-- A push whose write fails: R6 has been decremented and nothing else of the processor changed (R314 e). -/
theorem push_fails {s : State} (v : Word) (h : s.writeFails .word (s.sp - 2) = true) :
    push v s = .err .busError (unpushed v s) := by
  unfold push unpushed
  rw [pushReady_eq, lowered_sp]
  exact memWriteWord_fails v (by rw [writeFails_congr (lowered_cfg s)]; exact h)

theorem pushPsw_eq (s : State) : pushPsw s = push (zext (lowered s).psw) s := by
  unfold pushPsw; rw [pushReady_eq]

theorem pop_readable {s : State} (h : s.readable .word s.sp = true) :
    pop s = .ok (s.gets .word s.sp) ((popped s).setB (s.gets .word s.sp)) := by
  simp only [pop, memRead_word h, Res.andThen_ok, State.setB_sp, State.after_sp]
  rfl

/-- A pop whose read fails leaves R6 (R153 c). -/
theorem pop_fails {s : State} {e : BusFault} (h : s.readFails .word s.sp = some e) :
    ∃ t, pop s = .err e t ∧ t.visible = (s.after .dati .word s.sp).visible := by
  obtain ⟨t, ht, hv⟩ := readAs_fails (k := .dati) h
  exact ⟨t, by simp only [pop, memRead, ht, Res.andThen_err], hv⟩

end Sys2Proof.Machine
end

