-- ==== Sys2Proof/Laws/Operands.lean ====
section
/-! SUPPORT. What operand access and the execution templates do when every bus cycle is answered, and what they leave
when one fails. States are compared by what is seen of them. -/

namespace Sys2Proof.Machine

/-! ### Two states that look the same -/

section
variable {s t : State} (h : s.visible = t.visible)
include h

theorem vis_reg (r : Reg) : s.reg r = t.reg r := congrArg (fun u => u.reg r) h

theorem vis_pc : s.pc = t.pc := congrArg (fun u => u.pc) h

theorem vis_sp : s.sp = t.sp := congrArg (fun u => u.sp) h

theorem vis_psw : s.psw = t.psw := congrArg (fun u => u.psw) h

theorem vis_mem : s.mem = t.mem := congrArg (fun u => u.mem) h

theorem vis_cfg : s.cfg = t.cfg := congrArg (fun u => u.cfg) h

theorem vis_parityBad : s.parityBad = t.parityBad := congrArg (fun u => u.parityBad) h

theorem vis_npr : s.npr = t.npr := congrArg (fun u => u.npr) h

theorem vis_draws : s.draws = t.draws := congrArg (fun u => u.draws) h

theorem vis_cc : s.cc = t.cc := congrArg (fun u => u.cc) h

theorem vis_flagC : s.flagC = t.flagC := congrArg (fun u => u.flagC) h

theorem vis_readFails (sz : Size) (a : Word) : s.readFails sz a = t.readFails sz a :=
  readFails_congr (vis_cfg h) (vis_parityBad h) sz a

theorem vis_readable (sz : Size) (a : Word) : s.readable sz a = t.readable sz a :=
  readable_congr (vis_cfg h) (vis_parityBad h) sz a

theorem vis_writable (sz : Size) (a : Word) : s.writable sz a = t.writable sz a :=
  writable_congr (vis_cfg h) sz a

theorem vis_writeFails (sz : Size) (a : Word) : s.writeFails sz a = t.writeFails sz a :=
  writeFails_congr (vis_cfg h) sz a

theorem vis_granted : s.granted.visible = t.granted.visible := by
  rw [State.visible_granted, State.visible_granted, h]

theorem vis_after (k : CycleKind) (sz : Size) (a : Word) : (s.after k sz a).visible = (t.after k sz a).visible := by
  rw [State.visible_after, State.visible_after, h]

theorem vis_wordAt (a : Word) : s.wordAt a = t.wordAt a :=
  wordAt_congr (vis_cfg h) (vis_psw h) (vis_mem h) (vis_draws h) a

theorem vis_valueAt (sz : Size) (a : Word) : s.valueAt sz a = t.valueAt sz a :=
  valueAt_congr (vis_cfg h) (vis_psw h) (vis_mem h) (vis_draws h) sz a

theorem vis_setReg (r : Reg) (v : Word) : (s.setReg r v).visible = (t.setReg r v).visible :=
  congrArg (fun u => u.setReg r v) h

theorem vis_setPc (v : Word) : (s.setPc v).visible = (t.setPc v).visible := vis_setReg h .r7 v

theorem vis_setSp (v : Word) : (s.setSp v).visible = (t.setSp v).visible := vis_setReg h .r6 v

theorem vis_setCC (f : CC) : (s.setCC f).visible = (t.setCC f).visible := congrArg (fun u => u.setCC f) h

theorem vis_loadAlu {w : Nat} (o : AluOut w) : (s.loadAlu o).visible = (t.setCC o.cc).visible := vis_setCC h o.cc

theorem vis_loadPsw (v : Word) : (s.loadPsw v).visible = (t.loadPsw v).visible := congrArg (fun u => u.loadPsw v) h

theorem vis_withPsw (p : BitVec 8) : ({ s with psw := p } : State).visible = ({ t with psw := p } : State).visible :=
  congrArg (fun u : State => { u with psw := p }) h

theorem vis_drawn : s.drawn.visible = t.drawn.visible := congrArg State.drawn h

theorem vis_complete : s.complete.visible = t.complete.visible := by
  rw [State.visible_complete, State.visible_complete, h]

end

theorem vis_gets {s t : State} (h : s.visible = t.visible) (sz : Size) (a : Word) : s.gets sz a = t.gets sz a :=
  vis_valueAt (vis_granted h) sz a

theorem decremented_visible (r : Reg) (n : Word) (s : State) :
    (decremented r n s).visible = decremented r n s.visible := apply_ite State.visible _ _ _

theorem vis_decremented {s t : State} (h : s.visible = t.visible) (r : Reg) (n : Word) :
    (decremented r n s).visible = (decremented r n t).visible := by
  rw [decremented_visible, decremented_visible, h]

theorem withWord_visible (a v : Word) (s : State) : (s.withWord a v).visible = s.visible.withWord a v := by
  unfold State.withWord
  rw [show s.visible.targetOf a = s.targetOf a from rfl]
  dsimp only
  split <;> rfl

theorem withByte_visible (a : Word) (v : Byte) (s : State) : (s.withByte a v).visible = s.visible.withByte a v := by
  unfold State.withByte
  rw [show s.visible.targetOf a = s.targetOf a from rfl]
  dsimp only
  repeat' split
  all_goals rfl

theorem withoutWord_visible (a v : Word) (s : State) : (s.withoutWord a v).visible = s.visible.withoutWord a v := by
  unfold State.withoutWord
  rw [show s.visible.targetOf a = s.targetOf a from rfl]
  dsimp only
  repeat' split
  all_goals rfl

theorem withoutByte_visible (a : Word) (v : Byte) (s : State) :
    (s.withoutByte a v).visible = s.visible.withoutByte a v := by
  unfold State.withoutByte
  rw [show s.visible.targetOf a = s.targetOf a from rfl]
  dsimp only
  split <;> rfl

theorem storeWord_visible (l : Loc) (v : Word) (s : State) : (storeWord l v s).visible = storeWord l v s.visible := by
  cases l with
  | reg r => rfl
  | mem a => exact withWord_visible a v s

theorem storeByte_visible (l : Loc) (v : Byte) (s : State) : (storeByte l v s).visible = storeByte l v s.visible := by
  cases l with
  | reg r => rfl
  | mem a => exact withByte_visible a v s

section
variable {s t : State} (h : s.visible = t.visible)
include h

theorem vis_withWord (a v : Word) : (s.withWord a v).visible = (t.withWord a v).visible := by
  rw [withWord_visible, withWord_visible, h]

theorem vis_withByte (a : Word) (v : Byte) : (s.withByte a v).visible = (t.withByte a v).visible := by
  rw [withByte_visible, withByte_visible, h]

theorem vis_withoutWord (a v : Word) : (s.withoutWord a v).visible = (t.withoutWord a v).visible := by
  rw [withoutWord_visible, withoutWord_visible, h]

theorem vis_withoutByte (a : Word) (v : Byte) : (s.withoutByte a v).visible = (t.withoutByte a v).visible := by
  rw [withoutByte_visible, withoutByte_visible, h]

theorem vis_storeWord (l : Loc) (v : Word) : (storeWord l v s).visible = (storeWord l v t).visible := by
  rw [storeWord_visible, storeWord_visible, h]

theorem vis_storeByte (l : Loc) (v : Byte) : (storeByte l v s).visible = (storeByte l v t).visible := by
  rw [storeByte_visible, storeByte_visible, h]

theorem vis_lowered : (lowered s).visible = (lowered t).visible := vis_granted (vis_decremented h .r6 2)

theorem vis_pushed (v : Word) : (pushed v s).visible = (pushed v t).visible := by
  unfold pushed; rw [vis_sp h]; exact vis_withWord (vis_lowered h) _ _

theorem vis_unpushed (v : Word) : (unpushed v s).visible = (unpushed v t).visible := by
  unfold unpushed; rw [vis_sp h]; exact vis_withoutWord (vis_lowered h) _ _

theorem vis_saved : (saved s).visible = (saved t).visible := by
  unfold saved; rw [vis_pc h, vis_psw (vis_lowered h)]; exact vis_pushed (vis_pushed h _) _

theorem vis_popped : (popped s).visible = (popped t).visible := by
  unfold popped; rw [vis_sp h]; exact vis_setSp (vis_after h _ _ _) _

theorem vis_entered (v : Word) : (entered v s).visible = (entered v t).visible := by
  unfold entered
  dsimp only
  have hs := vis_saved h
  rw [vis_gets hs]
  have hu := vis_setPc (vis_after hs .dati .word v) ((saved t).gets .word v)
  rw [vis_gets hu]
  exact vis_withPsw (vis_after hu _ _ _) _

end

/-! ### What an operand's place and steps depend on -/

section
variable {s t : State} (h : s.visible = t.visible)
include h

theorem vis_indexSum (o : Operand) : indexSum o s = indexSum o t := by
  unfold indexSum indexBase; rw [vis_gets h, vis_pc h, vis_reg h]

theorem vis_indexStep : (indexStep s).visible = (indexStep t).visible := by
  unfold indexStep; rw [vis_pc h]; exact vis_setPc (vis_after h _ _ _) _

theorem vis_operandPlace (sz : Size) (o : Operand) : operandPlace sz o s = operandPlace sz o t := by
  unfold operandPlace
  simp only [vis_reg h, vis_gets h, vis_indexSum h, vis_gets (vis_indexStep h)]

theorem vis_operandReach (sz : Size) (o : Operand) :
    (operandReach sz o s).visible = (operandReach sz o t).visible := by
  unfold operandReach
  rw [vis_reg h, vis_indexSum h]
  split
  · exact h
  · exact h
  · exact h
  · exact vis_setReg (vis_after h _ _ _) _ _
  · exact vis_decremented h _ _
  · exact vis_after (vis_decremented h _ _) _ _ _
  · exact vis_indexStep h
  · exact vis_after (vis_indexStep h) _ _ _

theorem vis_stepped (sz : Size) (o : Operand) : (stepped sz o s).visible = (stepped sz o t).visible := by
  unfold stepped
  split
  · rw [vis_reg h]; exact vis_setReg h _ _
  · exact h

theorem vis_operandStep (k : CycleKind) (sz : Size) (o : Operand) :
    (operandStep k sz o s).visible = (operandStep k sz o t).visible := by
  unfold operandStep
  rw [vis_operandPlace h]
  split
  · exact h
  · exact vis_stepped (vis_after (vis_operandReach h sz o) _ _ _) _ _

theorem vis_addressStep (o : Operand) : (addressStep o s).visible = (addressStep o t).visible :=
  vis_stepped (vis_operandReach h _ _) _ _

theorem vis_pointersReadable (o : Operand) : pointersReadable o s = pointersReadable o t := by
  unfold pointersReadable
  simp only [vis_reg h, vis_pc h, vis_indexSum h, vis_readable h]

theorem vis_operandReadable (sz : Size) (o : Operand) : operandReadable sz o s = operandReadable sz o t := by
  unfold operandReadable
  simp only [vis_operandPlace h, vis_pointersReadable h, vis_readable h]

theorem vis_operandWritable (sz : Size) (o : Operand) : operandWritable sz o s = operandWritable sz o t := by
  unfold operandWritable
  simp only [vis_operandPlace h, vis_operandReadable h, vis_writable h]

theorem vis_operandValue (sz : Size) (o : Operand) : operandValue sz o s = operandValue sz o t := by
  unfold operandValue
  simp only [vis_operandPlace h, vis_gets (vis_operandReach h sz o), vis_reg h]

theorem vis_operandByte (o : Operand) : operandByte o s = operandByte o t := by
  unfold operandByte; rw [vis_operandValue h]

theorem vis_carryAt (k : CycleKind) (sz : Size) (o : Operand) : carryAt k sz o s = carryAt k sz o t :=
  vis_flagC (vis_operandStep h k sz o)

theorem vis_afterWord (dst : Operand) (r : Word) (f : CC) :
    (afterWord dst r f s).visible = (afterWord dst r f t).visible := by
  unfold afterWord
  rw [vis_operandPlace h]
  exact vis_complete (vis_storeWord (vis_setCC (vis_operandStep h _ _ _) _) _ _)

theorem vis_afterByte (dst : Operand) (r : Byte) (f : CC) :
    (afterByte dst r f s).visible = (afterByte dst r f t).visible := by
  unfold afterByte
  rw [vis_operandPlace h]
  exact vis_complete (vis_storeByte (vis_setCC (vis_operandStep h _ _ _) _) _ _)

theorem vis_afterTest (sz : Size) (dst : Operand) (f : CC) :
    (afterTest sz dst f s).visible = (afterTest sz dst f t).visible := by
  unfold afterTest
  exact vis_complete (vis_setCC (vis_operandStep h _ _ _) _)

end

@[simp] theorem stepped_cfg (sz : Size) (o : Operand) (s : State) : (stepped sz o s).cfg = s.cfg := by
  unfold stepped; split <;> rfl

@[simp] theorem stepped_parityBad (sz : Size) (o : Operand) (s : State) :
    (stepped sz o s).parityBad = s.parityBad := by unfold stepped; split <;> rfl

@[simp] theorem stepped_psw (sz : Size) (o : Operand) (s : State) : (stepped sz o s).psw = s.psw := by
  unfold stepped; split <;> rfl

@[simp] theorem indexStep_cfg (s : State) : (indexStep s).cfg = s.cfg := by unfold indexStep; simp

@[simp] theorem indexStep_parityBad (s : State) : (indexStep s).parityBad = s.parityBad := by unfold indexStep; simp

@[simp] theorem operandReach_cfg (sz : Size) (o : Operand) (s : State) : (operandReach sz o s).cfg = s.cfg := by
  unfold operandReach; split <;> simp

@[simp] theorem operandReach_parityBad (sz : Size) (o : Operand) (s : State) :
    (operandReach sz o s).parityBad = s.parityBad := by unfold operandReach; split <;> simp

@[simp] theorem operandStep_cfg (k : CycleKind) (sz : Size) (o : Operand) (s : State) :
    (operandStep k sz o s).cfg = s.cfg := by unfold operandStep; split <;> simp

@[simp] theorem operandStep_parityBad (k : CycleKind) (sz : Size) (o : Operand) (s : State) :
    (operandStep k sz o s).parityBad = s.parityBad := by unfold operandStep; split <;> simp

/-! ### Operand access -/

theorem postInc_eq (sz : Size) (o : Operand) (s : State) : postInc sz o s = stepped sz o s := rfl

theorem indexBase_eq (o : Operand) (s : State) : (s.setPc (s.pc + 2)).reg o.reg = indexBase o s := by
  unfold indexBase
  split
  · rename_i h; rw [h]; rfl
  · rename_i h
    exact (State.reg_setReg s .r7 o.reg _).trans (if_neg (fun h' => h h'.symm))

@[simp] theorem noteAddress_visible (s : State) (side : Side) (a : Word) :
    (s.noteAddress side a).visible = s.visible := by cases side <;> rfl

@[simp] theorem noteAddress_cfg (s : State) (side : Side) (a : Word) : (s.noteAddress side a).cfg = s.cfg := by
  cases side <;> rfl

@[simp] theorem noteAddress_r12 (s : State) (a : Word) : (s.noteAddress .destination a).scratch.r12 = a := rfl

@[simp] theorem noteAddress_r10 (s : State) (a : Word) : (s.noteAddress .source a).scratch.r10 = a := rfl

/-- The index word when it is answered (R144). -/
theorem indexed_ok {o : Operand} {s : State} (h : s.readable .word s.pc = true) :
    indexed o s = .ok (indexSum o s) ((indexStep s).setB (indexSum o s)) := by
  have e : ((((s.after .dati .word s.pc).setB (s.gets .word s.pc))).setPc
      (((s.after .dati .word s.pc).setB (s.gets .word s.pc)).pc + 2)).reg o.reg = indexBase o s := by
    rw [indexBase_eq]
    unfold indexBase
    rw [State.setB_pc, State.after_pc, State.setB_reg, State.after_reg]
  simp only [indexed, memRead_word h, Res.andThen_ok]
  rw [e, State.setB_pc, State.after_pc]
  rfl

theorem indexed_fails {o : Operand} {s : State} {e : BusFault} (h : s.readFails .word s.pc = some e) :
    ∃ t, indexed o s = .err e t ∧ t.visible = (s.after .dati .word s.pc).visible := by
  obtain ⟨t, ht, hv⟩ := readAs_fails (k := .dati) h
  exact ⟨t, by simp only [indexed, memRead, ht, Res.andThen_err], hv⟩

/-- A read made in a state that looks like `u`. -/
theorem readAs_vis {s u : State} {k : CycleKind} {sz : Size} {a : Word} (hv : s.visible = u.visible)
    (h : u.readable sz a = true) :
    ∃ t, readAs k sz a s = .ok (u.gets sz a) t ∧ t.visible = (u.after k sz a).visible := by
  obtain ⟨t, ht, hw⟩ := readAs_readable (k := k) ((vis_readable hv sz a).trans h)
  exact ⟨t, by rw [ht, vis_gets hv], hw.trans (vis_after hv _ _ _)⟩

theorem readAs_vis_fails {s u : State} {k : CycleKind} {sz : Size} {a : Word} {e : BusFault}
    (hv : s.visible = u.visible) (h : u.readFails sz a = some e) :
    ∃ t, readAs k sz a s = .err e t ∧ t.visible = (u.after k sz a).visible := by
  obtain ⟨t, ht, hw⟩ := readAs_fails (k := k) ((vis_readFails hv sz a).trans h)
  exact ⟨t, ht, hw.trans (vis_after hv _ _ _)⟩

/-- The address calculation when the words it reads are answered. -/
theorem locate_ok {side : Side} {sz : Size} {o : Operand} {s : State} (h : pointersReadable o s = true) :
    ∃ t, locate side sz o s = .ok (operandPlace sz o s) t ∧ t.visible = (operandReach sz o s).visible := by
  obtain ⟨m, r⟩ := o
  cases m
  · exact ⟨s, rfl, rfl⟩
  · exact ⟨s, rfl, rfl⟩
  · exact ⟨s, rfl, rfl⟩
  · have hb := memRead_word (show s.readable .word (s.reg r) = true from h)
    exact ⟨_, by simp only [locate, hb, Res.andThen_ok]; rfl, by
      rw [State.setB_reg, State.after_reg]; rfl⟩
  · exact ⟨_, rfl, by simp only [autoDecrement_eq]; rfl⟩
  · have h' : (decremented r 2 s).readable .word (s.reg r - 2) = true := by
      rw [readable_congr (decremented_cfg _ _ _) (decremented_parityBad _ _ _)]; exact h
    have hb := memRead_word h'
    refine ⟨((decremented r 2 s).after .dati .word (s.reg r - 2)).setB (s.gets .word (s.reg r - 2)), ?_, rfl⟩
    simp only [locate, autoDecrement_eq, hb, Res.andThen_ok, decremented_gets]
    rfl
  · refine ⟨(indexStep s).setB (indexSum ⟨.index, r⟩ s), ?_, rfl⟩
    simp only [locate, indexed_ok (o := ⟨.index, r⟩) (show s.readable .word s.pc = true from h), Res.andThen_ok]
    rfl
  · have h1 : s.readable .word s.pc = true ∧ s.readable .word (indexSum ⟨.indexDef, r⟩ s) = true := by
      simpa [pointersReadable] using h
    have h2 : (indexStep s).readable .word (indexSum ⟨.indexDef, r⟩ s) = true := by
      rw [readable_congr (indexStep_cfg s) (indexStep_parityBad s)]; exact h1.2
    obtain ⟨t, ht, hv⟩ := readAs_vis (k := .dati)
      (s := ((indexStep s).setB (indexSum ⟨.indexDef, r⟩ s)).noteAddress side (indexSum ⟨.indexDef, r⟩ s))
      (by rw [noteAddress_visible]; rfl) h2
    exact ⟨t, by simp only [locate, indexed_ok (o := ⟨.indexDef, r⟩) h1.1, Res.andThen_ok, memRead, ht]; rfl, hv⟩

@[simp] theorem noteSource_visible (o : Operand) (l : Loc) (s : State) : (noteSource o l s).visible = s.visible := by
  unfold noteSource; split
  · rfl
  · split <;> simp

@[simp] theorem noteDestination_visible (l : Loc) (s : State) : (noteDestination l s).visible = s.visible := by
  unfold noteDestination; split <;> simp

theorem operandPlace_reg {sz : Size} {o : Operand} {s : State} {q : Reg} (h : operandPlace sz o s = .reg q) :
    o.mode = .register ∧ o.reg = q := by
  unfold operandPlace at h
  split at h <;> cases h
  rename_i hm
  exact ⟨hm, rfl⟩

theorem operandReach_register {sz : Size} {o : Operand} {s : State} (h : o.mode = .register) :
    operandReach sz o s = s := by unfold operandReach; rw [h]

theorem stepped_register {sz : Size} {o : Operand} {s : State} (h : o.mode = .register) : stepped sz o s = s := by
  unfold stepped; rw [if_neg (by simp [h])]

theorem operandStep_register {k : CycleKind} {sz : Size} {o : Operand} {s : State} (h : o.mode = .register) :
    operandStep k sz o s = s := by
  unfold operandStep operandPlace; rw [h]

/-- The operand's own cycle, when it is answered, from any state that looks like the one it begins in. -/
theorem readLoc_ok {k : CycleKind} {sz : Size} {o : Operand} {s t : State} (h : operandReadable sz o s = true)
    (ht : t.visible = (operandReach sz o s).visible) :
    ∃ u, readLoc k sz (operandPlace sz o s) t = .ok (operandValue sz o s) u ∧
      (postInc sz o u).visible = (operandStep k sz o s).visible ∧
      u.scratch.r12 = t.scratch.r12 ∧ u.scratch.r10 = t.scratch.r10 := by
  unfold operandReadable at h
  rw [Bool.and_eq_true] at h
  unfold operandValue operandStep
  cases hp : operandPlace sz o s with
  | reg q =>
    obtain ⟨hm, hq⟩ := operandPlace_reg hp
    rw [operandReach_register hm] at ht
    refine ⟨t, ?_, ?_, rfl, rfl⟩
    · show Res.ok (t.reg q) t = _; rw [vis_reg ht]
    · rw [postInc_eq, stepped_register hm]; exact ht
  | mem a =>
    rw [hp] at h
    have hr : t.readable sz a = true := by
      rw [readable_congr ((vis_cfg ht).trans (operandReach_cfg sz o s))
        ((vis_parityBad ht).trans (operandReach_parityBad sz o s))]
      exact h.2
    obtain ⟨b, w, -, ⟨-, h2⟩ | ⟨e, h1, -⟩⟩ := readAs_cases k sz a t
    · refine ⟨((t.after k sz a).setB b).setR17 w, ?_,
        vis_stepped (s := ((t.after k sz a).setB b).setR17 w) (vis_after ht k sz a) sz o, ?_, ?_⟩
      · show readAs k sz a t = Res.ok ((operandReach sz o s).gets sz a) _
        rw [← vis_gets ht]; exact h2
      · show (t.after k sz a).scratch.r12 = _; rw [State.after_scratch]
      · show (t.after k sz a).scratch.r10 = _; rw [State.after_scratch]
    · simp [State.readable, h1] at hr

theorem operandReadable_pointers {sz : Size} {o : Operand} {s : State} (h : operandReadable sz o s = true) :
    pointersReadable o s = true := by
  unfold operandReadable at h; rw [Bool.and_eq_true] at h; exact h.1

/-- `SrcRead` when every cycle is answered: the value, the mode's updates, the copy in R11, and the address in R10 for
the modes that work one out. -/
theorem srcRead_ok {sz : Size} {o : Operand} {s : State} (h : operandReadable sz o s = true) :
    ∃ t, srcRead sz o s = .ok (operandValue sz o s) t ∧ t.visible = (operandStep .dati sz o s).visible ∧
      t.scratch.r11 = operandValue sz o s ∧
      ∀ a, operandPlace sz o s = .mem a → o.mode ≠ .deferred → o.mode ≠ .autoInc → t.scratch.r10 = a := by
  obtain ⟨t, ht, hv⟩ := locate_ok (side := .source) (sz := sz) (operandReadable_pointers h)
  obtain ⟨u, hu, huv, -, h10⟩ := readLoc_ok (k := .dati) h
    ((noteSource_visible o (operandPlace sz o s) t).trans hv)
  refine ⟨(postInc sz o u).setR11 (operandValue sz o s), by simp only [srcRead, ht, Res.andThen_ok, hu], huv, rfl, ?_⟩
  intro a ha h1 h2
  have : (postInc sz o u).scratch = u.scratch := by unfold postInc; split <;> rfl
  show (postInc sz o u).scratch.r10 = a
  rw [this, h10, ha, noteSource, if_neg (by simp [h1, h2])]
  rfl

/-- `DstRead` when every cycle is answered: the value, the mode's updates, and the address in R12. -/
theorem dstRead_ok {sz : Size} {o : Operand} {s : State} (h : operandReadable sz o s = true) :
    ∃ t, dstRead sz o s = .ok (operandValue sz o s) t ∧ t.visible = (operandStep .dati sz o s).visible ∧
      ∀ a, operandPlace sz o s = .mem a → t.scratch.r12 = a := by
  obtain ⟨t, ht, hv⟩ := locate_ok (side := .destination) (sz := sz) (operandReadable_pointers h)
  obtain ⟨u, hu, huv, h12, -⟩ := readLoc_ok (k := .dati) h
    ((noteDestination_visible (operandPlace sz o s) t).trans hv)
  refine ⟨_, by simp only [dstRead, ht, Res.andThen_ok, hu], huv, ?_⟩
  intro a ha
  have : (postInc sz o u).scratch = u.scratch := by unfold postInc; split <;> rfl
  rw [this, h12, ha]
  rfl

/-- `DstModifyRead` when every cycle is answered: the place, the old value, the mode's updates, and the address in
R12. -/
theorem dstModifyRead_ok {sz : Size} {o : Operand} {s : State} (h : operandReadable sz o s = true) :
    ∃ t, dstModifyRead sz o s = .ok ⟨operandPlace sz o s, operandValue sz o s⟩ t ∧
      t.visible = (operandStep .datip sz o s).visible ∧
      ∀ a, operandPlace sz o s = .mem a → t.scratch.r12 = a := by
  obtain ⟨t, ht, hv⟩ := locate_ok (side := .destination) (sz := sz) (operandReadable_pointers h)
  obtain ⟨u, hu, huv, h12, -⟩ := readLoc_ok (k := .datip) h
    ((noteDestination_visible (operandPlace sz o s) t).trans hv)
  refine ⟨_, by simp only [dstModifyRead, ht, Res.andThen_ok, hu], huv, ?_⟩
  intro a ha
  have : (postInc sz o u).scratch = u.scratch := by unfold postInc; split <;> rfl
  rw [this, h12, ha]
  rfl

theorem exchangeOdd_visible (a v : Word) (s : State) : (exchangeOdd a v s).visible = s.visible := by
  unfold exchangeOdd; split <;> rfl

/-- `DstWrite` of a word, when its cycle is answered. -/
theorem dstWrite_word {l : Loc} {v : Word} {s : State} (h : ∀ a, l = .mem a → s.writable .word a = true) :
    dstWrite .word l v s = .ok () (storeWord l v s) := by
  cases l with
  | reg r => rfl
  | mem a => exact memWriteWord_writable v (h a rfl)

/-- `DstWrite` of a byte, when its cycle is answered. -/
theorem dstWrite_byte {l : Loc} {v : Word} {s : State} (h : ∀ a, l = .mem a → s.writable .byte a = true) :
    ∃ t, dstWrite .byte l v s = .ok () t ∧ t.visible = (storeByte l (lowByte v) s).visible := by
  cases l with
  | reg r =>
    refine ⟨_, rfl, ?_⟩
    simp only [State.setRegLow, storeByte]
    rw [keepHigh]
  | mem a =>
    have hv := exchangeOdd_visible a v s
    exact ⟨_, memWriteByte_writable (s := exchangeOdd a v s) (lowByte v) ((vis_writable hv _ _).trans (h a rfl)),
      vis_withByte hv _ _⟩

/-- `DstWrite` of a word whose cycle fails. -/
theorem dstWrite_word_fails {a v : Word} {s : State} (h : s.writeFails .word a = true) :
    dstWrite .word (.mem a) v s = .err .busError (s.withoutWord a v) := memWriteWord_fails v h

/-- `DstWrite` of a byte whose cycle fails. -/
theorem dstWrite_byte_fails {a v : Word} {s : State} (h : s.writeFails .byte a = true) :
    ∃ t, dstWrite .byte (.mem a) v s = .err .busError t ∧
      t.visible = (s.withoutByte a (lowByte v)).visible := by
  have hv := exchangeOdd_visible a v s
  exact ⟨_, memWriteByte_fails (s := exchangeOdd a v s) (lowByte v) ((vis_writeFails hv _ _).trans h),
    vis_withoutByte hv _ _⟩

/-! ### The templates -/

/-- The instruction ends in the next state `t`, up to what is not seen. -/
theorem finish_completes {r : Res Unit} {t u : State} (h : r = .ok () t) (hv : t.visible = u.visible) :
    ∃ w, finish r = .next w ∧ w.visible = u.complete.visible := ⟨t.complete, by rw [h]; rfl, vis_complete hv⟩

theorem operandWritable_readable {sz : Size} {o : Operand} {s : State} (h : operandWritable sz o s = true) :
    operandReadable sz o s = true := by
  unfold operandWritable at h; rw [Bool.and_eq_true] at h; exact h.1

theorem operandWritable_writable {sz : Size} {o : Operand} {s : State} (h : operandWritable sz o s = true) (a : Word)
    (ha : operandPlace sz o s = .mem a) : s.writable sz a = true := by
  unfold operandWritable at h
  rw [Bool.and_eq_true, ha] at h
  exact h.2

/-- The write-back of a state that looks like the one after the destination's read. -/
theorem dstWrite_word_after {dst : Operand} {s t : State} {v : Word} (h : operandWritable .word dst s = true)
    (hc : t.cfg = s.cfg) :
    dstWrite .word (operandPlace .word dst s) v t = .ok () (storeWord (operandPlace .word dst s) v t) :=
  dstWrite_word fun a ha => (writable_congr hc _ _).trans (operandWritable_writable h a ha)

theorem dstWrite_byte_after {dst : Operand} {s t : State} {v : Word} (h : operandWritable .byte dst s = true)
    (hc : t.cfg = s.cfg) :
    ∃ u, dstWrite .byte (operandPlace .byte dst s) v t = .ok () u ∧
      u.visible = (storeByte (operandPlace .byte dst s) (lowByte v) t).visible :=
  dstWrite_byte fun a ha => (writable_congr hc _ _).trans (operandWritable_writable h a ha)

theorem modifyWord_ok (op : CC → Word → AluOut 16) {dst : Operand} {s : State}
    (h : operandWritable .word dst s = true) :
    ∃ t, modifyWord op dst s = .ok () t ∧
      let o := op (operandStep .datip .word dst s).cc (operandValue .word dst s)
      t.visible = (storeWord (operandPlace .word dst s) o.r ((operandStep .datip .word dst s).setCC o.cc)).visible := by
  obtain ⟨t, ht, hv, _⟩ := dstModifyRead_ok (operandWritable_readable h)
  have hc : t.cfg = s.cfg := (vis_cfg hv).trans (operandStep_cfg _ _ _ _)
  refine ⟨_, by
    simp only [modifyWord, ht, Res.andThen_ok]
    exact dstWrite_word_after h (t := t.loadAlu _) hc, ?_⟩
  rw [vis_cc hv]
  exact vis_storeWord (vis_loadAlu hv _) _ _

theorem modifyByte_ok (op : CC → Byte → AluOut 8) {dst : Operand} {s : State}
    (h : operandWritable .byte dst s = true) :
    ∃ t, modifyByte op dst s = .ok () t ∧
      let o := op (operandStep .datip .byte dst s).cc (operandByte dst s)
      t.visible = (storeByte (operandPlace .byte dst s) o.r ((operandStep .datip .byte dst s).setCC o.cc)).visible := by
  obtain ⟨t, ht, hv, _⟩ := dstModifyRead_ok (operandWritable_readable h)
  have hc : t.cfg = s.cfg := (vis_cfg hv).trans (operandStep_cfg _ _ _ _)
  obtain ⟨u, hu, huv⟩ := dstWrite_byte_after h (v := zext (op t.cc (lowByte (operandValue .byte dst s))).r)
    (t := t.loadAlu (op t.cc (lowByte (operandValue .byte dst s)))) hc
  refine ⟨u, by simp only [modifyByte, ht, Res.andThen_ok]; exact hu, ?_⟩
  rw [huv, lowByte_zext, vis_cc hv]
  exact vis_storeByte (vis_loadAlu hv _) _ _

theorem testWord_ok (op : CC → Word → AluOut 16) {dst : Operand} {s : State}
    (h : operandReadable .word dst s = true) :
    ∃ t, testWord op dst s = .ok () t ∧ t.visible =
      ((operandStep .dati .word dst s).setCC
        (op (operandStep .dati .word dst s).cc (operandValue .word dst s)).cc).visible := by
  obtain ⟨t, ht, hv, -⟩ := dstRead_ok h
  refine ⟨_, by simp only [testWord, ht, Res.andThen_ok]; rfl, ?_⟩
  rw [vis_cc hv]
  exact vis_setCC hv _

theorem testByte_ok (op : CC → Byte → AluOut 8) {dst : Operand} {s : State}
    (h : operandReadable .byte dst s = true) :
    ∃ t, testByte op dst s = .ok () t ∧ t.visible =
      ((operandStep .dati .byte dst s).setCC
        (op (operandStep .dati .byte dst s).cc (operandByte dst s)).cc).visible := by
  obtain ⟨t, ht, hv, -⟩ := dstRead_ok h
  refine ⟨_, by simp only [testByte, ht, Res.andThen_ok]; rfl, ?_⟩
  rw [vis_cc hv]
  exact vis_setCC hv _

/-- A modifying single-operand instruction on words, all cycles answered. -/
theorem modifyWord_completes (op : CC → Word → AluOut 16) {dst : Operand} {s : State}
    (h : operandWritable .word dst s = true) :
    ∃ w, finish (modifyWord op dst s) = .next w ∧
      let o := op (operandStep .datip .word dst s).cc (operandValue .word dst s)
      w.visible = (afterWord dst o.r o.cc s).visible := by
  obtain ⟨t, ht, hv⟩ := modifyWord_ok op h
  exact finish_completes ht hv

/-- A modifying single-operand instruction on bytes, all cycles answered. -/
theorem modifyByte_completes (op : CC → Byte → AluOut 8) {dst : Operand} {s : State}
    (h : operandWritable .byte dst s = true) :
    ∃ w, finish (modifyByte op dst s) = .next w ∧
      let o := op (operandStep .datip .byte dst s).cc (operandByte dst s)
      w.visible = (afterByte dst o.r o.cc s).visible := by
  obtain ⟨t, ht, hv⟩ := modifyByte_ok op h
  exact finish_completes ht hv

/-- A single-operand instruction that only reads a word. -/
theorem testWord_completes (op : CC → Word → AluOut 16) {dst : Operand} {s : State}
    (h : operandReadable .word dst s = true) :
    ∃ w, finish (testWord op dst s) = .next w ∧ w.visible =
      (afterTest .word dst (op (operandStep .dati .word dst s).cc (operandValue .word dst s)).cc s).visible := by
  obtain ⟨t, ht, hv⟩ := testWord_ok op h
  exact finish_completes ht hv

/-- A single-operand instruction that only reads a byte. -/
theorem testByte_completes (op : CC → Byte → AluOut 8) {dst : Operand} {s : State}
    (h : operandReadable .byte dst s = true) :
    ∃ w, finish (testByte op dst s) = .next w ∧ w.visible =
      (afterTest .byte dst (op (operandStep .dati .byte dst s).cc (operandByte dst s)).cc s).visible := by
  obtain ⟨t, ht, hv⟩ := testByte_ok op h
  exact finish_completes ht hv

/-- A modifying double-operand instruction on words: the destination is worked out after all source steps (R152). -/
theorem combineWord_completes (op : CC → Word → Word → AluOut 16) {src dst : Operand} {s : State}
    (hs : operandReadable .word src s = true) (hd : operandWritable .word dst (operandStep .dati .word src s) = true) :
    ∃ w, finish (combineWord op src dst s) = .next w ∧
      let u := operandStep .dati .word src s
      let o := op (operandStep .datip .word dst u).cc (operandValue .word src s) (operandValue .word dst u)
      w.visible = (afterWord dst o.r o.cc u).visible := by
  obtain ⟨t, ht, hv, _⟩ := srcRead_ok hs
  rw [← vis_operandWritable hv] at hd
  obtain ⟨w, hw, hwv⟩ := modifyWord_completes (fun f d => op f (operandValue .word src s) d) hd
  refine ⟨w, by simp only [combineWord, ht, Res.andThen_ok]; exact hw, ?_⟩
  dsimp only at hwv ⊢
  rw [hwv, vis_cc (vis_operandStep hv .datip .word dst), vis_operandValue hv]
  exact vis_afterWord hv _ _ _

/-- A modifying double-operand instruction on bytes. -/
theorem combineByte_completes (op : CC → Byte → Byte → AluOut 8) {src dst : Operand} {s : State}
    (hs : operandReadable .byte src s = true) (hd : operandWritable .byte dst (operandStep .dati .byte src s) = true) :
    ∃ w, finish (combineByte op src dst s) = .next w ∧
      let u := operandStep .dati .byte src s
      let o := op (operandStep .datip .byte dst u).cc (operandByte src s) (operandByte dst u)
      w.visible = (afterByte dst o.r o.cc u).visible := by
  obtain ⟨t, ht, hv, _⟩ := srcRead_ok hs
  rw [← vis_operandWritable hv] at hd
  obtain ⟨w, hw, hwv⟩ := modifyByte_completes (fun f d => op f (operandByte src s) d) hd
  refine ⟨w, by simp only [combineByte, ht, Res.andThen_ok]; exact hw, ?_⟩
  dsimp only at hwv ⊢
  rw [hwv, vis_cc (vis_operandStep hv .datip .byte dst), vis_operandByte hv]
  exact vis_afterByte hv _ _ _

/-- A double-operand instruction that only reads words. -/
theorem compareWord_completes (op : CC → Word → Word → AluOut 16) {src dst : Operand} {s : State}
    (hs : operandReadable .word src s = true) (hd : operandReadable .word dst (operandStep .dati .word src s) = true) :
    ∃ w, finish (compareWord op src dst s) = .next w ∧
      let u := operandStep .dati .word src s
      w.visible = (afterTest .word dst
        (op (operandStep .dati .word dst u).cc (operandValue .word src s) (operandValue .word dst u)).cc u).visible := by
  obtain ⟨t, ht, hv, _⟩ := srcRead_ok hs
  rw [← vis_operandReadable hv] at hd
  obtain ⟨w, hw, hwv⟩ := testWord_completes (fun f d => op f (operandValue .word src s) d) hd
  refine ⟨w, by simp only [compareWord, ht, Res.andThen_ok]; exact hw, ?_⟩
  dsimp only at hwv ⊢
  rw [hwv, vis_cc (vis_operandStep hv .dati .word dst), vis_operandValue hv]
  exact vis_afterTest hv _ _ _

/-- A double-operand instruction that only reads bytes. -/
theorem compareByte_completes (op : CC → Byte → Byte → AluOut 8) {src dst : Operand} {s : State}
    (hs : operandReadable .byte src s = true) (hd : operandReadable .byte dst (operandStep .dati .byte src s) = true) :
    ∃ w, finish (compareByte op src dst s) = .next w ∧
      let u := operandStep .dati .byte src s
      w.visible = (afterTest .byte dst
        (op (operandStep .dati .byte dst u).cc (operandByte src s) (operandByte dst u)).cc u).visible := by
  obtain ⟨t, ht, hv, _⟩ := srcRead_ok hs
  rw [← vis_operandReadable hv] at hd
  obtain ⟨w, hw, hwv⟩ := testByte_completes (fun f d => op f (operandByte src s) d) hd
  refine ⟨w, by simp only [compareByte, ht, Res.andThen_ok]; exact hw, ?_⟩
  dsimp only at hwv ⊢
  rw [hwv, vis_cc (vis_operandStep hv .dati .byte dst), vis_operandByte hv]
  exact vis_afterTest hv _ _ _

end Sys2Proof.Machine
end

