-- ==== Sys2Proof/Laws/Moves.lean ====
section
/-! SUPPORT. What any microstep sequence of the processor, and any trap or restart sequence, leaves alone: one relation,
carried once through every shared operation. -/

namespace Sys2Proof.Machine

/-- What no bus cycle, register update or trap sequence changes; memory keeps its canonical form, a pending parity error
stays a pending bus error, and the run state only ever goes to HALTED or WAIT. -/
structure Moves (s t : State) : Prop where
  cfg : t.cfg = s.cfg
  parityBad : t.parityBad = s.parityBad
  pfail : t.pfail = s.pfail
  waitHeld : t.waitHeld = s.waitHeld
  haltRequest : t.haltRequest = s.haltRequest
  acLo : t.acLo = s.acLo
  pup : t.pup = s.pup
  pdwn : t.pdwn = s.pdwn
  inputs : t.inputs = s.inputs
  r14 : t.scratch.r14 = s.scratch.r14
  r15 : t.scratch.r15 = s.scratch.r15
  r16 : t.scratch.r16 = s.scratch.r16
  mem : s.mem.wf = true → t.mem.wf = true
  parity : (s.pe = true → s.be = true) → t.pe = true → t.be = true
  run : t.run = s.run ∨ t.run = .halted ∨ t.run = .wait

theorem Moves.refl (s : State) : Moves s s :=
  ⟨rfl, rfl, rfl, rfl, rfl, rfl, rfl, rfl, rfl, rfl, rfl, rfl, id, id, .inl rfl⟩

theorem Moves.trans {s t u : State} (h : Moves s t) (k : Moves t u) : Moves s u where
  cfg := k.cfg.trans h.cfg
  parityBad := k.parityBad.trans h.parityBad
  pfail := k.pfail.trans h.pfail
  waitHeld := k.waitHeld.trans h.waitHeld
  haltRequest := k.haltRequest.trans h.haltRequest
  acLo := k.acLo.trans h.acLo
  pup := k.pup.trans h.pup
  pdwn := k.pdwn.trans h.pdwn
  inputs := k.inputs.trans h.inputs
  r14 := k.r14.trans h.r14
  r15 := k.r15.trans h.r15
  r16 := k.r16.trans h.r16
  mem := k.mem ∘ h.mem
  parity := k.parity ∘ h.parity
  run := by
    rcases k.run with e | e
    · rw [e]; exact h.run
    · exact .inr e

/-- Both ends of a result are reached by moves. -/
def Res.Moves {α : Type} (s : State) : Res α → Prop
  | .ok _ t => Machine.Moves s t
  | .err _ t => Machine.Moves s t

theorem Res.Moves.andThen {α β : Type} {s : State} {r : Res α} {f : α → State → Res β} (h : r.Moves s)
    (k : ∀ a t, (f a t).Moves t) : (r.andThen f).Moves s := by
  cases r with
  | ok a t =>
    have := k a t
    simp only [Res.andThen_ok]
    revert this
    cases f a t with
    | ok b u => exact fun hu => Machine.Moves.trans h hu
    | err e u => exact fun hu => Machine.Moves.trans h hu
  | err e t => exact h

theorem Res.Moves.after {α : Type} {s t : State} {r : Res α} (h : Machine.Moves s t) (k : r.Moves t) : r.Moves s := by
  cases r with
  | ok a u => exact Machine.Moves.trans h k
  | err e u => exact Machine.Moves.trans h k

/-! ### Register updates -/

theorem moves_setReg (s : State) (r : Reg) (v : Word) : Moves s (s.setReg r v) :=
  ⟨rfl, rfl, rfl, rfl, rfl, rfl, rfl, rfl, rfl, rfl, rfl, rfl, id, id, .inl rfl⟩

theorem moves_setPc (s : State) (v : Word) : Moves s (s.setPc v) := moves_setReg s .r7 v

theorem moves_setSp (s : State) (v : Word) : Moves s (s.setSp v) := moves_setReg s .r6 v

theorem moves_setB (s : State) (v : Word) : Moves s (s.setB v) :=
  ⟨rfl, rfl, rfl, rfl, rfl, rfl, rfl, rfl, rfl, rfl, rfl, rfl, id, id, .inl rfl⟩

theorem moves_setR10 (s : State) (v : Word) : Moves s (s.setR10 v) :=
  ⟨rfl, rfl, rfl, rfl, rfl, rfl, rfl, rfl, rfl, rfl, rfl, rfl, id, id, .inl rfl⟩

theorem moves_setR11 (s : State) (v : Word) : Moves s (s.setR11 v) :=
  ⟨rfl, rfl, rfl, rfl, rfl, rfl, rfl, rfl, rfl, rfl, rfl, rfl, id, id, .inl rfl⟩

theorem moves_setR12 (s : State) (v : Word) : Moves s (s.setR12 v) :=
  ⟨rfl, rfl, rfl, rfl, rfl, rfl, rfl, rfl, rfl, rfl, rfl, rfl, id, id, .inl rfl⟩

theorem moves_setR13 (s : State) (v : Word) : Moves s (s.setR13 v) :=
  ⟨rfl, rfl, rfl, rfl, rfl, rfl, rfl, rfl, rfl, rfl, rfl, rfl, id, id, .inl rfl⟩

theorem moves_setR17 (s : State) (v : Word) : Moves s (s.setR17 v) :=
  ⟨rfl, rfl, rfl, rfl, rfl, rfl, rfl, rfl, rfl, rfl, rfl, rfl, id, id, .inl rfl⟩

theorem moves_loadPsw (s : State) (v : Word) : Moves s (s.loadPsw v) :=
  ⟨rfl, rfl, rfl, rfl, rfl, rfl, rfl, rfl, rfl, rfl, rfl, rfl, id, id, .inl rfl⟩

theorem moves_writePsw (s : State) (v : Byte) : Moves s (s.writePsw v) :=
  ⟨rfl, rfl, rfl, rfl, rfl, rfl, rfl, rfl, rfl, rfl, rfl, rfl, id, id, .inl rfl⟩

theorem moves_setCC (s : State) (f : CC) : Moves s (s.setCC f) :=
  ⟨rfl, rfl, rfl, rfl, rfl, rfl, rfl, rfl, rfl, rfl, rfl, rfl, id, id, .inl rfl⟩

theorem moves_loadAlu (s : State) {w : Nat} (o : AluOut w) : Moves s (s.loadAlu o) :=
  ⟨rfl, rfl, rfl, rfl, rfl, rfl, rfl, rfl, rfl, rfl, rfl, rfl, id, id, .inl rfl⟩

theorem moves_drawn (s : State) : Moves s s.drawn :=
  ⟨rfl, rfl, rfl, rfl, rfl, rfl, rfl, rfl, rfl, rfl, rfl, rfl, id, id, .inl rfl⟩

theorem moves_stackCheck (s : State) : Moves s s.stackCheck := by
  unfold State.stackCheck
  split
  · exact ⟨rfl, rfl, rfl, rfl, rfl, rfl, rfl, rfl, rfl, rfl, rfl, rfl, id, id, .inl rfl⟩
  · exact Moves.refl s

theorem moves_complete (s : State) : Moves s s.complete := by
  unfold State.complete
  split
  · exact ⟨rfl, rfl, rfl, rfl, rfl, rfl, rfl, rfl, rfl, rfl, rfl, rfl, id, id, .inl rfl⟩
  · exact Moves.refl s

theorem moves_withIr (s : State) (w : Word) : Moves s { s with ir := w } :=
  ⟨rfl, rfl, rfl, rfl, rfl, rfl, rfl, rfl, rfl, rfl, rfl, rfl, id, id, .inl rfl⟩

theorem moves_noteAddress (s : State) (side : Side) (a : Word) : Moves s (s.noteAddress side a) := by
  cases side
  · exact moves_setR10 s a
  · exact moves_setR12 s a

/-! ### The other masters -/

theorem moves_dma (s : State) (c : MasterCycle) : Moves s (s.dma c) := by
  have even : ∀ a : BusAddr, a.getLsbD 0 = false → a.toNat + 1 < 2 ^ 18 := by
    intro a h
    have := a.isLt
    have : a.toNat % 2 = 0 := by
      have h' : ¬ a.toNat % 2 = 1 := by simpa [BitVec.getLsbD, Nat.testBit_zero] using h
      omega
    omega
  cases c with
  | write a v =>
    show Moves s (s.dmaWrite a v)
    unfold State.dmaWrite
    split
    · exact Moves.refl s
    · split
      · exact Moves.refl s
      · rename_i ho
        split
        · exact moves_writePsw s _
        · split <;> first | exact Moves.refl s | exact ⟨rfl, rfl, rfl, rfl, rfl, rfl, rfl, rfl, rfl, rfl, rfl, rfl,
            fun hm => Memory.writeWord_wf _ _ _ hm (even a (by simpa using ho)), id, .inl rfl⟩
  | writeByte a v =>
    show Moves s (s.dmaWriteByte a v)
    unfold State.dmaWriteByte
    split
    · exact Moves.refl s
    · split
      · exact moves_writePsw s _
      · split
        · exact Moves.refl s
        · split <;> first | exact Moves.refl s | exact ⟨rfl, rfl, rfl, rfl, rfl, rfl, rfl, rfl, rfl, rfl, rfl, rfl,
            fun hm => Memory.write_wf _ _ _ hm a.isLt, id, .inl rfl⟩

theorem moves_granted (s : State) : Moves s s.granted := by
  have key : ∀ (l : List MasterCycle) (t : State), Moves s t → Moves s (l.foldl State.dma t) := by
    intro l
    induction l with
    | nil => exact fun t h => h
    | cons c l ih => exact fun t h => ih _ (h.trans (moves_dma t c))
  unfold State.granted
  split
  · exact Moves.refl s
  · exact key _ _ ⟨rfl, rfl, rfl, rfl, rfl, rfl, rfl, rfl, rfl, rfl, rfl, rfl, id, id, .inl rfl⟩

/-! ### Bus cycles and operands -/

theorem moves_after (s : State) (k : CycleKind) (sz : Size) (a : Word) : Moves s (s.after k sz a) := by
  obtain ⟨l, n, h⟩ := s.after_eq k sz a
  rw [h]
  exact (moves_granted s).trans ⟨rfl, rfl, rfl, rfl, rfl, rfl, rfl, rfl, rfl, rfl, rfl, rfl, id, id, .inl rfl⟩

theorem readAs_moves (k : CycleKind) (sz : Size) (a : Word) (s : State) : (readAs k sz a s).Moves s := by
  obtain ⟨b, w, -, ⟨-, h⟩ | ⟨e, -, h⟩⟩ := readAs_cases k sz a s <;> rw [h] <;>
    exact ((moves_after s k sz a).trans (moves_setB _ b)).trans (moves_setR17 _ w)

theorem memRead_moves (sz : Size) (a : Word) (s : State) : (memRead sz a s).Moves s := readAs_moves .dati sz a s

theorem moves_bus (s : State) (l : List BusCycle) : Moves s { s with bus := l } :=
  ⟨rfl, rfl, rfl, rfl, rfl, rfl, rfl, rfl, rfl, rfl, rfl, rfl, id, id, .inl rfl⟩

theorem moves_withWord (s : State) (a v : Word) (h : isOdd a = false) : Moves s (s.withWord a v) := by
  unfold State.withWord
  dsimp only
  split
  · exact (moves_bus s _).trans (moves_writePsw _ _)
  · exact ⟨rfl, rfl, rfl, rfl, rfl, rfl, rfl, rfl, rfl, rfl, rfl, rfl,
      fun hm => Memory.writeWord_wf _ _ _ hm (by rw [← wordBase_addr18_even _ a h]; exact wordBase_lt _), id, .inl rfl⟩
  · exact moves_bus s _

theorem moves_withByte (s : State) (a : Word) (v : Byte) : Moves s (s.withByte a v) := by
  unfold State.withByte
  dsimp only
  split
  · split
    · exact moves_bus s _
    · exact (moves_bus s _).trans (moves_writePsw _ _)
  · exact ⟨rfl, rfl, rfl, rfl, rfl, rfl, rfl, rfl, rfl, rfl, rfl, rfl,
      fun hm => Memory.write_wf _ _ _ hm (addr18 s.cfg a).isLt, id, .inl rfl⟩
  · exact moves_bus s _

theorem moves_withoutWord (s : State) (a v : Word) : Moves s (s.withoutWord a v) := by
  unfold State.withoutWord
  dsimp only
  split
  · exact Moves.refl s
  · rename_i h
    have h : isOdd a = false := by simpa using h
    split
    · exact ⟨rfl, rfl, rfl, rfl, rfl, rfl, rfl, rfl, rfl, rfl, rfl, rfl,
        fun hm => Memory.writeWord_wf _ _ _ hm (by rw [← wordBase_addr18_even _ a h]; exact wordBase_lt _), id, .inl rfl⟩
    · exact moves_bus s _

theorem moves_withoutByte (s : State) (a : Word) (v : Byte) : Moves s (s.withoutByte a v) := by
  unfold State.withoutByte
  dsimp only
  split
  · exact ⟨rfl, rfl, rfl, rfl, rfl, rfl, rfl, rfl, rfl, rfl, rfl, rfl,
      fun hm => Memory.write_wf _ _ _ hm (addr18 s.cfg a).isLt, id, .inl rfl⟩
  · exact moves_bus s _

theorem memWriteWord_moves (a v : Word) (s : State) : (memWriteWord a v s).Moves s := by
  cases h : s.writeFails .word a
  · have hw : s.writable .word a = true := by simp [State.writable, h]
    rw [memWriteWord_writable v hw]; exact moves_withWord s a v (writable_even hw)
  · rw [memWriteWord_fails v h]; exact moves_withoutWord s a v

theorem memWriteByte_moves (a : Word) (v : Byte) (s : State) : (memWriteByte a v s).Moves s := by
  rcases memWriteByte_cases a v s with h | h <;> rw [h]
  · exact moves_withByte s a v
  · exact moves_withoutByte s a v

theorem memWrite_moves (sz : Size) (a v : Word) (s : State) : (memWrite sz a v s).Moves s := by
  cases sz
  · exact memWriteByte_moves a _ s
  · exact memWriteWord_moves a v s

theorem push_moves (v : Word) (s : State) : (push v s).Moves s :=
  Res.Moves.after (((moves_setSp s _).trans (moves_stackCheck _)).trans (moves_granted _)) (memWriteWord_moves _ _ _)

theorem pop_moves (s : State) : (pop s).Moves s :=
  (memRead_moves .word s.sp s).andThen fun _ t => moves_setSp t _

theorem autoDecrement_moves (r : Reg) (n : Word) (s : State) : Moves s (autoDecrement r n s) := by
  unfold autoDecrement; split
  · exact (moves_setReg s r _).trans (moves_stackCheck _)
  · exact moves_setReg s r _

theorem indexed_moves (o : Operand) (s : State) : (indexed o s).Moves s :=
  (memRead_moves _ _ _).andThen fun _ t => (moves_setPc t _).trans (moves_setB _ _)

theorem locate_moves (side : Side) (sz : Size) (o : Operand) (s : State) : (locate side sz o s).Moves s := by
  unfold locate
  split
  · exact Moves.refl s
  · exact Moves.refl s
  · exact Moves.refl s
  · exact (memRead_moves _ _ _).andThen fun _ t => moves_setReg t _ _
  · exact autoDecrement_moves _ _ s
  · exact Res.Moves.after (autoDecrement_moves _ _ s) ((memRead_moves _ _ _).andThen fun _ t => Moves.refl t)
  · exact (indexed_moves o s).andThen fun _ t => Moves.refl t
  · exact (indexed_moves o s).andThen fun _ t =>
      Res.Moves.after (moves_noteAddress t side _) ((memRead_moves _ _ _).andThen fun _ u => Moves.refl u)

theorem postInc_moves (sz : Size) (o : Operand) (s : State) : Moves s (postInc sz o s) := by
  unfold postInc; split
  · exact moves_setReg s _ _
  · exact Moves.refl s

theorem readLoc_moves (k : CycleKind) (sz : Size) (l : Loc) (s : State) : (readLoc k sz l s).Moves s := by
  cases l with
  | mem a => exact readAs_moves k sz a s
  | reg r => exact Moves.refl s

theorem noteSource_moves (o : Operand) (l : Loc) (s : State) : Moves s (noteSource o l s) := by
  unfold noteSource; split
  · exact Moves.refl s
  · split
    · exact Moves.refl s
    · exact moves_noteAddress s _ _

theorem noteDestination_moves (l : Loc) (s : State) : Moves s (noteDestination l s) := by
  unfold noteDestination; split
  · exact Moves.refl s
  · exact moves_noteAddress s _ _

theorem srcRead_moves (sz : Size) (o : Operand) (s : State) : (srcRead sz o s).Moves s :=
  (locate_moves .source sz o s).andThen fun l t =>
    Res.Moves.after (noteSource_moves o l t) ((readLoc_moves _ _ _ _).andThen fun _ u =>
      (postInc_moves sz o u).trans (moves_setR11 _ _))

theorem dstRead_moves (sz : Size) (o : Operand) (s : State) : (dstRead sz o s).Moves s :=
  (locate_moves .destination sz o s).andThen fun l t =>
    Res.Moves.after (noteDestination_moves l t) ((readLoc_moves _ _ _ _).andThen fun _ u => postInc_moves sz o u)

theorem dstModifyRead_moves (sz : Size) (o : Operand) (s : State) : (dstModifyRead sz o s).Moves s :=
  (locate_moves .destination sz o s).andThen fun l t => Res.Moves.after (noteDestination_moves l t)
    ((readLoc_moves _ _ _ _).andThen fun _ u => postInc_moves sz o u)

theorem exchangeOdd_moves (a v : Word) (s : State) : Moves s (exchangeOdd a v s) := by
  unfold exchangeOdd; split
  · exact moves_setR17 s _
  · exact Moves.refl s

theorem dstWrite_moves (sz : Size) (l : Loc) (v : Word) (s : State) : (dstWrite sz l v s).Moves s := by
  cases l with
  | mem a =>
    cases sz
    · exact Res.Moves.after (exchangeOdd_moves a v s) (memWrite_moves .byte a v _)
    · exact memWrite_moves .word a v s
  | reg r => cases sz <;> exact moves_setReg s _ _

theorem dstWriteOnly_moves (sz : Size) (o : Operand) (v : Word) (s : State) : (dstWriteOnly sz o v s).Moves s :=
  (dstModifyRead_moves sz o s).andThen fun _ t => Res.Moves.after (moves_setB t v) (dstWrite_moves _ _ _ _)

theorem dstAddress_moves (o : Operand) (s : State) : (dstAddress o s).Moves s :=
  (locate_moves .destination .word o s).andThen fun l t => (noteDestination_moves l t).trans (postInc_moves .word o _)

theorem modifyWord_moves (op : CC → Word → AluOut 16) (dst : Operand) (s : State) : (modifyWord op dst s).Moves s :=
  (dstModifyRead_moves _ _ _).andThen fun _ t => Res.Moves.after (moves_loadAlu t _) (dstWrite_moves _ _ _ _)

theorem modifyByte_moves (op : CC → Byte → AluOut 8) (dst : Operand) (s : State) : (modifyByte op dst s).Moves s :=
  (dstModifyRead_moves _ _ _).andThen fun _ t => Res.Moves.after (moves_loadAlu t _) (dstWrite_moves _ _ _ _)

theorem testWord_moves (op : CC → Word → AluOut 16) (dst : Operand) (s : State) : (testWord op dst s).Moves s :=
  (dstRead_moves _ _ _).andThen fun _ t => moves_loadAlu t _

theorem testByte_moves (op : CC → Byte → AluOut 8) (dst : Operand) (s : State) : (testByte op dst s).Moves s :=
  (dstRead_moves _ _ _).andThen fun _ t => moves_loadAlu t _

theorem combineWord_moves (op : CC → Word → Word → AluOut 16) (src dst : Operand) (s : State) :
    (combineWord op src dst s).Moves s := (srcRead_moves _ _ _).andThen fun _ t => modifyWord_moves _ _ t

theorem combineByte_moves (op : CC → Byte → Byte → AluOut 8) (src dst : Operand) (s : State) :
    (combineByte op src dst s).Moves s := (srcRead_moves _ _ _).andThen fun _ t => modifyByte_moves _ _ t

theorem compareWord_moves (op : CC → Word → Word → AluOut 16) (src dst : Operand) (s : State) :
    (compareWord op src dst s).Moves s := (srcRead_moves _ _ _).andThen fun _ t => testWord_moves _ _ t

theorem compareByte_moves (op : CC → Byte → Byte → AluOut 8) (src dst : Operand) (s : State) :
    (compareByte op src dst s).Moves s := (srcRead_moves _ _ _).andThen fun _ t => testByte_moves _ _ t

/-! ### Exceptions -/

theorem moves_pendBusError (s : State) (e : BusFault) : Moves s (s.pendBusError e) :=
  ⟨rfl, rfl, rfl, rfl, rfl, rfl, rfl, rfl, rfl, rfl, rfl, rfl, id, fun _ _ => rfl, .inl rfl⟩

theorem moves_doubleBusError (s : State) : Moves s s.doubleBusError :=
  ⟨rfl, rfl, rfl, rfl, rfl, rfl, rfl, rfl, rfl, rfl, rfl, rfl, id, id, .inr (.inl rfl)⟩

theorem loadVector_moves (v : Word) (s : State) : Moves s (loadVector v s) := by
  unfold loadVector
  have h := memRead_moves .word v s
  split
  · rename_i e t ht
    rw [ht] at h
    exact Moves.trans h (moves_pendBusError t e)
  · rename_i w t ht
    rw [ht] at h
    have h2 : Moves s ((t.setR13 (v + 2)).setPc w) := Moves.trans h ((moves_setR13 t _).trans (moves_setPc _ _))
    have k := memRead_moves .word (v + 2) ((t.setR13 (v + 2)).setPc w)
    split
    · rename_i e u hu
      rw [hu] at k
      exact (h2.trans k).trans (moves_pendBusError u e)
    · rename_i x u hu
      rw [hu] at k
      exact (h2.trans k).trans (moves_loadPsw u x)

theorem trapSequence_moves (v : Word) (s : State) : Moves s (trapSequence v s) := by
  unfold trapSequence
  have h : (pushPsw ((s.setB v).setR13 v)).Moves s :=
    Res.Moves.after ((moves_setB s v).trans (moves_setR13 _ v)) (push_moves _ _)
  split
  · rename_i e t ht
    rw [ht] at h
    exact Moves.trans h (moves_doubleBusError t)
  · rename_i w t ht
    rw [ht] at h
    have k := Res.Moves.after (moves_setB t t.pc) (push_moves t.pc (t.setB t.pc))
    split
    · rename_i e u hu
      rw [hu] at k
      exact (Moves.trans h k).trans (moves_pendBusError u e)
    · rename_i x u hu
      rw [hu] at k
      exact (Moves.trans h k).trans (loadVector_moves v u)

theorem returnFromTrap_moves (s : State) : (returnFromTrap s).Moves s :=
  (pop_moves s).andThen fun _ t => Res.Moves.after (moves_setPc t _)
    ((pop_moves _).andThen fun _ u => moves_loadPsw u _)

theorem takeBusError_moves (s : State) (e : BusFault) : Moves s (s.takeBusError e) := trapSequence_moves _ s

theorem instructionTrap_moves (v : Word) (s : State) : Moves s (instructionTrap v s) :=
  ((moves_complete s).trans (moves_withIr _ _)).trans (trapSequence_moves v _)

/-- An instruction always answers a next state, and it is reached by moves. -/
theorem finish_moves {s : State} {r : Res Unit} (h : r.Moves s) : ∃ t, finish r = .next t ∧ Moves s t := by
  cases r with
  | ok a t => exact ⟨_, rfl, Moves.trans h (moves_complete t)⟩
  | err e t => exact ⟨_, rfl, Moves.trans h (takeBusError_moves t e)⟩

theorem linkTo_moves (link : Reg) (a : Word) (s : State) : (linkTo link a s).Moves s := by
  unfold linkTo; split
  · exact Res.Moves.andThen (Res.Moves.after (moves_drawn s) (push_moves _ _)) fun _ t =>
      ((moves_drawn t).trans (moves_setReg _ _ _)).trans (moves_setPc _ _)
  · exact (push_moves _ _).andThen fun _ t => (moves_setReg t _ _).trans (moves_setPc _ _)

theorem fetch_moves (s : State) : (fetch s).Moves s := by
  unfold fetch
  have h := memRead_moves .word s.pc s
  split
  · rename_i w t ht
    rw [ht] at h
    exact Moves.trans h ((moves_withIr t w).trans (moves_setPc _ _))
  · rename_i e t ht
    rw [ht] at h
    exact Moves.trans h (moves_withIr t _)

theorem restart_run (s : State) : (restart s).run = .run ∨ (restart s).run = .halted ∨ (restart s).run = .wait :=
  (loadVector_moves 0o24 _).run

end Sys2Proof.Machine
end

