-- ==== Sys2Proof/Laws/Exceptions.lean ====
section
/-! SUPPORT. Taking an exception and returning from one, and operand accesses that fail. -/

namespace Sys2Proof.Machine

/-! ### Sequences from states that look the same -/

/-- Two results that agree in everything but what is not seen. -/
def Res.Alike {α : Type} : Res α → Res α → Prop
  | .ok a s, .ok b t => a = b ∧ s.visible = t.visible
  | .err e s, .err f t => e = f ∧ s.visible = t.visible
  | .ok _ _, .err _ _ => False
  | .err _ _, .ok _ _ => False

theorem readAs_alike {s t : State} (h : s.visible = t.visible) (k : CycleKind) (sz : Size) (a : Word) :
    (readAs k sz a s).Alike (readAs k sz a t) := by
  obtain ⟨b, w, -, ⟨h1, h2⟩ | ⟨e, h1, h2⟩⟩ := readAs_cases k sz a s
  · have hr : t.readable sz a = true := by rw [← vis_readable h]; simp [State.readable, h1]
    obtain ⟨u, hu, hv⟩ := readAs_readable (k := k) hr
    rw [h2, hu]
    exact ⟨vis_gets h sz a, (vis_after h k sz a).trans hv.symm⟩
  · obtain ⟨u, hu, hv⟩ := readAs_fails (k := k) ((vis_readFails h sz a).symm.trans h1)
    rw [h2, hu]
    exact ⟨rfl, (vis_after h k sz a).trans hv.symm⟩

theorem memRead_alike {s t : State} (h : s.visible = t.visible) (sz : Size) (a : Word) :
    (memRead sz a s).Alike (memRead sz a t) := readAs_alike h .dati sz a

theorem push_alike {s t : State} (h : s.visible = t.visible) (v : Word) : (push v s).Alike (push v t) := by
  cases hf : s.writeFails .word (s.sp - 2)
  · have hw : s.writable .word (s.sp - 2) = true := by unfold State.writable; rw [hf]; rfl
    rw [push_writable v hw, push_writable v (by rw [← vis_sp h, ← vis_writable h]; exact hw)]
    exact ⟨rfl, vis_pushed h v⟩
  · rw [push_fails v hf, push_fails v (by rw [← vis_sp h, ← vis_writeFails h]; exact hf)]
    exact ⟨rfl, vis_unpushed h v⟩

theorem pushPsw_alike {s t : State} (h : s.visible = t.visible) : (pushPsw s).Alike (pushPsw t) := by
  rw [pushPsw_eq, pushPsw_eq, vis_psw (vis_lowered h)]
  exact push_alike h _

theorem vis_pendBusError {s t : State} (h : s.visible = t.visible) (e : BusFault) :
    (s.pendBusError e).visible = (t.pendBusError e).visible := congrArg (fun u => u.pendBusError e) h

theorem vis_doubleBusError {s t : State} (h : s.visible = t.visible) :
    s.doubleBusError.visible = t.doubleBusError.visible := congrArg (fun u : State => { u with run := .halted }) h

theorem vis_loadVector {s t : State} (h : s.visible = t.visible) (v : Word) :
    (loadVector v s).visible = (loadVector v t).visible := by
  have k := memRead_alike h .word v
  unfold loadVector
  revert k
  cases memRead .word v s <;> cases memRead .word v t <;> intro k
  · rename_i w s1 w' t1
    obtain ⟨rfl, h1⟩ := k
    dsimp only
    have h2 : ((s1.setR13 (v + 2)).setPc w).visible = ((t1.setR13 (v + 2)).setPc w).visible :=
      vis_setPc (s := s1.setR13 (v + 2)) (t := t1.setR13 (v + 2)) h1 w
    have k2 := memRead_alike h2 .word (v + 2)
    revert k2
    cases memRead .word (v + 2) ((s1.setR13 (v + 2)).setPc w) <;>
      cases memRead .word (v + 2) ((t1.setR13 (v + 2)).setPc w) <;> intro k2
    · obtain ⟨rfl, h3⟩ := k2; exact vis_loadPsw h3 _
    · exact k2.elim
    · exact k2.elim
    · obtain ⟨rfl, h3⟩ := k2; exact vis_pendBusError h3 _
  · exact k.elim
  · exact k.elim
  · obtain ⟨rfl, h1⟩ := k; exact vis_pendBusError h1 _

theorem vis_trapSequence {s t : State} (h : s.visible = t.visible) (v : Word) :
    (trapSequence v s).visible = (trapSequence v t).visible := by
  have k := pushPsw_alike (s := (s.setB v).setR13 v) (t := (t.setB v).setR13 v) h
  unfold trapSequence
  revert k
  cases pushPsw ((s.setB v).setR13 v) <;> cases pushPsw ((t.setB v).setR13 v) <;> intro k
  · rename_i _ s1 _ t1
    obtain ⟨_, h1⟩ := k
    dsimp only
    have k2 := push_alike (s := s1.setB s1.pc) (t := t1.setB t1.pc) h1 s1.pc
    rw [vis_pc h1] at k2 ⊢
    revert k2
    cases push t1.pc (s1.setB t1.pc) <;> cases push t1.pc (t1.setB t1.pc) <;> intro k2
    · exact vis_loadVector k2.2 v
    · exact k2.elim
    · exact k2.elim
    · obtain ⟨rfl, h3⟩ := k2; exact vis_pendBusError h3 _
  · exact k.elim
  · exact k.elim
  · exact vis_doubleBusError k.2

theorem vis_takeBusError {s t : State} (h : s.visible = t.visible) (e : BusFault) :
    (s.takeBusError e).visible = (t.takeBusError e).visible := vis_trapSequence h _

/-! ### Operand accesses that fail -/

theorem abortRead_some {k : CycleKind} {sz : Size} {a : Word} {s u : State} {go : Option (BusFault × State)}
    {e : BusFault} (h : abortRead k sz a s go = some (e, u)) :
    (s.readFails sz a = some e ∧ u = s.after k sz a) ∨ (s.readable sz a = true ∧ go = some (e, u)) := by
  unfold abortRead at h
  split at h
  · rename_i f hf
    cases h
    exact .inl ⟨hf, rfl⟩
  · rename_i hf
    exact .inr ⟨by simp [State.readable, hf], h⟩

theorem abortRead_none {k : CycleKind} {sz : Size} {a : Word} {s : State} {go : Option (BusFault × State)} :
    abortRead k sz a s go = none ↔ s.readable sz a = true ∧ go = none := by
  unfold abortRead State.readable
  split <;> simp_all

theorem abortRead_last {k : CycleKind} {sz : Size} {a : Word} {s u : State} {e : BusFault}
    (h : abortRead k sz a s none = some (e, u)) : s.readFails sz a = some e ∧ u = s.after k sz a := by
  rcases abortRead_some h with h | ⟨_, h⟩
  · exact h
  · cases h

/-- The address calculation has no failing cycle exactly when the words it reads are answered. -/
theorem addressAborted_none (o : Operand) (s : State) :
    addressAborted o s = none ↔ pointersReadable o s = true := by
  unfold addressAborted pointersReadable
  split <;> simp [abortRead_none, readable_congr (decremented_cfg _ _ _) (decremented_parityBad _ _ _),
    readable_congr (indexStep_cfg _) (indexStep_parityBad _)]

/-- An address calculation that fails. -/
theorem locate_aborted {side : Side} {sz : Size} {o : Operand} {s u : State} {e : BusFault}
    (h : addressAborted o s = some (e, u)) : ∃ t, locate side sz o s = .err e t ∧ t.visible = u.visible := by
  obtain ⟨m, r⟩ := o
  cases m
  · cases h
  · cases h
  · cases h
  · obtain ⟨hf, rfl⟩ := abortRead_last h
    obtain ⟨t, ht, hv⟩ := readAs_fails (k := .dati) hf
    exact ⟨t, by simp only [locate, memRead, ht, Res.andThen_err], hv⟩
  · cases h
  · obtain ⟨hf, rfl⟩ := abortRead_last h
    obtain ⟨t, ht, hv⟩ := readAs_fails (k := .dati) hf
    exact ⟨t, by simp only [locate, autoDecrement_eq, memRead, ht, Res.andThen_err], hv⟩
  · obtain ⟨hf, rfl⟩ := abortRead_last h
    obtain ⟨t, ht, hv⟩ := indexed_fails (o := ⟨.index, r⟩) hf
    exact ⟨t, by simp only [locate, ht, Res.andThen_err], hv⟩
  · rcases abortRead_some h with ⟨hf, rfl⟩ | ⟨hr, h2⟩
    · obtain ⟨t, ht, hv⟩ := indexed_fails (o := ⟨.indexDef, r⟩) hf
      exact ⟨t, by simp only [locate, ht, Res.andThen_err], hv⟩
    · obtain ⟨hf, rfl⟩ := abortRead_last h2
      obtain ⟨t, ht, hv⟩ := readAs_vis_fails (k := .dati)
        (s := ((indexStep s).setB (indexSum ⟨.indexDef, r⟩ s)).noteAddress side (indexSum ⟨.indexDef, r⟩ s))
        (by rw [noteAddress_visible]; rfl) hf
      exact ⟨t, by simp only [locate, indexed_ok (o := ⟨.indexDef, r⟩) hr, Res.andThen_ok, memRead, ht,
        Res.andThen_err], hv⟩

/-- Where an operand access fails: in the address calculation, or in the operand's own cycle. -/
theorem operandAborted_some {k : CycleKind} {sz : Size} {o : Operand} {s u : State} {e : BusFault}
    (h : operandAborted k sz o s = some (e, u)) :
    addressAborted o s = some (e, u) ∨ pointersReadable o s = true ∧ ∃ a, operandPlace sz o s = .mem a ∧
      (operandReach sz o s).readFails sz a = some e ∧ u = (operandReach sz o s).after k sz a := by
  unfold operandAborted at h
  split at h
  · rename_i f hf
    cases h
    exact .inl hf
  · rename_i hn
    split at h
    · cases h
    · rename_i a ha
      obtain ⟨hf, hu⟩ := abortRead_last h
      exact .inr ⟨(addressAborted_none o s).mp hn, a, ha, hf, hu⟩

/-- A source operand whose access fails (R153). -/
theorem srcRead_aborted {sz : Size} {o : Operand} {s u : State} {e : BusFault}
    (h : operandAborted .dati sz o s = some (e, u)) : ∃ t, srcRead sz o s = .err e t ∧ t.visible = u.visible := by
  rcases operandAborted_some h with h | ⟨hp, a, ha, hf, rfl⟩
  · obtain ⟨t, ht, hv⟩ := locate_aborted (side := .source) (sz := sz) h
    exact ⟨t, by simp only [srcRead, ht, Res.andThen_err], hv⟩
  · obtain ⟨t, ht, hv⟩ := locate_ok (side := .source) (sz := sz) hp
    obtain ⟨u, hu, huv⟩ := readAs_vis_fails (k := .dati) ((noteSource_visible o (.mem a) t).trans hv) hf
    exact ⟨u, by simp only [srcRead, ht, Res.andThen_ok, ha, readLoc, hu, Res.andThen_err], huv⟩

/-- A destination that is only read, whose access fails. -/
theorem dstRead_aborted {sz : Size} {o : Operand} {s u : State} {e : BusFault}
    (h : operandAborted .dati sz o s = some (e, u)) : ∃ t, dstRead sz o s = .err e t ∧ t.visible = u.visible := by
  rcases operandAborted_some h with h | ⟨hp, a, ha, hf, rfl⟩
  · obtain ⟨t, ht, hv⟩ := locate_aborted (side := .destination) (sz := sz) h
    exact ⟨t, by simp only [dstRead, ht, Res.andThen_err], hv⟩
  · obtain ⟨t, ht, hv⟩ := locate_ok (side := .destination) (sz := sz) hp
    obtain ⟨u, hu, huv⟩ := readAs_vis_fails (k := .dati) ((noteDestination_visible (.mem a) t).trans hv) hf
    exact ⟨u, by simp only [dstRead, ht, Res.andThen_ok, ha, readLoc, hu, Res.andThen_err], huv⟩

/-- A destination that would be written, whose access fails. -/
theorem dstModifyRead_aborted {sz : Size} {o : Operand} {s u : State} {e : BusFault}
    (h : operandAborted .datip sz o s = some (e, u)) :
    ∃ t, dstModifyRead sz o s = .err e t ∧ t.visible = u.visible := by
  rcases operandAborted_some h with h | ⟨hp, a, ha, hf, rfl⟩
  · obtain ⟨t, ht, hv⟩ := locate_aborted (side := .destination) (sz := sz) h
    exact ⟨t, by simp only [dstModifyRead, ht, Res.andThen_err], hv⟩
  · obtain ⟨t, ht, hv⟩ := locate_ok (side := .destination) (sz := sz) hp
    obtain ⟨u, hu, huv⟩ := readAs_vis_fails (k := .datip) ((noteDestination_visible (.mem a) t).trans hv) hf
    exact ⟨u, by simp only [dstModifyRead, ht, Res.andThen_ok, ha, readLoc, hu, Res.andThen_err], huv⟩

/-- The address of JMP and JSR, when a word its mode reads is not answered. -/
theorem dstAddress_aborted {o : Operand} {s u : State} {e : BusFault} (h : addressAborted o s = some (e, u)) :
    ∃ t, dstAddress o s = .err e t ∧ t.visible = u.visible := by
  obtain ⟨t, ht, hv⟩ := locate_aborted (side := .destination) (sz := .word) h
  exact ⟨t, by simp only [dstAddress, ht, Res.andThen_err], hv⟩

/-- An instruction whose microsteps end in a failed cycle takes the bus-error trap from the state they left. -/
theorem finish_aborted {r : Res Unit} {e : BusFault} {t u : State} (h : r = .err e t) (hv : t.visible = u.visible) :
    ∃ w, finish r = .next w ∧ w.visible = (u.takeBusError e).visible :=
  ⟨_, by rw [h]; rfl, vis_takeBusError hv e⟩

/-! ### Taking an exception -/

@[simp] theorem pushed_cfg (v : Word) (s : State) : (pushed v s).cfg = s.cfg := by simp [pushed]

@[simp] theorem pushed_parityBad (v : Word) (s : State) : (pushed v s).parityBad = s.parityBad := by simp [pushed]

@[simp] theorem pushed_scratch (v : Word) (s : State) : (pushed v s).scratch = s.scratch := by simp [pushed]

theorem pushed_reg (v : Word) (s : State) (r : Reg) :
    (pushed v s).reg r = if .r6 = r then s.sp - 2 else s.reg r := by
  unfold pushed State.reg
  rw [withWord_regs]
  exact lowered_reg s r

@[simp] theorem pushed_sp (v : Word) (s : State) : (pushed v s).sp = s.sp - 2 := pushed_reg v s .r6

@[simp] theorem pushed_pc (v : Word) (s : State) : (pushed v s).pc = s.pc := pushed_reg v s .r7

@[simp] theorem saved_cfg (s : State) : (saved s).cfg = s.cfg := by simp [saved]

@[simp] theorem saved_parityBad (s : State) : (saved s).parityBad = s.parityBad := by simp [saved]

@[simp] theorem saved_scratch (s : State) : (saved s).scratch = s.scratch := by simp [saved]

theorem sp_sub_four (x : Word) : x - 2 - 2 = x - 4 := by ring_nf

/-- The last step of the sequence, TRAP-11 and TRAP-12. -/
theorem loadPsw_after {p q : State} (h : p.visible = q.visible) (a w : Word) :
    (((p.after .dati .word a).setB w).loadPsw w).visible =
      ({ q.after .dati .word a with psw := lowByte w } : State).visible :=
  vis_loadPsw (s := (p.after .dati .word a).setB w) (t := q.after .dati .word a) (vis_after h .dati .word a) w

/-- The tail of a trap sequence and of the restart routine, when the vector's two words can be read. -/
theorem loadVector_ok {v : Word} {s : State} (h1 : s.readable .word v = true) (h2 : s.readable .word (v + 2) = true) :
    let u := (s.after .dati .word v).setPc (s.gets .word v)
    (loadVector v s).visible =
        ({ u.after .dati .word (v + 2) with psw := lowByte (u.gets .word (v + 2)) } : State).visible ∧
      (loadVector v s).scratch = (s.setR13 (v + 2)).scratch ∧ (loadVector v s).b = u.gets .word (v + 2) := by
  dsimp only
  have hv : ((((s.after .dati .word v).setB (s.gets .word v)).setR13 (v + 2)).setPc (s.gets .word v)).visible =
      ((s.after .dati .word v).setPc (s.gets .word v)).visible := rfl
  have hr : ((s.after .dati .word v).setPc (s.gets .word v)).readable .word (v + 2) = true := by
    rw [readable_congr (s := (s.after .dati .word v).setPc (s.gets .word v)) (t := s) (by simp) (by simp)]
    exact h2
  have hsc : ((((s.after .dati .word v).setB (s.gets .word v)).setR13 (v + 2)).setPc (s.gets .word v)).scratch =
      (s.setR13 (v + 2)).scratch := by
    show ((s.after .dati .word v).setR13 (v + 2)).scratch = _
    unfold State.setR13
    dsimp only
    rw [State.after_scratch]
  unfold loadVector
  rw [memRead_word h1]
  dsimp only
  generalize (((s.after .dati .word v).setB (s.gets .word v)).setR13 (v + 2)).setPc (s.gets .word v) = p at *
  generalize (s.after .dati .word v).setPc (s.gets .word v) = q at *
  rw [← vis_readable hv] at hr
  rw [memRead_word hr, vis_gets hv]
  dsimp only
  refine ⟨loadPsw_after hv _ _, ?_, rfl⟩
  rw [State.loadPsw_scratch, State.setB_scratch, State.after_scratch]
  exact hsc

/-- A second push below a first one. -/
theorem push_twice {p : State} (w x : Word) (h2 : p.writable .word (p.sp - 4) = true) :
    push x ((pushed w p).setB x) = .ok () (pushed x ((pushed w p).setB x)) := by
  apply push_writable
  rw [State.setB_sp, pushed_sp, sp_sub_four,
    writable_congr (s := (pushed w p).setB x) (t := p) (by rw [State.setB_cfg, pushed_cfg])]
  exact h2

/-- The two pushes of the trap sequence, when they are taken. -/
theorem trapSequence_saves {v : Word} {s : State} (h1 : s.writable .word (s.sp - 2) = true)
    (h2 : s.writable .word (s.sp - 4) = true) :
    ∃ t, trapSequence v s = loadVector v t ∧ t.visible = (saved s).visible ∧
      t.scratch = (s.setR13 v).scratch := by
  have hs : ((s.setB v).setR13 v).visible = s.visible := rfl
  have hsc : ((s.setB v).setR13 v).scratch = (s.setR13 v).scratch := rfl
  unfold trapSequence
  generalize (s.setB v).setR13 v = p at *
  have h1' : p.writable .word (p.sp - 2) = true := by rw [vis_sp hs, vis_writable hs]; exact h1
  have h2' : p.writable .word (p.sp - 4) = true := by rw [vis_sp hs, vis_writable hs]; exact h2
  rw [pushPsw_eq, push_writable _ h1']
  dsimp only
  rw [pushed_pc, push_twice _ _ h2']
  refine ⟨_, rfl, ?_, ?_⟩
  · unfold saved
    rw [vis_psw (vis_lowered hs), vis_pc hs]
    exact vis_pushed (s := (pushed (zext (lowered s).psw) p).setB s.pc) (vis_pushed hs _) _
  · rw [pushed_scratch, State.setB_scratch, pushed_scratch, hsc]

/-- The trap sequence when its four cycles are answered (R340): two pushes, PC and PSW from the vector, R13 left at the
vector's second word. -/
theorem trapSequence_ok {v : Word} {s : State} (h : entryAnswers v s = true) :
    (trapSequence v s).visible = (entered v s).visible ∧ (trapSequence v s).scratch = (s.setR13 (v + 2)).scratch := by
  unfold entryAnswers at h
  simp only [Bool.and_eq_true] at h
  obtain ⟨⟨⟨h1, h2⟩, h3⟩, h4⟩ := h
  obtain ⟨t, ht, hv, hsc⟩ := trapSequence_saves (v := v) h1 h2
  have hr : ∀ a, t.readable .word a = s.readable .word a := fun a =>
    readable_congr ((vis_cfg hv).trans (saved_cfg s)) ((vis_parityBad hv).trans (saved_parityBad s)) _ a
  obtain ⟨k1, k2, -⟩ := loadVector_ok (v := v) (s := t) (by rw [hr]; exact h3) (by rw [hr]; exact h4)
  rw [ht]
  refine ⟨?_, ?_⟩
  · rw [k1]
    unfold entered
    dsimp only
    rw [vis_gets hv]
    have hu := vis_setPc (vis_after hv .dati .word v) ((saved s).gets .word v)
    rw [vis_gets hu]
    exact vis_withPsw (vis_after hu _ _ _) _
  · rw [k2]
    unfold State.setR13 at hsc ⊢
    dsimp only at hsc ⊢
    rw [hsc]

/-- A failed first push (TRAP-3): the processor halts with R6 lowered and nothing else done (R315). -/
theorem trapSequence_double {v : Word} {s : State} (h : s.writeFails .word (s.sp - 2) = true) :
    trapSequence v s = (unpushed (zext (lowered s).psw) ((s.setB v).setR13 v)).doubleBusError := by
  have hs : ((s.setB v).setR13 v).visible = s.visible := rfl
  unfold trapSequence
  rw [pushPsw_eq, push_fails (s := (s.setB v).setR13 v) _ h, vis_psw (vis_lowered hs)]

theorem withIr_visible (s : State) (w : Word) : ({ s with ir := w } : State).visible = s.visible := rfl

theorem complete_entryAnswers (v : Word) (s : State) : entryAnswers v s.complete = entryAnswers v s := by
  unfold entryAnswers
  have hc := State.complete_cfg s
  have hp := State.complete_parityBad s
  have hsp : s.complete.sp = s.sp := State.complete_reg s .r6
  rw [hsp, writable_congr hc, writable_congr hc, readable_congr hc hp, readable_congr hc hp]

theorem vis_entryAnswers {s t : State} (h : s.visible = t.visible) (v : Word) :
    entryAnswers v s = entryAnswers v t := by
  unfold entryAnswers
  rw [vis_sp h, vis_writable h, vis_writable h, vis_readable h, vis_readable h]

/-- The instruction trap when its sequence is answered (R318). -/
theorem instructionTrap_ok {v : Word} {s : State} (h : entryAnswers v s = true) :
    (instructionTrap v s).visible = (entered v s.complete).visible := by
  have hv := withIr_visible s.complete 0o100000
  unfold instructionTrap
  rw [(trapSequence_ok (by rw [vis_entryAnswers hv, complete_entryAnswers]; exact h)).1]
  exact vis_entered hv v

/-! ### Returning -/

/-- RTI's two pops when both are answered (R288). -/
theorem returnFromTrap_ok {s : State} (h1 : s.readable .word s.sp = true) (h2 : s.readable .word (s.sp + 2) = true) :
    ∃ t, returnFromTrap s = .ok () t ∧
      let u := (popped s).setPc (s.gets .word s.sp)
      t.visible = ((popped u).loadPsw (u.gets .word u.sp)).visible := by
  have hv : (((popped s).setB (s.gets .word s.sp)).setPc (s.gets .word s.sp)).visible =
      ((popped s).setPc (s.gets .word s.sp)).visible := rfl
  have hsp : (((popped s).setB (s.gets .word s.sp)).setPc (s.gets .word s.sp)).sp = s.sp + 2 := rfl
  have h3 : (((popped s).setB (s.gets .word s.sp)).setPc (s.gets .word s.sp)).readable .word
      (((popped s).setB (s.gets .word s.sp)).setPc (s.gets .word s.sp)).sp = true := by
    rw [hsp, vis_readable hv, readable_congr (s := (popped s).setPc (s.gets .word s.sp)) (t := s)
      (by simp [popped]) (by simp [popped])]
    exact h2
  refine ⟨_, by simp only [returnFromTrap, pop_readable h1, Res.andThen_ok, pop_readable h3]; rfl, ?_⟩
  dsimp only
  rw [vis_gets hv, vis_sp hv]
  exact vis_loadPsw (vis_popped hv) _

/-! ### The fetch -/

/-- A fetch that is answered: the word in IR and B, PC stepped. -/
theorem fetch_ok {s : State} (h : s.readable .word s.pc = true) :
    fetch s = .ok (s.gets .word s.pc) (({ s.after .dati .word s.pc with
      ir := s.gets .word s.pc, b := s.gets .word s.pc } : State).setPc (s.pc + 2)) := by
  unfold fetch
  rw [memRead_word h]
  dsimp only
  rw [State.setB_pc, State.after_pc]
  rfl

/-- A fetch that fails leaves PC, and the strobe has loaded IR as it has loaded B (R313, R451). -/
theorem fetch_fails {s : State} {e : BusFault} (h : s.readFails .word s.pc = some e) :
    ∃ t, fetch s = .err e t ∧ t.visible = (s.after .dati .word s.pc).visible ∧ t.ir = t.b := by
  obtain ⟨t, ht, hv⟩ := readAs_fails (k := .dati) h
  exact ⟨{ t with ir := t.b }, by unfold fetch memRead; rw [ht], hv, rfl⟩

end Sys2Proof.Machine
end

