-- ==== Sys2Proof/Laws/Control.lean ====
section
/-! SUPPORT. What MOV's destination routine, the address calculation of JMP and JSR, the linkage of JSR and the branches
do. -/

namespace Sys2Proof.Machine

/-- `DstWriteOnly` on words when every cycle is answered (R150). -/
theorem dstWriteOnly_word {o : Operand} {v : Word} {s : State} (h : operandWritable .word o s = true) :
    ∃ t, dstWriteOnly .word o v s = .ok () t ∧
      t.visible = (storeWord (operandPlace .word o s) v (operandStep .datip .word o s)).visible := by
  obtain ⟨t, ht, hv, _⟩ := dstModifyRead_ok (operandWritable_readable h)
  have hc : t.cfg = s.cfg := (vis_cfg hv).trans (operandStep_cfg _ _ _ _)
  refine ⟨_, by
    simp only [dstWriteOnly, ht, Res.andThen_ok]
    exact dstWrite_word_after h (t := t.setB v) hc, ?_⟩
  exact vis_storeWord (s := t.setB v) hv _ _

/-- `DstWriteOnly` on bytes when every cycle is answered (R150). -/
theorem dstWriteOnly_byte {o : Operand} {v : Word} {s : State} (h : operandWritable .byte o s = true) :
    ∃ t, dstWriteOnly .byte o v s = .ok () t ∧
      t.visible = (storeByte (operandPlace .byte o s) (lowByte v) (operandStep .datip .byte o s)).visible := by
  obtain ⟨t, ht, hv, _⟩ := dstModifyRead_ok (operandWritable_readable h)
  have hc : t.cfg = s.cfg := (vis_cfg hv).trans (operandStep_cfg _ _ _ _)
  obtain ⟨u, hu, huv⟩ := dstWrite_byte_after h (v := v) (t := t.setB v) hc
  exact ⟨u, by simp only [dstWriteOnly, ht, Res.andThen_ok, hu],
    huv.trans (vis_storeByte (s := t.setB v) hv _ _)⟩

/-- `DstAddress` when the words the mode reads can be read (R151): the place, the mode's updates, and the address in
R12. -/
theorem dstAddress_ok {o : Operand} {s : State} (h : pointersReadable o s = true) :
    ∃ t, dstAddress o s = .ok (operandPlace .word o s) t ∧ t.visible = (addressStep o s).visible ∧
      ∀ a, operandPlace .word o s = .mem a → t.scratch.r12 = a := by
  obtain ⟨t, ht, hv⟩ := locate_ok (side := .destination) (sz := .word) h
  refine ⟨postInc .word o (noteDestination (operandPlace .word o s) t), by
    simp only [dstAddress, ht, Res.andThen_ok], ?_, ?_⟩
  · exact vis_stepped ((noteDestination_visible _ _).trans hv) .word o
  · intro a ha
    have : ∀ u : State, (postInc .word o u).scratch = u.scratch := by intro u; unfold postInc; split <;> rfl
    rw [this, ha]
    rfl

/-- The linkage of JSR with a register other than R6, when the push is taken (R266). -/
theorem linkTo_ok {link : Reg} {a : Word} {s : State} (hl : link ≠ .r6) (h : s.writable .word (s.sp - 2) = true) :
    linkTo link a s = .ok () (((pushed (s.reg link) s).setReg link s.pc).setPc a) := by
  simp only [linkTo, if_neg hl, push_writable _ h, Res.andThen_ok, pushed_pc]

/-- Twice the sign-extended offset, added to PC, as the branch rule computes it over the integers (R240). -/
theorem branch_target (pc : Word) (offset : BitVec 8) :
    pc + 2 * sext offset = BitVec.ofInt 16 (pc.toNat + 2 * offset.toInt) := by
  apply BitVec.eq_of_toInt_eq
  rw [BitVec.toInt_add, BitVec.toInt_mul, BitVec.toInt_ofInt, sext, BitVec.toInt_signExtend_of_le (by omega)]
  have : pc.toInt = (pc.toNat : Int).bmod (2 ^ 16) := BitVec.toInt_eq_toNat_bmod pc
  rw [this, show (2 : Word).toInt = 2 from rfl, Int.add_bmod_bmod, Int.bmod_add_bmod]

end Sys2Proof.Machine
end

