-- ==== Sys2Proof/Laws/Decode.lean ====
section
/-! SUPPORT. Fields of concatenated words, and register, mode and operand codes read back. -/

namespace Sys2Proof

/-! ### Fields of a concatenation -/

/-- A field that lies in the lower part. -/
theorem extract_append_low {n m k l : Nat} (a : BitVec n) (b : BitVec m) (h : k + l ≤ m) :
    (a ++ b).extractLsb' k l = b.extractLsb' k l := by
  apply BitVec.eq_of_getLsbD_eq
  intro i hi
  simp only [BitVec.getLsbD_extractLsb', BitVec.getLsbD_append, hi, decide_true, Bool.true_and]
  rw [if_pos (by omega)]

/-- A field that lies in the upper part. -/
theorem extract_append_high {n m k l : Nat} (a : BitVec n) (b : BitVec m) (h : m ≤ k) :
    (a ++ b).extractLsb' k l = a.extractLsb' (k - m) l := by
  apply BitVec.eq_of_getLsbD_eq
  intro i hi
  simp only [BitVec.getLsbD_extractLsb', BitVec.getLsbD_append, hi, decide_true, Bool.true_and]
  rw [if_neg (by omega), show k + i - m = k - m + i by omega]

/-- The whole of a vector as a field. -/
theorem extract_all {n : Nat} (a : BitVec n) : a.extractLsb' 0 n = a := by
  apply BitVec.eq_of_getLsbD_eq
  intro i hi
  simp [hi]

/-- Two adjacent fields side by side are one field. -/
theorem extract_join {n : Nat} (w : BitVec n) (k l m : Nat) :
    w.extractLsb' (k + l) m ++ w.extractLsb' k l = w.extractLsb' k (m + l) := by
  apply BitVec.eq_of_getLsbD_eq
  intro i hi
  simp only [BitVec.getLsbD_extractLsb', BitVec.getLsbD_append]
  by_cases h : i < l
  · simp [h, hi]
  · have : i - l < m := by omega
    simp only [h, if_false, this, hi, decide_true, Bool.true_and]
    rw [show k + l + (i - l) = k + i by omega]

/-! ### Codes read back -/

theorem Reg.ofBits_bits (r : Reg) : Reg.ofBits r.bits = r := by cases r <;> rfl

theorem Mode.ofBits_bits (m : Mode) : Mode.ofBits m.bits = m := by cases m <;> rfl

theorem Reg.bits_ofBits (b : BitVec 3) : (Reg.ofBits b).bits = b := by
  revert b; decide

theorem Mode.bits_ofBits (b : BitVec 3) : (Mode.ofBits b).bits = b := by
  revert b; decide

theorem Operand.ofBits_bits (o : Operand) : Operand.ofBits o.bits = o := by
  obtain ⟨m, r⟩ := o
  cases m <;> cases r <;> rfl

theorem Operand.bits_ofBits (b : BitVec 6) : (Operand.ofBits b).bits = b := by
  unfold Operand.ofBits Operand.bits
  rw [Mode.bits_ofBits, Reg.bits_ofBits]
  exact (extract_join b 0 3 3).trans (extract_all b)

/-! ### The operand fields of a word -/

theorem fieldDst_append (a : BitVec 10) (o : Operand) : fieldDst (a ++ o.bits : BitVec 16) = o := by
  unfold fieldDst
  rw [show (a ++ o.bits : BitVec 16).extractLsb' 0 6 = o.bits from
    (extract_append_low a o.bits (by omega)).trans (extract_all _)]
  exact Operand.ofBits_bits o

theorem fieldDst_append2 (a : BitVec 4) (b : BitVec 6) (o : Operand) :
    fieldDst (a ++ b ++ o.bits : BitVec 16) = o := fieldDst_append (a ++ b) o

theorem fieldSrc_append (a : BitVec 4) (o : Operand) (b : BitVec 6) :
    fieldSrc (a ++ o.bits ++ b : BitVec 16) = o := by
  unfold fieldSrc
  rw [show (a ++ o.bits ++ b : BitVec 16).extractLsb' 6 6 = o.bits from
    (extract_append_high (a ++ o.bits) b (by omega)).trans
      ((extract_append_low a o.bits (by omega)).trans (extract_all _))]
  exact Operand.ofBits_bits o

theorem fieldByte_append (a b : BitVec 8) : fieldByte (a ++ b : BitVec 16) = b :=
  (extract_append_low a b (by omega)).trans (extract_all b)

/-- The operation field of a double-operand word. -/
theorem group_append (a : BitVec 4) (b c : BitVec 6) : (a ++ b ++ c : BitVec 16).extractLsb' 12 4 = a :=
  (extract_append_high (a ++ b) c (by omega)).trans
    ((extract_append_high a b (by omega)).trans (extract_all a))

end Sys2Proof
end

