-- ==== Sys2Proof/Laws/Steps.lean ====
section
/-! SUPPORT. What a whole instruction leaves alone, what SERVICE does with each condition, and what one step is in each
run state. -/

namespace Sys2Proof.Machine

/-- Whatever an instruction does, it moves the state only as `Moves` says. -/
theorem exec_moves (i : Instr) (s t : State) (h : exec i s = .next t) : Moves s t := by
  have fm : ∀ r : Res Unit, r.Moves s → finish r = .next t → Moves s t := by
    intro r hr he
    obtain ⟨u, hu, hm⟩ := finish_moves hr
    rw [hu] at he; cases he; exact hm
  have tm : ∀ v, (Host.Outcome.next (instructionTrap v s) : Host.Outcome State Fault Refusal) = .next t → Moves s t := by
    intro v he; cases he; exact instructionTrap_moves v s
  have br : ∀ c o, branchIf c o s = .next t → Moves s t := by
    intro c o he
    refine fm _ ?_ he
    unfold Res.Moves; dsimp only; split
    · exact moves_setPc s _
    · exact Moves.refl s
  cases i with
  | halt => exact fm (.ok () { s with run := .halted }) (show Moves s _ from ⟨rfl, rfl, rfl, rfl, rfl, rfl, rfl, rfl, rfl, rfl, rfl, rfl, id, id, .inr (.inl rfl)⟩) h
  | wait => exact fm (.ok () { s with run := .wait }) (show Moves s _ from ⟨rfl, rfl, rfl, rfl, rfl, rfl, rfl, rfl, rfl, rfl, rfl, rfl, id, id, .inr (.inr rfl)⟩) h
  | reset => exact fm (.ok () { s.busReset with initPulses := s.initPulses + 1 }) (show Moves s _ from ⟨rfl, rfl, rfl, rfl, rfl, rfl, rfl, rfl, rfl, rfl, rfl, rfl, id, id, .inl rfl⟩) h
  | rti => exact fm _ (returnFromTrap_moves s) h
  | rtt =>
    have hm := returnFromTrap_moves s
    change execRtt s = _ at h
    unfold execRtt at h
    revert hm h
    cases returnFromTrap s with
    | ok a u => intro hm h; cases h; exact hm
    | err e u => intro hm h; cases h; exact Moves.trans hm (takeBusError_moves u e)
  | ccop set n z v c => exact fm (.ok () _) (moves_setCC s _) h
  | jmp d =>
    change execJmp d s = _ at h
    unfold execJmp at h
    split at h
    · exact tm _ h
    · refine fm _ ((dstAddress_moves d s).andThen ?_) h
      intro a t; cases a
      · exact Moves.refl t
      · exact moves_setPc t _
  | jsr l d =>
    change execJsr l d s = _ at h
    unfold execJsr at h
    split at h
    · exact tm _ h
    · refine fm _ ((dstAddress_moves d s).andThen ?_) h
      intro a t; cases a
      · exact Moves.refl t
      · exact linkTo_moves l _ t
  | rts l =>
    change execRts l s = _ at h
    unfold execRts at h
    refine fm _ (Res.Moves.after (moves_setPc s _) ((pop_moves _).andThen ?_)) h
    intro a t
    split
    · exact Moves.trans (moves_drawn t) (moves_setReg _ _ _)
    · exact moves_setReg t _ _
  | swab d =>
    change execSwab d s = _ at h
    unfold execSwab at h
    refine fm _ ((dstModifyRead_moves _ d s).andThen ?_) h
    intro a t
    exact Res.Moves.after (Moves.trans (moves_loadAlu t _) (moves_setR17 _ _)) (dstWrite_moves _ _ _ _)
  | mov a b =>
    change execMov a b s = _ at h
    unfold execMov at h
    refine fm _ ((srcRead_moves _ a s).andThen ?_) h
    intro v t
    exact Res.Moves.after (moves_setCC t _) (dstWriteOnly_moves _ _ _ _)
  | movb a b =>
    change execMovb a b s = _ at h
    unfold execMovb at h
    refine fm _ ((srcRead_moves _ a s).andThen ?_) h
    intro v t
    split
    · exact Moves.trans (Moves.trans (moves_setCC t _) (moves_setB _ _)) (moves_setReg _ _ _)
    · exact Res.Moves.after (moves_setCC t _) (dstWriteOnly_moves _ _ _ _)
  | bpt => exact tm _ h
  | iot => exact tm _ h
  | br _ => exact br _ _ h
  | bne _ => exact br _ _ h
  | beq _ => exact br _ _ h
  | bge _ => exact br _ _ h
  | blt _ => exact br _ _ h
  | bgt _ => exact br _ _ h
  | ble _ => exact br _ _ h
  | bpl _ => exact br _ _ h
  | bmi _ => exact br _ _ h
  | bhi _ => exact br _ _ h
  | blos _ => exact br _ _ h
  | bvc _ => exact br _ _ h
  | bvs _ => exact br _ _ h
  | bcc _ => exact br _ _ h
  | bhis _ => exact br _ _ h
  | bcs _ => exact br _ _ h
  | blo _ => exact br _ _ h
  | clr _ => exact fm _ (modifyWord_moves _ _ s) h
  | com _ => exact fm _ (modifyWord_moves _ _ s) h
  | inc _ => exact fm _ (modifyWord_moves _ _ s) h
  | dec _ => exact fm _ (modifyWord_moves _ _ s) h
  | neg _ => exact fm _ (modifyWord_moves _ _ s) h
  | adc _ => exact fm _ (modifyWord_moves _ _ s) h
  | sbc _ => exact fm _ (modifyWord_moves _ _ s) h
  | tst _ => exact fm _ (testWord_moves _ _ s) h
  | ror _ => exact fm _ (modifyWord_moves _ _ s) h
  | rol _ => exact fm _ (modifyWord_moves _ _ s) h
  | asr _ => exact fm _ (modifyWord_moves _ _ s) h
  | asl _ => exact fm _ (modifyWord_moves _ _ s) h
  | clrb _ => exact fm _ (modifyByte_moves _ _ s) h
  | comb _ => exact fm _ (modifyByte_moves _ _ s) h
  | incb _ => exact fm _ (modifyByte_moves _ _ s) h
  | decb _ => exact fm _ (modifyByte_moves _ _ s) h
  | negb _ => exact fm _ (modifyByte_moves _ _ s) h
  | adcb _ => exact fm _ (modifyByte_moves _ _ s) h
  | sbcb _ => exact fm _ (modifyByte_moves _ _ s) h
  | tstb _ => exact fm _ (testByte_moves _ _ s) h
  | rorb _ => exact fm _ (modifyByte_moves _ _ s) h
  | rolb _ => exact fm _ (modifyByte_moves _ _ s) h
  | asrb _ => exact fm _ (modifyByte_moves _ _ s) h
  | aslb _ => exact fm _ (modifyByte_moves _ _ s) h
  | cmp _ _ => exact fm _ (compareWord_moves _ _ _ s) h
  | bit _ _ => exact fm _ (compareWord_moves _ _ _ s) h
  | bic _ _ => exact fm _ (combineWord_moves _ _ _ s) h
  | bis _ _ => exact fm _ (combineWord_moves _ _ _ s) h
  | add _ _ => exact fm _ (combineWord_moves _ _ _ s) h
  | cmpb _ _ => exact fm _ (compareByte_moves _ _ _ s) h
  | bitb _ _ => exact fm _ (compareByte_moves _ _ _ s) h
  | bicb _ _ => exact fm _ (combineByte_moves _ _ _ s) h
  | bisb _ _ => exact fm _ (combineByte_moves _ _ _ s) h
  | sub _ _ => exact fm _ (combineWord_moves _ _ _ s) h
  | emt _ => exact tm _ h
  | trap _ => exact tm _ h
  | jmpRn _ => exact tm _ h
  | jsrRn _ _ => exact tm _ h
  | reserved000007 => exact tm _ h
  | reserved000010 _ => exact tm _ h
  | reserved000020 _ => exact tm _ h
  | reserved000040 _ => exact tm _ h
  | reserved000210 _ => exact tm _ h
  | reserved000220 _ => exact tm _ h
  | reserved006400 _ => exact tm _ h
  | reserved007000 _ => exact tm _ h
  | reserved070000 _ => exact tm _ h
  | reserved106400 _ => exact tm _ h
  | reserved107000 _ => exact tm _ h
  | reserved170000 _ => exact tm _ h

/-- No instruction's meaning stops. -/
theorem exec_next (i : Instr) (s : State) : ∃ t, exec i s = .next t ∧ Moves s t := by
  have k : ∀ t, exec i s = .next t → ∃ t, exec i s = .next t ∧ Moves s t := fun t h => ⟨t, h, exec_moves i s t h⟩
  have f : ∀ r : Res Unit, ∃ t, finish r = .next t := by intro r; cases r <;> exact ⟨_, rfl⟩
  cases i with
  | jmp d =>
    have : ∃ t, execJmp d s = .next t := by
      unfold execJmp; split
      · exact ⟨_, rfl⟩
      · exact f _
    obtain ⟨t, h⟩ := this; exact k t h
  | jsr l d =>
    have : ∃ t, execJsr l d s = .next t := by
      unfold execJsr; split
      · exact ⟨_, rfl⟩
      · exact f _
    obtain ⟨t, h⟩ := this; exact k t h
  | rtt =>
    have : ∃ t, execRtt s = .next t := by
      unfold execRtt; split <;> exact ⟨_, rfl⟩
    obtain ⟨t, h⟩ := this; exact k t h
  | halt => exact k _ rfl
  | wait => exact k _ rfl
  | rti => exact let ⟨t, h⟩ := f _; k t h
  | bpt => exact k _ rfl
  | iot => exact k _ rfl
  | reset => exact k _ rfl
  | rts _ => exact let ⟨t, h⟩ := f _; k t h
  | ccop _ _ _ _ _ => exact k _ rfl
  | swab _ => exact let ⟨t, h⟩ := f _; k t h
  | br _ => exact k _ rfl
  | bne _ => exact k _ rfl
  | beq _ => exact k _ rfl
  | bge _ => exact k _ rfl
  | blt _ => exact k _ rfl
  | bgt _ => exact k _ rfl
  | ble _ => exact k _ rfl
  | bpl _ => exact k _ rfl
  | bmi _ => exact k _ rfl
  | bhi _ => exact k _ rfl
  | blos _ => exact k _ rfl
  | bvc _ => exact k _ rfl
  | bvs _ => exact k _ rfl
  | bcc _ => exact k _ rfl
  | bhis _ => exact k _ rfl
  | bcs _ => exact k _ rfl
  | blo _ => exact k _ rfl
  | clr _ => exact let ⟨t, h⟩ := f _; k t h
  | com _ => exact let ⟨t, h⟩ := f _; k t h
  | inc _ => exact let ⟨t, h⟩ := f _; k t h
  | dec _ => exact let ⟨t, h⟩ := f _; k t h
  | neg _ => exact let ⟨t, h⟩ := f _; k t h
  | adc _ => exact let ⟨t, h⟩ := f _; k t h
  | sbc _ => exact let ⟨t, h⟩ := f _; k t h
  | tst _ => exact let ⟨t, h⟩ := f _; k t h
  | ror _ => exact let ⟨t, h⟩ := f _; k t h
  | rol _ => exact let ⟨t, h⟩ := f _; k t h
  | asr _ => exact let ⟨t, h⟩ := f _; k t h
  | asl _ => exact let ⟨t, h⟩ := f _; k t h
  | clrb _ => exact let ⟨t, h⟩ := f _; k t h
  | comb _ => exact let ⟨t, h⟩ := f _; k t h
  | incb _ => exact let ⟨t, h⟩ := f _; k t h
  | decb _ => exact let ⟨t, h⟩ := f _; k t h
  | negb _ => exact let ⟨t, h⟩ := f _; k t h
  | adcb _ => exact let ⟨t, h⟩ := f _; k t h
  | sbcb _ => exact let ⟨t, h⟩ := f _; k t h
  | tstb _ => exact let ⟨t, h⟩ := f _; k t h
  | rorb _ => exact let ⟨t, h⟩ := f _; k t h
  | rolb _ => exact let ⟨t, h⟩ := f _; k t h
  | asrb _ => exact let ⟨t, h⟩ := f _; k t h
  | aslb _ => exact let ⟨t, h⟩ := f _; k t h
  | mov _ _ => exact let ⟨t, h⟩ := f _; k t h
  | cmp _ _ => exact let ⟨t, h⟩ := f _; k t h
  | bit _ _ => exact let ⟨t, h⟩ := f _; k t h
  | bic _ _ => exact let ⟨t, h⟩ := f _; k t h
  | bis _ _ => exact let ⟨t, h⟩ := f _; k t h
  | add _ _ => exact let ⟨t, h⟩ := f _; k t h
  | movb _ _ => exact let ⟨t, h⟩ := f _; k t h
  | cmpb _ _ => exact let ⟨t, h⟩ := f _; k t h
  | bitb _ _ => exact let ⟨t, h⟩ := f _; k t h
  | bicb _ _ => exact let ⟨t, h⟩ := f _; k t h
  | bisb _ _ => exact let ⟨t, h⟩ := f _; k t h
  | sub _ _ => exact let ⟨t, h⟩ := f _; k t h
  | emt _ => exact k _ rfl
  | trap _ => exact k _ rfl
  | jmpRn _ => exact k _ rfl
  | jsrRn _ _ => exact k _ rfl
  | reserved000007 => exact k _ rfl
  | reserved000010 _ => exact k _ rfl
  | reserved000020 _ => exact k _ rfl
  | reserved000040 _ => exact k _ rfl
  | reserved000210 _ => exact k _ rfl
  | reserved000220 _ => exact k _ rfl
  | reserved006400 _ => exact k _ rfl
  | reserved007000 _ => exact k _ rfl
  | reserved070000 _ => exact k _ rfl
  | reserved106400 _ => exact k _ rfl
  | reserved107000 _ => exact k _ rfl
  | reserved170000 _ => exact k _ rfl

/-! ### SERVICE -/

theorem serve_busError (s : State) : serve .busError s =
    .next (trapSequence (if s.pe then 0o114 else 0o4) { s with be := false, pe := false, run := .run }) := rfl

theorem serve_trace (s : State) : serve .trace s =
    .next (trapSequence 0o14 { s with tbitFlag := false, run := .run }) := rfl

theorem serve_stackOverflow (s : State) : serve .stackOverflow s =
    .next (trapSequence 0o4 { s with stov := false, run := .run }) := rfl

theorem serve_powerFail (s : State) : serve .powerFail s =
    .next (trapSequence 0o24 { s with pfail := false, run := .run }) := rfl

theorem serve_haltSwitch (s : State) : serve .haltSwitch s =
    .next { s with haltRequest := false, waitHeld := s.run == .wait, run := .halted } := rfl

theorem serve_vector (s : State) (l : BrLevel) (v : Word) (rest : List BusRequest) :
    serve (.interrupt l (.vector v) rest) s =
      .next (trapSequence v ({ s with run := .run }.setRequests l rest)) := rfl

theorem serve_silent (s : State) (l : BrLevel) (rest : List BusRequest) :
    serve (.interrupt l .silent rest) s = .fault .grantHung := rfl

/-! ### One step -/

theorem takeInputs_nil {s : State} (h : s.inputs = []) : s.takeInputs = s := by
  unfold State.takeInputs; rw [h]

theorem takeInputs_one {s : State} {e : Input} {later : List (List Input)} (h : s.inputs = [e] :: later) :
    s.takeInputs = State.accept { s with inputs := later } e := by
  unfold State.takeInputs; rw [h]; rfl

theorem step_serves {s : State} {c : Service} (hi : s.inputs = []) (hr : s.run = .run ∨ s.run = .wait)
    (hc : pendingService s = some c) : step s = serve c s := by
  unfold step stepAfterInputs
  rw [takeInputs_nil hi]
  rcases hr with h | h <;> rw [h] <;> dsimp only <;> rw [hc]

theorem step_runs {s : State} (hi : s.inputs = []) (hr : s.run = .run) (hc : pendingService s = none) :
    step s = runInstruction s := by
  unfold step stepAfterInputs
  rw [takeInputs_nil hi, hr]
  dsimp only
  rw [hc]

theorem step_waits {s : State} (hi : s.inputs = []) (hr : s.run = .wait) (hc : pendingService s = none) :
    step s = .next s := by
  unfold step stepAfterInputs
  rw [takeInputs_nil hi, hr]
  dsimp only
  rw [hc]

theorem step_halted {s : State} (hi : s.inputs = []) (hr : s.run = .halted) : step s = .next s := by
  unfold step stepAfterInputs
  rw [takeInputs_nil hi, hr]

theorem step_off {s : State} (hi : s.inputs = []) (hr : s.run = .off) : step s = .next s := by
  unfold step stepAfterInputs
  rw [takeInputs_nil hi, hr]

theorem ready_iff (s : State) :
    s.ready = true ↔ s.inputs = [] ∧ s.run = .run ∧ pendingService s = none := by
  unfold State.ready
  rw [Bool.and_eq_true, Bool.and_eq_true, List.beq_nil_eq, List.isEmpty_iff, beq_iff_eq, Option.isNone_iff_eq_none,
    and_assoc]

theorem runInstruction_ok {s t : State} {w : Word} (h : fetch s = .ok w t) :
    runInstruction s = exec (decodeWord w) t := by
  unfold runInstruction; rw [h]

/-! ### The restart routine -/

/-- REST-1 to REST-8, by what is seen of them: R5 takes PC, PUP is fired, the processor runs. -/
def restarted (v : Word) (s : State) : State := { s.setReg .r5 v with pup := true, run := .run }

theorem restarted_after (v : Word) (s : State) (k : CycleKind) (sz : Size) (a : Word) :
    (restarted v s).after k sz a = restarted v (s.after k sz a) := by
  rw [after_like (s := s) (t := restarted v s) rfl rfl rfl rfl rfl rfl]
  obtain ⟨l, n, h⟩ := s.after_eq k sz a
  obtain ⟨m, p, n', h'⟩ := s.granted_eq
  rw [h, h']; rfl

theorem restarted_gets (v : Word) (s : State) (sz : Size) (a : Word) : (restarted v s).gets sz a = s.gets sz a :=
  gets_congr (s := restarted v s) (t := s) (by rfl) (by rfl) (by rfl) (by rfl) (by rfl) sz a

theorem restarted_setPc (v w : Word) (s : State) : (restarted v s).setPc w = restarted v (s.setPc w) := rfl

theorem restarted_withPsw (v : Word) (p : BitVec 8) (s : State) :
    ({ restarted v s with psw := p } : State) = restarted v { s with psw := p } := rfl

/-- The restart routine when words 24 and 26 are answered (R382). -/
theorem restart_ok {s : State} (h1 : s.readable .word 0o24 = true) (h2 : s.readable .word 0o26 = true) :
    let u := (s.after .dati .word 0o24).setPc (s.gets .word 0o24)
    (restart s).scratch.r13 = 0o26 ∧
      (restart s).visible = (restarted s.pc { u.after .dati .word 0o26 with
        psw := lowByte (u.gets .word 0o26) }).visible := by
  have k := loadVector_ok (v := 0o24)
    (s := (((({ s with run := .run, pup := true } : State).setB s.pc).setReg .r5 s.pc)).setR13 0o24) h1 h2
  have hv : ((((({ s with run := .run, pup := true } : State).setB s.pc).setReg .r5 s.pc)).setR13 0o24).visible =
      (restarted s.pc s).visible := rfl
  unfold restart
  generalize (((({ s with run := .run, pup := true } : State).setB s.pc).setReg .r5 s.pc)).setR13 0o24 = p at *
  dsimp only at k ⊢
  obtain ⟨k1, k2, -⟩ := k
  refine ⟨by rw [k2]; rfl, ?_⟩
  have hu := vis_setPc (vis_after hv .dati .word 0o24) (p.gets .word 0o24)
  rw [restarted_after, restarted_setPc, vis_gets hv, restarted_gets] at hu
  rw [k1, vis_gets hv, restarted_gets, vis_gets hu, restarted_gets, ← restarted_withPsw, ← restarted_after]
  exact vis_withPsw (vis_after hu .dati .word 0o26) _

end Sys2Proof.Machine
end

