-- ==== Sys2Proof/Laws/Frame.lean ====
section
/-! SUPPORT. Frames of the completed effects that Safety.lean computes: what a store, an operand's steps, a push and a
trap entry leave alone. -/

namespace Sys2Proof.Machine

/-- The parts of the state that no completed effect of an ordinary instruction changes; the stack-overflow and trace
flags are only ever set, and memory keeps its canonical form. -/
structure Keeps (s t : State) : Prop where
  be : t.be = s.be
  pe : t.pe = s.pe
  run : t.run = s.run
  br4 : t.br4 = s.br4
  br5 : t.br5 = s.br5
  br6 : t.br6 = s.br6
  br7 : t.br7 = s.br7
  initPulses : t.initPulses = s.initPulses
  stov : s.stov = true → t.stov = true
  tbitFlag : s.tbitFlag = true → t.tbitFlag = true
  wf : s.mem.wf = true → t.mem.wf = true
  cfg : t.cfg = s.cfg

theorem Keeps.refl (s : State) : Keeps s s := ⟨rfl, rfl, rfl, rfl, rfl, rfl, rfl, rfl, id, id, id, rfl⟩

theorem Keeps.trans {s t u : State} (h : Keeps s t) (k : Keeps t u) : Keeps s u where
  be := k.be.trans h.be
  pe := k.pe.trans h.pe
  run := k.run.trans h.run
  br4 := k.br4.trans h.br4
  br5 := k.br5.trans h.br5
  br6 := k.br6.trans h.br6
  br7 := k.br7.trans h.br7
  initPulses := k.initPulses.trans h.initPulses
  stov := k.stov ∘ h.stov
  tbitFlag := k.tbitFlag ∘ h.tbitFlag
  wf := k.wf ∘ h.wf
  cfg := k.cfg.trans h.cfg

/-- `Keeps` looks only at what is seen. -/
theorem Keeps.vis {s t u : State} (h : Keeps s t) (k : u.visible = t.visible) : Keeps s u where
  be := (congrArg State.be k).trans h.be
  pe := (congrArg State.pe k).trans h.pe
  run := (congrArg State.run k).trans h.run
  br4 := (congrArg State.br4 k).trans h.br4
  br5 := (congrArg State.br5 k).trans h.br5
  br6 := (congrArg State.br6 k).trans h.br6
  br7 := (congrArg State.br7 k).trans h.br7
  initPulses := (congrArg State.initPulses k).trans h.initPulses
  stov := fun x => (congrArg State.stov k).trans (h.stov x)
  tbitFlag := fun x => (congrArg State.tbitFlag k).trans (h.tbitFlag x)
  wf := fun x => by rw [vis_mem k]; exact h.wf x
  cfg := (vis_cfg k).trans h.cfg

theorem keeps_setReg (s : State) (r : Reg) (v : Word) : Keeps s (s.setReg r v) :=
  ⟨rfl, rfl, rfl, rfl, rfl, rfl, rfl, rfl, id, id, id, rfl⟩

theorem keeps_setCC (s : State) (f : CC) : Keeps s (s.setCC f) :=
  ⟨rfl, rfl, rfl, rfl, rfl, rfl, rfl, rfl, id, id, id, rfl⟩

theorem keeps_psw (s : State) (p : BitVec 8) : Keeps s { s with psw := p } :=
  ⟨rfl, rfl, rfl, rfl, rfl, rfl, rfl, rfl, id, id, id, rfl⟩

theorem keeps_draws (s : State) (n : Nat) : Keeps s { s with draws := n } :=
  ⟨rfl, rfl, rfl, rfl, rfl, rfl, rfl, rfl, id, id, id, rfl⟩

theorem keeps_decremented (r : Reg) (n : Word) (s : State) : Keeps s (decremented r n s) := by
  unfold decremented
  split
  · exact ⟨rfl, rfl, rfl, rfl, rfl, rfl, rfl, rfl, fun _ => rfl, id, id, rfl⟩
  · exact keeps_setReg _ _ _

theorem keeps_complete (s : State) : Keeps s s.complete := by
  unfold State.complete
  split
  · exact ⟨rfl, rfl, rfl, rfl, rfl, rfl, rfl, rfl, id, fun _ => rfl, id, rfl⟩
  · exact Keeps.refl s

theorem keeps_granted (s : State) : Keeps s s.granted where
  be := s.granted_be
  pe := s.granted_pe
  run := s.granted_run
  br4 := s.granted_br4
  br5 := s.granted_br5
  br6 := s.granted_br6
  br7 := s.granted_br7
  initPulses := s.granted_initPulses
  stov := fun h => by rw [s.granted_stov]; exact h
  tbitFlag := fun h => by rw [s.granted_tbitFlag]; exact h
  wf := (moves_granted s).mem
  cfg := s.granted_cfg

theorem keeps_after (s : State) (k : CycleKind) (sz : Size) (a : Word) : Keeps s (s.after k sz a) := by
  obtain ⟨l, n, h⟩ := s.after_eq k sz a
  rw [h]
  exact (keeps_granted s).trans ⟨rfl, rfl, rfl, rfl, rfl, rfl, rfl, rfl, id, id, id, rfl⟩

theorem keeps_stepped (sz : Size) (o : Operand) (s : State) : Keeps s (stepped sz o s) := by
  unfold stepped; split
  · exact keeps_setReg _ _ _
  · exact Keeps.refl s

theorem keeps_indexStep (s : State) : Keeps s (indexStep s) := (keeps_after s _ _ _).trans (keeps_setReg _ _ _)

theorem keeps_operandReach (sz : Size) (o : Operand) (s : State) : Keeps s (operandReach sz o s) := by
  unfold operandReach
  split
  · exact Keeps.refl s
  · exact Keeps.refl s
  · exact Keeps.refl s
  · exact (keeps_after s _ _ _).trans (keeps_setReg _ _ _)
  · exact keeps_decremented _ _ _
  · exact (keeps_decremented _ _ _).trans (keeps_after _ _ _ _)
  · exact keeps_indexStep s
  · exact (keeps_indexStep s).trans (keeps_after _ _ _ _)

theorem keeps_operandStep (k : CycleKind) (sz : Size) (o : Operand) (s : State) : Keeps s (operandStep k sz o s) := by
  unfold operandStep
  split
  · exact Keeps.refl s
  · exact ((keeps_operandReach sz o s).trans (keeps_after _ _ _ _)).trans (keeps_stepped _ _ _)

theorem keeps_addressStep (o : Operand) (s : State) : Keeps s (addressStep o s) :=
  (keeps_operandReach .word o s).trans (keeps_stepped _ _ _)

/-! ### With no other master on the bus -/

/-- No other master is scheduled, and the memory and the PSW are those of `s`. -/
def Alone (s t : State) : Prop := t.npr = [] ∧ t.mem = s.mem ∧ t.psw = s.psw

theorem alone_after {s t : State} (h : Alone s t) (k : CycleKind) (sz : Size) (a : Word) :
    Alone s (t.after k sz a) := by
  obtain ⟨h1, h2, h3⟩ := h
  refine ⟨by rw [State.after_npr, h1]; rfl, ?_, ?_⟩
  · rw [State.after_mem, State.granted_nil h1, h2]
  · rw [State.after_psw, State.granted_nil h1, h3]

theorem alone_setReg {s t : State} (h : Alone s t) (r : Reg) (v : Word) : Alone s (t.setReg r v) := h

theorem alone_decremented {s t : State} (h : Alone s t) (r : Reg) (n : Word) : Alone s (decremented r n t) := by
  obtain ⟨f, hf⟩ := decremented_eq r n t; rw [hf]; exact h

theorem alone_lowered {s t : State} (h : Alone s t) : Alone s (lowered t) := by
  have k := alone_decremented h .r6 2
  unfold lowered; rw [State.granted_nil k.1]; exact k

theorem alone_indexStep {s t : State} (h : Alone s t) : Alone s (indexStep t) :=
  alone_setReg (alone_after h _ _ _) _ _

theorem alone_stepped {s t : State} (h : Alone s t) (sz : Size) (o : Operand) : Alone s (stepped sz o t) := by
  unfold stepped; split
  · exact alone_setReg h _ _
  · exact h

theorem alone_operandReach {s t : State} (h : Alone s t) (sz : Size) (o : Operand) :
    Alone s (operandReach sz o t) := by
  unfold operandReach
  split
  · exact h
  · exact h
  · exact h
  · exact alone_setReg (alone_after h _ _ _) _ _
  · exact alone_decremented h _ _
  · exact alone_after (alone_decremented h _ _) _ _ _
  · exact alone_indexStep h
  · exact alone_after (alone_indexStep h) _ _ _

theorem alone_operandStep {s t : State} (h : Alone s t) (k : CycleKind) (sz : Size) (o : Operand) :
    Alone s (operandStep k sz o t) := by
  unfold operandStep
  split
  · exact h
  · exact alone_stepped (alone_after (alone_operandReach h sz o) _ _ _) _ _

theorem alone_addressStep {s t : State} (h : Alone s t) (o : Operand) : Alone s (addressStep o t) :=
  alone_stepped (alone_operandReach h _ _) _ _

/-! ### Stores -/

theorem addr18_lt_of_even (c : Config) {a : Word} (h : isOdd a = false) : (addr18 c a).toNat + 1 < 2 ^ 18 := by
  rw [← wordBase_addr18_even c a h]
  exact wordBase_lt (addr18 c a)

theorem keeps_withWord (s : State) {a : Word} (v : Word) (h : isOdd a = false) : Keeps s (s.withWord a v) := by
  have hw := (moves_withWord s a v h).mem
  obtain ⟨m, p, n, l, e⟩ := withWord_eq s a v
  rw [e] at hw ⊢
  exact ⟨rfl, rfl, rfl, rfl, rfl, rfl, rfl, rfl, id, id, hw, rfl⟩

theorem keeps_withByte (s : State) (a : Word) (v : Byte) : Keeps s (s.withByte a v) := by
  have hw := (moves_withByte s a v).mem
  obtain ⟨m, p, n, l, e⟩ := withByte_eq s a v
  rw [e] at hw ⊢
  exact ⟨rfl, rfl, rfl, rfl, rfl, rfl, rfl, rfl, id, id, hw, rfl⟩

theorem keeps_storeWord {l : Loc} (v : Word) (s : State) (h : ∀ a, l = .mem a → isOdd a = false) :
    Keeps s (storeWord l v s) := by
  cases l with
  | reg r => exact keeps_setReg _ _ _
  | mem a => exact keeps_withWord s v (h a rfl)

theorem keeps_storeByte (l : Loc) (v : Byte) (s : State) : Keeps s (storeByte l v s) := by
  cases l with
  | reg r => exact keeps_setReg _ _ _
  | mem a => exact keeps_withByte s a v

/-- A word stored changes no byte of memory but its own two. -/
theorem withWord_read {s : State} {a : Word} (v : Word) (hm : s.mem.wf = true) (h : isOdd a = false) {x : Nat}
    (hx : x ∉ s.bytesAt .word a) : (s.withWord a v).mem.read x = s.mem.read x := by
  unfold State.withWord State.bytesAt at *
  dsimp only
  split at hx
  · rename_i ht
    rw [ht]
    simp only [List.mem_cons, List.not_mem_nil, or_false, not_or] at hx
    show Memory.read (Memory.writeWord _ _ _) x = _
    rw [Memory.read_writeWord _ _ _ _ hm (addr18_lt_of_even _ h), if_neg (by omega), if_neg (by omega)]
  · rename_i ht
    split
    · rfl
    · exact absurd (by assumption) ht
    · rfl

/-- A byte stored changes no other byte of memory. -/
theorem withByte_read {s : State} {a : Word} (v : Byte) (hm : s.mem.wf = true) {x : Nat}
    (hx : x ∉ s.bytesAt .byte a) : (s.withByte a v).mem.read x = s.mem.read x := by
  unfold State.withByte State.bytesAt at *
  dsimp only
  split at hx
  · rename_i ht
    rw [ht]
    simp only [List.mem_cons, List.not_mem_nil, or_false] at hx
    show Memory.read (Memory.write _ _ _) x = _
    rw [Memory.read_write _ _ _ _ hm, if_neg (by omega)]
  · rename_i ht
    split
    · split <;> rfl
    · exact absurd (by assumption) ht
    · rfl

theorem bytesAt_congr {s t : State} (h : s.cfg = t.cfg) (sz : Size) (a : Word) : s.bytesAt sz a = t.bytesAt sz a := by
  unfold State.bytesAt; rw [targetOf_congr h, h]

theorem withByte_regs (a : Word) (v : Byte) (s : State) : (s.withByte a v).regs = s.regs := by
  obtain ⟨m, p, n, l, e⟩ := withByte_eq s a v; rw [e]

theorem withWord_psw {s : State} {a : Word} (v : Word) (h : s.targetOf a ≠ .psw) : (s.withWord a v).psw = s.psw := by
  unfold State.withWord
  dsimp only
  split
  · contradiction
  · rfl
  · rfl

theorem withByte_psw {s : State} {a : Word} (v : Byte) (h : s.targetOf a ≠ .psw) : (s.withByte a v).psw = s.psw := by
  unfold State.withByte
  dsimp only
  split
  · contradiction
  · rfl
  · rfl

/-- The condition codes load bits 3:0 only (R28 a). -/
theorem setCC_high (s : State) (f : CC) : (s.setCC f).psw.extractLsb' 4 4 = s.psw.extractLsb' 4 4 := by
  apply BitVec.eq_of_getLsbD_eq
  intro i hi
  show ((s.psw.extractLsb' 4 4 ++ f.bits : BitVec 8).extractLsb' 4 4).getLsbD i = _
  rw [BitVec.getLsbD_extractLsb', BitVec.getLsbD_extractLsb', BitVec.getLsbD_append, if_neg (by omega),
    BitVec.getLsbD_extractLsb']
  have : i < 4 := hi
  simp [this, show 4 + i - 4 = i by omega]

theorem keeps_lowered (s : State) : Keeps s (lowered s) := (keeps_decremented .r6 2 s).trans (keeps_granted _)

theorem keeps_pushed (v : Word) (s : State) (h : s.writable .word (s.sp - 2) = true) : Keeps s (pushed v s) :=
  (keeps_lowered s).trans (keeps_withWord _ v (writable_even h))

theorem pushed_read {s : State} (v : Word) (hn : s.npr = []) (hm : s.mem.wf = true)
    (h : s.writable .word (s.sp - 2) = true) {x : Nat}
    (hx : x ∉ s.bytesAt .word (s.sp - 2)) : (pushed v s).mem.read x = s.mem.read x := by
  have hl := alone_lowered (s := s) (t := s) ⟨hn, rfl, rfl⟩
  unfold pushed
  rw [withWord_read v (by rw [hl.2.1]; exact hm) (writable_even h)
    (by rw [bytesAt_congr (lowered_cfg s)]; exact hx), hl.2.1]

theorem pushed_npr {s : State} (v : Word) (hn : s.npr = []) : (pushed v s).npr = [] := by
  unfold pushed; rw [withWord_npr]; exact (alone_lowered (s := s) (t := s) ⟨hn, rfl, rfl⟩).1

/-- A word pushed into memory, no other master having the bus. -/
theorem pushed_mem {s : State} (v : Word) (hn : s.npr = []) (h : s.targetOf (s.sp - 2) = .slave .memory) :
    (pushed v s).mem = s.mem.writeWord (addr18 s.cfg (s.sp - 2)).toNat v := by
  have hl := alone_lowered (s := s) (t := s) ⟨hn, rfl, rfl⟩
  unfold pushed State.withWord
  rw [targetOf_congr (lowered_cfg s), h, lowered_cfg, hl.2.1]

/-- What an operand's mode does to the registers is what its own kind of cycle cannot change. -/
theorem operandReach_reg {sz : Size} {o : Operand} {s : State} {r : Reg} (h : r ∉ stepsOf o) :
    (operandReach sz o s).reg r = s.reg r := by
  obtain ⟨m, q⟩ := o
  have e : ∀ (t : State) v, r ≠ q → (t.setReg q v).reg r = t.reg r := fun t v hn =>
    (State.reg_setReg t q r v).trans (if_neg (Ne.symm hn))
  have d : ∀ n, r ≠ q → (decremented q n s).reg r = s.reg r := fun n hn =>
    (decremented_reg q r n s).trans (if_neg (Ne.symm hn))
  have p : r ≠ .r7 → (indexStep s).reg r = s.reg r := fun hn =>
    ((State.reg_setReg _ .r7 r _).trans (if_neg (Ne.symm hn))).trans (State.after_reg _ _ _ _ _)
  cases m <;> simp only [stepsOf, List.mem_cons, List.not_mem_nil, or_false] at h
  · rfl
  · rfl
  · rfl
  · exact (e _ _ h).trans (State.after_reg _ _ _ _ _)
  · exact d _ h
  · exact (State.after_reg _ _ _ _ _).trans (d _ h)
  · exact p h
  · exact (State.after_reg _ _ _ _ _).trans (p h)

theorem stepped_reg {sz : Size} {o : Operand} {s : State} {r : Reg} (h : r ∉ stepsOf o) :
    (stepped sz o s).reg r = s.reg r := by
  unfold stepped
  split
  · rename_i hm
    have hn : r ≠ o.reg := by simpa [stepsOf, hm] using h
    exact (State.reg_setReg s _ r _).trans (if_neg (Ne.symm hn))
  · rfl

/-- An operand's steps change only the registers its mode steps. -/
theorem operandStep_reg {k : CycleKind} {sz : Size} {o : Operand} {s : State} {r : Reg} (h : r ∉ stepsOf o) :
    (operandStep k sz o s).reg r = s.reg r := by
  unfold operandStep
  split
  · rfl
  · rw [stepped_reg h, State.after_reg, operandReach_reg h]

theorem addressStep_reg {o : Operand} {s : State} {r : Reg} (h : r ∉ stepsOf o) :
    (addressStep o s).reg r = s.reg r := by
  unfold addressStep; rw [stepped_reg h, operandReach_reg h]

end Sys2Proof.Machine
end

