-- ==== Sys2Proof/Laws/PerInstr.lean ====
section
/-! SUPPORT. Statements made instruction by instruction, one lemma per constructor. -/

namespace Sys2Proof.Laws.CanonicalEncoding

/-- The name a word decodes to has the same word, is well-formed exactly when the instruction is, and is its own
canonical name (R254, R255: BHIS and BLO are second names of BCC and BCS). -/
def Statement (i : Instr) : Prop :=
  encodeWord i.canonical = encodeWord i ∧ i.canonical.wf = i.wf ∧ i.canonical.canonical = i.canonical

theorem halt : Statement (.halt) := ⟨rfl, rfl, rfl⟩
theorem wait : Statement (.wait) := ⟨rfl, rfl, rfl⟩
theorem rti : Statement (.rti) := ⟨rfl, rfl, rfl⟩
theorem bpt : Statement (.bpt) := ⟨rfl, rfl, rfl⟩
theorem iot : Statement (.iot) := ⟨rfl, rfl, rfl⟩
theorem reset : Statement (.reset) := ⟨rfl, rfl, rfl⟩
theorem rtt : Statement (.rtt) := ⟨rfl, rfl, rfl⟩
theorem jmp (dst : Operand) : Statement (.jmp dst) := ⟨rfl, rfl, rfl⟩
theorem rts (link : Reg) : Statement (.rts link) := ⟨rfl, rfl, rfl⟩
theorem ccop (set n z v c : Bool) : Statement (.ccop set n z v c) := ⟨rfl, rfl, rfl⟩
theorem swab (dst : Operand) : Statement (.swab dst) := ⟨rfl, rfl, rfl⟩
theorem br (offset : BitVec 8) : Statement (.br offset) := ⟨rfl, rfl, rfl⟩
theorem bne (offset : BitVec 8) : Statement (.bne offset) := ⟨rfl, rfl, rfl⟩
theorem beq (offset : BitVec 8) : Statement (.beq offset) := ⟨rfl, rfl, rfl⟩
theorem bge (offset : BitVec 8) : Statement (.bge offset) := ⟨rfl, rfl, rfl⟩
theorem blt (offset : BitVec 8) : Statement (.blt offset) := ⟨rfl, rfl, rfl⟩
theorem bgt (offset : BitVec 8) : Statement (.bgt offset) := ⟨rfl, rfl, rfl⟩
theorem ble (offset : BitVec 8) : Statement (.ble offset) := ⟨rfl, rfl, rfl⟩
theorem bpl (offset : BitVec 8) : Statement (.bpl offset) := ⟨rfl, rfl, rfl⟩
theorem bmi (offset : BitVec 8) : Statement (.bmi offset) := ⟨rfl, rfl, rfl⟩
theorem bhi (offset : BitVec 8) : Statement (.bhi offset) := ⟨rfl, rfl, rfl⟩
theorem blos (offset : BitVec 8) : Statement (.blos offset) := ⟨rfl, rfl, rfl⟩
theorem bvc (offset : BitVec 8) : Statement (.bvc offset) := ⟨rfl, rfl, rfl⟩
theorem bvs (offset : BitVec 8) : Statement (.bvs offset) := ⟨rfl, rfl, rfl⟩
theorem bcc (offset : BitVec 8) : Statement (.bcc offset) := ⟨rfl, rfl, rfl⟩
theorem bhis (offset : BitVec 8) : Statement (.bhis offset) := ⟨rfl, rfl, rfl⟩
theorem bcs (offset : BitVec 8) : Statement (.bcs offset) := ⟨rfl, rfl, rfl⟩
theorem blo (offset : BitVec 8) : Statement (.blo offset) := ⟨rfl, rfl, rfl⟩
theorem jsr (link : Reg) (dst : Operand) : Statement (.jsr link dst) := ⟨rfl, rfl, rfl⟩
theorem clr (dst : Operand) : Statement (.clr dst) := ⟨rfl, rfl, rfl⟩
theorem com (dst : Operand) : Statement (.com dst) := ⟨rfl, rfl, rfl⟩
theorem inc (dst : Operand) : Statement (.inc dst) := ⟨rfl, rfl, rfl⟩
theorem dec (dst : Operand) : Statement (.dec dst) := ⟨rfl, rfl, rfl⟩
theorem neg (dst : Operand) : Statement (.neg dst) := ⟨rfl, rfl, rfl⟩
theorem adc (dst : Operand) : Statement (.adc dst) := ⟨rfl, rfl, rfl⟩
theorem sbc (dst : Operand) : Statement (.sbc dst) := ⟨rfl, rfl, rfl⟩
theorem tst (dst : Operand) : Statement (.tst dst) := ⟨rfl, rfl, rfl⟩
theorem ror (dst : Operand) : Statement (.ror dst) := ⟨rfl, rfl, rfl⟩
theorem rol (dst : Operand) : Statement (.rol dst) := ⟨rfl, rfl, rfl⟩
theorem asr (dst : Operand) : Statement (.asr dst) := ⟨rfl, rfl, rfl⟩
theorem asl (dst : Operand) : Statement (.asl dst) := ⟨rfl, rfl, rfl⟩
theorem clrb (dst : Operand) : Statement (.clrb dst) := ⟨rfl, rfl, rfl⟩
theorem comb (dst : Operand) : Statement (.comb dst) := ⟨rfl, rfl, rfl⟩
theorem incb (dst : Operand) : Statement (.incb dst) := ⟨rfl, rfl, rfl⟩
theorem decb (dst : Operand) : Statement (.decb dst) := ⟨rfl, rfl, rfl⟩
theorem negb (dst : Operand) : Statement (.negb dst) := ⟨rfl, rfl, rfl⟩
theorem adcb (dst : Operand) : Statement (.adcb dst) := ⟨rfl, rfl, rfl⟩
theorem sbcb (dst : Operand) : Statement (.sbcb dst) := ⟨rfl, rfl, rfl⟩
theorem tstb (dst : Operand) : Statement (.tstb dst) := ⟨rfl, rfl, rfl⟩
theorem rorb (dst : Operand) : Statement (.rorb dst) := ⟨rfl, rfl, rfl⟩
theorem rolb (dst : Operand) : Statement (.rolb dst) := ⟨rfl, rfl, rfl⟩
theorem asrb (dst : Operand) : Statement (.asrb dst) := ⟨rfl, rfl, rfl⟩
theorem aslb (dst : Operand) : Statement (.aslb dst) := ⟨rfl, rfl, rfl⟩
theorem mov (src dst : Operand) : Statement (.mov src dst) := ⟨rfl, rfl, rfl⟩
theorem cmp (src dst : Operand) : Statement (.cmp src dst) := ⟨rfl, rfl, rfl⟩
theorem bit (src dst : Operand) : Statement (.bit src dst) := ⟨rfl, rfl, rfl⟩
theorem bic (src dst : Operand) : Statement (.bic src dst) := ⟨rfl, rfl, rfl⟩
theorem bis (src dst : Operand) : Statement (.bis src dst) := ⟨rfl, rfl, rfl⟩
theorem add (src dst : Operand) : Statement (.add src dst) := ⟨rfl, rfl, rfl⟩
theorem movb (src dst : Operand) : Statement (.movb src dst) := ⟨rfl, rfl, rfl⟩
theorem cmpb (src dst : Operand) : Statement (.cmpb src dst) := ⟨rfl, rfl, rfl⟩
theorem bitb (src dst : Operand) : Statement (.bitb src dst) := ⟨rfl, rfl, rfl⟩
theorem bicb (src dst : Operand) : Statement (.bicb src dst) := ⟨rfl, rfl, rfl⟩
theorem bisb (src dst : Operand) : Statement (.bisb src dst) := ⟨rfl, rfl, rfl⟩
theorem sub (src dst : Operand) : Statement (.sub src dst) := ⟨rfl, rfl, rfl⟩
theorem emt (code : BitVec 8) : Statement (.emt code) := ⟨rfl, rfl, rfl⟩
theorem trap (code : BitVec 8) : Statement (.trap code) := ⟨rfl, rfl, rfl⟩
theorem jmpRn (dst : Reg) : Statement (.jmpRn dst) := ⟨rfl, rfl, rfl⟩
theorem jsrRn (link dst : Reg) : Statement (.jsrRn link dst) := ⟨rfl, rfl, rfl⟩
theorem reserved000007 : Statement (.reserved000007) := ⟨rfl, rfl, rfl⟩
theorem reserved000010 (low : BitVec 3) : Statement (.reserved000010 low) := ⟨rfl, rfl, rfl⟩
theorem reserved000020 (low : BitVec 4) : Statement (.reserved000020 low) := ⟨rfl, rfl, rfl⟩
theorem reserved000040 (low : BitVec 5) : Statement (.reserved000040 low) := ⟨rfl, rfl, rfl⟩
theorem reserved000210 (low : BitVec 3) : Statement (.reserved000210 low) := ⟨rfl, rfl, rfl⟩
theorem reserved000220 (low : BitVec 4) : Statement (.reserved000220 low) := ⟨rfl, rfl, rfl⟩
theorem reserved006400 (low : BitVec 8) : Statement (.reserved006400 low) := ⟨rfl, rfl, rfl⟩
theorem reserved007000 (low : BitVec 9) : Statement (.reserved007000 low) := ⟨rfl, rfl, rfl⟩
theorem reserved070000 (low : BitVec 12) : Statement (.reserved070000 low) := ⟨rfl, rfl, rfl⟩
theorem reserved106400 (low : BitVec 8) : Statement (.reserved106400 low) := ⟨rfl, rfl, rfl⟩
theorem reserved107000 (low : BitVec 9) : Statement (.reserved107000 low) := ⟨rfl, rfl, rfl⟩
theorem reserved170000 (low : BitVec 12) : Statement (.reserved170000 low) := ⟨rfl, rfl, rfl⟩

end Sys2Proof.Laws.CanonicalEncoding
end

