-- ==== Sys2Proof/Tests/Slice0.lean ====
section
/-! SUPPORT. Tests of the model against the spec: ill-formed terms, words written out from the encodings, single steps
(expected results from the test vectors of spec/95_test_vectors.md, named in each comment, or worked from the rule
named), and for every statement with hypotheses a witness that meets them. -/

namespace Sys2Proof.Tests

open Sys2Proof Sys2Proof.Machine

/-! ### Well-formedness -/

/-- R119: JMP with mode 0 is another row. -/
theorem test_jmp_mode0_refused : (Instr.jmp ⟨.register, .r0⟩).wf = false := by decide

/-- R119: JSR with mode 0 is another row. -/
theorem test_jsr_mode0_refused : (Instr.jsr .r5 ⟨.register, .r0⟩).wf = false := by decide

theorem test_jmp_deferred_accepted : (Instr.jmp ⟨.deferred, .r0⟩).wf = true := by decide

/-- One byte is no instruction (R101). -/
theorem test_decode_refuses_one_byte : decode [0o205] = .error .truncated := by rfl

/-! ### Decoding: every constructor, from the encodings of 30_encoding and the match column of the opcode table -/

theorem test_decode_operate :
    decodeWord 0o000000 = .halt ∧
    decodeWord 0o000001 = .wait ∧
    decodeWord 0o000002 = .rti ∧
    decodeWord 0o000003 = .bpt ∧
    decodeWord 0o000004 = .iot ∧
    decodeWord 0o000005 = .reset ∧
    decodeWord 0o000006 = .rtt := by
  decide

theorem test_decode_control :
    decodeWord 0o000113 = .jmp ⟨.deferred, .r3⟩ ∧
    decodeWord 0o000174 = .jmp ⟨.indexDef, .r4⟩ ∧
    decodeWord 0o000205 = .rts .r5 ∧
    decodeWord 0o000345 = .swab ⟨.autoDec, .r5⟩ ∧
    decodeWord 0o004167 = .jsr .r1 ⟨.index, .r7⟩ ∧
    decodeWord 0o004736 = .jsr .r7 ⟨.autoIncDef, .r6⟩ := by
  decide

theorem test_decode_ccop :
    decodeWord 0o000241 = .ccop false false false false true ∧
    decodeWord 0o000242 = .ccop false false false true false ∧
    decodeWord 0o000244 = .ccop false false true false false ∧
    decodeWord 0o000250 = .ccop false true false false false ∧
    decodeWord 0o000277 = .ccop true true true true true ∧
    decodeWord 0o000260 = .ccop true false false false false := by
  decide

theorem test_decode_branches :
    decodeWord 0o000402 = .br 0o002 ∧
    decodeWord 0o001375 = .bne 0o375 ∧
    decodeWord 0o001401 = .beq 0o001 ∧
    decodeWord 0o002200 = .bge 0o200 ∧
    decodeWord 0o002777 = .blt 0o377 ∧
    decodeWord 0o003101 = .bgt 0o101 ∧
    decodeWord 0o003400 = .ble 0o000 ∧
    decodeWord 0o100005 = .bpl 0o005 ∧
    decodeWord 0o100776 = .bmi 0o376 ∧
    decodeWord 0o101177 = .bhi 0o177 ∧
    decodeWord 0o101600 = .blos 0o200 ∧
    decodeWord 0o102003 = .bvc 0o003 ∧
    decodeWord 0o102407 = .bvs 0o007 ∧
    decodeWord 0o103012 = .bcc 0o012 ∧
    decodeWord 0o103765 = .bcs 0o365 := by
  decide

theorem test_decode_single :
    decodeWord 0o005023 = .clr ⟨.autoInc, .r3⟩ ∧
    decodeWord 0o005146 = .com ⟨.autoDec, .r6⟩ ∧
    decodeWord 0o005237 = .inc ⟨.autoIncDef, .r7⟩ ∧
    decodeWord 0o005311 = .dec ⟨.deferred, .r1⟩ ∧
    decodeWord 0o005402 = .neg ⟨.register, .r2⟩ ∧
    decodeWord 0o005554 = .adc ⟨.autoDecDef, .r4⟩ ∧
    decodeWord 0o005665 = .sbc ⟨.index, .r5⟩ ∧
    decodeWord 0o005771 = .tst ⟨.indexDef, .r1⟩ ∧
    decodeWord 0o006013 = .ror ⟨.deferred, .r3⟩ ∧
    decodeWord 0o006124 = .rol ⟨.autoInc, .r4⟩ ∧
    decodeWord 0o006247 = .asr ⟨.autoDec, .r7⟩ ∧
    decodeWord 0o006362 = .asl ⟨.index, .r2⟩ := by
  decide

theorem test_decode_singleB :
    decodeWord 0o105023 = .clrb ⟨.autoInc, .r3⟩ ∧
    decodeWord 0o105146 = .comb ⟨.autoDec, .r6⟩ ∧
    decodeWord 0o105237 = .incb ⟨.autoIncDef, .r7⟩ ∧
    decodeWord 0o105311 = .decb ⟨.deferred, .r1⟩ ∧
    decodeWord 0o105402 = .negb ⟨.register, .r2⟩ ∧
    decodeWord 0o105554 = .adcb ⟨.autoDecDef, .r4⟩ ∧
    decodeWord 0o105665 = .sbcb ⟨.index, .r5⟩ ∧
    decodeWord 0o105771 = .tstb ⟨.indexDef, .r1⟩ ∧
    decodeWord 0o106013 = .rorb ⟨.deferred, .r3⟩ ∧
    decodeWord 0o106124 = .rolb ⟨.autoInc, .r4⟩ ∧
    decodeWord 0o106247 = .asrb ⟨.autoDec, .r7⟩ ∧
    decodeWord 0o106362 = .aslb ⟨.index, .r2⟩ := by
  decide

theorem test_decode_double :
    decodeWord 0o012746 = .mov ⟨.autoInc, .r7⟩ ⟨.autoDec, .r6⟩ ∧
    decodeWord 0o020103 = .cmp ⟨.register, .r1⟩ ⟨.register, .r3⟩ ∧
    decodeWord 0o033516 = .bit ⟨.autoIncDef, .r5⟩ ⟨.deferred, .r6⟩ ∧
    decodeWord 0o044135 = .bic ⟨.autoDec, .r1⟩ ⟨.autoIncDef, .r5⟩ ∧
    decodeWord 0o055264 = .bis ⟨.autoDecDef, .r2⟩ ⟨.index, .r4⟩ ∧
    decodeWord 0o066370 = .add ⟨.index, .r3⟩ ⟨.indexDef, .r0⟩ ∧
    decodeWord 0o167425 = .sub ⟨.indexDef, .r4⟩ ⟨.autoInc, .r5⟩ := by
  decide

theorem test_decode_doubleB :
    decodeWord 0o115465 = .movb ⟨.autoDecDef, .r4⟩ ⟨.index, .r5⟩ ∧
    decodeWord 0o120103 = .cmpb ⟨.register, .r1⟩ ⟨.register, .r3⟩ ∧
    decodeWord 0o133516 = .bitb ⟨.autoIncDef, .r5⟩ ⟨.deferred, .r6⟩ ∧
    decodeWord 0o144135 = .bicb ⟨.autoDec, .r1⟩ ⟨.autoIncDef, .r5⟩ ∧
    decodeWord 0o155264 = .bisb ⟨.autoDecDef, .r2⟩ ⟨.index, .r4⟩ := by
  decide

theorem test_decode_traps :
    decodeWord 0o104123 = .emt 0o123 ∧
    decodeWord 0o104777 = .trap 0o377 ∧
    decodeWord 0o000103 = .jmpRn .r3 ∧
    decodeWord 0o004502 = .jsrRn .r5 .r2 := by
  decide

theorem test_decode_reserved :
    decodeWord 0o000007 = .reserved000007 ∧
    decodeWord 0o000015 = .reserved000010 5 ∧
    decodeWord 0o000032 = .reserved000020 0o12 ∧
    decodeWord 0o000071 = .reserved000040 0o31 ∧
    decodeWord 0o000213 = .reserved000210 3 ∧
    decodeWord 0o000236 = .reserved000220 0o16 ∧
    decodeWord 0o006700 = .reserved006400 0o300 ∧
    decodeWord 0o007456 = .reserved007000 0o456 ∧
    decodeWord 0o077001 = .reserved070000 0o7001 ∧
    decodeWord 0o106525 = .reserved106400 0o125 ∧
    decodeWord 0o107777 = .reserved107000 0o777 ∧
    decodeWord 0o170011 = .reserved170000 0o0011 := by
  decide

/-- R254, R255: BHIS and BLO have the codes of BCC and BCS, and their words decode to those names. -/
theorem test_decode_second_names :
    encodeWord (.bhis 0o012) = 0o103012 ∧ encodeWord (.blo 0o365) = 0o103765 ∧
    decodeWord (encodeWord (.bhis 0o012)) = .bcc 0o012 ∧ decodeWord (encodeWord (.blo 0o365)) = .bcs 0o365 := by
  decide

/-- R61, R73: the byte at the lower address is the low byte; the opcode table's bit 0 is the word's bit 0. -/
theorem test_decode_byte_order :
    decode [0o301, 0o025, 0o377] = .ok (.mov ⟨.autoInc, .r7⟩ ⟨.register, .r1⟩, [0o377]) ∧
    decodeTableWord 16 0o012701 = some (.mov ⟨.autoInc, .r7⟩ ⟨.register, .r1⟩) := by
  exact ⟨rfl, rfl⟩

/-! ### Single steps -/

/-- A machine about to fetch at 001000, with SP = 001000. -/
def start (regs : List (Reg × Word)) (psw : BitVec 8) (words : List (Nat × Word)) : State :=
  { State.reset with
    regs := regs.foldl (fun g p => g.set p.1 p.2) ⟨0, 0, 0, 0, 0, 0, 0o1000, 0o1000⟩
    psw := psw
    mem := words.foldl (fun m p => m.writeWord p.1 p.2) [] }

/-- A register or memory word, and the PSW, after one step. -/
def seen (l : Loc) (s : State) : Option (Word × BitVec 8) :=
  match step s with
  | .next t => some (match l with | .reg r => t.reg r | .mem a => t.mem.readWord a.toNat, t.psw)
  | .fault _ => none
  | .refused _ => none

/-- PC, the words pushed by a trap sequence from SP = 001000, and the PSW, after one step. -/
def seenTrap (s : State) : Option (Word × Word × Word × BitVec 8) :=
  match step s with
  | .next t => some (t.pc, t.mem.readWord 0o774, t.mem.readWord 0o776, t.psw)
  | .fault _ => none
  | .refused _ => none

/-- V3.25: CLR (R0)+ -/
theorem test_clr :
    seen (.mem 0o2000) (start [(.r0, 0o002000)] 0o017 [(0o1000, 0o005020), (0o2000, 0o123456)]) = some (0o000000, 0o004) := by decide

/-- V3.26: CLRB (R0)+ -/
theorem test_clrb_odd_byte :
    seen (.mem 0o2000) (start [(.r0, 0o002001)] 0o017 [(0o1000, 0o105020), (0o2000, 0o123456)]) = some (0o000056, 0o004) := by decide

/-- V1.4: COM R0 -/
theorem test_com :
    seen (.reg .r0) (start [(.r0, 0o177777)] 0o002 [(0o1000, 0o005100)]) = some (0o000000, 0o005) := by decide

/-- V1.6: COMB R0 -/
theorem test_comb :
    seen (.reg .r0) (start [(.r0, 0o123400)] 0o000 [(0o1000, 0o105100)]) = some (0o123777, 0o011) := by decide

/-- V3.20: INC @3000 (relative deferred) -/
theorem test_inc :
    seen (.mem 0o2000) (start [] 0o000 [(0o1000, 0o005277), (0o1002, 0o001774), (0o2000, 0o000007), (0o3000, 0o002000)]) = some (0o000010, 0o000) := by decide

/-- V3.9: INCB -(R0) -/
theorem test_incb :
    seen (.mem 0o2000) (start [(.r0, 0o002002)] 0o000 [(0o1000, 0o105240), (0o2000, 0o000007)]) = some (0o000407, 0o000) := by decide

/-- V1.13: DEC R0 -/
theorem test_dec :
    seen (.reg .r0) (start [(.r0, 0o100000)] 0o001 [(0o1000, 0o005300)]) = some (0o077777, 0o003) := by decide

/-- V1.17: DECB R0 -/
theorem test_decb :
    seen (.reg .r0) (start [(.r0, 0o000400)] 0o000 [(0o1000, 0o105300)]) = some (0o000777, 0o010) := by decide

/-- V1.21: NEG R0 -/
theorem test_neg :
    seen (.reg .r0) (start [(.r0, 0o177777)] 0o000 [(0o1000, 0o005400)]) = some (0o000001, 0o001) := by decide

/-- V1.23: NEGB R0 -/
theorem test_negb :
    seen (.reg .r0) (start [(.r0, 0o000401)] 0o000 [(0o1000, 0o105400)]) = some (0o000777, 0o011) := by decide

/-- V1.24: ADC R0 -/
theorem test_adc :
    seen (.reg .r0) (start [(.r0, 0o077777)] 0o001 [(0o1000, 0o005500)]) = some (0o100000, 0o012) := by decide

/-- V1.29: ADCB R0 -/
theorem test_adcb :
    seen (.reg .r0) (start [(.r0, 0o000777)] 0o001 [(0o1000, 0o105500)]) = some (0o000400, 0o005) := by decide

/-- V1.31: SBC R0 -/
theorem test_sbc :
    seen (.reg .r0) (start [(.r0, 0o000000)] 0o001 [(0o1000, 0o005600)]) = some (0o177777, 0o011) := by decide

/-- V1.38: SBCB R0 -/
theorem test_sbcb :
    seen (.reg .r0) (start [(.r0, 0o000600)] 0o001 [(0o1000, 0o105600)]) = some (0o000577, 0o002) := by decide

/-- V3.23: TST #0 (immediate) -/
theorem test_tst :
    seen (.reg .r7) (start [] 0o013 [(0o1000, 0o005727), (0o1002, 0o000000)]) = some (0o001004, 0o004) := by decide

/-- V3.22: TSTB (R0)+ -/
theorem test_tstb :
    seen (.reg .r0) (start [(.r0, 0o002001)] 0o003 [(0o1000, 0o105720), (0o2000, 0o100000)]) = some (0o002002, 0o010) := by decide

/-- V2.2: ROR R0 -/
theorem test_ror :
    seen (.reg .r0) (start [(.r0, 0o000000)] 0o001 [(0o1000, 0o006000)]) = some (0o100000, 0o012) := by decide

/-- V2.5: RORB R0 -/
theorem test_rorb :
    seen (.reg .r0) (start [(.r0, 0o000401)] 0o001 [(0o1000, 0o106000)]) = some (0o000600, 0o011) := by decide

/-- V2.10: ROL R0 -/
theorem test_rol :
    seen (.reg .r0) (start [(.r0, 0o140000)] 0o001 [(0o1000, 0o006100)]) = some (0o100001, 0o011) := by decide

/-- V2.11: ROLB R0 -/
theorem test_rolb :
    seen (.reg .r0) (start [(.r0, 0o000600)] 0o001 [(0o1000, 0o106100)]) = some (0o000401, 0o003) := by decide

/-- V2.16: ASR R0 -/
theorem test_asr :
    seen (.reg .r0) (start [(.r0, 0o100000)] 0o001 [(0o1000, 0o006200)]) = some (0o140000, 0o012) := by decide

/-- V2.17: ASRB R0 -/
theorem test_asrb :
    seen (.reg .r0) (start [(.r0, 0o000601)] 0o000 [(0o1000, 0o106200)]) = some (0o000700, 0o011) := by decide

/-- V2.20: ASL R0 -/
theorem test_asl :
    seen (.reg .r0) (start [(.r0, 0o040000)] 0o000 [(0o1000, 0o006300)]) = some (0o100000, 0o012) := by decide

/-- V2.23: ASLB R0 -/
theorem test_aslb :
    seen (.reg .r0) (start [(.r0, 0o000600)] 0o000 [(0o1000, 0o106300)]) = some (0o000400, 0o007) := by decide

/-- V2.26: SWAB R0 -/
theorem test_swab :
    seen (.reg .r0) (start [(.r0, 0o177400)] 0o003 [(0o1000, 0o000300)]) = some (0o000377, 0o010) := by decide

/-- V2.28: SWAB R0 -/
theorem test_swab_zero :
    seen (.reg .r0) (start [(.r0, 0o000200)] 0o000 [(0o1000, 0o000300)]) = some (0o100000, 0o004) := by decide

/-- V5.2: MOV R0,-(R0) -/
theorem test_mov_same_register :
    seen (.mem 0o2000) (start [(.r0, 0o002002)] 0o000 [(0o1000, 0o010040), (0o2000, 0o000000)]) = some (0o002002, 0o000) := by decide

/-- V5.7: MOV -(R0),-(R0) -/
theorem test_mov_both_autodecrement :
    seen (.mem 0o2000) (start [(.r0, 0o002004)] 0o000 [(0o1000, 0o014040), (0o2000, 0o000222), (0o2002, 0o000111)]) = some (0o000111, 0o000) := by decide

/-- V4.4: MOVB R0,R1 -/
theorem test_movb_sign_extends :
    seen (.reg .r1) (start [(.r0, 0o000200), (.r1, 0o000001)] 0o003 [(0o1000, 0o110001)]) = some (0o177600, 0o011) := by decide

/-- V4.7: MOVB (R0)+,(R1)+ -/
theorem test_movb_memory :
    seen (.mem 0o3000) (start [(.r0, 0o002001), (.r1, 0o003000)] 0o001 [(0o1000, 0o112021), (0o2000, 0o101000), (0o3000, 0o177777)]) = some (0o177602, 0o011) := by decide

/-- V4.13: CMP R0,R1 -/
theorem test_cmp_overflow :
    seen (.reg .r7) (start [(.r0, 0o077777), (.r1, 0o100000)] 0o000 [(0o1000, 0o020001)]) = some (0o001002, 0o013) := by decide

/-- V4.17: CMPB R0,R1 -/
theorem test_cmpb :
    seen (.reg .r7) (start [(.r0, 0o000577), (.r1, 0o000200)] 0o000 [(0o1000, 0o120001)]) = some (0o001002, 0o013) := by decide

/-- V4.20: BIT R0,R1 -/
theorem test_bit :
    seen (.reg .r7) (start [(.r0, 0o100001), (.r1, 0o100000)] 0o003 [(0o1000, 0o030001)]) = some (0o001002, 0o011) := by decide

/-- V4.22: BITB R0,R1 -/
theorem test_bitb :
    seen (.reg .r7) (start [(.r0, 0o177600), (.r1, 0o000200)] 0o001 [(0o1000, 0o130001)]) = some (0o001002, 0o011) := by decide

/-- V4.23: BIC R0,R1 -/
theorem test_bic :
    seen (.reg .r1) (start [(.r0, 0o000017), (.r1, 0o177777)] 0o003 [(0o1000, 0o040001)]) = some (0o177760, 0o011) := by decide

/-- V4.25: BICB R0,R1 -/
theorem test_bicb :
    seen (.reg .r1) (start [(.r0, 0o000017), (.r1, 0o125377)] 0o003 [(0o1000, 0o140001)]) = some (0o125360, 0o011) := by decide

/-- V4.26: BIS R0,R1 -/
theorem test_bis :
    seen (.reg .r1) (start [(.r0, 0o100000), (.r1, 0o000001)] 0o003 [(0o1000, 0o050001)]) = some (0o100001, 0o011) := by decide

/-- V4.29: BISB R0,(R1) -/
theorem test_bisb :
    seen (.mem 0o2000) (start [(.r0, 0o000360), (.r1, 0o002001)] 0o000 [(0o1000, 0o150011), (0o2000, 0o007417)]) = some (0o177417, 0o010) := by decide

/-- V4.32: ADD R0,R1 -/
theorem test_add_overflow :
    seen (.reg .r1) (start [(.r0, 0o100000), (.r1, 0o100000)] 0o000 [(0o1000, 0o060001)]) = some (0o000000, 0o007) := by decide

/-- V5.13: ADD #10,PC -/
theorem test_add_pc :
    seen (.reg .r7) (start [] 0o000 [(0o1000, 0o062707), (0o1002, 0o000010)]) = some (0o001014, 0o000) := by decide

/-- V4.36: SUB R0,R1 -/
theorem test_sub_borrow :
    seen (.reg .r1) (start [(.r0, 0o000001), (.r1, 0o000000)] 0o000 [(0o1000, 0o160001)]) = some (0o177777, 0o011) := by decide

/-- V4.38: SUB R0,R1 -/
theorem test_sub_overflow :
    seen (.reg .r1) (start [(.r0, 0o100000), (.r1, 0o077777)] 0o000 [(0o1000, 0o160001)]) = some (0o177777, 0o013) := by decide

/-- V7.21: JMP (R0)+ -/
theorem test_jmp_autoincrement :
    seen (.reg .r0) (start [(.r0, 0o003000)] 0o000 [(0o1000, 0o000120)]) = some (0o003002, 0o000) := by decide

/-- V7.26: JMP 3000 (relative) -/
theorem test_jmp_relative :
    seen (.reg .r7) (start [] 0o000 [(0o1000, 0o000167), (0o1002, 0o001774)]) = some (0o003000, 0o000) := by decide

/-- V7.29: JSR R5,@#3000 -/
theorem test_jsr :
    seen (.mem 0o776) (start [(.r5, 0o000555)] 0o000 [(0o1000, 0o004537), (0o1002, 0o003000)]) = some (0o000555, 0o000) := by decide

/-- V7.30: JSR R5,(R5)+ -/
theorem test_jsr_same_register :
    seen (.mem 0o776) (start [(.r5, 0o003000)] 0o000 [(0o1000, 0o004525)]) = some (0o003002, 0o000) := by decide

/-- V7.36: RTS R5 -/
theorem test_rts :
    seen (.reg .r5) (start [(.r5, 0o003000), (.r6, 0o000776)] 0o000 [(0o1000, 0o000205), (0o776, 0o000555)]) = some (0o000555, 0o000) := by decide

/-- V7.38: RTI (popped word has high bits) -/
theorem test_rti :
    seen (.reg .r6) (start [(.r6, 0o000774)] 0o340 [(0o1000, 0o000002), (0o774, 0o003000), (0o776, 0o177757)]) = some (0o001000, 0o357) := by decide

/-- V7.40: RTT setting T -/
theorem test_rtt :
    seen (.reg .r6) (start [(.r6, 0o000774)] 0o000 [(0o1000, 0o000006), (0o774, 0o003000), (0o776, 0o000020), (0o3000, 0o005200)]) = some (0o001000, 0o020) := by decide

/-- V7.46: 000243 (clear V and C) -/
theorem test_ccop_clear :
    seen (.reg .r7) (start [] 0o017 [(0o1000, 0o000243)]) = some (0o001002, 0o014) := by decide

/-- V7.54: 000263 (set V and C) -/
theorem test_ccop_set :
    seen (.reg .r7) (start [] 0o010 [(0o1000, 0o000263)]) = some (0o001002, 0o013) := by decide

/-- V7.58: RESET -/
theorem test_reset :
    seen (.reg .r7) (start [] 0o357 [(0o1000, 0o000005)]) = some (0o001002, 0o357) := by decide

/-- V7.56: HALT -/
theorem test_halt :
    seen (.reg .r7) (start [] 0o012 [(0o1000, 0o000000)]) = some (0o001002, 0o012) := by decide

/-- V7.57: WAIT (no request pending) -/
theorem test_wait :
    seen (.reg .r7) (start [] 0o000 [(0o1000, 0o000001)]) = some (0o001002, 0o000) := by decide

/-- V3.6: INCB (SP)+ -/
theorem test_sp_byte_step :
    seen (.mem 0o2000) (start [(.r6, 0o002000)] 0o000 [(0o1000, 0o105226), (0o2000, 0o000007)]) = some (0o000010, 0o000) := by decide

/-- V5.18: MOV @#177700,R1 -/
theorem test_register_window_reads_zero :
    seen (.reg .r1) (start [(.r0, 0o000777), (.r1, 0o000555)] 0o000 [(0o1000, 0o013701), (0o1002, 0o177700)]) = some (0o000000, 0o004) := by decide

/-- V1L.44: the literal reading of SBC's C. -/
theorem test_sbc_literal :
    seen (.reg .r0) { start [] 0o001 [(0o1000, 0o005600)] with cfg := { Config.standard with sbcLiteral := true } } =
      some (0o177777, 0o010) := by decide

/-- V7.29: the linkage register takes the return address. -/
theorem test_jsr_linkage :
    seen (.reg .r5) (start [(.r5, 0o000555)] 0 [(0o1000, 0o004537), (0o1002, 0o003000)]) = some (0o001004, 0) := by
  decide

/-- R281: the processor halts. -/
theorem test_halt_run_state : exec .halt (start [] 0 []) = .next { start [] 0 [] with run := .halted } := by rfl

/-- R284: the processor waits. -/
theorem test_wait_run_state : exec .wait (start [] 0 []) = .next { start [] 0 [] with run := .wait } := by rfl

/-- PC after a branch at 001000 with offset -2 words (000776), whose opcode byte is `op`, under condition codes `psw`. -/
def branchFrom (op : BitVec 8) (psw : BitVec 8) : Option Word :=
  (seen (.reg .r7) (start [] psw [(0o1000, (op ++ (0o376 : BitVec 8) : BitVec 16))])).map (·.1)

/-- R240, R241. -/
theorem test_br : branchFrom 0o001 0o00 = some 0o000776 ∧
    branchFrom 0o001 0o17 = some 0o000776 := by decide

/-- R240, R242. -/
theorem test_bne : branchFrom 0o002 0o13 = some 0o000776 ∧
    branchFrom 0o002 0o04 = some 0o001002 := by decide

/-- R240, R243. -/
theorem test_beq : branchFrom 0o003 0o04 = some 0o000776 ∧
    branchFrom 0o003 0o13 = some 0o001002 := by decide

/-- R240, R244. -/
theorem test_bge : branchFrom 0o004 0o12 = some 0o000776 ∧
    branchFrom 0o004 0o05 = some 0o000776 ∧
    branchFrom 0o004 0o10 = some 0o001002 ∧
    branchFrom 0o004 0o02 = some 0o001002 := by decide

/-- R240, R245. -/
theorem test_blt : branchFrom 0o005 0o10 = some 0o000776 ∧
    branchFrom 0o005 0o02 = some 0o000776 ∧
    branchFrom 0o005 0o12 = some 0o001002 ∧
    branchFrom 0o005 0o05 = some 0o001002 := by decide

/-- R240, R246. -/
theorem test_bgt : branchFrom 0o006 0o12 = some 0o000776 ∧
    branchFrom 0o006 0o01 = some 0o000776 ∧
    branchFrom 0o006 0o04 = some 0o001002 ∧
    branchFrom 0o006 0o16 = some 0o001002 ∧
    branchFrom 0o006 0o10 = some 0o001002 := by decide

/-- R240, R247. -/
theorem test_ble : branchFrom 0o007 0o04 = some 0o000776 ∧
    branchFrom 0o007 0o10 = some 0o000776 ∧
    branchFrom 0o007 0o12 = some 0o001002 ∧
    branchFrom 0o007 0o00 = some 0o001002 := by decide

/-- R240, R248. -/
theorem test_bpl : branchFrom 0o200 0o07 = some 0o000776 ∧
    branchFrom 0o200 0o10 = some 0o001002 := by decide

/-- R240, R249. -/
theorem test_bmi : branchFrom 0o201 0o10 = some 0o000776 ∧
    branchFrom 0o201 0o07 = some 0o001002 := by decide

/-- R240, R250. -/
theorem test_bhi : branchFrom 0o202 0o12 = some 0o000776 ∧
    branchFrom 0o202 0o01 = some 0o001002 ∧
    branchFrom 0o202 0o04 = some 0o001002 := by decide

/-- R240, R251. -/
theorem test_blos : branchFrom 0o203 0o01 = some 0o000776 ∧
    branchFrom 0o203 0o04 = some 0o000776 ∧
    branchFrom 0o203 0o12 = some 0o001002 := by decide

/-- R240, R252. -/
theorem test_bvc : branchFrom 0o204 0o15 = some 0o000776 ∧
    branchFrom 0o204 0o02 = some 0o001002 := by decide

/-- R240, R253. -/
theorem test_bvs : branchFrom 0o205 0o02 = some 0o000776 ∧
    branchFrom 0o205 0o15 = some 0o001002 := by decide

/-- R240, R254. -/
theorem test_bcc : branchFrom 0o206 0o16 = some 0o000776 ∧
    branchFrom 0o206 0o01 = some 0o001002 := by decide

/-- R240, R255. -/
theorem test_bcs : branchFrom 0o207 0o01 = some 0o000776 ∧
    branchFrom 0o207 0o16 = some 0o001002 := by decide

/-- R254, R255: the second names branch as the first ones do. -/
theorem test_bhis_blo :
    exec (.bhis 0o376) (start [] 0o16 []) = .next ((start [] 0o16 []).setPc 0o774) ∧
    exec (.blo 0o376) (start [] 0o01 []) = .next ((start [] 0o01 []).setPc 0o774) := by exact ⟨rfl, rfl⟩

/-- V7.2: TRAP 377 -/
theorem test_trap :
    seenTrap (start [] 0o145 [(0o1000, 0o104777), (0o34, 0o004600), (0o36, 0o000357)]) =
      some (0o004600, 0o001002, 0o000145, 0o357) := by decide

/-- V7.4: EMT 377 -/
theorem test_emt :
    seenTrap (start [] 0o000 [(0o1000, 0o104377), (0o30, 0o004500), (0o32, 0o000345)]) =
      some (0o004500, 0o001002, 0o000000, 0o345) := by decide

/-- V7.5: IOT -/
theorem test_iot :
    seenTrap (start [] 0o017 [(0o1000, 0o000004), (0o20, 0o004300), (0o22, 0o000343)]) =
      some (0o004300, 0o001002, 0o000017, 0o343) := by decide

/-- V7.6: BPT -/
theorem test_bpt :
    seenTrap (start [] 0o004 [(0o1000, 0o000003), (0o14, 0o004200), (0o16, 0o000342)]) =
      some (0o004200, 0o001002, 0o000004, 0o342) := by decide

/-- V7.18: illegal JMP R0 -/
theorem test_jmp_register :
    seenTrap (start [(.r0, 0o003000)] 0o000 [(0o1000, 0o000100), (0o10, 0o004100), (0o12, 0o000341)]) =
      some (0o004100, 0o001002, 0o000000, 0o341) := by decide

/-- V7.19: illegal JSR R5,R0 -/
theorem test_jsr_register :
    seenTrap (start [(.r0, 0o003000), (.r5, 0o000555)] 0o000 [(0o1000, 0o004500), (0o10, 0o004100), (0o12, 0o000341)]) =
      some (0o004100, 0o001002, 0o000000, 0o341) := by decide

/-- V8.5: MOV (R0)+,(R1)+ destination odd: R0 stepped, R1 not -/
theorem test_odd_destination_keeps_codes :
    seenTrap (start [(.r0, 0o002000), (.r1, 0o003001)] 0o001 [(0o1000, 0o012021), (0o2000, 0o100000), (0o4, 0o004000), (0o6, 0o000340)]) =
      some (0o004000, 0o001002, 0o000011, 0o340) := by decide

/-- V8.10: INC @#2000 where 2000 is read-only: the codes are set, the word is kept. -/
theorem test_read_only_write :
    (let s := { start [] 0o001 [(0o1000, 0o005237), (0o1002, 0o002000), (0o2000, 0o077777), (0o4, 0o004000), (0o6, 0o000340)] with
       cfg := { Config.standard with memMap := [⟨0o2000, 2, .readOnly⟩, ⟨0, 0o160000, .memory⟩] } }
     (seenTrap s, (seen (.mem 0o2000) s).map (·.1))) =
      (some (0o004000, 0o001004, 0o000013, 0o340), some 0o077777) := by decide

/-- V8.8: TST @(R0)+ pointer read fails: R0 not stepped -/
theorem test_pointer_read_fails :
    seenTrap (start [(.r0, 0o160000)] 0o000 [(0o1000, 0o005730), (0o4, 0o004000), (0o6, 0o000340)]) =
      some (0o004000, 0o001002, 0o000000, 0o340) := by decide

/-- V7.7 to V7.17: every reserved row traps through 010. -/
theorem test_reserved : [0o7, 0o17, 0o25, 0o77, 0o210, 0o237, 0o006400, 0o007000, 0o070001, 0o106400, 0o107123, 0o170000].all
    (fun w => seenTrap (start [] 0 [(0o1000, w), (0o10, 0o4100), (0o12, 0o341)]) == some (0o4100, 0o1002, 0, 0o341)) := by
  decide

/-- V8.16: a bus error while the PSW is pushed halts the processor. -/
theorem test_double_bus_error :
    (match step (start [(.r6, 0o1001)] 0 [(0o1000, 0o104400)]) with
      | .next t => decide (t.run = .halted ∧ t.sp = 0o777 ∧ t.pc = 0o1002)
      | .fault _ => false | .refused _ => false) = true := by decide

/-- V7.39: an RTI that sets T leaves the trace flag set; V7.40: an RTT does not. -/
theorem test_rti_rtt_trace_flag :
    [(0o2, true), (0o6, false)].all (fun p =>
      match step (start [(.r6, 0o774)] 0 [(0o1000, p.1), (0o774, 0o3000), (0o776, 0o20)]) with
      | .next t => t.tbitFlag == p.2 | .fault _ => false | .refused _ => false) := by decide

/-- withFetchWord places the word that the next step runs. -/
theorem test_withFetchWord :
    seen (.reg .r0) ((start [] 0 []).withFetchWord 16 0o005200) = some (1, 0) := by decide

/-- R76: an instruction with a device register as its destination completes, by a DATIP and a DATO. -/
theorem test_device_operand :
    (match exec (.clr ⟨.deferred, .r1⟩) { start [(.r1, 0o177560)] 0 [] with
        cfg := { Config.standard with memMap := [⟨0o777560, 8, .device⟩] } } with
      | .next t => t.bus.map (fun c => (c.kind, c.addr, c.ssyn))
      | .fault _ => [] | .refused _ => []) = [(.dato, 0o777560, true), (.datip, 0o777560, true)] := by decide

/-- R85, R332: a DMA write between the fetch and the read of the operand is seen by the instruction. -/
theorem test_dma_between_cycles :
    seen (.reg .r1) { start [(.r0, 0o2000)] 0 [(0o1000, 0o011001), (0o2000, 1)] with npr := [[], [.write 0o2000 0o7]] } =
      some (7, 0) := by decide

/-- R424: an odd byte goes through R17 with the bytes of its word exchanged. -/
theorem test_odd_byte_in_r17 :
    (match exec (.tstb ⟨.deferred, .r0⟩) (start [(.r0, 0o2001)] 0 [(0o2000, 0o000702)]) with
      | .next t => t.scratch.r17 | .fault _ => 0 | .refused _ => 0) = 0o141001 := by decide

/-! ### Witnesses: for each statement with hypotheses, states and operands that meet them, each clause at the ends of
its range -/

/-- A machine about to fetch at 001000 over this memory map. -/
def mapped (regs : List (Reg × Word)) (map : List Region) : State :=
  { start regs 0 [] with cfg := { Config.standard with memMap := map } }

/-- Memory, a read-only word at 040000, one too slow for writes at 050000, and device registers at 177560 to 177567. -/
def mixed (regs : List (Reg × Word)) : State :=
  mapped regs [⟨0o40000, 2, .readOnly⟩, ⟨0o50000, 2, .slow⟩, ⟨0, 0o160000, .memory⟩, ⟨0o777560, 8, .device⟩]

/-- Parity errors at one word. -/
def badParity (a : Nat) (s : State) : State := { s with parityBad := [a] }

theorem witness_StepKeepsInvariant :
    (Inv (start [] 0 [(0o1000, 0o005200)]) ∧ ∃ t, step (start [] 0 [(0o1000, 0o005200)]) = .next t) ∧
    (Inv { start [] 0 [] with run := .init, pup := false } ∧
      ∃ t, step { start [] 0 [] with run := .init, pup := false } = .next t) ∧
    (Inv { start [] 0 [] with run := .off, inputs := [[.dcLo false]] } ∧
      ∃ t, step { start [] 0 [] with run := .off, inputs := [[.dcLo false]] } = .next t) :=
  ⟨⟨⟨by decide, by decide, by decide, by decide, by decide⟩, _, rfl⟩,
    ⟨⟨by decide, by decide, by decide, by decide, by decide⟩, _, rfl⟩,
    ⟨⟨by decide, by decide, by decide, by decide, by decide⟩, _, rfl⟩⟩

/-- One instruction of each shape: operands at both ends of memory, at the PSW, in the register window and at a device. -/
theorem witness_InstructionFrame :
    (start [] 0 []).mem.wf = true ∧ (start [] 0 []).npr = [] ∧
    (let s := { mixed [(.r0, 0o157776), (.r1, 0o177776), (.r2, 0o177700), (.r3, 0), (.r4, 0o177560)] with npr := [[.write 0o2000 5]] }
     s.mem.wf = true ∧
     [Instr.halt, .reset, .tst ⟨.autoInc, .r0⟩, .tst ⟨.deferred, .r4⟩, .clr ⟨.deferred, .r0⟩, .clrb ⟨.deferred, .r1⟩,
      .inc ⟨.deferred, .r2⟩, .inc ⟨.deferred, .r4⟩, .cmp ⟨.deferred, .r3⟩ ⟨.autoDec, .r6⟩,
      .add ⟨.deferred, .r0⟩ ⟨.register, .r4⟩, .mov ⟨.autoInc, .r7⟩ ⟨.deferred, .r3⟩, .jmp ⟨.deferred, .r0⟩,
      .jsr .r5 ⟨.autoInc, .r3⟩, .rts .r6, .rti, .rtt, .trap 0, .jmpRn .r0].all fun i => (shapeOf i).answered s) = true ∧
    (shapeOf (.mov ⟨.register, .r0⟩ ⟨.deferred, .r3⟩)).loadsPsw = false ∧
    (shapeOf (.mov ⟨.register, .r0⟩ ⟨.deferred, .r3⟩)).stores (start [] 0 []) = [(.word, 0)] ∧
    (start [] 0 []).targetOf 0 ≠ .psw ∧ Instr.clr ⟨.deferred, .r0⟩ ≠ .halt ∧ Instr.clr ⟨.deferred, .r0⟩ ≠ .wait ∧
    Instr.clr ⟨.deferred, .r0⟩ ≠ .reset ∧ ({ start [] 0 [] with stov := true, tbitFlag := true }).stov = true := by
  decide

theorem witness_DecodeAndEncodeAgree :
    (Instr.jmp ⟨.deferred, .r0⟩).wf = true ∧ (Instr.jsr .r6 ⟨.indexDef, .r7⟩).wf = true ∧ Instr.halt.wf = true := by
  decide

/-- The first and last code of every range of the opcode map. -/
theorem witness_OpcodeMapIsComplete :
    [0o000007, 0o000077, 0o000210, 0o000237, 0o006400, 0o007777, 0o070000, 0o077777, 0o106400, 0o107777, 0o170000,
      0o177777].all (fun w => shapeOf (decodeWord w) == .trap 0o10) ∧
    decodeWord 0o000100 = .jmpRn .r0 ∧ decodeWord 0o000107 = .jmpRn .r7 ∧
    decodeWord 0o000110 = .jmp ⟨.deferred, .r0⟩ ∧ decodeWord 0o000177 = .jmp ⟨.indexDef, .r7⟩ ∧
    decodeWord 0o000200 = .rts .r0 ∧ decodeWord 0o000207 = .rts .r7 ∧
    decodeWord 0o000240 = .ccop false false false false false ∧ decodeWord 0o000277 = .ccop true true true true true ∧
    decodeWord 0o000300 = .swab ⟨.register, .r0⟩ ∧ decodeWord 0o000377 = .swab ⟨.indexDef, .r7⟩ ∧
    decodeWord 0o000400 = .br 0 ∧ decodeWord 0o003777 = .ble 0o377 ∧
    decodeWord 0o004000 = .jsrRn .r0 .r0 ∧ decodeWord 0o004777 = .jsr .r7 ⟨.indexDef, .r7⟩ ∧
    decodeWord 0o005000 = .clr ⟨.register, .r0⟩ ∧ decodeWord 0o006377 = .asl ⟨.indexDef, .r7⟩ ∧
    decodeWord 0o010000 = .mov ⟨.register, .r0⟩ ⟨.register, .r0⟩ ∧
    decodeWord 0o067777 = .add ⟨.indexDef, .r7⟩ ⟨.indexDef, .r7⟩ ∧
    decodeWord 0o100000 = .bpl 0 ∧ decodeWord 0o103777 = .bcs 0o377 ∧ decodeWord 0o104000 = .emt 0 ∧
    decodeWord 0o104777 = .trap 0o377 ∧ decodeWord 0o105000 = .clrb ⟨.register, .r0⟩ ∧
    decodeWord 0o106377 = .aslb ⟨.indexDef, .r7⟩ ∧ decodeWord 0o110000 = .movb ⟨.register, .r0⟩ ⟨.register, .r0⟩ ∧
    decodeWord 0o167777 = .sub ⟨.indexDef, .r7⟩ ⟨.indexDef, .r7⟩ := by decide

theorem witness_StepRunsDecodedInstruction :
    (start [] 0 [(0o1000, 0o005200)]).ready = true ∧ (start [] 0 [(0o1000, 0o005200)]).readable .word 0o1000 = true ∧
    (start [] 0 [(0o1000, 0o005200)]).npr = [] ∧
    decode [lowByte ((start [] 0 [(0o1000, 0o005200)]).gets .word 0o1000),
      highByte ((start [] 0 [(0o1000, 0o005200)]).gets .word 0o1000)] = .ok (.inc ⟨.register, .r0⟩, []) :=
  ⟨by decide, by decide, rfl, rfl⟩

/-- An odd PC, a PC nothing answers, and a parity error; each mode that reads at PC. -/
theorem witness_FetchFailureKeepsPc :
    (start [(.r7, 0o1001)] 0 []).ready = true ∧
    (start [(.r7, 0o1001)] 0 []).readFails .word 0o1001 = some .busError ∧
    entryAnswers 0o4 (start [(.r7, 0o1001)] 0 []) = true ∧
    (start [(.r7, 0o160000)] 0 []).readFails .word 0o160000 = some .busError ∧
    (badParity 0o1000 (start [] 0 [])).ready = true ∧
    (badParity 0o1000 (start [] 0 [])).readFails .word 0o1000 = some .parityError ∧
    entryAnswers 0o114 (badParity 0o1000 (start [] 0 [])) = true ∧
    (⟨.index, .r0⟩ : Operand).mode = .index ∧ (⟨.autoIncDef, .r7⟩ : Operand).reg = .r7 := by decide

theorem witness_ByteOrderIsLittleEndian :
    (let s := start [] 0 []
     [(0 : Word), 0o157776].all (fun a => !isOdd a && s.targetOf a == .slave .memory &&
       !s.parityFails (wordBase (addr18 s.cfg a))) ∧ s.mem.wf = true ∧ s.npr = []) ∧
    ∃ t, memRead .word (start [] 0 [(0o1000, 0o123456)]).pc (start [] 0 [(0o1000, 0o123456)]) = .ok 0o123456 t :=
  ⟨by decide, _, rfl⟩

/-- Mode 7 with a pointer at an odd address, among the other ways to an odd word. -/
theorem witness_OddWordAccessFails :
    isOdd 0o177777 = true ∧ isOdd (start [(.r7, 0o1001)] 0 []).pc = true ∧ isOdd (start [(.r6, 0o777)] 0 []).sp = true ∧
    isOdd ((start [(.r6, 1)] 0 []).sp - 2) = true ∧ isOdd ((start [(.r0, 0o2001)] 0 []).reg .r0) = true ∧
    isOdd ((start [(.r0, 1)] 0 []).reg .r0 - 2) = true ∧
    (start [(.r0, 1)] 0 []).readable .word 0o1000 = true ∧
    isOdd (indexSum ⟨.indexDef, .r0⟩ (start [(.r0, 1)] 0 [])) = true ∧
    (start [] 0 []).targetOf 0o157777 = .slave .memory ∧
    (start [] 0 []).parityFails (wordBase (addr18 (start [] 0 []).cfg 0o157777)) = false := by decide

theorem witness_PswAddressWrite :
    addr18 (start [] 0 []).cfg 0o177776 = 0o777776 ∧ addr18 (start [] 0 []).cfg 0o177777 = 0o777777 := by decide

/-- The ends of the register window, even and odd. -/
theorem witness_RegisterWindowWhileRunning :
    [(0o177700 : Word), 0o177701, 0o177716, 0o177717].all (fun a =>
      decide (0o777700 ≤ (addr18 (start [] 0 []).cfg a).toNat) &&
        decide ((addr18 (start [] 0 []).cfg a).toNat ≤ 0o777717)) ∧
    isOdd 0o177700 = false ∧ isOdd 0o177716 = false := by decide

/-- Both sides of 160000, and both ends of the address space. -/
theorem witness_ProgramAddressOnTheBus :
    Config.standard.addr18 = Config.ioPage ∧ isOdd 0 = false ∧ isOdd 0o177776 = false ∧
    ¬ 0o160000 ≤ (0o157777 : Word).toNat ∧ 0o160000 ≤ (0o160000 : Word).toNat := by decide

theorem witness_HaltedScratchPadOnTheBus :
    ({ start [] 0 [] with run := .halted }).run = .halted ∧
    [(0o777700 : BusAddr), 0o777717].all (fun a => decide (0o777700 ≤ a.toNat) && decide (a.toNat ≤ 0o777717)) ∧
    (0o777700 : BusAddr) ≠ 0o777717 := by decide

/-- A destination, a source, a second destination and a MOV destination that fail, by an odd address, an address nothing
answers, and a parity error; each way of failing in modes 1 to 7. -/
theorem witness_AbortedOperandTakesTheTrap :
    shapeOf (.tst ⟨.autoInc, .r0⟩) = .test .word ⟨.autoInc, .r0⟩ ∧
    shapeOf (.inc ⟨.autoDec, .r0⟩) = .modify .word ⟨.autoDec, .r0⟩ ∧
    [CycleKind.dati, .datip].all (fun k => [Mode.deferred, .autoInc, .autoIncDef, .autoDec, .autoDecDef].all fun m =>
      (operandAborted k .word ⟨m, .r0⟩ (start [(.r0, 0o2001)] 0 [])).isSome &&
      (operandAborted k .word ⟨m, .r0⟩ (start [(.r0, 0o160004)] 0 [])).isSome) ∧
    (operandAborted .dati .byte ⟨.index, .r0⟩ (start [(.r0, 0o160000)] 0 [])).isSome = true ∧
    (operandAborted .dati .byte ⟨.indexDef, .r7⟩ (start [(.r7, 0o157776)] 0 [(0o157776, 0)])).isSome = true ∧
    (operandAborted .datip .word ⟨.deferred, .r0⟩ (badParity 0o2000 (start [(.r0, 0o2000)] 0 []))).map (·.1) =
      some .parityError ∧
    shapeOf (.cmp ⟨.deferred, .r1⟩ ⟨.autoInc, .r0⟩) = .compare .word ⟨.deferred, .r1⟩ ⟨.autoInc, .r0⟩ ∧
    shapeOf (.add ⟨.deferred, .r1⟩ ⟨.autoInc, .r0⟩) = .combine .word ⟨.deferred, .r1⟩ ⟨.autoInc, .r0⟩ ∧
    shapeOf (.mov ⟨.deferred, .r1⟩ ⟨.autoInc, .r0⟩) = .move .word ⟨.deferred, .r1⟩ ⟨.autoInc, .r0⟩ ∧
    operandReadable .word ⟨.deferred, .r1⟩ (start [(.r0, 0o2001)] 0 []) = true ∧
    (operandAborted .dati .word ⟨.autoInc, .r0⟩
      (operandStep .dati .word ⟨.deferred, .r1⟩ (start [(.r0, 0o2001)] 0 []))).isSome = true ∧
    (operandAborted .datip .word ⟨.autoInc, .r0⟩
      (operandStep .dati .word ⟨.deferred, .r1⟩ (start [(.r0, 0o2001)] 0 []))).isSome = true ∧
    (operandAborted .datip .word ⟨.autoInc, .r0⟩ (moved .word ⟨.deferred, .r1⟩ (start [(.r0, 0o2001)] 0 []))).isSome = true := by
  decide

/-- A pointer or index word that fails in modes 3, 5, 6 and 7; a push at an odd address, where nothing answers and where
nothing is written; a pop that fails. -/
theorem witness_JumpAndCallFailures :
    [Mode.autoIncDef, .autoDecDef].all (fun m =>
      (addressAborted ⟨m, .r0⟩ (start [(.r0, 0o2001)] 0 [])).isSome &&
      (addressAborted ⟨m, .r0⟩ (start [(.r0, 0o160004)] 0 [])).isSome) ∧
    [Mode.index, .indexDef].all (fun m => (addressAborted ⟨m, .r0⟩ (start [(.r7, 0o160000)] 0 [])).isSome) ∧
    (addressAborted ⟨.indexDef, .r0⟩ (start [(.r0, 1)] 0 [])).isSome = true ∧
    [start [(.r6, 0o1001)] 0 [], start [(.r6, 0o160002)] 0 [], mixed [(.r6, 0o40002)], mixed [(.r6, 0o50002)]].all (fun s =>
      pointersReadable ⟨.autoInc, .r0⟩ s &&
        (addressStep ⟨.autoInc, .r0⟩ s).writeFails .word ((addressStep ⟨.autoInc, .r0⟩ s).sp - 2)) ∧
    (⟨.autoInc, .r0⟩ : Operand).mode ≠ .register ∧ Reg.r5 ≠ .r6 ∧
    (start [(.r6, 0o1001)] 0 []).readFails .word 0o1001 = some .busError ∧
    (badParity 0o1000 (start [] 0 [])).readFails .word 0o1000 = some .parityError := by decide

/-- A destination that answers the read and not the write, for each shape of instruction and each size. -/
theorem witness_FailedWriteKeepsNewCodes :
    [(0o40000 : Word), 0o50000].all (fun a => [Size.word, .byte].all fun sz =>
      let s := mixed [(.r0, a)]
      operandReadable sz ⟨.deferred, .r0⟩ s && operandPlace sz ⟨.deferred, .r0⟩ s == .mem a &&
      s.writeFails sz a && operandReadable sz ⟨.deferred, .r1⟩ s &&
      operandReadable sz ⟨.deferred, .r0⟩ (operandStep .dati sz ⟨.deferred, .r1⟩ s) &&
      operandPlace sz ⟨.deferred, .r0⟩ (operandStep .dati sz ⟨.deferred, .r1⟩ s) == .mem a &&
      (operandStep .dati sz ⟨.deferred, .r1⟩ s).writeFails sz a &&
      operandReadable sz ⟨.deferred, .r0⟩ (moved sz ⟨.deferred, .r1⟩ s) &&
      operandPlace sz ⟨.deferred, .r0⟩ (moved sz ⟨.deferred, .r1⟩ s) == .mem a &&
      (moved sz ⟨.deferred, .r1⟩ s).writeFails sz a) = true := by decide

/-- A register operand, operands in memory in modes 1, 2, 4, 6 and 7, and a mode 7 pointer word that fails. -/
theorem witness_OperandScratchWords :
    (let s := start [(.r0, 0o2000)] 0 []
     [Mode.register, .deferred, .autoInc, .autoDec, .index, .indexDef].all (fun m => operandReadable .word ⟨m, .r0⟩ s) ∧
     operandPlace .word ⟨.index, .r0⟩ s = .mem 0o2000 ∧ pointersReadable ⟨.indexDef, .r0⟩ s = true ∧
     operandPlace .word ⟨.indexDef, .r0⟩ s = .mem 0) ∧
    (let s := start [(.r0, 0o160001)] 0 []
     s.readable .word s.pc = true ∧ s.readFails .word (indexSum ⟨.indexDef, .r0⟩ s) = some .busError) := by decide

/-- Word and byte destinations in mode 1, at a device and at an odd byte of memory, with sources in mode 0 and 1. -/
theorem witness_BusCyclesOfEachAccess :
    let s := mixed [(.r0, 0o177560), (.r1, 0o2001)]
    s.readable .word s.pc = true ∧ shapeOf (.tst ⟨.deferred, .r0⟩) = .test .word ⟨.deferred, .r0⟩ ∧
    shapeOf (.inc ⟨.deferred, .r0⟩) = .modify .word ⟨.deferred, .r0⟩ ∧
    shapeOf (.incb ⟨.deferred, .r1⟩) = .modify .byte ⟨.deferred, .r1⟩ ∧
    [(⟨.register, .r1⟩ : Operand), ⟨.deferred, .r0⟩].all (fun q =>
      decide (q.mode = .register ∨ q.mode = .deferred) && operandReadable .word q s &&
      shapeOf (.cmp q ⟨.deferred, .r0⟩) == .compare .word q ⟨.deferred, .r0⟩ &&
      shapeOf (.add q ⟨.deferred, .r0⟩) == .combine .word q ⟨.deferred, .r0⟩ &&
      shapeOf (.mov q ⟨.deferred, .r0⟩) == .move .word q ⟨.deferred, .r0⟩) ∧
    shapeOf (.bisb ⟨.deferred, .r1⟩ ⟨.deferred, .r1⟩) = .combine .byte ⟨.deferred, .r1⟩ ⟨.deferred, .r1⟩ ∧
    operandReadable .byte ⟨.deferred, .r1⟩ s = true ∧
    s.readable .word (s.reg .r0) = true ∧ s.writable .word (s.reg .r0) = true ∧
    s.readable .byte (s.reg .r1) = true ∧ s.writable .byte (s.reg .r1) = true ∧
    s.writable .word (s.sp - 2) = true ∧ s.readable .word s.sp = true ∧ entryAnswers 0o4 s = true := by decide

theorem witness_DmaBetweenBusCycles :
    let s := { start [(.r0, 0o2000)] 0 [] with npr := ([.writeByte 0o3001 1] ++ [.write 0o002000 5]) :: [[.write 0o3000 7]] }
    s.mem.wf = true ∧ s.npr = ([.writeByte 0o3001 1] ++ [.write (addr18 s.cfg 0o2000) 5]) :: [[.write 0o3000 7]] ∧
    isOdd 0o2000 = false ∧ s.targetOf 0o2000 = .slave .memory ∧
    s.parityFails (wordBase (addr18 s.cfg 0o2000)) = false ∧
    shapeOf (.inc ⟨.deferred, .r0⟩) = .modify .word ⟨.deferred, .r0⟩ ∧
    shapeOf (.mov ⟨.register, .r1⟩ ⟨.deferred, .r0⟩) = .move .word ⟨.register, .r1⟩ ⟨.deferred, .r0⟩ ∧
    shapeOf (.mov ⟨.deferred, .r0⟩ ⟨.deferred, .r0⟩) = .move .word ⟨.deferred, .r0⟩ ⟨.deferred, .r0⟩ ∧
    shapeOf (.sub ⟨.register, .r1⟩ ⟨.deferred, .r0⟩) = .combine .word ⟨.register, .r1⟩ ⟨.deferred, .r0⟩ ∧
    shapeOf (.add ⟨.deferred, .r0⟩ ⟨.deferred, .r0⟩) = .combine .word ⟨.deferred, .r0⟩ ⟨.deferred, .r0⟩ ∧
    operandReadable .word ⟨.register, .r1⟩ s = true ∧ operandReadable .word ⟨.deferred, .r0⟩ s = true ∧
    s.readable .word (s.reg .r0) = true ∧ s.writable .word (s.reg .r0) = true ∧ entryAnswers 0o4 s = true := by decide

theorem witness_TrapSequenceEntry :
    entryAnswers 0 (start [] 0 []) = true ∧ entryAnswers 0o157774 (start [(.r6, 4)] 0 []) = true ∧
    (start [] 0 []).mem.wf = true ∧ (start [] 0 []).npr = [] ∧ (start [(.r6, 4)] 0 []).targetOf 2 = .slave .memory ∧
    (start [(.r6, 4)] 0 []).targetOf 0 = .slave .memory := by decide

theorem witness_DoubleBusErrorHalts :
    isOdd ((start [(.r6, 0o1001)] 0 []).sp - 2) = true ∧ (start [(.r6, 0o160002)] 0 []).targetOf 0o160000 = .absent ∧
    (start [] 0 []).npr = [] ∧
    (start [(.r6, 0o160000)] 0 []).writeFails .word ((start [(.r6, 0o160000)] 0 []).sp - 2) = false := by decide

/-- The second push, the vector's first word and its second word fail in turn; the first push fails on a location that
answers reads. -/
theorem witness_LaterTrapErrorIsServedNext :
    (let s := mapped [] [⟨0o776, 2, .memory⟩]
     s.writable .word (s.sp - 2) = true ∧ s.writeFails .word (s.sp - 4) = true) ∧
    (let s := mapped [] [⟨0o774, 4, .memory⟩]
     s.writable .word (s.sp - 2) = true ∧ s.writable .word (s.sp - 4) = true ∧
       s.readFails .word 0o4 = some .busError) ∧
    (let s := start [] 0 []
     s.writable .word (s.sp - 2) = true ∧ s.writable .word (s.sp - 4) = true ∧
       s.readable .word 0o157776 = true ∧ s.readFails .word (0o157776 + 2) = some .busError) ∧
    (start [] 0 []).inputs = [] ∧ (start [] 0 []).run = .run ∧
    [(0o40002 : Word), 0o50002].all (fun a => (mixed [(.r6, a)]).writeFails .word ((mixed [(.r6, a)]).sp - 2)) := by decide

/-- Nothing pending (each flag is then free to be set alone), and each bus-request line as the only one above the rest. -/
theorem witness_ServiceOrder :
    (start [] 0 []).inputs = [] ∧ (start [] 0 []).run = .run ∧ (start [] 0 []).be = false ∧
    (start [] 0 []).tbitFlag = false ∧ (start [] 0 []).stov = false ∧ (start [] 0 []).pfail = false ∧
    (start [] 0 []).haltRequest = false ∧ (start [] 0 []).br7 = [] ∧ (start [] 0 []).br6 = [] ∧
    (start [] 0 []).br5 = [] ∧ (start [] 0 []).br4 = [] ∧
    (start [] 0o300 []).priority < 7 ∧ (start [] 0o240 []).priority < 6 ∧ (start [] 0o200 []).priority < 5 ∧
    (start [] 0o140 []).priority < 4 ∧
    ({ start [] 0o300 [] with br7 := [.vector 0o60, .silent] }).br7 = .vector 0o60 :: [.silent] := by decide

/-- BR5 above priority 4 wins; at priority 5 it waits; at priority 7 nothing is granted, at 3 anything is. -/
theorem witness_BusRequestPriority :
    arbitrate { start [] 0o200 [] with br5 := [.vector 0o60] } = some (.interrupt .br5 (.vector 0o60) []) ∧
    (start [] 0o340 []).priority = 7 ∧ (start [] 0o140 []).priority ≤ 3 ∧
    ({ start [] 0o140 [] with br4 := [.silent] }).requests .br4 ≠ [] ∧
    (let s := { start [] 0o240 [] with run := .wait, br5 := [.vector 0o60] }
     s.run = .wait ∧ s.inputs = [] ∧ s.be = false ∧ s.tbitFlag = false ∧ s.stov = false ∧ s.pfail = false ∧
       s.haltRequest = false ∧ s.requests .br5 ≠ [] ∧ BrLevel.number .br5 ≤ s.priority ∧ s.requests .br4 = [] ∧
       s.requests .br6 = [] ∧ s.requests .br7 = []) := by decide

theorem witness_InterruptEntry :
    [RunState.run, .wait].all (fun r =>
      let s := { start [] 0o140 [] with run := r, br4 := [.vector 0o60, .silent] }
      decide (arbitrate s = some (.interrupt .br4 (.vector 0o60) [.silent])) && entryAnswers 0o60 s &&
        s.inputs == [] && !s.be && !s.tbitFlag && !s.stov && !s.pfail && !s.haltRequest) = true := by decide

theorem witness_TraceFlagAtCompletion :
    (shapeOf (.inc ⟨.register, .r0⟩)).answered (start [] 0o20 []) = true ∧
    Instr.inc ⟨.register, .r0⟩ ≠ .rtt ∧ shapeOf (.inc ⟨.register, .r0⟩) = .modify .word ⟨.register, .r0⟩ ∧
    shapeOf .iot = .trap 0o20 ∧ entryAnswers 0o20 (start [] 0o20 []) = true ∧
    [RunState.run, .wait].all (fun r =>
      let s := { start [] 0 [] with tbitFlag := true, run := r }
      s.tbitFlag && !s.be && s.inputs == [] && decide (s.run = r)) = true := by decide

theorem witness_RtiTracesAtOnce :
    let s := start [(.r6, 0o774)] 0 [(0o774, 0o3000), (0o776, 0o20)]
    let x := (popped s).setPc (s.gets .word s.sp)
    s.readable .word s.sp = true ∧ s.readable .word (s.sp + 2) = true ∧ (x.gets .word x.sp).getLsbD 4 = true ∧
    s.be = false ∧ s.inputs = [] ∧ s.run = .run ∧ s.mem.wf = true ∧ s.npr = [] ∧
    s.targetOf 0o776 = .slave .memory ∧ s.targetOf 0o774 = .slave .memory ∧
    entryAnswers 0o14 (s.setSp 0o1000) = true := by decide

theorem witness_RttLetsOneInstructionRun :
    (let s := start [(.r6, 0o774)] 0 [(0o774, 0o3000), (0o776, 0o20), (0o3000, 0o005200)]
     s.readable .word s.sp = true ∧ s.readable .word (s.sp + 2) = true) ∧
    (let t := start [(.r7, 0o3000)] 0o20 [(0o774, 0o3000), (0o776, 0o20), (0o3000, 0o005200)]
     t.ready = true ∧ t.inputs = [] ∧ t.run = .run ∧ t.readable .word t.pc = true ∧
       (shapeOf (decodeWord 0o005200)).answered t = true) ∧
    decodeWord 0o005200 ≠ .rtt ∧ shapeOf (decodeWord 0o005200) = .modify .word ⟨.register, .r0⟩ ∧
    pendingService { start [] 0o20 [] with stov := true } = some .stackOverflow := by decide

theorem witness_PowerFailTrap :
    [RunState.run, .wait, .halted].all (fun r =>
      let s := { start [] 0 [] with run := r, pup := false }
      !s.acLo && !s.pup && decide (s.run = r)) ∧
    ({ start [] 0 [] with acLo := true }).acLo = true ∧ (start [] 0 []).pup = true ∧
    [RunState.run, .wait].all (fun r =>
      let s := { start [] 0o340 [] with pfail := true, run := r }
      s.inputs == [] && !s.be && !s.tbitFlag && !s.stov && decide (s.run = r) && entryAnswers 0o24 s) = true := by
  decide

theorem witness_RestartRoutine :
    let s := { start [] 0 [] with run := .init }
    s.run = .init ∧ s.inputs = [] ∧ s.acLo = false ∧ s.readable .word 0o24 = true ∧ s.readable .word 0o26 = true := by
  decide

theorem witness_MomentaryPowerFailureRestarts :
    let s := { start [] 0 [] with pdwn := true, inputs := [[.pdwnEnds]] }
    s.pdwn = true ∧ s.run ≠ .off ∧ s.acLo = false ∧ s.inputs = [.pdwnEnds] :: [] ∧ s.npr = [] ∧
      s.readable .word 0o24 = true ∧ s.readable .word 0o26 = true := by decide

theorem witness_PowerUpThroughDcLo :
    ({ start [] 0 [] with run := .off }).inputs = [] ∧
    let s := { start [] 0 [] with run := .off, inputs := [[.dcLo false]] }
    s.run = .off ∧ s.inputs = [.dcLo false] :: [] ∧ s.acLo = false ∧ s.npr = [] ∧ s.readable .word 0o24 = true ∧
      s.readable .word 0o26 = true ∧ s.targetOf 0o24 ≠ .slave .device ∧ s.targetOf 0o26 ≠ .slave .device := by decide

theorem witness_HaltRequestGranted :
    [RunState.run, .wait].all (fun r => [false, true].all fun p =>
      let s := { start [] 0 [] with run := r, pfail := p, haltRequest := true }
      s.haltRequest && s.inputs == [] && !s.be && !s.tbitFlag && !s.stov && decide (s.pfail = p)) = true := by decide

theorem witness_HaltedUntilTheConsoleGoesOn :
    ({ start [] 0 [] with run := .halted }).inputs = [] ∧
    [false, true].all (fun w =>
      let s := { start [] 0 [] with run := .halted, waitHeld := w, inputs := [[.goOn]] }
      decide (s.run = .halted) && decide (s.waitHeld = w) && decide (s.inputs = [.goOn] :: []) &&
        (pendingService s).isNone) := by decide

/-- Destinations that can be read and written: a device register, a register, both ends of memory, the PSW, and the
register window. -/
def places : List (Operand × State) :=
  [(⟨.deferred, .r1⟩, mixed [(.r1, 0o177562)]), (⟨.register, .r7⟩, start [] 0 []), (⟨.deferred, .r0⟩, start [(.r0, 0)] 0 []),
    (⟨.autoDec, .r6⟩, start [(.r6, 0o160000)] 0 []), (⟨.autoInc, .r0⟩, start [(.r0, 0o177776)] 0 []),
    (⟨.indexDef, .r0⟩, start [] 0 [(0o1000, 0o2000), (0o2000, 0o177700)])]

/-- Source operands: at the end of memory, and (mode 1) at a device where there is one. -/
def sources : List Operand := [⟨.autoDecDef, .r5⟩, ⟨.deferred, .r1⟩, ⟨.register, .r5⟩]

/-- The state with the source operand in place: R5 - 2 holds a pointer to the last word of memory. -/
def withSource (s : State) : State := { (s.setReg .r5 0o2002) with mem := s.mem.writeWord 0o2000 0o157776 }

def writableEverywhere (sz : Size) : Bool := places.all fun p => operandWritable sz p.1 p.2

def combinableEverywhere (sz : Size) : Bool := sources.all fun q => (places.take 5).all fun p =>
  operandReadable sz q (withSource p.2) &&
    operandWritable sz p.1 (operandStep .dati sz q (withSource p.2)) &&
    operandWritable sz p.1 (moved sz q (withSource p.2))

/-- CLR to TST, ROR to ASL. -/
theorem witness_ClrResult : writableEverywhere .word = true ∧ writableEverywhere .byte = true := by decide

theorem witness_ComNegTstResult : writableEverywhere .word = true ∧ writableEverywhere .byte = true := witness_ClrResult

theorem witness_IncDecResult : writableEverywhere .word = true ∧ writableEverywhere .byte = true := witness_ClrResult

theorem witness_AdcResult : writableEverywhere .word = true ∧ writableEverywhere .byte = true := witness_ClrResult

theorem witness_SbcResult : writableEverywhere .word = true ∧ writableEverywhere .byte = true := witness_ClrResult

theorem witness_RotateShiftResult : writableEverywhere .word = true ∧ writableEverywhere .byte = true := witness_ClrResult

theorem witness_SwabResult :
    writableEverywhere .word = true ∧
    (let s := start [(.r0, 0o2001)] 0 []
     operandPlace .word ⟨.autoInc, .r0⟩ s = .mem 0o2001 ∧ isOdd 0o2001 = true ∧ pointersReadable ⟨.autoInc, .r0⟩ s = true) := by
  decide

/-- A register destination and destinations in memory and at a device. -/
theorem witness_MovResult :
    combinableEverywhere .word = true ∧ combinableEverywhere .byte = true ∧
    (⟨.register, .r0⟩ : Operand).mode = .register ∧ (⟨.deferred, .r0⟩ : Operand).mode ≠ .register := by decide

theorem witness_CmpResult :
    combinableEverywhere .word = true ∧ combinableEverywhere .byte = true :=
  ⟨witness_MovResult.1, witness_MovResult.2.1⟩

theorem witness_LogicalResult :
    combinableEverywhere .word = true ∧ combinableEverywhere .byte = true := witness_CmpResult

theorem witness_AddSubResult :
    combinableEverywhere .word = true ∧ combinableEverywhere .byte = true := witness_CmpResult

theorem witness_TrapInstructions :
    [(0o14 : Word), 0o20, 0o30, 0o34].all (fun v => entryAnswers v (start [] 0 [])) = true := by decide

theorem witness_IllegalAndReservedInstructions :
    entryAnswers 0o10 (start [] 0 []) = true ∧ entryAnswers 0o10 (start [] 0o20 []) = true := by decide

/-- Modes 1 and 2, and mode 7 with its two pointer words at the end of memory. -/
theorem witness_JmpResult :
    (let s := start [(.r0, 0o177777)] 0 []
     pointersReadable ⟨.deferred, .r0⟩ s = true ∧ operandPlace .word ⟨.deferred, .r0⟩ s = .mem 0o177777) ∧
    (let s := start [(.r0, 0o157776), (.r7, 0o157774)] 0 [(0o157774, 0), (0o157776, 0o123457)]
     pointersReadable ⟨.indexDef, .r0⟩ s = true ∧ operandPlace .word ⟨.indexDef, .r0⟩ s = .mem 0o123457) ∧
    (⟨.autoInc, .r0⟩ : Operand).mode = .autoInc ∧ (⟨.autoInc, .r0⟩ : Operand).reg ≠ .r7 := by decide

theorem witness_JsrResult :
    let s := start [(.r0, 0o3000)] 0 []
    pointersReadable ⟨.autoInc, .r0⟩ s = true ∧ operandPlace .word ⟨.autoInc, .r0⟩ s = .mem 0o3000 ∧
    (addressStep ⟨.autoInc, .r0⟩ s).writable .word ((addressStep ⟨.autoInc, .r0⟩ s).sp - 2) = true ∧
    Reg.r7 ≠ .r6 ∧ (⟨.autoInc, .r0⟩ : Operand).mode ≠ .register := by decide

theorem witness_RtsResult :
    (start [(.r6, 0o157776)] 0 []).readable .word (start [(.r6, 0o157776)] 0 []).sp = true ∧ Reg.r5 ≠ .r6 := by decide

theorem witness_StackPointerLinkageIsOpen :
    let s := start [(.r0, 0o3000)] 0 []
    (⟨.deferred, .r0⟩ : Operand).mode ≠ .register ∧
    pointersReadable ⟨.deferred, .r0⟩ s = true ∧ operandPlace .word ⟨.deferred, .r0⟩ s = .mem 0o3000 ∧
    (addressStep ⟨.deferred, .r0⟩ s).writable .word ((addressStep ⟨.deferred, .r0⟩ s).sp - 2) = true ∧
    s.readable .word s.sp = true := by decide

/-- Both pops succeed; the first fails; the second fails. -/
theorem witness_ReturnFromTrapResult :
    (let s := start [] 0 []
     s.readable .word s.sp = true ∧ s.readable .word (s.sp + 2) = true) ∧
    (start [(.r6, 0o160000)] 0 []).readFails .word 0o160000 = some .busError ∧
    (let s := start [(.r6, 0o157776)] 0 []
     s.readable .word s.sp = true ∧ s.readFails .word (s.sp + 2) = some .busError) := by decide

theorem witness_HaltResult :
    (start [] 0 []).ready = true ∧ (start [] 0 []).readable .word 0o1000 = true ∧
    (start [] 0 []).gets .word 0o1000 = 0 := by decide

theorem witness_WaitResult :
    pendingService { start [] 0 [] with run := .wait } = none ∧
    pendingService { start [] 0 [] with run := .wait, stov := true } = some .stackOverflow ∧
    ({ start [] 0 [] with run := .wait }).inputs = [] := by decide

end Sys2Proof.Tests
end

/-! SUPPORT and PROOFS of family 10_state: the invariant through the input events, SERVICE and a step. -/

namespace Sys2Proof.Machine

/-! ### The invariant: what its clauses look at -/

/-- A running or waiting processor holds no WAIT back. -/
theorem Inv.waitHeld_false {s : State} (h : Inv s) (hr : s.run ≠ .halted) : s.waitHeld = false :=
  Bool.eq_false_iff.mpr fun hw => hr (h.held hw)

/-- A processor that runs instructions or waits satisfies the invariant by its first three clauses. -/
theorem inv_of_running {s : State} (hmem : s.mem.wf = true) (hpar : s.pe = true → s.be = true)
    (hheld : s.waitHeld = false) (hr : s.run = .run ∨ s.run = .wait ∨ s.run = .halted) : Inv s where
  mem := hmem
  parity := hpar
  held := fun hw => absurd hw (by simp [hheld])
  init := fun hi => by rcases hr with e | e | e <;> rw [hi] at e <;> cases e
  off := fun ho => by rcases hr with e | e | e <;> rw [ho] at e <;> cases e

/-- Bus cycles, register updates and trap sequences of a running or waiting processor keep the invariant. -/
theorem Inv.moves {s t : State} (h : Inv s) (hr : s.run = .run ∨ s.run = .wait) (hm : Moves s t) : Inv t := by
  have hne : s.run ≠ .halted := by rcases hr with e | e <;> rw [e] <;> decide
  refine inv_of_running (hm.mem h.mem) (hm.parity h.parity) (hm.waitHeld.trans (h.waitHeld_false hne)) ?_
  rcases hm.run with e | e | e
  · rw [e]; exact hr.imp_right .inl
  · exact .inr (.inr e)
  · exact .inr (.inl e)

/-! ### The input events -/

theorem Inv.setRequests {s : State} (h : Inv s) (l : BrLevel) (q : List BusRequest) : Inv (s.setRequests l q) := by
  cases l <;> exact ⟨h.mem, h.parity, h.held, h.init, h.off⟩

theorem Inv.busReset {s : State} (h : Inv s) : Inv s.busReset := ⟨h.mem, h.parity, h.held, h.init, h.off⟩

theorem Inv.setScratchWord {s : State} (h : Inv s) (k : Nat) (v : Word) : Inv (s.setScratchWord k v) := by
  unfold State.setScratchWord
  split <;> exact ⟨h.mem, h.parity, h.held, h.init, h.off⟩

/-- A cycle of another master writes memory, which keeps its canonical form, or the PSW. -/
theorem Inv.dma {s : State} (h : Inv s) (c : MasterCycle) : Inv (s.dma c) := by
  have hwf := (moves_dma s c).mem h.mem
  obtain ⟨m, p, n, e⟩ := s.dma_eq c
  rw [e] at hwf ⊢
  exact ⟨hwf, h.parity, h.held, h.init, h.off⟩

theorem Inv.master {s : State} (h : Inv s) (c : MasterCycle) : Inv (s.master c) := by
  cases c with
  | write a v =>
    unfold State.master
    dsimp only
    split
    · exact h.setScratchWord _ v
    · exact h.dma (.write a v)
  | writeByte a v => exact h.dma (.writeByte a v)

/-- The INIT of a power-up clears every flag and both one-shots (D12). -/
theorem inv_powerInit {s : State} (hmem : s.mem.wf = true) : Inv s.powerInit where
  mem := hmem
  parity := fun hp => nomatch hp
  held := fun hw => nomatch hw
  init := fun _ => ⟨rfl, rfl, rfl, rfl, rfl, rfl⟩
  off := fun ho => nomatch ho

/-- Continue leaves HALTED alone: for RUN, or for the WAIT that was held (D15). -/
theorem Inv.goOn {s : State} (h : Inv s) : Inv s.goOn := by
  unfold State.goOn
  split
  · refine inv_of_running h.mem h.parity rfl ?_
    dsimp only
    split
    · exact .inr (.inl rfl)
    · exact .inl rfl
  · exact h

/-- AC LO sets PFAIL and fires PDWN only outside INIT and OFF (R383). -/
theorem Inv.setAcLo {s : State} (h : Inv s) (on : Bool) : Inv (s.setAcLo on) := by
  unfold State.setAcLo
  split
  · rename_i hc
    simp only [Bool.and_eq_true, bne_iff_ne, ne_eq] at hc
    obtain ⟨⟨_, hinit⟩, hoff⟩ := hc
    exact { mem := h.mem, parity := h.parity, held := h.held
            init := fun hi => absurd hi hinit, off := fun ho => absurd ho hoff }
  · exact ⟨h.mem, h.parity, h.held, h.init, h.off⟩

/-- DC LO stops both one-shots; its negation is a power-up (R381, R384). -/
theorem Inv.setDcLo {s : State} (h : Inv s) (on : Bool) : Inv (s.setDcLo on) := by
  unfold State.setDcLo
  split
  · exact ⟨h.mem, h.parity, fun hw => Bool.noConfusion hw, fun hi => RunState.noConfusion hi, fun _ => rfl⟩
  · split
    · exact inv_powerInit (s := s.coldRegisters) h.mem
    · exact h

theorem Inv.pupEnds {s : State} (h : Inv s) : Inv { s with pup := false } where
  mem := h.mem
  parity := h.parity
  held := h.held
  init := fun hi => by
    obtain ⟨hbe, hstov, htbit, hpfail, _, hpdwn⟩ := h.init hi
    exact ⟨hbe, hstov, htbit, hpfail, rfl, hpdwn⟩
  off := h.off

/-- Every event of the world outside keeps the invariant. -/
theorem Inv.accept {s : State} (h : Inv s) (e : Input) : Inv (s.accept e) := by
  cases e with
  | request l r => exact h.setRequests l _
  | withdraw l => exact h.setRequests l _
  | haltRequest on => exact ⟨h.mem, h.parity, h.held, h.init, h.off⟩
  | goOn => exact h.goOn
  | acLo on => exact h.setAcLo on
  | dcLo on => exact h.setDcLo on
  | pupEnds => exact h.pupEnds
  | pdwnEnds =>
    show Inv (if s.pdwn then s.powerInit else s)
    split
    · exact inv_powerInit h.mem
    · exact h
  | busInit => exact h.busReset
  | master c => exact h.master c
  | npr batches => exact ⟨h.mem, h.parity, h.held, h.init, h.off⟩
  | parity a bad => exact ⟨h.mem, h.parity, h.held, h.init, h.off⟩

theorem Inv.acceptAll {s : State} (h : Inv s) (events : List Input) : Inv (events.foldl State.accept s) := by
  induction events generalizing s with
  | nil => exact h
  | cons e rest ih => exact ih (h.accept e)

theorem Inv.takeInputs {s : State} (h : Inv s) : Inv s.takeInputs := by
  unfold State.takeInputs
  split
  · exact h
  · rename_i now later _
    exact Inv.acceptAll (s := { s with inputs := later }) ⟨h.mem, h.parity, h.held, h.init, h.off⟩ now

/-! ### SERVICE, the restart routine and an instruction -/

/-- A trap or interrupt sequence starts from a processor that runs. -/
theorem inv_trapSequence {s : State} {v : Word} (hmem : s.mem.wf = true) (hpar : s.pe = true → s.be = true)
    (hheld : s.waitHeld = false) (hr : s.run = .run) : Inv (trapSequence v s) :=
  (inv_of_running hmem hpar hheld (.inl hr)).moves (.inl hr) (trapSequence_moves v s)

/-- SERVICE clears the condition it takes, starts the processor and runs a sequence; a granted halt stops it, holding a
WAIT back where one was interrupted (R325, D16). -/
theorem Inv.serve {s t : State} {c : Service} (h : Inv s) (hr : s.run = .run ∨ s.run = .wait)
    (hs : serve c s = .next t) : Inv t := by
  have hheld : s.waitHeld = false := h.waitHeld_false (by rcases hr with e | e <;> rw [e] <;> decide)
  cases c with
  | busError =>
    rw [serve_busError] at hs
    cases hs
    exact inv_trapSequence h.mem (fun hp => Bool.noConfusion hp) hheld rfl
  | trace =>
    rw [serve_trace] at hs
    cases hs
    exact inv_trapSequence h.mem h.parity hheld rfl
  | stackOverflow =>
    rw [serve_stackOverflow] at hs
    cases hs
    exact inv_trapSequence h.mem h.parity hheld rfl
  | powerFail =>
    rw [serve_powerFail] at hs
    cases hs
    exact inv_trapSequence h.mem h.parity hheld rfl
  | haltSwitch =>
    rw [serve_haltSwitch] at hs
    cases hs
    exact ⟨h.mem, h.parity, fun _ => rfl, fun hi => RunState.noConfusion hi, fun ho => RunState.noConfusion ho⟩
  | interrupt l r rest =>
    cases r with
    | vector v =>
      rw [serve_vector] at hs
      cases hs
      have hrun : Inv { s with run := .run } := inv_of_running h.mem h.parity hheld (.inl rfl)
      have hq := hrun.setRequests l rest
      exact hq.moves (.inl (by cases l <;> rfl)) (trapSequence_moves v _)
    | silent => rw [serve_silent] at hs; cases hs

/-- The restart routine leaves INIT for RUN and loads the vector at 24 (R382). -/
theorem Inv.restart {s : State} (h : Inv s) (hi : s.run = .init) : Inv (restart s) := by
  have hheld : s.waitHeld = false := h.waitHeld_false (by rw [hi]; decide)
  have hstart : Inv ((({ s with run := .run, pup := true }.setB s.pc).setReg .r5 s.pc).setR13 0o24) :=
    inv_of_running h.mem h.parity hheld (.inl rfl)
  exact hstart.moves (.inl rfl) (loadVector_moves 0o24 _)

theorem runInstruction_moves {s t : State} (h : runInstruction s = .next t) : Moves s t := by
  have hf := fetch_moves s
  unfold runInstruction at h
  split at h
  · rename_i w u hu
    rw [hu] at hf
    exact Moves.trans hf (exec_moves _ u t h)
  · rename_i e u hu
    rw [hu] at hf
    cases h
    exact Moves.trans hf (takeBusError_moves u e)

theorem Inv.stepAfterInputs {s t : State} (h : Inv s) (hs : stepAfterInputs s = .next t) : Inv t := by
  unfold Machine.stepAfterInputs at hs
  cases hr : s.run <;> rw [hr] at hs <;> dsimp only at hs
  case init =>
    split at hs
    · cases hs
    · cases hs; exact h.restart hr
  case run =>
    split at hs
    · exact h.serve (.inl hr) hs
    · exact h.moves (.inl hr) (runInstruction_moves hs)
  case wait =>
    split at hs
    · exact h.serve (.inr hr) hs
    · cases hs; exact h
  case halted => cases hs; exact h
  case off => cases hs; exact h

/-- Settles O3: the events of the world outside keep the invariant, and so does what the run state then does. -/
theorem stepKeepsInvariant : Obligations.StepKeepsInvariant := by
  unfold Obligations.StepKeepsInvariant
  intro s t h hs
  exact h.takeInputs.stepAfterInputs hs

end Sys2Proof.Machine

/-! SUPPORT and PROOFS of family 10_state: the footprint of an instruction, composed from those of its parts. -/

namespace Sys2Proof.Machine

/-! ### The footprint relation -/

/-- What separates `t` from `s` is within a footprint: stores `ps` with the size of each, registers `rs`, and the whole
PSW where `loads` says so. Memory and the PSW are claimed where no other master has the bus. -/
structure Touches (ps : List (Size × Word)) (rs : List Reg) (loads : Bool) (s t : State) : Prop where
  keeps : Keeps s t
  npr : s.npr = [] → t.npr = []
  mem : s.mem.wf = true → s.npr = [] → ∀ a, a ∉ ps.flatMap (fun p => s.bytesAt p.1 p.2) →
    t.mem.read a = s.mem.read a
  reg : ∀ r, r ∉ rs → t.reg r = s.reg r
  psw : s.npr = [] → loads = false → (∀ p ∈ ps, s.targetOf p.2 ≠ .psw) →
    t.psw.extractLsb' 4 4 = s.psw.extractLsb' 4 4

theorem Touches.refl (s : State) : Touches [] [] false s s :=
  ⟨Keeps.refl s, id, fun _ _ _ _ => rfl, fun _ _ => rfl, fun _ _ _ => rfl⟩

/-- One after the other: the footprints are joined. -/
theorem Touches.trans {ps qs : List (Size × Word)} {rs rs' : List Reg} {l l' : Bool} {s t u : State}
    (h : Touches ps rs l s t) (k : Touches qs rs' l' t u) : Touches (ps ++ qs) (rs ++ rs') (l || l') s u where
  keeps := h.keeps.trans k.keeps
  npr := k.npr ∘ h.npr
  mem := by
    intro hm hn a ha
    rw [List.flatMap_append, List.mem_append, not_or] at ha
    have hb : ∀ p : Size × Word, t.bytesAt p.1 p.2 = s.bytesAt p.1 p.2 := fun p => bytesAt_congr h.keeps.cfg p.1 p.2
    rw [k.mem (h.keeps.wf hm) (h.npr hn) a (by simp only [hb]; exact ha.2), h.mem hm hn a ha.1]
  reg := by
    intro r hr
    rw [List.mem_append, not_or] at hr
    rw [k.reg r hr.2, h.reg r hr.1]
  psw := by
    intro hn hl hp
    rw [Bool.or_eq_false_iff] at hl
    rw [k.psw (h.npr hn) hl.2 fun p hq => by
        rw [targetOf_congr h.keeps.cfg]; exact hp p (List.mem_append_right ps hq),
      h.psw hn hl.1 fun p hq => hp p (List.mem_append_left qs hq)]

/-- A footprint may be enlarged. -/
theorem Touches.mono {ps qs : List (Size × Word)} {rs rs' : List Reg} {l l' : Bool} {s t : State}
    (h : Touches ps rs l s t) (hp : ps ⊆ qs) (hr : rs ⊆ rs') (hl : l = true → l' = true) :
    Touches qs rs' l' s t where
  keeps := h.keeps
  npr := h.npr
  mem := fun hm hn a ha => h.mem hm hn a fun hx => by
    obtain ⟨p, hp', hx⟩ := List.mem_flatMap.mp hx
    exact ha (List.mem_flatMap.mpr ⟨p, hp hp', hx⟩)
  reg := fun r hx => h.reg r fun hx' => hx (hr hx')
  psw := fun hn hl' hq =>
    h.psw hn (Bool.eq_false_iff.mpr fun e => by rw [hl e] at hl'; cases hl') fun p hp' => hq p (hp hp')

/-- A footprint looks only at what is seen of the state reached. -/
theorem Touches.vis {ps : List (Size × Word)} {rs : List Reg} {l : Bool} {s t u : State}
    (h : Touches ps rs l s t) (k : u.visible = t.visible) : Touches ps rs l s u where
  keeps := h.keeps.vis k
  npr := fun hn => (vis_npr k).trans (h.npr hn)
  mem := by rw [vis_mem k]; exact h.mem
  reg := fun r hr => (vis_reg k r).trans (h.reg r hr)
  psw := by rw [vis_psw k]; exact h.psw

/-! ### Footprints of the parts -/

theorem touches_setReg (s : State) (r : Reg) (v : Word) : Touches [] [r] false s (s.setReg r v) where
  keeps := keeps_setReg s r v
  npr := id
  mem := fun _ _ _ _ => rfl
  reg := fun q hq => (State.reg_setReg s r q v).trans (if_neg fun e => hq (by simp [e]))
  psw := fun _ _ _ => rfl

theorem touches_setCC (s : State) (f : CC) : Touches [] [] false s (s.setCC f) where
  keeps := keeps_setCC s f
  npr := id
  mem := fun _ _ _ _ => rfl
  reg := fun _ _ => rfl
  psw := fun _ _ _ => setCC_high s f

theorem touches_drawn (s : State) : Touches [] [] false s s.drawn :=
  ⟨keeps_draws s _, id, fun _ _ _ _ => rfl, fun _ _ => rfl, fun _ _ _ => rfl⟩

theorem touches_withPsw (s : State) (p : BitVec 8) : Touches [] [] true s { s with psw := p } :=
  ⟨keeps_psw s p, id, fun _ _ _ _ => rfl, fun _ _ => rfl, fun _ h => nomatch h⟩

theorem touches_complete (s : State) : Touches [] [] false s s.complete where
  keeps := keeps_complete s
  npr := fun hn => (State.complete_npr s).trans hn
  mem := fun _ _ _ _ => by rw [State.complete_mem]
  reg := fun r _ => State.complete_reg s r
  psw := fun _ _ _ => by rw [State.complete_psw]

/-- Anything that leaves memory and the PSW alone where no other master has the bus. -/
theorem touches_of_alone {rs : List Reg} {s t : State} (hk : Keeps s t) (ha : Alone s s → Alone s t)
    (hr : ∀ r, r ∉ rs → t.reg r = s.reg r) : Touches [] rs false s t where
  keeps := hk
  npr := fun hn => (ha ⟨hn, rfl, rfl⟩).1
  mem := fun _ hn _ _ => by rw [(ha ⟨hn, rfl, rfl⟩).2.1]
  reg := hr
  psw := fun hn _ _ => by rw [(ha ⟨hn, rfl, rfl⟩).2.2]

theorem touches_after (s : State) (k : CycleKind) (sz : Size) (a : Word) : Touches [] [] false s (s.after k sz a) :=
  touches_of_alone (keeps_after s k sz a) (fun h => alone_after h k sz a) fun r _ => State.after_reg s k sz a r

theorem touches_lowered (s : State) : Touches [] [.r6] false s (lowered s) :=
  touches_of_alone (keeps_lowered s) alone_lowered fun r hr =>
    (lowered_reg s r).trans (if_neg fun e => hr (by simp [← e]))

theorem touches_operandStep (k : CycleKind) (sz : Size) (o : Operand) (s : State) :
    Touches [] (stepsOf o) false s (operandStep k sz o s) :=
  touches_of_alone (keeps_operandStep k sz o s) (fun h => alone_operandStep h k sz o) fun _ => operandStep_reg

theorem touches_addressStep (o : Operand) (s : State) : Touches [] (stepsOf o) false s (addressStep o s) :=
  touches_of_alone (keeps_addressStep o s) (fun h => alone_addressStep h o) fun _ => addressStep_reg

theorem touches_withWord (s : State) {a : Word} (v : Word) (h : isOdd a = false) :
    Touches [(.word, a)] [] false s (s.withWord a v) where
  keeps := keeps_withWord s v h
  npr := fun hn => (withWord_npr s a v).trans hn
  mem := fun hm _ x hx => withWord_read v hm h (by simpa using hx)
  reg := fun _ _ => by unfold State.reg; rw [withWord_regs]
  psw := fun _ _ hp => by rw [withWord_psw v (hp _ (List.mem_singleton_self _))]

theorem withByte_npr (s : State) (a : Word) (v : Byte) : (s.withByte a v).npr = s.npr := by
  obtain ⟨m, p, n, l, h⟩ := withByte_eq s a v; rw [h]

theorem touches_withByte (s : State) (a : Word) (v : Byte) : Touches [(.byte, a)] [] false s (s.withByte a v) where
  keeps := keeps_withByte s a v
  npr := fun hn => (withByte_npr s a v).trans hn
  mem := fun hm _ x hx => withByte_read v hm (by simpa using hx)
  reg := fun _ _ => by unfold State.reg; rw [withByte_regs]
  psw := fun _ _ hp => by rw [withByte_psw v (hp _ (List.mem_singleton_self _))]

/-- A push stores one word below R6. -/
theorem touches_pushed (v : Word) {s : State} (h : s.writable .word (s.sp - 2) = true) :
    Touches [(.word, s.sp - 2)] [.r6] false s (pushed v s) :=
  (touches_lowered s).trans (touches_withWord (lowered s) v (writable_even h))

theorem touches_popped (s : State) : Touches [] [.r6] false s (popped s) :=
  (touches_after s .dati .word s.sp).trans (touches_setReg _ .r6 _)

/-- A result stored back at its operand's place: at the operand's address, or in the register that mode 0 names. -/
theorem touches_storeWord {o : Operand} {s : State} (v : Word) (t : State) (h : operandWritable .word o s = true) :
    Touches (Shape.stores.place .word (operandPlace .word o s)) (Shape.registers.named o) false t
      (storeWord (operandPlace .word o s) v t) := by
  cases hp : operandPlace .word o s with
  | reg q =>
    obtain ⟨hmode, rfl⟩ := operandPlace_reg hp
    unfold Shape.registers.named
    rw [if_pos hmode]
    exact touches_setReg t o.reg v
  | mem a =>
    have he : isOdd a = false := writable_even (operandWritable_writable h a hp)
    exact (touches_withWord t v he).mono (List.Subset.refl _) (List.nil_subset _) id

theorem touches_storeByte {o : Operand} {s : State} (v : Byte) (t : State) :
    Touches (Shape.stores.place .byte (operandPlace .byte o s)) (Shape.registers.named o) false t
      (storeByte (operandPlace .byte o s) v t) := by
  cases hp : operandPlace .byte o s with
  | reg q =>
    obtain ⟨hmode, rfl⟩ := operandPlace_reg hp
    unfold Shape.registers.named
    rw [if_pos hmode]
    exact touches_setReg t o.reg _
  | mem a => exact (touches_withByte t a v).mono (List.Subset.refl _) (List.nil_subset _) id

/-! ### Footprints of the completed effects -/

theorem touches_afterTest (sz : Size) (dst : Operand) (f : CC) (s : State) :
    Touches [] (stepsOf dst) false s (afterTest sz dst f s) :=
  (((touches_operandStep .dati sz dst s).trans (touches_setCC _ f)).trans (touches_complete _)).mono
    (by simp) (by simp) (by simp)

theorem touches_afterWord {dst : Operand} (r : Word) (f : CC) {s : State} (h : operandWritable .word dst s = true) :
    Touches (Shape.stores.place .word (operandPlace .word dst s)) (stepsOf dst ++ Shape.registers.named dst) false s
      (afterWord dst r f s) :=
  ((((touches_operandStep .datip .word dst s).trans (touches_setCC _ f)).trans (touches_storeWord r _ h)).trans
    (touches_complete _)).mono (by simp) (by simp) (by simp)

theorem touches_afterByte (dst : Operand) (r : Byte) (f : CC) (s : State) :
    Touches (Shape.stores.place .byte (operandPlace .byte dst s)) (stepsOf dst ++ Shape.registers.named dst) false s
      (afterByte dst r f s) :=
  ((((touches_operandStep .datip .byte dst s).trans (touches_setCC _ f)).trans (touches_storeByte r _)).trans
    (touches_complete _)).mono (by simp) (by simp) (by simp)

/-- The two pushes of a trap sequence (R340). -/
theorem touches_saved {s : State} (h1 : s.writable .word (s.sp - 2) = true) (h2 : s.writable .word (s.sp - 4) = true) :
    Touches [(.word, s.sp - 2), (.word, s.sp - 4)] [.r6] false s (saved s) := by
  have hsp : (pushed (zext (lowered s).psw) s).sp - 2 = s.sp - 4 := by rw [pushed_sp, sp_sub_four]
  have h2' : (pushed (zext (lowered s).psw) s).writable .word ((pushed (zext (lowered s).psw) s).sp - 2) = true := by
    rw [hsp, writable_congr (pushed_cfg _ s)]; exact h2
  have hpush := (touches_pushed (zext (lowered s).psw) h1).trans (touches_pushed s.pc h2')
  rw [hsp] at hpush
  exact hpush.mono (by simp) (by simp) id

/-- A trap sequence stores PSW and PC on the stack and loads both from the vector. -/
theorem touches_entered {v : Word} {s : State} (h : entryAnswers v s = true) :
    Touches [(.word, s.sp - 2), (.word, s.sp - 4)] [.r7, .r6] true s (entered v s) := by
  unfold entryAnswers at h
  simp only [Bool.and_eq_true] at h
  obtain ⟨⟨⟨h1, h2⟩, _⟩, _⟩ := h
  exact (((((touches_saved h1 h2).trans (touches_after _ .dati .word v)).trans (touches_setReg _ .r7 _)).trans
    (touches_after _ .dati .word (v + 2))).trans (touches_withPsw _ _)).mono (by simp) (by simp) (by simp)

/-! ### Footprints of the instructions, by shape -/

/-- The outcome is a next state within the footprint of the shape. -/
def Framed (k : Shape) (s : State) (r : Host.Outcome State Fault Refusal) : Prop :=
  ∃ t, r = .next t ∧ Touches (k.stores s) k.registers k.loadsPsw s t

/-- A completed instruction whose effect is known by what is seen of it. -/
theorem Framed.of_visible {k : Shape} {s u : State} {r : Host.Outcome State Fault Refusal}
    (hr : ∃ t, r = .next t ∧ t.visible = u.visible) {ps : List (Size × Word)} {rs : List Reg} {l : Bool}
    (hu : Touches ps rs l s u) (hp : ps ⊆ k.stores s) (hrs : rs ⊆ k.registers)
    (hl : l = true → k.loadsPsw = true) :
    Framed k s r := by
  obtain ⟨t, ht, hv⟩ := hr
  exact ⟨t, ht, (hu.vis hv).mono hp hrs hl⟩

theorem modifyWord_framed (op : CC → Word → AluOut 16) {dst : Operand} {s : State}
    (h : operandWritable .word dst s = true) : Framed (.modify .word dst) s (finish (modifyWord op dst s)) :=
  .of_visible (modifyWord_completes op h) (touches_afterWord _ _ h) (List.Subset.refl _)
    (List.subset_cons_self _ _) id

theorem modifyByte_framed (op : CC → Byte → AluOut 8) {dst : Operand} {s : State}
    (h : operandWritable .byte dst s = true) : Framed (.modify .byte dst) s (finish (modifyByte op dst s)) :=
  .of_visible (modifyByte_completes op h) (touches_afterByte dst _ _ s) (List.Subset.refl _)
    (List.subset_cons_self _ _) id

theorem testWord_framed (op : CC → Word → AluOut 16) {dst : Operand} {s : State}
    (h : operandReadable .word dst s = true) : Framed (.test .word dst) s (finish (testWord op dst s)) :=
  .of_visible (testWord_completes op h) (touches_afterTest .word dst _ s) (List.Subset.refl _)
    (List.subset_cons_self _ _) id

theorem testByte_framed (op : CC → Byte → AluOut 8) {dst : Operand} {s : State}
    (h : operandReadable .byte dst s = true) : Framed (.test .byte dst) s (finish (testByte op dst s)) :=
  .of_visible (testByte_completes op h) (touches_afterTest .byte dst _ s) (List.Subset.refl _)
    (List.subset_cons_self _ _) id

theorem compareWord_framed (op : CC → Word → Word → AluOut 16) {src dst : Operand} {s : State}
    (h : Shape.answered s (.compare .word src dst) = true) :
    Framed (.compare .word src dst) s (finish (compareWord op src dst s)) := by
  obtain ⟨hs, hd⟩ := Bool.and_eq_true_iff.mp h
  exact .of_visible (compareWord_completes op hs hd)
    ((touches_operandStep .dati .word src s).trans (touches_afterTest .word dst _ _)) (List.Subset.refl _)
    (List.subset_cons_self _ _) id

theorem compareByte_framed (op : CC → Byte → Byte → AluOut 8) {src dst : Operand} {s : State}
    (h : Shape.answered s (.compare .byte src dst) = true) :
    Framed (.compare .byte src dst) s (finish (compareByte op src dst s)) := by
  obtain ⟨hs, hd⟩ := Bool.and_eq_true_iff.mp h
  exact .of_visible (compareByte_completes op hs hd)
    ((touches_operandStep .dati .byte src s).trans (touches_afterTest .byte dst _ _)) (List.Subset.refl _)
    (List.subset_cons_self _ _) id

theorem combineWord_framed (op : CC → Word → Word → AluOut 16) {src dst : Operand} {s : State}
    (h : Shape.answered s (.combine .word src dst) = true) :
    Framed (.combine .word src dst) s (finish (combineWord op src dst s)) := by
  obtain ⟨hs, hd⟩ := Bool.and_eq_true_iff.mp h
  exact .of_visible (combineWord_completes op hs hd)
    ((touches_operandStep .dati .word src s).trans (touches_afterWord _ _ hd)) (List.Subset.refl _)
    (by simp [Shape.registers]) id

theorem combineByte_framed (op : CC → Byte → Byte → AluOut 8) {src dst : Operand} {s : State}
    (h : Shape.answered s (.combine .byte src dst) = true) :
    Framed (.combine .byte src dst) s (finish (combineByte op src dst s)) := by
  obtain ⟨hs, hd⟩ := Bool.and_eq_true_iff.mp h
  exact .of_visible (combineByte_completes op hs hd)
    ((touches_operandStep .dati .byte src s).trans (touches_afterByte dst _ _ _)) (List.Subset.refl _)
    (by simp [Shape.registers]) id

/-- SWAB stores as every modifying instruction on words does (R204). -/
theorem swab_framed {dst : Operand} {s : State} (h : operandWritable .word dst s = true) :
    Framed (.modify .word dst) s (execSwab dst s) := by
  obtain ⟨t, ht, hv, _⟩ := dstModifyRead_ok (operandWritable_readable h)
  have hc : t.cfg = s.cfg := (vis_cfg hv).trans (operandStep_cfg _ _ _ _)
  unfold execSwab
  rw [ht, Res.andThen_ok]
  dsimp only
  generalize aluSwab t.cc (operandValue .word dst s) = o
  have ho : ((t.loadAlu o).setR17 o.r).visible = ((operandStep .datip .word dst s).setCC o.cc).visible :=
    vis_loadAlu hv o
  exact .of_visible
    (finish_completes (dstWrite_word_after h (t := (t.loadAlu o).setR17 o.r) hc) (vis_storeWord ho _ _))
    (touches_afterWord _ _ h) (List.Subset.refl _) (List.subset_cons_self _ _) id

/-- The codes that MOV and MOVB set are those of `moved`. -/
theorem moved_word_of_srcRead {src : Operand} {s t : State} (hv : t.visible = (operandStep .dati .word src s).visible) :
    (t.setCC (aluMov t.cc (operandValue .word src s)).cc).visible = (moved .word src s).visible := by
  rw [vis_cc hv]; exact vis_setCC hv _

theorem moved_byte_of_srcRead {src : Operand} {s t : State} (hv : t.visible = (operandStep .dati .byte src s).visible) :
    (t.setCC (aluMov t.cc (lowByte (operandValue .byte src s))).cc).visible = (moved .byte src s).visible := by
  rw [vis_cc hv]; exact vis_setCC hv _

theorem touches_moved (sz : Size) (src : Operand) (s : State) : Touches [] (stepsOf src) false s (moved sz src s) := by
  cases sz <;> exact ((touches_operandStep .dati _ src s).trans (touches_setCC _ _)).mono (by simp) (by simp) (by simp)

theorem mov_framed {src dst : Operand} {s : State} (h : Shape.answered s (.move .word src dst) = true) :
    Framed (.move .word src dst) s (execMov src dst s) := by
  obtain ⟨hs, hd⟩ := Bool.and_eq_true_iff.mp h
  obtain ⟨t, ht, hv, _⟩ := srcRead_ok hs
  have hm := moved_word_of_srcRead hv
  obtain ⟨u, hu, huv⟩ := dstWriteOnly_word (v := operandValue .word src s)
    ((vis_operandWritable hm .word dst).trans hd)
  have hr : (srcRead .word src s).andThen
      (fun v s => dstWriteOnly .word dst v (s.setCC (aluMov s.cc v).cc)) = .ok () u := by rw [ht]; exact hu
  rw [vis_operandPlace hm] at huv
  exact .of_visible (finish_completes hr (huv.trans (vis_storeWord (vis_operandStep hm .datip .word dst) _ _)))
    ((((touches_moved .word src s).trans (touches_operandStep .datip .word dst _)).trans
      (touches_storeWord _ _ hd)).trans (touches_complete _))
    (by simp [Shape.stores]) (by simp [Shape.registers]) (by simp)

/-- MOVB to a register writes all of it (R213); otherwise the byte is stored. -/
theorem movb_framed {src dst : Operand} {s : State} (h : Shape.answered s (.move .byte src dst) = true) :
    Framed (.move .byte src dst) s (execMovb src dst s) := by
  obtain ⟨hs, hd⟩ := Bool.and_eq_true_iff.mp h
  obtain ⟨t, ht, hv, _⟩ := srcRead_ok hs
  have hm := moved_byte_of_srcRead hv
  unfold execMovb
  rw [ht, Res.andThen_ok]
  by_cases hreg : dst.mode = .register
  · rw [if_pos hreg]
    exact .of_visible (finish_completes rfl
        (vis_setReg (s := (t.setCC (aluMov t.cc (lowByte (operandValue .byte src s))).cc).setB _) hm dst.reg _))
      (((touches_moved .byte src s).trans (touches_setReg _ dst.reg _)).trans (touches_complete _))
      (by simp) (by simp [Shape.registers, Shape.registers.named, hreg]) (by simp)
  · rw [if_neg hreg]
    obtain ⟨u, hu, huv⟩ := dstWriteOnly_byte (v := operandValue .byte src s)
      ((vis_operandWritable hm .byte dst).trans hd)
    rw [vis_operandPlace hm] at huv
    exact .of_visible (finish_completes hu (huv.trans (vis_storeByte (vis_operandStep hm .datip .byte dst) _ _)))
      ((((touches_moved .byte src s).trans (touches_operandStep .datip .byte dst _)).trans
        (touches_storeByte _ _)).trans (touches_complete _))
      (by simp [Shape.stores]) (by simp [Shape.registers]) (by simp)

/-- Outside mode 0 an operand is in memory. -/
theorem operandPlace_mem {sz : Size} {o : Operand} {s : State} (h : o.mode ≠ .register) :
    ∃ a, operandPlace sz o s = .mem a := by
  cases hp : operandPlace sz o s with
  | reg q => exact absurd (operandPlace_reg hp).1 h
  | mem a => exact ⟨a, rfl⟩

/-- JMP outside mode 0 is the address calculation and the load of PC (R200). -/
theorem execJmp_of_mode {dst : Operand} {s : State} (h : dst.mode ≠ .register) :
    execJmp dst s = finish ((dstAddress dst s).andThen fun l s =>
      match l with
      | .mem a => .ok () (s.setPc a)
      | .reg _ => .ok () s) := by
  unfold execJmp
  split
  · contradiction
  · rfl

/-- JSR outside mode 0 is the address calculation and the linkage (R266). -/
theorem execJsr_of_mode {link : Reg} {dst : Operand} {s : State} (h : dst.mode ≠ .register) :
    execJsr link dst s = finish ((dstAddress dst s).andThen fun l s =>
      match l with
      | .mem a => linkTo link a s
      | .reg _ => .ok () s) := by
  unfold execJsr
  split
  · contradiction
  · rfl

theorem jmp_framed {dst : Operand} {s : State} (h : Shape.answered s (.jump dst) = true) :
    Framed (.jump dst) s (execJmp dst s) := by
  obtain ⟨hmode, hp⟩ := Bool.and_eq_true_iff.mp h
  have hmode : dst.mode ≠ .register := by simpa using hmode
  obtain ⟨a, ha⟩ := operandPlace_mem (sz := .word) (s := s) hmode
  obtain ⟨t, ht, hv, _⟩ := dstAddress_ok hp
  rw [execJmp_of_mode hmode, ht, ha]
  exact .of_visible (finish_completes rfl (vis_setPc hv a))
    (((touches_addressStep dst s).trans (touches_setReg _ .r7 a)).trans (touches_complete _))
    (by simp) (by simp [Shape.registers]) (by simp)

/-- The linkage of JSR SP: one push, and a free value in R6 (R267 d). -/
theorem linkTo_sp {a : Word} {s : State} (h : s.writable .word (s.sp - 2) = true) :
    linkTo .r6 a s = .ok ()
      (((pushed s.freeWord s.drawn).drawn.setReg .r6 (pushed s.freeWord s.drawn).freeWord).setPc a) := by
  simp only [linkTo, if_true, push_writable (s := s.drawn) s.freeWord h, Res.andThen_ok]

/-- The linkage of JSR stores one word below R6 and writes R6, the linkage register and PC. -/
theorem linkTo_touches {link : Reg} {a : Word} {s : State} (h : s.writable .word (s.sp - 2) = true) :
    ∃ t, linkTo link a s = .ok () t ∧ Touches [(.word, s.sp - 2)] [.r7, .r6, link] false s t := by
  by_cases hl : link = .r6
  · subst hl
    exact ⟨_, linkTo_sp h, (((((touches_drawn s).trans (touches_pushed (s := s.drawn) s.freeWord h)).trans
      (touches_drawn _)).trans (touches_setReg _ .r6 _)).trans (touches_setReg _ .r7 a)).mono
        (by simp) (by simp) (by simp)⟩
  · exact ⟨_, linkTo_ok hl h, (((touches_pushed _ h).trans (touches_setReg _ link _)).trans
      (touches_setReg _ .r7 a)).mono (by simp) (by simp) (by simp)⟩

theorem jsr_framed {link : Reg} {dst : Operand} {s : State} (h : Shape.answered s (.call link dst) = true) :
    Framed (.call link dst) s (execJsr link dst s) := by
  obtain ⟨h', hw⟩ := Bool.and_eq_true_iff.mp h
  obtain ⟨hmode, hp⟩ := Bool.and_eq_true_iff.mp h'
  have hmode : dst.mode ≠ .register := by simpa using hmode
  obtain ⟨a, ha⟩ := operandPlace_mem (sz := .word) (s := s) hmode
  obtain ⟨t, ht, hv, _⟩ := dstAddress_ok hp
  have hsp := vis_sp hv
  obtain ⟨u, hu, hut⟩ := linkTo_touches (link := link) (a := a) (s := t)
    (by rw [hsp, writable_congr ((vis_cfg hv).trans (keeps_addressStep dst s).cfg)]; exact hw)
  rw [hsp] at hut
  rw [execJsr_of_mode hmode, ht, ha]
  refine ⟨u.complete, by simp only [Res.andThen_ok, hu]; rfl, ?_⟩
  exact ((((touches_addressStep dst s).vis hv).trans hut).trans (touches_complete u)).mono
    (by simp [Shape.stores]) (by intro r; simp only [Shape.registers, List.mem_append, List.mem_cons]; tauto) (by simp)

theorem rts_framed {link : Reg} {s : State} (h : Shape.answered s (.ret link) = true) :
    Framed (.ret link) s (execRts link s) := by
  have hp := pop_readable (s := s.setPc (s.reg link)) h
  unfold execRts
  rw [hp, Res.andThen_ok]
  have hpop := (touches_setReg s .r7 (s.reg link)).trans (touches_popped (s.setPc (s.reg link)))
  generalize (s.setPc (s.reg link)).gets .word (s.setPc (s.reg link)).sp = x
  have hb : Touches [] [.r7, .r6] false s ((popped (s.setPc (s.reg link))).setB x) := hpop.vis rfl
  split
  · exact ⟨_, rfl, (((hb.trans (touches_drawn _)).trans (touches_setReg _ .r6 _)).trans (touches_complete _)).mono
      (by simp) (by simp [Shape.registers]) (by simp)⟩
  · exact ⟨_, rfl, ((hb.trans (touches_setReg _ link x)).trans (touches_complete _)).mono
      (by simp) (by simp [Shape.registers]) (by simp)⟩

/-- The two pops of RTI and RTT. -/
theorem returnFromTrap_touches {s : State} (h : Shape.answered s .unwind = true) :
    ∃ t, returnFromTrap s = .ok () t ∧ Touches [] [.r7, .r6] true s t := by
  obtain ⟨h1, h2⟩ := Bool.and_eq_true_iff.mp h
  obtain ⟨t, ht, hv⟩ := returnFromTrap_ok h1 h2
  exact ⟨t, ht, Touches.mono (Touches.vis ((((touches_popped s).trans (touches_setReg _ .r7 _)).trans
    (touches_popped _)).trans (touches_withPsw _ _)) hv) (by simp) (by simp) (by simp)⟩

theorem rti_framed {s : State} (h : Shape.answered s .unwind = true) : Framed .unwind s (execRti s) := by
  obtain ⟨t, ht, hk⟩ := returnFromTrap_touches h
  exact ⟨t.complete, by unfold execRti; rw [ht]; rfl, (hk.trans (touches_complete t)).mono (by simp)
    (by simp [Shape.registers]) (by simp [Shape.loadsPsw])⟩

theorem rtt_framed {s : State} (h : Shape.answered s .unwind = true) : Framed .unwind s (execRtt s) := by
  obtain ⟨t, ht, hk⟩ := returnFromTrap_touches h
  exact ⟨t, by unfold execRtt; rw [ht], hk⟩

/-- Every instruction trap, by its vector (R318). -/
theorem instructionTrap_framed {v : Word} {s : State} (h : Shape.answered s (.trap v) = true) :
    Framed (.trap v) s (.next (instructionTrap v s)) := by
  have hsp : s.complete.sp = s.sp := State.complete_reg s .r6
  have ht := (touches_complete s).trans (touches_entered (s := s.complete) (by rw [complete_entryAnswers]; exact h))
  rw [hsp] at ht
  exact .of_visible ⟨_, rfl, instructionTrap_ok h⟩ ht (List.Subset.refl _) (List.Subset.refl _) id

theorem branchIf_framed (taken : Bool) (offset : BitVec 8) (s : State) : Framed .plain s (branchIf taken offset s) := by
  refine ⟨_, rfl, ?_⟩
  split
  · exact (touches_setReg s .r7 _).trans (touches_complete _)
  · exact (touches_complete s).mono (List.Subset.refl _) (List.nil_subset _) id

theorem ccop_framed (set n z v c : Bool) (s : State) : Framed .plain s (execCcop set n z v c s) :=
  ⟨_, rfl, ((touches_setCC s _).trans (touches_complete _)).mono (List.Subset.refl _) (List.nil_subset _) id⟩

/-- Every instruction but the three that change the run state or the bus requests stays within its footprint. -/
theorem exec_framed {i : Instr} {s : State} (hhalt : i ≠ .halt) (hwait : i ≠ .wait) (hreset : i ≠ .reset)
    (h : (shapeOf i).answered s = true) : Framed (shapeOf i) s (exec i s) := by
  cases i with
  | halt => exact absurd rfl hhalt
  | wait => exact absurd rfl hwait
  | reset => exact absurd rfl hreset
  | rti => exact rti_framed h
  | rtt => exact rtt_framed h
  | jmp dst => exact jmp_framed h
  | jsr link dst => exact jsr_framed h
  | rts link => exact rts_framed h
  | ccop set n z v c => exact ccop_framed set n z v c s
  | swab dst => exact swab_framed h
  | mov src dst => exact mov_framed h
  | movb src dst => exact movb_framed h
  | br offset => exact branchIf_framed _ offset s
  | bne offset => exact branchIf_framed _ offset s
  | beq offset => exact branchIf_framed _ offset s
  | bge offset => exact branchIf_framed _ offset s
  | blt offset => exact branchIf_framed _ offset s
  | bgt offset => exact branchIf_framed _ offset s
  | ble offset => exact branchIf_framed _ offset s
  | bpl offset => exact branchIf_framed _ offset s
  | bmi offset => exact branchIf_framed _ offset s
  | bhi offset => exact branchIf_framed _ offset s
  | blos offset => exact branchIf_framed _ offset s
  | bvc offset => exact branchIf_framed _ offset s
  | bvs offset => exact branchIf_framed _ offset s
  | bcc offset => exact branchIf_framed _ offset s
  | bhis offset => exact branchIf_framed _ offset s
  | bcs offset => exact branchIf_framed _ offset s
  | blo offset => exact branchIf_framed _ offset s
  | clr dst => exact modifyWord_framed _ h
  | com dst => exact modifyWord_framed _ h
  | inc dst => exact modifyWord_framed _ h
  | dec dst => exact modifyWord_framed _ h
  | neg dst => exact modifyWord_framed _ h
  | adc dst => exact modifyWord_framed _ h
  | sbc dst => exact modifyWord_framed _ h
  | ror dst => exact modifyWord_framed _ h
  | rol dst => exact modifyWord_framed _ h
  | asr dst => exact modifyWord_framed _ h
  | asl dst => exact modifyWord_framed _ h
  | clrb dst => exact modifyByte_framed _ h
  | comb dst => exact modifyByte_framed _ h
  | incb dst => exact modifyByte_framed _ h
  | decb dst => exact modifyByte_framed _ h
  | negb dst => exact modifyByte_framed _ h
  | adcb dst => exact modifyByte_framed _ h
  | sbcb dst => exact modifyByte_framed _ h
  | rorb dst => exact modifyByte_framed _ h
  | rolb dst => exact modifyByte_framed _ h
  | asrb dst => exact modifyByte_framed _ h
  | aslb dst => exact modifyByte_framed _ h
  | tst dst => exact testWord_framed _ h
  | tstb dst => exact testByte_framed _ h
  | cmp src dst => exact compareWord_framed _ h
  | bit src dst => exact compareWord_framed _ h
  | cmpb src dst => exact compareByte_framed _ h
  | bitb src dst => exact compareByte_framed _ h
  | bic src dst => exact combineWord_framed _ h
  | bis src dst => exact combineWord_framed _ h
  | add src dst => exact combineWord_framed _ h
  | sub src dst => exact combineWord_framed _ h
  | bicb src dst => exact combineByte_framed _ h
  | bisb src dst => exact combineByte_framed _ h
  | bpt => exact instructionTrap_framed h
  | iot => exact instructionTrap_framed h
  | emt code => exact instructionTrap_framed h
  | trap code => exact instructionTrap_framed h
  | jmpRn dst => exact instructionTrap_framed h
  | jsrRn link dst => exact instructionTrap_framed h
  | reserved000007 => exact instructionTrap_framed h
  | reserved000010 low => exact instructionTrap_framed h
  | reserved000020 low => exact instructionTrap_framed h
  | reserved000040 low => exact instructionTrap_framed h
  | reserved000210 low => exact instructionTrap_framed h
  | reserved000220 low => exact instructionTrap_framed h
  | reserved006400 low => exact instructionTrap_framed h
  | reserved007000 low => exact instructionTrap_framed h
  | reserved070000 low => exact instructionTrap_framed h
  | reserved106400 low => exact instructionTrap_framed h
  | reserved107000 low => exact instructionTrap_framed h
  | reserved170000 low => exact instructionTrap_framed h

/-! ### The frame of every instruction -/

/-- What an instruction leaves alone beyond `Moves`: its footprint, the error flags, the flags that are only ever set,
and, but for three instructions, the run state and the bus requests. -/
structure InstrFrame (i : Instr) (s t : State) : Prop where
  mem : s.mem.wf = true → s.npr = [] → ∀ a, a ∉ (shapeOf i).bytes s → t.mem.read a = s.mem.read a
  reg : ∀ r, r ∉ (shapeOf i).registers → t.reg r = s.reg r
  psw : s.npr = [] → (shapeOf i).loadsPsw = false → (∀ p ∈ (shapeOf i).stores s, s.targetOf p.2 ≠ .psw) →
    t.psw.extractLsb' 4 4 = s.psw.extractLsb' 4 4
  be : t.be = s.be
  pe : t.pe = s.pe
  stov : s.stov = true → t.stov = true
  tbitFlag : s.tbitFlag = true → t.tbitFlag = true
  run : i ≠ .halt → i ≠ .wait → t.run = s.run
  requests : i ≠ .reset →
    t.br4 = s.br4 ∧ t.br5 = s.br5 ∧ t.br6 = s.br6 ∧ t.br7 = s.br7 ∧ t.initPulses = s.initPulses

theorem InstrFrame.of_touches {i : Instr} {s t : State}
    (h : Touches ((shapeOf i).stores s) (shapeOf i).registers (shapeOf i).loadsPsw s t) : InstrFrame i s t where
  mem := h.mem
  reg := h.reg
  psw := h.psw
  be := h.keeps.be
  pe := h.keeps.pe
  stov := h.keeps.stov
  tbitFlag := h.keeps.tbitFlag
  run := fun _ _ => h.keeps.run
  requests := fun _ => ⟨h.keeps.br4, h.keeps.br5, h.keeps.br6, h.keeps.br7, h.keeps.initPulses⟩

/-- HALT and WAIT complete with only the run state changed (R281, R284). -/
theorem instrFrame_run {i : Instr} (hi : i = .halt ∨ i = .wait) (s : State) (r : RunState) :
    InstrFrame i s ({ s with run := r } : State).complete := by
  have hk := touches_complete { s with run := r }
  exact
    { mem := fun _ _ _ _ => by rw [State.complete_mem]
      reg := fun q _ => State.complete_reg _ q
      psw := fun _ _ _ => by rw [State.complete_psw]
      be := hk.keeps.be
      pe := hk.keeps.pe
      stov := hk.keeps.stov
      tbitFlag := hk.keeps.tbitFlag
      run := fun h1 h2 => by rcases hi with e | e <;> contradiction
      requests := fun _ => ⟨hk.keeps.br4, hk.keeps.br5, hk.keeps.br6, hk.keeps.br7, hk.keeps.initPulses⟩ }

/-- RESET completes with the requests dropped, one INIT pulse counted and the flags kept (R286, D12). -/
theorem instrFrame_reset (s : State) :
    InstrFrame .reset s ({ s.busReset with initPulses := s.initPulses + 1 } : State).complete := by
  have hk := touches_complete { s.busReset with initPulses := s.initPulses + 1 }
  exact
    { mem := fun _ _ _ _ => by rw [State.complete_mem]; rfl
      reg := fun q _ => State.complete_reg _ q
      psw := fun _ _ _ => by rw [State.complete_psw]; rfl
      be := hk.keeps.be
      pe := hk.keeps.pe
      stov := hk.keeps.stov
      tbitFlag := hk.keeps.tbitFlag
      run := fun _ _ => hk.keeps.run
      requests := fun h => absurd rfl h }

theorem exec_instrFrame {i : Instr} {s : State} (h : (shapeOf i).answered s = true) :
    ∃ t, exec i s = .next t ∧ InstrFrame i s t := by
  by_cases hhalt : i = .halt
  · subst hhalt; exact ⟨_, rfl, instrFrame_run (.inl rfl) s .halted⟩
  by_cases hwait : i = .wait
  · subst hwait; exact ⟨_, rfl, instrFrame_run (.inr rfl) s .wait⟩
  by_cases hreset : i = .reset
  · subst hreset; exact ⟨_, rfl, instrFrame_reset s⟩
  obtain ⟨t, ht, hk⟩ := exec_framed hhalt hwait hreset h
  exact ⟨t, ht, .of_touches hk⟩

/-- Settles O4: each instruction's footprint is composed from those of its parts, and `Moves` gives the rest. -/
theorem instructionFrame : Obligations.InstructionFrame := by
  unfold Obligations.InstructionFrame
  intro i s hwf h
  obtain ⟨t, ht, hf⟩ := exec_instrFrame h
  have hm := exec_moves i s t ht
  exact ⟨t, ht, hf.mem hwf, hf.reg, hf.psw, hf.be, hf.pe, hm.pfail, hm.waitHeld, hm.cfg, hm.parityBad, hm.haltRequest,
    hm.acLo, hm.pup, hm.pdwn, hm.inputs, hm.r14, hm.r15, hm.r16, hf.stov, hf.tbitFlag, hf.run, hf.requests⟩

end Sys2Proof.Machine

/-! SUPPORT and PROOFS of family 10_state: the processor's own addresses on the bus, and the reset state. -/

namespace Sys2Proof.Machine

/-! ### The PSW's own address -/

/-- Priority and T after a write to 777776 are bits 7:5 and 4 of the data (R30). -/
theorem writePsw_high (s : State) (v : Byte) : (s.writePsw v).psw.extractLsb' 4 4 = v.extractLsb' 4 4 :=
  (extract_append_high (v.extractLsb' 4 4) (Config.freeCC s.draws) (by omega)).trans (extract_all _)

theorem extractLsb'_five_of_high {p v : Byte} (h : p.extractLsb' 4 4 = v.extractLsb' 4 4) :
    p.extractLsb' 5 3 = v.extractLsb' 5 3 := by
  apply BitVec.eq_of_getLsbD_eq
  intro i hi
  have hbit := congrArg (fun x : BitVec 4 => x.getLsbD (i + 1)) h
  simp only [BitVec.getLsbD_extractLsb', hi, decide_true, Bool.true_and, show i + 1 < 4 by omega] at hbit ⊢
  rwa [show 5 + i = 4 + (i + 1) by omega]

theorem getLsbD_four_of_high {p v : Byte} (h : p.extractLsb' 4 4 = v.extractLsb' 4 4) :
    p.getLsbD 4 = v.getLsbD 4 := by
  have hbit := congrArg (fun x : BitVec 4 => x.getLsbD 0) h
  simpa using hbit

theorem lowByte_extract (v : Word) {k l : Nat} (h : k + l ≤ 8) : (lowByte v).extractLsb' k l = v.extractLsb' k l := by
  conv_rhs => rw [← highByte_append_lowByte v]
  exact (extract_append_low (highByte v) (lowByte v) h).symm

/-- A program address is odd exactly when its bus address is. -/
theorem isOdd_addr18 (c : Config) (a : Word) : isOdd a = decide ((addr18 c a).toNat % 2 = 1) := by
  rw [Bool.eq_iff_iff, isOdd_iff, decide_eq_true_eq, addr18_toNat]
  omega

theorem targetOf_psw {s : State} {a : Word} (h : (addr18 s.cfg a).toNat / 2 * 2 = 0o777776) : s.targetOf a = .psw := by
  unfold State.targetOf target wordBase
  rw [if_pos h]

/-- The PSW takes every write that is put on the bus (R30). -/
theorem writable_psw {s : State} {sz : Size} {a : Word} (ht : s.targetOf a = .psw)
    (h : sz = .byte ∨ isOdd a = false) : s.writable sz a = true := by
  rcases h with rfl | h
  · simp [State.writable, State.writeFails, ht]
  · simp [State.writable, State.writeFails, ht, h]

/-- Settles O12: the write cycle is answered by the PSW's address, which `writePsw` describes. -/
theorem pswAddressWrite : Obligations.PswAddressWrite := by
  unfold Obligations.PswAddressWrite
  have even : ∀ {s : State} {a : Word}, addr18 s.cfg a = 0o777776 → s.targetOf a = .psw ∧ isOdd a = false :=
    fun h =>
      ⟨targetOf_psw (by rw [h]; rfl), by rw [isOdd_addr18, h]; rfl⟩
  have odd : ∀ {s : State} {a : Word}, addr18 s.cfg a = 0o777777 → s.targetOf a = .psw ∧ isOdd a = true :=
    fun h =>
      ⟨targetOf_psw (by rw [h]; rfl), by rw [isOdd_addr18, h]; rfl⟩
  refine ⟨?word, ?byte, ?oddByte⟩
  case word =>
    intro s a v h
    obtain ⟨ht, ho⟩ := even h
    have hpsw := writePsw_high { s with bus := ⟨.dato, addr18 s.cfg a, v, true⟩ :: s.bus } (lowByte v)
    refine ⟨_, memWriteWord_writable v (writable_psw ht (.inr ho)), ?_⟩
    unfold State.withWord
    rw [ht]
    exact ⟨(extractLsb'_five_of_high hpsw).trans (lowByte_extract v (by omega)),
      (getLsbD_four_of_high hpsw).trans (by simp [lowByte]), rfl⟩
  case byte =>
    intro s a v h
    obtain ⟨ht, ho⟩ := even h
    have hpsw := writePsw_high { s with bus := ⟨.datob, addr18 s.cfg a, zext v, true⟩ :: s.bus } v
    refine ⟨_, memWriteByte_writable v (writable_psw ht (.inl rfl)), ?_⟩
    unfold State.withByte
    rw [ht, ho]
    exact ⟨extractLsb'_five_of_high hpsw, getLsbD_four_of_high hpsw, rfl⟩
  case oddByte =>
    intro s a v h
    obtain ⟨ht, ho⟩ := odd h
    rw [memWriteByte_writable v (writable_psw ht (.inl rfl))]
    unfold State.withByte
    rw [ht, ho]
    rfl

/-! ### The register window of a running processor -/

theorem targetOf_registers {s : State} {a : Word} (hlo : 0o777700 ≤ (addr18 s.cfg a).toNat)
    (hhi : (addr18 s.cfg a).toNat ≤ 0o777717) : s.targetOf a = .registers := by
  unfold State.targetOf target wordBase
  rw [if_neg (by omega), if_pos (by omega)]

section
variable {s : State} {a : Word} (ht : s.targetOf a = .registers)
include ht

theorem readable_registers {sz : Size} (h : sz = .byte ∨ isOdd a = false) : s.readable sz a = true := by
  rcases h with rfl | h
  · simp [State.readable, State.readFails, ht]
  · simp [State.readable, State.readFails, ht, h]

theorem writable_registers {sz : Size} (h : sz = .byte ∨ isOdd a = false) : s.writable sz a = true := by
  rcases h with rfl | h
  · simp [State.writable, State.writeFails, ht]
  · simp [State.writable, State.writeFails, ht, h]

/-- A read in the window brings 0 (R33). -/
theorem gets_registers (sz : Size) : s.gets sz a = 0 := by
  have hg : s.granted.targetOf a = .registers := (granted_targetOf s a).trans ht
  cases sz with
  | word => show s.granted.wordAt a = 0; unfold State.wordAt; rw [hg]
  | byte => show zext (s.granted.byteAt a) = 0; unfold State.byteAt; rw [hg]; rfl

/-- A read in the window leaves only its own cycle on the bus. -/
theorem after_registers {sz : Size} (h : sz = .byte ∨ isOdd a = false) (k : CycleKind) :
    s.after k sz a = { s.granted with bus := (s.after k sz a).bus } := by
  have hg : s.granted.targetOf a = .registers := (granted_targetOf s a).trans ht
  unfold State.after
  dsimp only
  rw [if_neg (by rintro ⟨rfl, ho⟩; simp [ho] at h), hg]

theorem memRead_registers {sz : Size} (h : sz = .byte ∨ isOdd a = false) :
    ∃ t, memRead sz a s = .ok 0 t ∧ t.visible = ({ s.granted with bus := t.bus } : State).visible := by
  obtain ⟨t, hr, hv⟩ := readAs_readable (k := .dati) (readable_registers ht h)
  rw [gets_registers ht sz] at hr
  have hbus : t.bus = (s.after .dati sz a).bus := congrArg (fun u => u.bus) hv
  refine ⟨t, hr, ?_⟩
  rw [hv, hbus]
  exact congrArg State.visible (after_registers ht h .dati)

end

/-- Settles O13: the window answers every cycle, reads as 0 and keeps nothing. -/
theorem registerWindowWhileRunning : Obligations.RegisterWindowWhileRunning := by
  unfold Obligations.RegisterWindowWhileRunning
  intro s a hlo hhi
  have ht : s.targetOf a = .registers := targetOf_registers hlo hhi
  refine ⟨fun ho => ⟨memRead_registers ht (.inr ho), fun v => ?word⟩,
    memRead_registers ht (.inl rfl), fun v => ?byte⟩
  case word =>
    refine ⟨_, memWriteWord_writable v (writable_registers ht (.inr ho)), ?_⟩
    unfold State.withWord
    rw [ht]
  case byte =>
    refine ⟨_, memWriteByte_writable v (writable_registers ht (.inl rfl)), ?_⟩
    unfold State.withByte
    rw [ht]

/-! ### The scratch pad of a halted processor -/

/-- A write of a scratch-pad word changes registers and nothing else. -/
theorem setScratchWord_eq (s : State) (k : Nat) (v : Word) :
    s.setScratchWord k v =
      { s with regs := (s.setScratchWord k v).regs, scratch := (s.setScratchWord k v).scratch } := by
  unfold State.setScratchWord
  split <;> rfl

/-- The word written is read back, R17 with its bytes exchanged (R39, R424); the other words stay. -/
theorem scratchWord_setScratchWord (s : State) {j k : Nat} (hj : j < 16) (hk : k < 16) (v : Word) :
    (s.setScratchWord k v).scratchWord j =
      if j = k then (if k = 15 then swapBytes v else v) else s.scratchWord j := by
  interval_cases k <;> interval_cases j <;> rfl

theorem master_write_halted {s : State} {a : BusAddr} (hr : s.run = .halted) (hlo : 0o777700 ≤ a.toNat)
    (hhi : a.toNat ≤ 0o777717) (v : Word) : s.master (.write a v) = s.setScratchWord (a.toNat % 16) v :=
  if_pos ⟨hr, hlo, hhi⟩

theorem masterRead_halted {s : State} {a : BusAddr} (hr : s.run = .halted) (hlo : 0o777700 ≤ a.toNat)
    (hhi : a.toNat ≤ 0o777717) : s.masterRead a = some (s.scratchWord (a.toNat % 16)) := by
  unfold State.masterRead
  rw [if_pos ⟨hlo, hhi⟩, if_pos hr]

/-- Bits 3:0 tell the window's addresses apart (R425). -/
theorem window_index_inj {a b : BusAddr} (ha : 0o777700 ≤ a.toNat ∧ a.toNat ≤ 0o777717)
    (hb : 0o777700 ≤ b.toNat ∧ b.toNat ≤ 0o777717) : b.toNat % 16 = a.toNat % 16 ↔ b = a := by
  rw [← BitVec.toNat_inj]
  omega

theorem masterRead_setScratchWord {s : State} {a b : BusAddr} (hr : s.run = .halted)
    (ha : 0o777700 ≤ a.toNat ∧ a.toNat ≤ 0o777717) (hb : 0o777700 ≤ b.toNat ∧ b.toNat ≤ 0o777717)
    (v : Word) :
    (s.setScratchWord (a.toNat % 16) v).masterRead b =
      if b = a then some (if a = 0o777717 then swapBytes v else v) else s.masterRead b := by
  have hrun : (s.setScratchWord (a.toNat % 16) v).run = .halted := by rw [setScratchWord_eq]; exact hr
  have h17 : a.toNat % 16 = 15 ↔ a = 0o777717 := by
    rw [← BitVec.toNat_inj]
    show _ ↔ a.toNat = 0o777717
    omega
  rw [masterRead_halted hrun hb.1 hb.2, masterRead_halted hr hb.1 hb.2,
    scratchWord_setScratchWord s (Nat.mod_lt _ (by omega)) (Nat.mod_lt _ (by omega))]
  simp only [window_index_inj ha hb, h17]
  split <;> rfl

/-- Settles O15: the address's bits 3:0 select the word, and the PSW answers at its own address. -/
theorem haltedScratchPadOnTheBus : Obligations.HaltedScratchPadOnTheBus := by
  unfold Obligations.HaltedScratchPadOnTheBus
  refine ⟨?write, ?read⟩
  case write =>
    intro s a v hr hlo hhi
    rw [master_write_halted hr hlo hhi]
    refine ⟨?_, setScratchWord_eq s _ v, fun b hblo hbhi hne => ?_⟩
    · rw [masterRead_setScratchWord hr ⟨hlo, hhi⟩ ⟨hlo, hhi⟩, if_pos rfl]; rfl
    · rw [masterRead_setScratchWord hr ⟨hlo, hhi⟩ ⟨hblo, hbhi⟩, if_neg hne]
  case read =>
    intro s hr
    have window : ∀ a : BusAddr, 0o777700 ≤ a.toNat ∧ a.toNat ≤ 0o777717 →
        s.masterRead a = some (s.scratchWord (a.toNat % 16)) := fun a ha => masterRead_halted hr ha.1 ha.2
    refine ⟨window _ (by decide), window _ (by decide), window _ (by decide), window _ (by decide),
      window _ (by decide), window _ (by decide), window _ (by decide), window _ (by decide),
      window _ (by decide), window _ (by decide), window _ (by decide), window _ (by decide),
      window _ (by decide), window _ (by decide), window _ (by decide), window _ (by decide), rfl, fun v => ?_⟩
    have hw : s.master (.write 0o777776 v) = s.writePsw (lowByte v) := by
      unfold State.master
      exact if_neg (by rintro ⟨_, _, h⟩; exact absurd h (by decide))
    rw [hw, writePsw_high, lowByte_extract v (by omega)]

/-! ### The reset state -/

/-- Settles O1: the empty memory reads as 0 at the power-up vector (entry 1), and no flag is set. -/
theorem resetIsAfterPowerUp : Obligations.ResetIsAfterPowerUp := by
  unfold Obligations.ResetIsAfterPowerUp
  have hpc : State.reset.wordAt 0o24 = 0 := by decide
  have hpsw : State.reset.wordAt 0o26 = 0 := by decide
  rw [hpc, hpsw]
  exact ⟨rfl, rfl, rfl, rfl, rfl, rfl, rfl, rfl, rfl, rfl, rfl, rfl, rfl, rfl, by decide⟩

/-- Settles O2: the processor runs with the empty memory and no flag pending. -/
theorem resetSatisfiesInvariant : Obligations.ResetSatisfiesInvariant :=
  inv_of_running State.reset_mem_wf (fun h => Bool.noConfusion h) rfl (.inl rfl)

end Sys2Proof.Machine

/-! SUPPORT and PROOFS of family 20_memory: words and bytes in memory, and word accesses at odd addresses. -/

namespace Sys2Proof.Machine

/-! ### An address that memory answers -/

/-- The program address is one of memory that takes writes, and its word reads with correct parity (R66, R72). -/
structure InMemory (s : State) (a : Word) : Prop where
  target : s.targetOf a = .slave .memory
  parity : s.parityFails (wordBase (addr18 s.cfg a)) = false

/-- Both bytes of a word have the same word on the bus (R60). -/
theorem wordBase_addr18_succ (c : Config) {a : Word} (h : isOdd a = false) :
    wordBase (addr18 c (a + 1)) = wordBase (addr18 c a) := by
  have heven := wordBase_addr18_even c a h
  unfold wordBase at heven ⊢
  rw [addr18_succ c a h]
  omega

theorem InMemory.succ {s : State} {a : Word} (h : InMemory s a) (ho : isOdd a = false) : InMemory s (a + 1) where
  target := by
    have ht := h.target
    unfold State.targetOf at ht ⊢
    rw [wordBase_addr18_succ _ ho]
    exact ht
  parity := by rw [wordBase_addr18_succ _ ho]; exact h.parity

theorem InMemory.congr {s t : State} {a : Word} (h : InMemory s a) (hc : t.cfg = s.cfg)
    (hp : t.parityBad = s.parityBad) : InMemory t a where
  target := (targetOf_congr hc a).trans h.target
  parity := by
    have hpar := h.parity
    unfold State.parityFails at hpar ⊢
    rw [hc, hp]
    exact hpar

theorem InMemory.granted {s : State} {a : Word} (h : InMemory s a) : InMemory s.granted a :=
  h.congr s.granted_cfg s.granted_parityBad

/-- Memory answers every read that is put on the bus. -/
theorem InMemory.readable {s : State} {a : Word} (h : InMemory s a) {sz : Size} (hz : sz = .byte ∨ isOdd a = false) :
    s.readable sz a = true := by
  have hodd : ¬ (sz = .word ∧ isOdd a = true) := by rintro ⟨rfl, ho⟩; simp [ho] at hz
  unfold State.readable State.readFails
  rw [if_neg hodd, h.target]
  simp [h.parity]

/-- Memory takes every write that is put on the bus. -/
theorem InMemory.writable {s : State} {a : Word} (h : InMemory s a) {sz : Size} (hz : sz = .byte ∨ isOdd a = false) :
    s.writable sz a = true := by
  have hodd : (sz == .word && isOdd a) = false := by rcases hz with rfl | ho <;> simp [*]
  unfold State.writable State.writeFails
  rw [hodd, h.target]
  rfl

/-- A word of memory is read as it stands once the other masters' cycles are over (R66, R85). -/
theorem InMemory.gets_word {s : State} {a : Word} (h : InMemory s a) (ho : isOdd a = false) :
    s.gets .word a = s.granted.mem.readWord (addr18 s.cfg a).toNat := by
  show s.granted.wordAt a = _
  unfold State.wordAt
  rw [h.granted.target, State.granted_cfg, wordBase_addr18_even _ a ho]

theorem InMemory.memRead_word {s : State} {a : Word} (h : InMemory s a) (ho : isOdd a = false) :
    ∃ t, memRead .word a s = .ok (s.granted.mem.readWord (addr18 s.cfg a).toNat) t ∧ t.npr = s.npr.tail := by
  have hr := Machine.memRead_word (h.readable (.inr ho))
  rw [h.gets_word ho] at hr
  exact ⟨_, hr, State.after_npr s .dati .word a⟩

theorem InMemory.memRead_byte {s : State} {a : Word} (h : InMemory s a) :
    ∃ t, memRead .byte a s = .ok (zext (s.granted.mem.read (addr18 s.cfg a).toNat)) t := by
  obtain ⟨t, ht, _⟩ := readAs_readable (k := .dati) (h.readable (.inl rfl))
  have hv : s.gets .byte a = zext (s.granted.mem.read (addr18 s.cfg a).toNat) := by
    show zext (s.granted.byteAt a) = _
    unfold State.byteAt
    rw [h.granted.target, State.granted_cfg]
  exact ⟨t, hv ▸ ht⟩

theorem InMemory.withWord_mem {s : State} {a : Word} (h : InMemory s a) (v : Word) :
    (s.withWord a v).mem = s.mem.writeWord (addr18 s.cfg a).toNat v := by
  unfold State.withWord
  rw [h.target]

theorem withByte_cfg (s : State) (a : Word) (v : Byte) : (s.withByte a v).cfg = s.cfg := by
  obtain ⟨m, p, n, l, h⟩ := withByte_eq s a v; rw [h]

theorem withByte_parityBad (s : State) (a : Word) (v : Byte) : (s.withByte a v).parityBad = s.parityBad := by
  obtain ⟨m, p, n, l, h⟩ := withByte_eq s a v; rw [h]

/-- A byte written leaves what memory answers as it is. -/
theorem InMemory.withByte {s : State} {a : Word} (h : InMemory s a) (b : Word) (v : Byte) :
    InMemory (s.withByte b v) a := h.congr (withByte_cfg s b v) (withByte_parityBad s b v)

theorem InMemory.withByte_mem {s : State} {a : Word} (h : InMemory s a) (v : Byte) :
    (s.withByte a v).mem = s.mem.write (addr18 s.cfg a).toNat v := by
  unfold State.withByte
  rw [h.target]

/-! ### Byte order -/

/-- A word written is found again, as a word and byte by byte (R61). -/
theorem InMemory.read_after_writeWord {s : State} {a : Word} (h : InMemory s a) (v : Word) (hwf : s.mem.wf = true)
    (hn : s.npr = []) (ho : isOdd a = false) :
    (∃ u, memRead .byte a (s.withWord a v) = .ok (zext (lowByte v)) u) ∧
      (∃ u, memRead .byte (a + 1) (s.withWord a v) = .ok (zext (highByte v)) u) ∧
      ∃ u, memRead .word a (s.withWord a v) = .ok v u := by
  have hlt := addr18_lt_of_even s.cfg ho
  have ht : InMemory (s.withWord a v) a := h.congr (withWord_cfg s a v) (withWord_parityBad s a v)
  have hg : (s.withWord a v).granted.mem = s.mem.writeWord (addr18 s.cfg a).toNat v := by
    rw [State.granted_nil ((withWord_npr s a v).trans hn), h.withWord_mem]
  refine ⟨?low, ?high, ?word⟩
  case low =>
    obtain ⟨u, hu⟩ := ht.memRead_byte
    rw [hg, withWord_cfg, Memory.read_writeWord _ _ _ _ hwf hlt, if_neg (by omega), if_pos rfl] at hu
    exact ⟨u, hu⟩
  case high =>
    obtain ⟨u, hu⟩ := (ht.succ ho).memRead_byte
    rw [hg, withWord_cfg, addr18_succ _ a ho, Memory.read_writeWord _ _ _ _ hwf hlt, if_pos rfl] at hu
    exact ⟨u, hu⟩
  case word =>
    obtain ⟨u, hu, _⟩ := ht.memRead_word ho
    rw [hg, withWord_cfg, Memory.readWord_writeWord _ _ _ hwf hlt] at hu
    exact ⟨u, hu⟩

/-- Two bytes written one after the other are found as a word, the upper one first (R61). -/
theorem InMemory.readWord_after_writeBytes {s : State} {a : Word} (h : InMemory s a) (lo hi : Byte)
    (hwf : s.mem.wf = true) (hn : s.npr = []) (ho : isOdd a = false) :
    ∃ u, memRead .word a ((s.withByte a lo).withByte (a + 1) hi) = .ok (hi ++ lo) u := by
  have hn' : ((s.withByte a lo).withByte (a + 1) hi).npr = [] := by rw [withByte_npr, withByte_npr, hn]
  have hlo : (s.withByte a lo).mem.wf = true := (keeps_withByte s a lo).wf hwf
  obtain ⟨u, hu, _⟩ := ((h.withByte a lo).withByte (a + 1) hi).memRead_word ho
  have hmem : ((s.withByte a lo).withByte (a + 1) hi).mem =
      (s.withByte a lo).mem.write ((addr18 s.cfg a).toNat + 1) hi := by
    rw [((h.succ ho).withByte a lo).withByte_mem, withByte_cfg, addr18_succ _ a ho]
  have hword : ((s.withByte a lo).withByte (a + 1) hi).mem.readWord (addr18 s.cfg a).toNat = hi ++ lo := by
    unfold Memory.readWord
    rw [hmem, Memory.read_write _ _ _ _ hlo, Memory.read_write _ _ _ _ hlo, if_pos rfl, if_neg (by omega),
      h.withByte_mem, Memory.read_write _ _ _ _ hwf, if_pos rfl]
  rw [State.granted_nil hn', withByte_cfg, withByte_cfg, hword] at hu
  exact ⟨u, hu⟩

/-- Settles O10: a word's two bytes stand at the two bus addresses of its word, and the fetch is a read at PC. -/
theorem byteOrderIsLittleEndian : Obligations.ByteOrderIsLittleEndian := by
  unfold Obligations.ByteOrderIsLittleEndian
  refine ⟨?wordWritten, ?bytesWritten, ?fetch⟩
  case wordWritten =>
    intro s a v hwf hn ho ht hp
    have h : InMemory s a := ⟨ht, hp⟩
    exact ⟨_, memWriteWord_writable v (h.writable (.inr ho)), (keeps_withWord s v ho).wf hwf,
      h.read_after_writeWord v hwf hn ho⟩
  case bytesWritten =>
    intro s a lo hi hwf hn ho ht hp
    have h : InMemory s a := ⟨ht, hp⟩
    exact ⟨_, _, memWriteByte_writable lo (h.writable (.inl rfl)),
      memWriteByte_writable hi (((h.succ ho).withByte a lo).writable (.inl rfl)),
      h.readWord_after_writeBytes lo hi hwf hn ho⟩
  case fetch =>
    intro s t w h
    unfold fetch
    rw [h]

/-! ### A word access at an odd address -/

theorem readFails_odd (s : State) {a : Word} (h : isOdd a = true) : s.readFails .word a = some .busError :=
  if_pos ⟨rfl, h⟩

/-- No cycle is on the bus: only the wait for it and a free value are left (R65; entries 21, 32). -/
theorem after_odd (s : State) (k : CycleKind) {a : Word} (h : isOdd a = true) :
    s.after k .word a = { s.granted with draws := s.granted.draws + 1 } := if_pos ⟨rfl, h⟩

theorem readAs_odd (s : State) (k : CycleKind) {a : Word} (h : isOdd a = true) :
    ∃ t, readAs k .word a s = .err .busError t ∧
      t.visible = ({ s.granted with draws := s.granted.draws + 1 } : State).visible := by
  rw [← after_odd s k h]
  exact readAs_fails (readFails_odd s h)

theorem writeFails_odd (s : State) {a : Word} (h : isOdd a = true) : s.writeFails .word a = true := by
  simp [State.writeFails, h]

theorem withoutWord_odd (s : State) {a : Word} (v : Word) (h : isOdd a = true) : s.withoutWord a v = s := if_pos h

/-- A pointer or index word at an odd address ends the address calculation (R144, R153). -/
theorem abortRead_odd (s : State) (k : CycleKind) {a : Word} (h : isOdd a = true) (go : Option (BusFault × State)) :
    abortRead k .word a s go = some (.busError, { s.granted with draws := s.granted.draws + 1 }) := by
  unfold abortRead
  rw [readFails_odd s h, after_odd s k h]

/-- Settles O11: every word cycle at an odd address fails before it is on the bus; a byte cycle there is answered. -/
theorem oddWordAccessFails : Obligations.OddWordAccessFails := by
  unfold Obligations.OddWordAccessFails
  refine ⟨?cycles, ?fetch, ?pop, ?push, ?pointer, ?predecremented, ?index, ?indexed, ?byte⟩
  case cycles =>
    intro s a v h
    refine ⟨readAs_odd s .dati h, readAs_odd s .datip h, ?_⟩
    rw [memWriteWord_fails v (writeFails_odd s h), withoutWord_odd s v h]
  case fetch =>
    intro s h
    obtain ⟨t, ht, hv, _⟩ := fetch_fails (readFails_odd s h)
    exact ⟨t, ht, by rw [hv, after_odd s .dati h]⟩
  case pop =>
    intro s h
    obtain ⟨t, ht, hv⟩ := pop_fails (readFails_odd s h)
    exact ⟨t, ht, by rw [hv, after_odd s .dati h]⟩
  case push =>
    intro s v h
    rw [push_fails v (writeFails_odd s h)]
    unfold unpushed lowered
    rw [withoutWord_odd _ v h]
  case pointer =>
    intro s side r h
    exact locate_aborted (o := ⟨.autoIncDef, r⟩) (abortRead_odd s .dati h none)
  case predecremented =>
    intro s side r h
    exact locate_aborted (o := ⟨.autoDecDef, r⟩) (abortRead_odd (decremented r 2 s) .dati h none)
  case index =>
    intro s side r m hm h
    rcases hm with rfl | rfl
    · exact locate_aborted (o := ⟨.index, r⟩) (abortRead_odd s .dati h none)
    · exact locate_aborted (o := ⟨.indexDef, r⟩) (abortRead_odd s .dati h _)
  case indexed =>
    intro s side r hr h
    refine locate_aborted (o := ⟨.indexDef, r⟩) ?_
    have hfirst : s.readFails .word s.pc = none := by simpa [State.readable] using hr
    show abortRead .dati .word s.pc s _ = _
    unfold abortRead
    rw [hfirst]
    exact abortRead_odd (indexStep s) .dati h none
  case byte =>
    intro s a _ ht hp
    exact (InMemory.mk ht hp).memRead_byte

/-! ### Program addresses on the bus -/

/-- Settles O14: A15 to A00 are the program address, and the default of ADDR18 has one window (D1). -/
theorem programAddressOnTheBus : Obligations.ProgramAddressOnTheBus := by
  unfold Obligations.ProgramAddressOnTheBus
  refine ⟨fun c a => ⟨?_, addr18_succ c a⟩, fun c a h => addr18_ioPage h a, rfl, by decide, by decide⟩
  have ha := a.isLt
  rw [addr18_toNat]
  omega

end Sys2Proof.Machine

/-! SUPPORT and PROOFS of family 20_memory: the bus cycles of an instruction, and the other masters' cycles between
them. -/

namespace Sys2Proof.Machine

/-! ### What a cycle leaves on the record of the bus, in memory and in the schedule -/

/-- A read that is answered is recorded with the word on the lines. -/
theorem State.after_bus {s : State} {sz : Size} {a : Word} (h : s.readable sz a = true) (k : CycleKind) :
    (s.after k sz a).bus = ⟨k, addr18 s.cfg a, s.granted.wordAt a, true⟩ :: s.bus := by
  have hodd : ¬ (sz = .word ∧ isOdd a = true) := by
    rintro ⟨rfl, ho⟩
    rw [readable_even h] at ho
    cases ho
  unfold State.after
  dsimp only
  rw [if_neg hodd, State.granted_cfg, State.granted_bus]
  split
  · rename_i habs
    rw [granted_targetOf] at habs
    simp [State.readable, State.readFails, hodd, habs] at h
  · rfl
  · rfl

/-- What the lines carry in a write of this size: the word, or the byte zero-extended (R69; entry 22). -/
def onTheLines (sz : Size) (v : Word) : Word :=
  match sz with
  | .word => v
  | .byte => zext (lowByte v)

theorem withValue_onTheLines (sz : Size) (a v : Word) (s : State) :
    s.withValue sz a (onTheLines sz v) = s.withValue sz a v := by
  cases sz with
  | word => rfl
  | byte => show s.withByte a (lowByte (zext (lowByte v))) = _; rw [lowByte_zext]; rfl

theorem withWord_bus (s : State) (a v : Word) :
    (s.withWord a v).bus = ⟨.dato, addr18 s.cfg a, v, true⟩ :: s.bus := by
  unfold State.withWord
  dsimp only
  split <;> rfl

theorem withByte_bus (s : State) (a : Word) (v : Byte) :
    (s.withByte a v).bus = ⟨.datob, addr18 s.cfg a, zext v, true⟩ :: s.bus := by
  unfold State.withByte
  dsimp only
  repeat' split
  all_goals rfl

/-- A write that is taken is recorded with the value on the lines. -/
theorem withValue_bus (sz : Size) (a v : Word) (s : State) :
    (s.withValue sz a v).bus = ⟨writeKind sz, addr18 s.cfg a, onTheLines sz v, true⟩ :: s.bus := by
  cases sz with
  | word => exact withWord_bus s a v
  | byte => exact withByte_bus s a (lowByte v)

theorem withValue_npr (sz : Size) (a v : Word) (s : State) : (s.withValue sz a v).npr = s.npr := by
  cases sz with
  | word => exact withWord_npr s a v
  | byte => exact withByte_npr s a (lowByte v)

/-- What a write leaves in memory depends on memory and the configuration alone. -/
theorem withValue_mem_congr {s t : State} (hc : s.cfg = t.cfg) (hm : s.mem = t.mem) (sz : Size) (a v : Word) :
    (s.withValue sz a v).mem = (t.withValue sz a v).mem := by
  cases sz with
  | word =>
    show (s.withWord a v).mem = (t.withWord a v).mem
    unfold State.withWord
    rw [targetOf_congr hc]
    dsimp only
    split
    · exact hm
    · rw [hm, hc]
    · exact hm
  | byte =>
    show (s.withByte a (lowByte v)).mem = (t.withByte a (lowByte v)).mem
    unfold State.withByte
    rw [targetOf_congr hc]
    dsimp only
    split
    · split <;> exact hm
    · rw [hm, hc]
    · exact hm

theorem vis_bus {s t : State} (h : s.visible = t.visible) : s.bus = t.bus :=
  show s.visible.bus = t.visible.bus by rw [h]

/-- A state `s` has gone on to `t` by a DATIP at `a` and the write of `v` there, with one batch of the other masters'
cycles before the DATIP and none between the two (R70, R75). -/
structure ModifiesAt (sz : Size) (a v : Word) (s t : State) : Prop where
  npr : t.npr = s.npr.tail
  mem : t.mem = (s.granted.withValue sz a v).mem
  bus : t.bus = ⟨writeKind sz, addr18 s.cfg a, v, true⟩ :: ⟨.datip, addr18 s.cfg a, s.granted.wordAt a, true⟩ :: s.bus

/-- The destination's read, a change of the PSW and the write-back, whatever the codes. -/
theorem modifiesAt_of_visible {sz : Size} {a v : Word} {p : BitVec 8} {s t : State} (hr : s.readable sz a = true)
    (ht : t.visible = (({ s.after .datip sz a with psw := p } : State).withValue sz a v).complete.visible) :
    ModifiesAt sz a (onTheLines sz v) s t where
  npr := by rw [vis_npr ht, State.complete_npr, withValue_npr]; exact s.after_npr _ _ _
  mem := by
    rw [vis_mem ht, State.complete_mem, withValue_onTheLines]
    exact withValue_mem_congr (s := { s.after .datip sz a with psw := p }) (by simp) (s.after_mem _ _ _) sz a v
  bus := by rw [vis_bus ht, State.complete_bus, withValue_bus, ← State.after_bus hr, State.after_cfg]

/-! ### What runs for each shape -/

theorem exec_of_test {i : Instr} {sz : Size} {dst : Operand} (s : State) (h : shapeOf i = .test sz dst) :
    (sz = .word ∧ ∃ op, exec i s = finish (testWord op dst s)) ∨
      sz = .byte ∧ ∃ op, exec i s = finish (testByte op dst s) := by
  cases i with
  | tst d => cases h; exact .inl ⟨rfl, _, rfl⟩
  | tstb d => cases h; exact .inr ⟨rfl, _, rfl⟩
  | _ => cases h

theorem exec_of_modify {i : Instr} {sz : Size} {dst : Operand} (s : State) (h : shapeOf i = .modify sz dst) :
    (sz = .word ∧ ∃ op, exec i s = finish (modifyWord op dst s)) ∨
      (sz = .byte ∧ ∃ op, exec i s = finish (modifyByte op dst s)) ∨ sz = .word ∧ i = .swab dst := by
  cases i with
  | swab d => cases h; exact .inr (.inr ⟨rfl, rfl⟩)
  | clr d | com d | inc d | dec d | neg d | adc d | sbc d | ror d | rol d | asr d | asl d =>
    cases h; exact .inl ⟨rfl, _, rfl⟩
  | clrb d | comb d | incb d | decb d | negb d | adcb d | sbcb d | rorb d | rolb d | asrb d | aslb d =>
    cases h; exact .inr (.inl ⟨rfl, _, rfl⟩)
  | _ => cases h

theorem exec_of_compare {i : Instr} {sz : Size} {src dst : Operand} (s : State)
    (h : shapeOf i = .compare sz src dst) :
    (sz = .word ∧ ∃ op, exec i s = finish (compareWord op src dst s)) ∨
      sz = .byte ∧ ∃ op, exec i s = finish (compareByte op src dst s) := by
  cases i with
  | cmp a b | bit a b => cases h; exact .inl ⟨rfl, _, rfl⟩
  | cmpb a b | bitb a b => cases h; exact .inr ⟨rfl, _, rfl⟩
  | _ => cases h

theorem exec_of_combine {i : Instr} {sz : Size} {src dst : Operand} (s : State)
    (h : shapeOf i = .combine sz src dst) :
    (sz = .word ∧ ∃ op, exec i s = finish (combineWord op src dst s)) ∨
      sz = .byte ∧ ∃ op, exec i s = finish (combineByte op src dst s) := by
  cases i with
  | bic a b | bis a b | add a b | sub a b => cases h; exact .inl ⟨rfl, _, rfl⟩
  | bicb a b | bisb a b => cases h; exact .inr ⟨rfl, _, rfl⟩
  | _ => cases h

theorem exec_of_move {i : Instr} {sz : Size} {src dst : Operand} (h : shapeOf i = .move sz src dst) :
    (sz = .word ∧ i = .mov src dst) ∨ sz = .byte ∧ i = .movb src dst := by
  cases i with
  | mov a b => cases h; exact .inl ⟨rfl, rfl⟩
  | movb a b => cases h; exact .inr ⟨rfl, rfl⟩
  | _ => cases h

/-! ### Completed instructions, by shape -/

theorem exec_test_completes {i : Instr} {sz : Size} {dst : Operand} {s : State} (hi : shapeOf i = .test sz dst)
    (h : operandReadable sz dst s = true) : ∃ t f, exec i s = .next t ∧ t.visible = (afterTest sz dst f s).visible := by
  rcases exec_of_test s hi with ⟨rfl, op, he⟩ | ⟨rfl, op, he⟩ <;> rw [he]
  · obtain ⟨t, ht, hv⟩ := testWord_completes op h
    exact ⟨t, _, ht, hv⟩
  · obtain ⟨t, ht, hv⟩ := testByte_completes op h
    exact ⟨t, _, ht, hv⟩

theorem exec_compare_completes {i : Instr} {sz : Size} {src dst : Operand} {s : State}
    (hi : shapeOf i = .compare sz src dst) (hs : operandReadable sz src s = true)
    (hd : operandReadable sz dst (operandStep .dati sz src s) = true) :
    ∃ t f, exec i s = .next t ∧ t.visible = (afterTest sz dst f (operandStep .dati sz src s)).visible := by
  rcases exec_of_compare s hi with ⟨rfl, op, he⟩ | ⟨rfl, op, he⟩ <;> rw [he]
  · obtain ⟨t, ht, hv⟩ := compareWord_completes op hs hd
    exact ⟨t, _, ht, hv⟩
  · obtain ⟨t, ht, hv⟩ := compareByte_completes op hs hd
    exact ⟨t, _, ht, hv⟩

/-- SWAB completes as every modifying instruction on words does (R204). -/
theorem execSwab_completes {dst : Operand} {s : State} (h : operandWritable .word dst s = true) :
    ∃ t r f, execSwab dst s = .next t ∧ t.visible = (afterWord dst r f s).visible := by
  obtain ⟨t, ht, hv, _⟩ := dstModifyRead_ok (operandWritable_readable h)
  have hc : t.cfg = s.cfg := (vis_cfg hv).trans (operandStep_cfg _ _ _ _)
  unfold execSwab
  rw [ht, Res.andThen_ok]
  dsimp only
  generalize aluSwab t.cc (operandValue .word dst s) = o
  have ho : ((t.loadAlu o).setR17 o.r).visible = ((operandStep .datip .word dst s).setCC o.cc).visible :=
    vis_loadAlu hv o
  obtain ⟨w, hw, hwv⟩ :=
    finish_completes (dstWrite_word_after h (t := (t.loadAlu o).setR17 o.r) hc) (vis_storeWord ho _ _)
  exact ⟨w, _, _, hw, hwv⟩

/-- A destination in memory has been read, the codes are set, and a value is written back. -/
def afterModify (sz : Size) (dst : Operand) (a v : Word) (f : CC) (s : State) : State :=
  (((operandStep .datip sz dst s).setCC f).withValue sz a v).complete

theorem afterWord_mem {dst : Operand} {s : State} {a : Word} (h : operandPlace .word dst s = .mem a) (r : Word)
    (f : CC) : afterWord dst r f s = afterModify .word dst a r f s := by
  unfold afterWord afterModify
  rw [h]
  rfl

theorem afterByte_mem {dst : Operand} {s : State} {a : Word} (h : operandPlace .byte dst s = .mem a) (r : Byte)
    (f : CC) : afterByte dst r f s = afterModify .byte dst a (zext r) f s := by
  unfold afterByte afterModify State.withValue
  rw [h, lowByte_zext]
  rfl

theorem exec_modify_completes {i : Instr} {sz : Size} {dst : Operand} {s : State} {a : Word}
    (hi : shapeOf i = .modify sz dst) (h : operandWritable sz dst s = true) (ha : operandPlace sz dst s = .mem a) :
    ∃ t v f, exec i s = .next t ∧ t.visible = (afterModify sz dst a v f s).visible := by
  rcases exec_of_modify s hi with ⟨rfl, op, he⟩ | ⟨rfl, op, he⟩ | ⟨rfl, rfl⟩
  · obtain ⟨t, ht, hv⟩ := modifyWord_completes op h
    exact ⟨t, _, _, he.trans ht, hv.trans (congrArg State.visible (afterWord_mem ha _ _))⟩
  · obtain ⟨t, ht, hv⟩ := modifyByte_completes op h
    exact ⟨t, _, _, he.trans ht, hv.trans (congrArg State.visible (afterByte_mem ha _ _))⟩
  · obtain ⟨t, r, f, ht, hv⟩ := execSwab_completes h
    exact ⟨t, r, f, ht, hv.trans (congrArg State.visible (afterWord_mem ha r f))⟩

theorem exec_combine_completes {i : Instr} {sz : Size} {src dst : Operand} {s : State} {a : Word}
    (hi : shapeOf i = .combine sz src dst) (hs : operandReadable sz src s = true)
    (hd : operandWritable sz dst (operandStep .dati sz src s) = true)
    (ha : operandPlace sz dst (operandStep .dati sz src s) = .mem a) :
    ∃ t v f, exec i s = .next t ∧ t.visible = (afterModify sz dst a v f (operandStep .dati sz src s)).visible := by
  rcases exec_of_combine s hi with ⟨rfl, op, he⟩ | ⟨rfl, op, he⟩
  · obtain ⟨t, ht, hv⟩ := combineWord_completes op hs hd
    exact ⟨t, _, _, he.trans ht, hv.trans (congrArg State.visible (afterWord_mem ha _ _))⟩
  · obtain ⟨t, ht, hv⟩ := combineByte_completes op hs hd
    exact ⟨t, _, _, he.trans ht, hv.trans (congrArg State.visible (afterByte_mem ha _ _))⟩

/-- MOV and MOVB to memory: the codes are set before the destination is reached, and the source is written (R212,
R213). -/
theorem exec_move_completes {i : Instr} {sz : Size} {src dst : Operand} {s : State} {a : Word}
    (hi : shapeOf i = .move sz src dst) (hs : operandReadable sz src s = true)
    (hd : operandWritable sz dst (moved sz src s) = true) (ha : operandPlace sz dst (moved sz src s) = .mem a) :
    ∃ t, exec i s = .next t ∧
      t.visible =
        ((operandStep .datip sz dst (moved sz src s)).withValue sz a (operandValue sz src s)).complete.visible := by
  obtain ⟨t, ht, hv, _⟩ := srcRead_ok hs
  rcases exec_of_move hi with ⟨rfl, rfl⟩ | ⟨rfl, rfl⟩
  · have hm := moved_word_of_srcRead hv
    obtain ⟨u, hu, huv⟩ := dstWriteOnly_word (v := operandValue .word src s)
      ((vis_operandWritable hm .word dst).trans hd)
    rw [vis_operandPlace hm, ha] at huv
    have hr : (srcRead .word src s).andThen
        (fun v s => dstWriteOnly .word dst v (s.setCC (aluMov s.cc v).cc)) = .ok () u := by rw [ht]; exact hu
    exact finish_completes hr (huv.trans (vis_withWord (vis_operandStep hm .datip .word dst) _ _))
  · have hm := moved_byte_of_srcRead hv
    have hreg : dst.mode ≠ .register := fun e => by unfold operandPlace at ha; rw [e] at ha; cases ha
    obtain ⟨u, hu, huv⟩ := dstWriteOnly_byte (v := operandValue .byte src s)
      ((vis_operandWritable hm .byte dst).trans hd)
    rw [vis_operandPlace hm, ha] at huv
    have hr : execMovb src dst s = finish (.ok () u) := by
      unfold execMovb
      rw [ht, Res.andThen_ok, if_neg hreg, hu]
    show ∃ t, execMovb src dst s = .next t ∧ _
    rw [hr]
    exact finish_completes rfl (huv.trans (vis_withByte (vis_operandStep hm .datip .byte dst) _ _))

/-! ### Mode 1 destinations -/

/-- A mode 1 operand is one cycle at the register's address (R144). -/
theorem operandStep_deferred (k : CycleKind) (sz : Size) (r : Reg) (s : State) :
    operandStep k sz ⟨.deferred, r⟩ s = s.after k sz (s.reg r) := rfl

theorem operandReadable_deferred {sz : Size} {r : Reg} {s : State} (h : s.readable sz (s.reg r) = true) :
    operandReadable sz ⟨.deferred, r⟩ s = true := h

theorem operandWritable_deferred {sz : Size} {r : Reg} {s : State} (hr : s.readable sz (s.reg r) = true)
    (hw : s.writable sz (s.reg r) = true) : operandWritable sz ⟨.deferred, r⟩ s = true :=
  Bool.and_eq_true_iff.mpr ⟨operandReadable_deferred hr, hw⟩

/-- The DATI of a mode 1 destination that is only read. -/
theorem bus_of_afterTest {sz : Size} {r : Reg} {f : CC} {s t : State} (hr : s.readable sz (s.reg r) = true)
    (ht : t.visible = (afterTest sz ⟨.deferred, r⟩ f s).visible) :
    t.bus = ⟨.dati, addr18 s.cfg (s.reg r), s.granted.wordAt (s.reg r), true⟩ :: s.bus := by
  rw [vis_bus ht, ← State.after_bus hr]
  unfold afterTest
  rw [State.complete_bus]
  rfl

section
variable {i : Instr} {sz : Size} {r : Reg} {s : State}

theorem exec_test_deferred (hi : shapeOf i = .test sz ⟨.deferred, r⟩) (hr : s.readable sz (s.reg r) = true) :
    ∃ t, exec i s = .next t ∧
      t.bus = ⟨.dati, addr18 s.cfg (s.reg r), s.granted.wordAt (s.reg r), true⟩ :: s.bus := by
  obtain ⟨t, f, ht, hv⟩ := exec_test_completes hi (operandReadable_deferred hr)
  exact ⟨t, ht, bus_of_afterTest hr hv⟩

theorem exec_modify_deferred (hi : shapeOf i = .modify sz ⟨.deferred, r⟩) (hr : s.readable sz (s.reg r) = true)
    (hw : s.writable sz (s.reg r) = true) : ∃ t v, exec i s = .next t ∧ ModifiesAt sz (s.reg r) v s t := by
  obtain ⟨t, v, f, ht, hv⟩ := exec_modify_completes hi (operandWritable_deferred hr hw) rfl
  exact ⟨t, _, ht, modifiesAt_of_visible hr hv⟩

end

/-! ### A source in mode 0 or 1 -/

/-- The source's own cycle, with the batch before it: none in mode 0, one DATI in mode 1 (R144, R146). -/
structure SourceStep (sz : Size) (src : Operand) (s u : State) : Prop where
  cfg : u.cfg = s.cfg
  parityBad : u.parityBad = s.parityBad
  reg : ∀ r, u.reg r = s.reg r
  npr : u.npr = if src.mode = .register then s.npr else s.npr.tail
  bus : u.bus = if src.mode = .register then s.bus
    else ⟨.dati, addr18 s.cfg (s.reg src.reg), s.granted.wordAt (s.reg src.reg), true⟩ :: s.bus

section
variable {i : Instr} {sz : Size} {src : Operand} {r : Reg} {s : State}

theorem sourceStep_operandStep (hm : src.mode = .register ∨ src.mode = .deferred)
    (hs : operandReadable sz src s = true) : SourceStep sz src s (operandStep .dati sz src s) := by
  obtain ⟨m, q⟩ := src
  rcases hm with rfl | rfl
  · exact ⟨rfl, rfl, fun _ => rfl, rfl, rfl⟩
  · rw [operandStep_deferred]
    exact ⟨s.after_cfg _ _ _, s.after_parityBad _ _ _, s.after_reg _ _ _, s.after_npr _ _ _, State.after_bus hs .dati⟩

/-- Between source and destination MOV and MOVB set the codes alone. -/
theorem moved_eq (sz : Size) (src : Operand) (s : State) :
    ∃ f, moved sz src s = (operandStep .dati sz src s).setCC f := by
  cases sz <;> exact ⟨_, rfl⟩

theorem sourceStep_moved (hm : src.mode = .register ∨ src.mode = .deferred)
    (hs : operandReadable sz src s = true) : SourceStep sz src s (moved sz src s) := by
  obtain ⟨f, hf⟩ := moved_eq sz src s
  obtain ⟨hcfg, hpar, hreg, hnpr, hbus⟩ := sourceStep_operandStep hm hs
  rw [hf]
  exact ⟨hcfg, hpar, hreg, hnpr, hbus⟩

theorem SourceStep.readable {u : State} (h : SourceStep sz src s u) (hr : s.readable sz (s.reg r) = true) :
    u.readable sz (u.reg r) = true := by
  rw [h.reg, readable_congr h.cfg h.parityBad]; exact hr

theorem SourceStep.writable {u : State} (h : SourceStep sz src s u) (hw : s.writable sz (s.reg r) = true) :
    u.writable sz (u.reg r) = true := by
  rw [h.reg, writable_congr h.cfg]; exact hw

theorem exec_compare_deferred (hi : shapeOf i = .compare sz src ⟨.deferred, r⟩)
    (hm : src.mode = .register ∨ src.mode = .deferred) (hs : operandReadable sz src s = true)
    (hr : s.readable sz (s.reg r) = true) :
    ∃ t, exec i s = .next t ∧ t.bus = ⟨.dati, addr18 s.cfg (s.reg r),
      (operandStep .dati sz src s).granted.wordAt (s.reg r), true⟩ :: (operandStep .dati sz src s).bus := by
  have hu := sourceStep_operandStep hm hs
  have hru := hu.readable hr
  obtain ⟨t, f, ht, hv⟩ := exec_compare_completes hi hs (operandReadable_deferred hru)
  have hb := bus_of_afterTest hru hv
  rw [hu.cfg, hu.reg] at hb
  exact ⟨t, ht, hb⟩

theorem exec_combine_deferred (hi : shapeOf i = .combine sz src ⟨.deferred, r⟩)
    (hm : src.mode = .register ∨ src.mode = .deferred) (hs : operandReadable sz src s = true)
    (hr : s.readable sz (s.reg r) = true) (hw : s.writable sz (s.reg r) = true) :
    ∃ t v, exec i s = .next t ∧ ModifiesAt sz (s.reg r) v (operandStep .dati sz src s) t := by
  have hu := sourceStep_operandStep hm hs
  obtain ⟨t, v, f, ht, hv⟩ :=
    exec_combine_completes hi hs (operandWritable_deferred (hu.readable hr) (hu.writable hw)) rfl
  have hmod := modifiesAt_of_visible (hu.readable hr) hv
  rw [hu.reg] at hmod
  exact ⟨t, _, ht, hmod⟩

theorem exec_move_deferred (hi : shapeOf i = .move sz src ⟨.deferred, r⟩)
    (hm : src.mode = .register ∨ src.mode = .deferred) (hs : operandReadable sz src s = true)
    (hr : s.readable sz (s.reg r) = true) (hw : s.writable sz (s.reg r) = true) :
    ∃ t, exec i s = .next t ∧
      ModifiesAt sz (s.reg r) (onTheLines sz (operandValue sz src s)) (moved sz src s) t := by
  have hx := sourceStep_moved hm hs
  obtain ⟨t, ht, hv⟩ :=
    exec_move_completes hi hs (operandWritable_deferred (hx.readable hr) (hx.writable hw)) rfl
  have hmod := modifiesAt_of_visible (p := (operandStep .datip sz ⟨.deferred, r⟩ (moved sz src s)).psw)
    (hx.readable hr) hv
  rw [hx.reg] at hmod
  exact ⟨t, ht, hmod⟩

/-- The record of a modifying destination, seen from before the source's steps. -/
theorem SourceStep.modify_bus {u t : State} {a v : Word} (h : SourceStep sz src s u) (hmod : ModifiesAt sz a v u t) :
    t.bus = ⟨writeKind sz, addr18 s.cfg a, v, true⟩ :: ⟨.datip, addr18 s.cfg a, u.granted.wordAt a, true⟩ ::
      if src.mode = .register then s.bus
        else ⟨.dati, addr18 s.cfg (s.reg src.reg), s.granted.wordAt (s.reg src.reg), true⟩ :: s.bus := by
  rw [hmod.bus, h.cfg, h.bus]

/-- The batches a modifying destination uses up, with those of the source. -/
theorem SourceStep.modify_npr {u t : State} {a v : Word} (h : SourceStep sz src s u) (hmod : ModifiesAt sz a v u t) :
    t.npr = if src.mode = .register then s.npr.tail else s.npr.tail.tail := by
  rw [hmod.npr, h.npr, apply_ite List.tail]

end

/-! ### The stack and the trap sequence -/

theorem lowered_bus (s : State) : (lowered s).bus = s.bus := by
  unfold lowered
  rw [State.granted_bus]
  obtain ⟨f, h⟩ := decremented_eq .r6 2 s; rw [h]; rfl

theorem lowered_npr (s : State) : (lowered s).npr = s.npr.tail := by simp [lowered]

theorem pushed_bus (v : Word) (s : State) :
    (pushed v s).bus = ⟨.dato, addr18 s.cfg (s.sp - 2), v, true⟩ :: s.bus := by
  unfold pushed
  rw [withWord_bus, lowered_cfg, lowered_bus]

/-- A push uses up one batch. -/
theorem pushed_npr_tail (v : Word) (s : State) : (pushed v s).npr = s.npr.tail := by
  unfold pushed
  rw [withWord_npr, lowered_npr]

theorem saved_bus (s : State) : (saved s).bus =
    ⟨.dato, addr18 s.cfg (s.sp - 4), s.pc, true⟩ ::
      ⟨.dato, addr18 s.cfg (s.sp - 2), zext (lowered s).psw, true⟩ :: s.bus := by
  unfold saved
  rw [pushed_bus, pushed_bus, pushed_cfg, pushed_sp, sp_sub_four]

/-- The two pushes, spelled out: each behind its own decrement and its own batch (R340). -/
theorem saved_eq (s : State) : saved s =
    (decremented .r6 2 ((decremented .r6 2 s).granted.withWord (s.sp - 2)
      (zext (decremented .r6 2 s).granted.psw))).granted.withWord (s.sp - 4) s.pc := by
  have hsp := pushed_sp (zext (lowered s).psw) s
  unfold saved pushed lowered at *
  rw [hsp, sp_sub_four]

theorem entered_pc (v : Word) (s : State) : (entered v s).pc = (saved s).granted.wordAt v := by
  unfold entered
  exact State.after_pc _ _ _ _

theorem entered_npr (v : Word) (s : State) : (entered v s).npr = s.npr.tail.tail.tail.tail := by
  unfold entered saved
  dsimp only
  rw [State.after_npr, State.setPc_npr, State.after_npr, pushed_npr_tail, pushed_npr_tail]

/-- The PSW taken is the vector's second word as it stands after a batch of its own (R340). -/
theorem entered_psw (v : Word) (s : State) :
    (entered v s).psw = lowByte (((saved s).after .dati .word v).granted.wordAt (v + 2)) :=
  congrArg lowByte (setPc_gets ((saved s).after .dati .word v) ((saved s).gets .word v) .word (v + 2))

theorem entered_mem (v : Word) (s : State) : (entered v s).mem = ((saved s).after .dati .word v).granted.mem := by
  unfold entered
  dsimp only
  rw [State.after_mem, ← State.setReg_r7, setReg_granted, State.setReg_mem]

/-- The record of the two reads at the vector, over that of the two pushes (R340). -/
theorem entered_bus {v : Word} {s : State} (h1 : s.readable .word v = true) (h2 : s.readable .word (v + 2) = true) :
    (entered v s).bus =
      ⟨.dati, addr18 s.cfg (v + 2), ((saved s).after .dati .word v).granted.wordAt (v + 2), true⟩ ::
        ⟨.dati, addr18 s.cfg v, (saved s).granted.wordAt v, true⟩ :: (saved s).bus := by
  have hr : ∀ a, (saved s).readable .word a = s.readable .word a :=
    fun a => readable_congr (saved_cfg s) (saved_parityBad s) .word a
  have hw : (((saved s).after .dati .word v).setPc ((saved s).gets .word v)).granted.wordAt (v + 2) =
      ((saved s).after .dati .word v).granted.wordAt (v + 2) :=
    setPc_gets ((saved s).after .dati .word v) ((saved s).gets .word v) .word (v + 2)
  have hr2 : (((saved s).after .dati .word v).setPc ((saved s).gets .word v)).readable .word (v + 2) = true := by
    rw [readable_congr (t := s) (by simp) (by simp)]; exact h2
  unfold entered
  dsimp only
  rw [State.after_bus hr2, hw, State.setPc_cfg, State.setPc_bus, State.after_cfg, saved_cfg,
    State.after_bus ((hr v).trans h1), saved_cfg]

theorem entryAnswers_readable {v : Word} {s : State} (h : entryAnswers v s = true) :
    s.readable .word v = true ∧ s.readable .word (v + 2) = true := by
  unfold entryAnswers at h
  simp only [Bool.and_eq_true] at h
  obtain ⟨⟨⟨_, _⟩, h3⟩, h4⟩ := h
  exact ⟨h3, h4⟩

/-- Settles O20: what is seen after each access holds its own cycles at the head of the record. -/
theorem busCyclesOfEachAccess : Obligations.BusCyclesOfEachAccess := by
  unfold Obligations.BusCyclesOfEachAccess
  refine ⟨?fetch, ?test, ?modify, ?double, ?push, ?pop, ?trap⟩
  case fetch =>
    intro s h
    exact ⟨_, fetch_ok h, State.after_bus h .dati⟩
  case test => exact fun i sz r s hi hr => exec_test_deferred hi hr
  case modify =>
    intro i sz r s hi hr hw
    obtain ⟨t, v, ht, hmod⟩ := exec_modify_deferred hi hr hw
    exact ⟨t, v, ht, hmod.bus⟩
  case double =>
    intro i sz src r s hm hs hr
    have hu := sourceStep_operandStep hm hs
    refine ⟨fun hi => ?compare, fun hi hw => ?combine, fun hi hw => ?move⟩
    case compare =>
      obtain ⟨t, ht, hb⟩ := exec_compare_deferred hi hm hs hr
      exact ⟨t, ht, by rw [hb, hu.bus]⟩
    case combine =>
      obtain ⟨t, v, ht, hmod⟩ := exec_combine_deferred hi hm hs hr hw
      exact ⟨t, v, ht, hu.modify_bus hmod⟩
    case move =>
      obtain ⟨t, ht, hmod⟩ := exec_move_deferred hi hm hs hr hw
      refine ⟨t, ht, ((sourceStep_moved hm hs).modify_bus hmod).trans ?_⟩
      cases sz <;> rfl
  case push => exact fun v s h => ⟨_, push_writable v h, pushed_bus v s⟩
  case pop => exact fun s h => ⟨_, _, pop_readable h, State.after_bus h .dati⟩
  case trap =>
    intro v s h
    have hv := (trapSequence_ok h).1
    obtain ⟨h1, h2⟩ := entryAnswers_readable h
    refine ⟨_, (vis_psw hv).trans (entered_psw v s), ?_⟩
    rw [vis_bus hv, entered_bus h1 h2, saved_bus, vis_pc hv, entered_pc]

/-! ### The schedule of the other masters -/

/-- The last cycle of a batch comes after all the others. -/
theorem granted_concat {s : State} {now : List MasterCycle} {c : MasterCycle} {later : List (List MasterCycle)}
    (h : s.npr = (now ++ [c]) :: later) : s.granted = ({ s with npr := now :: later } : State).granted.dma c := by
  unfold State.granted
  rw [h]
  exact List.foldl_append

/-- An even address of memory lies outside the register window and is not the PSW's (R29, R33, R80). -/
theorem InMemory.place {s : State} {a : Word} (h : InMemory s a) (ho : isOdd a = false) :
    (addr18 s.cfg a).toNat ≠ 0o777776 ∧ ¬ (0o777700 ≤ (addr18 s.cfg a).toNat ∧ (addr18 s.cfg a).toNat ≤ 0o777717) ∧
      slaveIn s.cfg.memMap (addr18 s.cfg a).toNat = some .memory := by
  have ht := h.target
  have heven := wordBase_even (addr18 s.cfg a)
  unfold State.targetOf Machine.target at ht
  rw [wordBase_addr18_even _ a ho] at ht heven
  split at ht
  · cases ht
  · rename_i hpsw
    split at ht
    · cases ht
    · rename_i hwindow
      refine ⟨hpsw, by omega, ?_⟩
      split at ht
      · rename_i k hk
        cases ht
        exact hk
      · cases ht

/-- Another master's word at an address of memory is stored there (R332). -/
theorem InMemory.dma_write_mem {s : State} {a : Word} (h : InMemory s a) (ho : isOdd a = false) (v : Word) :
    (s.dma (.write (addr18 s.cfg a) v)).mem = s.mem.writeWord (addr18 s.cfg a).toNat v := by
  obtain ⟨hpsw, hwindow, hslave⟩ := h.place ho
  have heven : (addr18 s.cfg a).getLsbD 0 = false := by
    rw [isOdd_addr18 s.cfg] at ho
    simpa [BitVec.getLsbD, Nat.testBit_zero] using ho
  show (s.dmaWrite _ v).mem = _
  unfold State.dmaWrite
  rw [if_neg hwindow, if_neg (Bool.eq_false_iff.mp heven), if_neg hpsw, hslave]

/-- A word that another master writes just before a read is what the read brings (R78, R85). -/
theorem InMemory.memRead_after_dma {s : State} {a v : Word} {now : List MasterCycle}
    {later : List (List MasterCycle)} (h : InMemory s a) (ho : isOdd a = false) (hwf : s.mem.wf = true)
    (hn : s.npr = (now ++ [.write (addr18 s.cfg a) v]) :: later) :
    ∃ t, memRead .word a s = .ok v t ∧ t.npr = later := by
  obtain ⟨t, ht, hnpr⟩ := h.memRead_word ho
  have hg := granted_concat hn
  generalize hb : ({ s with npr := now :: later } : State).granted = b at hg
  have hbefore : InMemory b a ∧ b.cfg = s.cfg ∧ b.mem.wf = true := by
    subst hb
    exact ⟨InMemory.granted (s := { s with npr := now :: later }) ⟨h.target, h.parity⟩, State.granted_cfg _,
      (keeps_granted { s with npr := now :: later }).wf hwf⟩
  obtain ⟨hin, hcfg, hbwf⟩ := hbefore
  have hmem := hin.dma_write_mem ho v
  rw [hcfg] at hmem
  rw [hg, hmem, Memory.readWord_writeWord _ _ _ hbwf (addr18_lt_of_even s.cfg ho)] at ht
  exact ⟨t, ht, by rw [hnpr, hn]; rfl⟩

/-- Settles O21: one batch runs before each cycle of the processor, and none before the write that follows a DATIP. -/
theorem dmaBetweenBusCycles : Obligations.DmaBetweenBusCycles := by
  unfold Obligations.DmaBetweenBusCycles
  refine ⟨State.granted_eq, fun s now c later => granted_concat, ?read, fun s b => rfl, ?modify, ?double, ?trap⟩
  case read =>
    intro s a v now later hwf hn ho ht hp
    exact (InMemory.mk ht hp).memRead_after_dma ho hwf hn
  case modify =>
    intro i sz r s hr hw hi
    obtain ⟨t, v, ht, hmod⟩ := exec_modify_deferred hi hr hw
    exact ⟨t, v, ht, hmod.npr, hmod.mem, hmod.bus⟩
  case double =>
    intro i sz src r s hm hs hr hw
    refine ⟨fun hi => ?combine, fun hi => ?move⟩
    case combine =>
      have hu := sourceStep_operandStep hm hs
      obtain ⟨t, v, ht, hmod⟩ := exec_combine_deferred hi hm hs hr hw
      exact ⟨t, v, ht, hu.modify_npr hmod, hmod.mem, hu.modify_bus hmod⟩
    case move =>
      have hx := sourceStep_moved hm hs
      obtain ⟨t, ht, hmod⟩ := exec_move_deferred hi hm hs hr hw
      exact ⟨t, _, ht, hx.modify_npr hmod, hmod.mem, hx.modify_bus hmod⟩
  case trap =>
    intro v s h
    have hv := (trapSequence_ok h).1
    dsimp only
    rw [← saved_eq]
    exact ⟨(vis_npr hv).trans (entered_npr v s), (vis_pc hv).trans (entered_pc v s),
      (vis_psw hv).trans (entered_psw v s), (vis_mem hv).trans (entered_mem v s)⟩

end Sys2Proof.Machine

/-! SUPPORT and PROOFS of family 30_encoding: the decoder and the encoder are inverse to each other, and the opcode map
follows from that. -/

namespace Sys2Proof

/-! ### A word from its parts -/

/-- A field as a number. -/
theorem field_toNat (w : Word) (k l : Nat) : (w.extractLsb' k l).toNat = w.toNat / 2 ^ k % 2 ^ l := by
  rw [BitVec.extractLsb'_toNat, Nat.shiftRight_eq_div_pow]

/-- A bit by the number of the word. -/
theorem getLsbD_iff (w : Word) (k : Nat) : w.getLsbD k = true ↔ w.toNat / 2 ^ k % 2 = 1 := by
  rw [BitVec.getLsbD, Nat.testBit_eq_decide_div_mod_eq, decide_eq_true_iff]

/-- A one-bit field is the bit itself. -/
theorem extract_one {n : Nat} (w : BitVec n) (k : Nat) : w.extractLsb' k 1 = BitVec.ofBool (w.getLsbD k) := by
  apply BitVec.eq_of_getLsbD_eq
  intro i hi
  have hi0 : i = 0 := by omega
  subst hi0
  simp

/-- The bits of a word above the low `m`. -/
theorem extract_prefix {n m p : Nat} {w : BitVec (n + m)} (h : w.toNat / 2 ^ m = p) :
    w.extractLsb' m n = BitVec.ofNat n p := by
  apply BitVec.eq_of_toNat_eq
  rw [BitVec.extractLsb'_toNat, Nat.shiftRight_eq_div_pow, h, BitVec.toNat_ofNat]

/-- A word is the code in its upper bits and the field below it. -/
theorem append_low {n m p : Nat} {w : BitVec (n + m)} (h : w.toNat / 2 ^ m = p) :
    BitVec.ofNat n p ++ w.extractLsb' 0 m = w := by
  have hj : w.extractLsb' m n ++ w.extractLsb' 0 m = w.extractLsb' 0 (n + m) := by
    simpa only [Nat.zero_add] using extract_join w 0 m n
  rw [← extract_prefix h, hj, extract_all]

theorem append_fieldByte {w : Word} {p : Nat} (h : w.toNat / 2 ^ 8 = p) :
    (BitVec.ofNat 8 p ++ fieldByte w : BitVec 16) = w := append_low (n := 8) (m := 8) h

theorem append_fieldDst {w : Word} {p : Nat} (h : w.toNat / 2 ^ 6 = p) :
    (BitVec.ofNat 10 p ++ (fieldDst w).bits : BitVec 16) = w := by
  rw [fieldDst, Operand.bits_ofBits]
  exact append_low (n := 10) (m := 6) h

theorem append_fieldSrc_fieldDst {w : Word} {p : Nat} (h : w.toNat / 2 ^ 12 = p) :
    (BitVec.ofNat 4 p ++ (fieldSrc w).bits ++ (fieldDst w).bits : BitVec 16) = w := by
  rw [fieldSrc, fieldDst, Operand.bits_ofBits, Operand.bits_ofBits, ← extract_prefix (n := 4) (m := 12) h,
    show w.extractLsb' 12 4 ++ w.extractLsb' 6 6 = w.extractLsb' 6 10 from extract_join w 6 6 4]
  exact (extract_join w 0 6 10).trans (extract_all w)

/-- The linkage register of JSR, bits 8:6 (R107), and the destination. -/
theorem append_link_fieldDst {w : Word} {p : Nat} (h : w.toNat / 2 ^ 9 = p) :
    (BitVec.ofNat 7 p ++ (Reg.ofBits (w.extractLsb' 6 3)).bits ++ (fieldDst w).bits : BitVec 16) = w := by
  rw [fieldDst, Reg.bits_ofBits, Operand.bits_ofBits, ← extract_prefix (n := 7) (m := 9) h,
    show w.extractLsb' 9 7 ++ w.extractLsb' 6 3 = w.extractLsb' 6 10 from extract_join w 6 3 7]
  exact (extract_join w 0 6 10).trans (extract_all w)

/-- The linkage register of RTS, bits 2:0 (R107). -/
theorem append_link {w : Word} {p : Nat} (h : w.toNat / 2 ^ 3 = p) :
    (BitVec.ofNat 13 p ++ (Reg.ofBits (w.extractLsb' 0 3)).bits : BitVec 16) = w := by
  rw [Reg.bits_ofBits]
  exact append_low (n := 13) (m := 3) h

/-- The five low bits one by one, as the condition-code operators name them (R110). -/
theorem append_bits {w : Word} {p : Nat} (h : w.toNat / 2 ^ 5 = p) :
    (BitVec.ofNat 11 p ++ BitVec.ofBool (w.getLsbD 4) ++ BitVec.ofBool (w.getLsbD 3) ++ BitVec.ofBool (w.getLsbD 2) ++
      BitVec.ofBool (w.getLsbD 1) ++ BitVec.ofBool (w.getLsbD 0) : BitVec 16) = w := by
  simp only [← extract_one]
  rw [← extract_prefix (n := 11) (m := 5) h,
    show w.extractLsb' 5 11 ++ w.extractLsb' 4 1 = w.extractLsb' 4 12 from extract_join w 4 1 11,
    show w.extractLsb' 4 12 ++ w.extractLsb' 3 1 = w.extractLsb' 3 13 from extract_join w 3 1 12,
    show w.extractLsb' 3 13 ++ w.extractLsb' 2 1 = w.extractLsb' 2 14 from extract_join w 2 1 13,
    show w.extractLsb' 2 14 ++ w.extractLsb' 1 1 = w.extractLsb' 1 15 from extract_join w 1 1 14]
  exact (extract_join w 0 1 15).trans (extract_all w)

/-- The bytes of a word put together again (R61). -/
theorem append_bytes (w : Word) : (w.extractLsb' 8 8 ++ w.extractLsb' 0 8 : BitVec 16) = w :=
  (extract_join w 0 8 8).trans (extract_all w)

/-! ### Mode 0 -/

theorem Mode.ofBits_eq_register (b : BitVec 3) : Mode.ofBits b = .register ↔ b = 0 := by
  revert b; decide

/-- The destination has mode 0 where bits 5:3 are 0. -/
theorem fieldDst_register_iff (w : Word) : (fieldDst w).mode = .register ↔ w.toNat / 8 % 8 = 0 := by
  have hn : ((w.extractLsb' 0 6).extractLsb' 3 3).toNat = w.toNat / 8 % 8 := by
    rw [BitVec.extractLsb'_toNat, field_toNat, Nat.shiftRight_eq_div_pow]
    omega
  rw [← hn]
  exact (Mode.ofBits_eq_register _).trans BitVec.toNat_eq

theorem fieldDst_reg (w : Word) : (fieldDst w).reg = Reg.ofBits (w.extractLsb' 0 3) := by
  have hn : (w.extractLsb' 0 6).extractLsb' 0 3 = w.extractLsb' 0 3 := by
    apply BitVec.eq_of_toNat_eq
    rw [BitVec.extractLsb'_toNat, field_toNat, field_toNat, Nat.shiftRight_eq_div_pow]
    omega
  exact congrArg Reg.ofBits hn

/-- JMP with mode 0 has the word JMP would have (R119). -/
theorem encodeWord_jmpRn {o : Operand} (h : o.mode = .register) :
    encodeWord (.jmpRn o.reg) = (0o0001#10 ++ o.bits : BitVec 16) := by
  rw [Operand.bits, h]
  exact BitVec.append_assoc

/-- JSR with mode 0 has the word JSR would have (R119). -/
theorem encodeWord_jsrRn (link : Reg) {o : Operand} (h : o.mode = .register) :
    encodeWord (.jsrRn link o.reg) = (0o004#7 ++ link.bits ++ o.bits : BitVec 16) := by
  rw [Operand.bits, h]
  exact BitVec.append_assoc

/-! ### What a word decodes to encodes to the word -/

/-- The instruction is the one, under its first name, that the word stands for. -/
structure StandsFor (i : Instr) (w : Word) : Prop where
  wf : i.wf = true
  canonical : i.canonical = i
  encode : encodeWord i = w

section
variable {w : Word}

theorem decodeSingle_standsFor (h : w.toNat / 2 ^ 9 = 0o005) : StandsFor (decodeSingle w) w := by
  have hn := field_toNat w 6 3
  unfold decodeSingle
  generalize (w.extractLsb' 6 3).toNat = n at hn ⊢
  have hlt : n < 8 := by omega
  interval_cases n <;> exact ⟨rfl, rfl, append_fieldDst (by omega)⟩

theorem decodeSingleB_standsFor (h : w.toNat / 2 ^ 9 = 0o105) : StandsFor (decodeSingleB w) w := by
  have hn := field_toNat w 6 3
  unfold decodeSingleB
  generalize (w.extractLsb' 6 3).toNat = n at hn ⊢
  have hlt : n < 8 := by omega
  interval_cases n <;> exact ⟨rfl, rfl, append_fieldDst (by omega)⟩

theorem decodeShift_standsFor (h : w.toNat / 2 ^ 8 = 0o014) : StandsFor (decodeShift w) w := by
  have hn := field_toNat w 6 2
  unfold decodeShift
  generalize (w.extractLsb' 6 2).toNat = n at hn ⊢
  have hlt : n < 4 := by omega
  interval_cases n <;> exact ⟨rfl, rfl, append_fieldDst (by omega)⟩

theorem decodeShiftB_standsFor (h : w.toNat / 2 ^ 8 = 0o214) : StandsFor (decodeShiftB w) w := by
  have hn := field_toNat w 6 2
  unfold decodeShiftB
  generalize (w.extractLsb' 6 2).toNat = n at hn ⊢
  have hlt : n < 4 := by omega
  interval_cases n <;> exact ⟨rfl, rfl, append_fieldDst (by omega)⟩

theorem jmp_standsFor (h : w.toNat / 2 ^ 6 = 0o0001) :
    StandsFor (if (fieldDst w).mode = .register then .jmpRn (fieldDst w).reg else .jmp (fieldDst w)) w := by
  have hw := append_fieldDst h
  split
  case isTrue hm => exact ⟨rfl, rfl, (encodeWord_jmpRn hm).trans hw⟩
  case isFalse hm => exact ⟨bne_iff_ne.mpr hm, rfl, hw⟩

theorem jsr_standsFor (h : w.toNat / 2 ^ 9 = 0o004) :
    StandsFor (if (fieldDst w).mode = .register then .jsrRn (Reg.ofBits (w.extractLsb' 6 3)) (fieldDst w).reg
      else .jsr (Reg.ofBits (w.extractLsb' 6 3)) (fieldDst w)) w := by
  have hw := append_link_fieldDst h
  split
  case isTrue hm => exact ⟨rfl, rfl, (encodeWord_jsrRn _ hm).trans hw⟩
  case isFalse hm => exact ⟨bne_iff_ne.mpr hm, rfl, hw⟩

theorem decodeOperate_standsFor (h : w.toNat / 2 ^ 8 = 0) : StandsFor (decodeOperate w) w := by
  have hgroup := field_toNat w 6 2
  have hlow := field_toNat w 0 6
  unfold decodeOperate
  simp only [getLsbD_iff]
  split
  case h_1 =>
    have hw : w.toNat = (w.extractLsb' 0 6).toNat := by omega
    split
    case h_9 =>
      simp only [imp_false] at *
      split
      · exact ⟨rfl, rfl, append_low (n := 11) (m := 5) (by omega)⟩
      split
      · exact ⟨rfl, rfl, append_low (n := 12) (m := 4) (by omega)⟩
      · exact ⟨rfl, rfl, append_low (n := 13) (m := 3) (by omega)⟩
    all_goals next hcode => exact ⟨rfl, rfl, BitVec.eq_of_toNat_eq (hw.trans hcode).symm⟩
  case h_2 => exact jmp_standsFor (by omega)
  case h_3 =>
    split
    · exact ⟨rfl, rfl, append_bits (by omega)⟩
    split
    · exact ⟨rfl, rfl, append_low (n := 12) (m := 4) (by omega)⟩
    split
    · exact ⟨rfl, rfl, append_low (n := 13) (m := 3) (by omega)⟩
    · exact ⟨rfl, rfl, append_link (by omega)⟩
  case h_4 =>
    simp only [imp_false] at *
    exact ⟨rfl, rfl, append_fieldDst (by omega)⟩

theorem decodeLow_standsFor (h : w.toNat / 2 ^ 12 = 0) : StandsFor (decodeLow w) w := by
  have hn := field_toNat w 8 4
  unfold decodeLow
  generalize (w.extractLsb' 8 4).toNat = n at hn ⊢
  have hlt : n < 16 := by omega
  interval_cases n
  · exact decodeOperate_standsFor (by omega)
  · exact ⟨rfl, rfl, append_fieldByte (by omega)⟩
  · exact ⟨rfl, rfl, append_fieldByte (by omega)⟩
  · exact ⟨rfl, rfl, append_fieldByte (by omega)⟩
  · exact ⟨rfl, rfl, append_fieldByte (by omega)⟩
  · exact ⟨rfl, rfl, append_fieldByte (by omega)⟩
  · exact ⟨rfl, rfl, append_fieldByte (by omega)⟩
  · exact ⟨rfl, rfl, append_fieldByte (by omega)⟩
  · exact jsr_standsFor (by omega)
  · exact jsr_standsFor (by omega)
  · exact decodeSingle_standsFor (by omega)
  · exact decodeSingle_standsFor (by omega)
  · exact decodeShift_standsFor (by omega)
  · exact ⟨rfl, rfl, append_low (n := 8) (m := 8) (by omega)⟩
  · exact ⟨rfl, rfl, append_low (n := 7) (m := 9) (by omega)⟩
  · exact ⟨rfl, rfl, append_low (n := 7) (m := 9) (by omega)⟩

theorem decodeHigh_standsFor (h : w.toNat / 2 ^ 12 = 8) : StandsFor (decodeHigh w) w := by
  have hn := field_toNat w 8 4
  unfold decodeHigh
  generalize (w.extractLsb' 8 4).toNat = n at hn ⊢
  have hlt : n < 16 := by omega
  interval_cases n
  · exact ⟨rfl, rfl, append_fieldByte (by omega)⟩
  · exact ⟨rfl, rfl, append_fieldByte (by omega)⟩
  · exact ⟨rfl, rfl, append_fieldByte (by omega)⟩
  · exact ⟨rfl, rfl, append_fieldByte (by omega)⟩
  · exact ⟨rfl, rfl, append_fieldByte (by omega)⟩
  · exact ⟨rfl, rfl, append_fieldByte (by omega)⟩
  · exact ⟨rfl, rfl, append_fieldByte (by omega)⟩
  · exact ⟨rfl, rfl, append_fieldByte (by omega)⟩
  · exact ⟨rfl, rfl, append_fieldByte (by omega)⟩
  · exact ⟨rfl, rfl, append_fieldByte (by omega)⟩
  · exact decodeSingleB_standsFor (by omega)
  · exact decodeSingleB_standsFor (by omega)
  · exact decodeShiftB_standsFor (by omega)
  · exact ⟨rfl, rfl, append_low (n := 8) (m := 8) (by omega)⟩
  · exact ⟨rfl, rfl, append_low (n := 7) (m := 9) (by omega)⟩
  · exact ⟨rfl, rfl, append_low (n := 7) (m := 9) (by omega)⟩

/-- The decoder's answer stands for the word, whatever the word is. -/
theorem decodeWord_standsFor (w : Word) : StandsFor (decodeWord w) w := by
  have hn := field_toNat w 12 4
  unfold decodeWord
  generalize (w.extractLsb' 12 4).toNat = n at hn ⊢
  have hlt : n < 16 := by omega
  interval_cases n
  · exact decodeLow_standsFor (by omega)
  · exact ⟨rfl, rfl, append_fieldSrc_fieldDst (by omega)⟩
  · exact ⟨rfl, rfl, append_fieldSrc_fieldDst (by omega)⟩
  · exact ⟨rfl, rfl, append_fieldSrc_fieldDst (by omega)⟩
  · exact ⟨rfl, rfl, append_fieldSrc_fieldDst (by omega)⟩
  · exact ⟨rfl, rfl, append_fieldSrc_fieldDst (by omega)⟩
  · exact ⟨rfl, rfl, append_fieldSrc_fieldDst (by omega)⟩
  · exact ⟨rfl, rfl, append_low (n := 4) (m := 12) (by omega)⟩
  · exact decodeHigh_standsFor (by omega)
  · exact ⟨rfl, rfl, append_fieldSrc_fieldDst (by omega)⟩
  · exact ⟨rfl, rfl, append_fieldSrc_fieldDst (by omega)⟩
  · exact ⟨rfl, rfl, append_fieldSrc_fieldDst (by omega)⟩
  · exact ⟨rfl, rfl, append_fieldSrc_fieldDst (by omega)⟩
  · exact ⟨rfl, rfl, append_fieldSrc_fieldDst (by omega)⟩
  · exact ⟨rfl, rfl, append_fieldSrc_fieldDst (by omega)⟩
  · exact ⟨rfl, rfl, append_low (n := 4) (m := 12) (by omega)⟩

end

/-! ### What an instruction encodes to decodes to the instruction -/

/-- A field that lies across the joint of a concatenation. -/
theorem extract_append_across {n m k l : Nat} (a : BitVec n) (b : BitVec m) (h : k + l = m) (j : Nat) :
    (a ++ b).extractLsb' k (j + l) = a.extractLsb' 0 j ++ b.extractLsb' k l := by
  subst h
  rw [← extract_join (a ++ b) k l j, extract_append_high a b (Nat.le_refl _), Nat.sub_self,
    extract_append_low a b (Nat.le_refl _)]

/-- Bits 11:8 of a word whose code is 7 bits long. -/
theorem extract_append_nine (a : BitVec 7) (low : BitVec 9) :
    (a ++ low : BitVec 16).extractLsb' 8 4 = a.extractLsb' 0 3 ++ BitVec.ofBool (low.getLsbD 8) := by
  rw [← extract_one]
  exact extract_append_across a low (k := 8) (l := 1) rfl 3

theorem fieldDst_append_link (a : BitVec 7) (b : BitVec 3) (o : Operand) :
    fieldDst (a ++ b ++ o.bits : BitVec 16) = o := fieldDst_append (a ++ b) o

/-- The decoder reads an instruction's word as the instruction, under its first name. The cases are grouped by format
(R102 to R110): the fields the decoder branches on lie in the code above the operands, and the operand fields are read
back; where no more than five bits are free the words are enumerated. -/
theorem decodeWord_encodeWord {i : Instr} (h : i.wf = true) : decodeWord (encodeWord i) = i.canonical := by
  cases i
  case halt | wait | rti | bpt | iot | reset | rtt | reserved000007 => rfl
  case rts link => cases link <;> rfl
  case ccop set n z v c => revert set n z v c; decide
  case reserved000010 low | reserved000020 low | reserved000040 low | reserved000210 low | reserved000220 low =>
    revert low; decide
  case jmp dst =>
    simp only [encodeWord, decodeWord, decodeLow, decodeOperate, extract_append_high (m := 6), fieldDst_append,
      Nat.reduceLeDiff]
    exact if_neg (bne_iff_ne.mp h)
  case jmpRn r => cases r <;> rfl
  case jsr link dst =>
    simp only [encodeWord, decodeWord, decodeLow, extract_append_high (m := 6), fieldDst_append_link, Nat.reduceLeDiff]
    cases link <;> exact if_neg (bne_iff_ne.mp h)
  case jsrRn link r => cases link <;> cases r <;> rfl
  case swab dst | clr dst | com dst | inc dst | dec dst | neg dst | adc dst | sbc dst | tst dst |
      ror dst | rol dst | asr dst | asl dst =>
    simp only [encodeWord, decodeWord, decodeLow, decodeOperate, decodeSingle, decodeShift,
      extract_append_high (m := 6), fieldDst_append, Nat.reduceLeDiff, Nat.reduceSub, BitVec.reduceExtractLsb',
      BitVec.reduceToNat]
    rfl
  case clrb dst | comb dst | incb dst | decb dst | negb dst | adcb dst | sbcb dst | tstb dst |
      rorb dst | rolb dst | asrb dst | aslb dst =>
    simp only [encodeWord, decodeWord, decodeHigh, decodeSingleB, decodeShiftB, extract_append_high (m := 6),
      fieldDst_append, Nat.reduceLeDiff, Nat.reduceSub, BitVec.reduceExtractLsb', BitVec.reduceToNat]
    rfl
  case mov src dst | cmp src dst | bit src dst | bic src dst | bis src dst | add src dst |
      movb src dst | cmpb src dst | bitb src dst | bicb src dst | bisb src dst | sub src dst =>
    simp only [encodeWord, decodeWord, group_append, fieldSrc_append, fieldDst_append2, BitVec.reduceToNat]
    rfl
  case br low | bne low | beq low | bge low | blt low | bgt low | ble low |
      bpl low | bmi low | bhi low | blos low | bvc low | bvs low | bcc low | bhis low | bcs low | blo low |
      emt low | trap low =>
    simp only [encodeWord, decodeWord, decodeLow, decodeHigh, extract_append_high (m := 8), fieldByte_append,
      Nat.reduceLeDiff, Nat.reduceSub, BitVec.reduceExtractLsb', BitVec.reduceToNat]
    rfl
  case reserved006400 low | reserved106400 low =>
    simp only [encodeWord, decodeWord, decodeLow, decodeHigh, extract_append_high (m := 8), extract_append_low (m := 8),
      extract_all, Nat.reduceLeDiff, Nat.reduceAdd, Nat.reduceSub, BitVec.reduceExtractLsb', BitVec.reduceToNat]
    rfl
  case reserved007000 low | reserved107000 low =>
    simp only [encodeWord, decodeWord, decodeLow, decodeHigh, extract_append_high (m := 9), extract_append_low (m := 9),
      extract_append_nine, extract_all, Nat.reduceLeDiff, Nat.reduceAdd]
    cases low.getLsbD 8 <;> rfl
  case reserved070000 low | reserved170000 low =>
    simp only [encodeWord, decodeWord, extract_append_high (m := 12), extract_append_low (m := 12), extract_all,
      Nat.reduceLeDiff, Nat.reduceAdd, Nat.reduceSub, BitVec.reduceToNat]
    rfl

/-- The instruction a word stands for is what it decodes to. -/
theorem decodeWord_eq {i : Instr} {w : Word} (h : StandsFor i w) : decodeWord w = i := by
  rw [← h.encode, decodeWord_encodeWord h.wf, h.canonical]

/-- Settles O5: the bytes of a word are put together to the word, the decoder reads an encoded instruction back, and
what a word decodes to stands for the word. -/
theorem decodeAndEncodeAgree : Obligations.DecodeAndEncodeAgree := by
  unfold Obligations.DecodeAndEncodeAgree
  refine ⟨fun i rest h => ?decode, fun w => ?encode⟩
  case decode =>
    show Except.ok (decodeWord ((encodeWord i).extractLsb' 8 8 ++ (encodeWord i).extractLsb' 0 8), rest) = _
    rw [append_bytes, decodeWord_encodeWord h]
  case encode =>
    have hw := decodeWord_standsFor w
    exact ⟨hw.wf, hw.canonical, hw.encode⟩

/-! ### The opcode map -/

/-- The codes of the twelve reserved rows, each by the bits its row fixes (R118). -/
def ReservedCode (n : Nat) : Prop :=
  n = 0o000007 ∨ n / 2 ^ 3 = 0o00001 ∨ n / 2 ^ 4 = 0o0001 ∨ n / 2 ^ 5 = 0o0001 ∨
    n / 2 ^ 3 = 0o00021 ∨ n / 2 ^ 4 = 0o0011 ∨ n / 2 ^ 8 = 0o015 ∨ n / 2 ^ 9 = 0o007 ∨ n / 2 ^ 12 = 0o07 ∨
    n / 2 ^ 8 = 0o215 ∨ n / 2 ^ 9 = 0o107 ∨ n / 2 ^ 12 = 0o17

theorem shapeOf_decodeWord {i : Instr} {w : Word} (h : StandsFor i w) :
    Machine.shapeOf (decodeWord w) = Machine.shapeOf i := by
  rw [decodeWord_eq h]

/-- A reserved code traps through 010. -/
theorem shapeOf_reservedCode {w : Word} (h : ReservedCode w.toNat) : Machine.shapeOf (decodeWord w) = .trap 0o10 := by
  obtain h | h | h | h | h | h | h | h | h | h | h | h := h
  · exact shapeOf_decodeWord (i := .reserved000007) ⟨rfl, rfl, BitVec.eq_of_toNat_eq h.symm⟩
  · exact shapeOf_decodeWord (i := .reserved000010 _) ⟨rfl, rfl, append_low (n := 13) (m := 3) h⟩
  · exact shapeOf_decodeWord (i := .reserved000020 _) ⟨rfl, rfl, append_low (n := 12) (m := 4) h⟩
  · exact shapeOf_decodeWord (i := .reserved000040 _) ⟨rfl, rfl, append_low (n := 11) (m := 5) h⟩
  · exact shapeOf_decodeWord (i := .reserved000210 _) ⟨rfl, rfl, append_low (n := 13) (m := 3) h⟩
  · exact shapeOf_decodeWord (i := .reserved000220 _) ⟨rfl, rfl, append_low (n := 12) (m := 4) h⟩
  · exact shapeOf_decodeWord (i := .reserved006400 _) ⟨rfl, rfl, append_low (n := 8) (m := 8) h⟩
  · exact shapeOf_decodeWord (i := .reserved007000 _) ⟨rfl, rfl, append_low (n := 7) (m := 9) h⟩
  · exact shapeOf_decodeWord (i := .reserved070000 _) ⟨rfl, rfl, append_low (n := 4) (m := 12) h⟩
  · exact shapeOf_decodeWord (i := .reserved106400 _) ⟨rfl, rfl, append_low (n := 8) (m := 8) h⟩
  · exact shapeOf_decodeWord (i := .reserved107000 _) ⟨rfl, rfl, append_low (n := 7) (m := 9) h⟩
  · exact shapeOf_decodeWord (i := .reserved170000 _) ⟨rfl, rfl, append_low (n := 4) (m := 12) h⟩

/-- Settles O6: in every range the row's instruction stands for the word, so the decoder reads the word as it. -/
theorem opcodeMapIsComplete : Obligations.OpcodeMapIsComplete := by
  unfold Obligations.OpcodeMapIsComplete
  refine ⟨by decide, fun w => ?_⟩
  dsimp only
  refine ⟨fun h => shapeOf_reservedCode (by unfold ReservedCode; omega),
    fun _ _ => (decodeWord_eq (jmp_standsFor (by omega))).trans (if_pos ((fieldDst_register_iff w).mpr (by omega))),
    fun _ _ => (decodeWord_eq (jmp_standsFor (by omega))).trans (if_neg (mt (fieldDst_register_iff w).mp (by omega))),
    fun _ _ => fieldDst_reg w ▸ decodeWord_eq ⟨rfl, rfl, append_link (by omega)⟩,
    fun _ _ => decodeWord_eq ⟨rfl, rfl, append_bits (by omega)⟩,
    fun _ _ => decodeWord_eq ⟨rfl, rfl, append_fieldDst (by omega)⟩,
    fun _ _ => decodeWord_eq ⟨rfl, rfl, append_fieldByte (by omega)⟩,
    fun _ _ => decodeWord_eq ⟨rfl, rfl, append_fieldByte (by omega)⟩,
    fun _ _ => decodeWord_eq ⟨rfl, rfl, append_fieldByte (by omega)⟩,
    fun _ _ => decodeWord_eq ⟨rfl, rfl, append_fieldByte (by omega)⟩,
    fun _ _ => decodeWord_eq ⟨rfl, rfl, append_fieldByte (by omega)⟩,
    fun _ _ => decodeWord_eq ⟨rfl, rfl, append_fieldByte (by omega)⟩,
    fun _ _ => decodeWord_eq ⟨rfl, rfl, append_fieldByte (by omega)⟩,
    fun _ _ => decodeWord_eq (jsr_standsFor (by omega)),
    fun _ _ => decodeWord_eq ⟨rfl, rfl, append_fieldDst (by omega)⟩,
    fun _ _ => decodeWord_eq ⟨rfl, rfl, append_fieldDst (by omega)⟩,
    fun _ _ => decodeWord_eq ⟨rfl, rfl, append_fieldDst (by omega)⟩,
    fun _ _ => decodeWord_eq ⟨rfl, rfl, append_fieldDst (by omega)⟩,
    fun _ _ => decodeWord_eq ⟨rfl, rfl, append_fieldDst (by omega)⟩,
    fun _ _ => decodeWord_eq ⟨rfl, rfl, append_fieldDst (by omega)⟩,
    fun _ _ => decodeWord_eq ⟨rfl, rfl, append_fieldDst (by omega)⟩,
    fun _ _ => decodeWord_eq ⟨rfl, rfl, append_fieldDst (by omega)⟩,
    fun _ _ => decodeWord_eq ⟨rfl, rfl, append_fieldDst (by omega)⟩,
    fun _ _ => decodeWord_eq ⟨rfl, rfl, append_fieldDst (by omega)⟩,
    fun _ _ => decodeWord_eq ⟨rfl, rfl, append_fieldDst (by omega)⟩,
    fun _ _ => decodeWord_eq ⟨rfl, rfl, append_fieldDst (by omega)⟩,
    fun _ _ => decodeWord_eq ⟨rfl, rfl, append_fieldSrc_fieldDst (by omega)⟩,
    fun _ _ => decodeWord_eq ⟨rfl, rfl, append_fieldSrc_fieldDst (by omega)⟩,
    fun _ _ => decodeWord_eq ⟨rfl, rfl, append_fieldSrc_fieldDst (by omega)⟩,
    fun _ _ => decodeWord_eq ⟨rfl, rfl, append_fieldSrc_fieldDst (by omega)⟩,
    fun _ _ => decodeWord_eq ⟨rfl, rfl, append_fieldSrc_fieldDst (by omega)⟩,
    fun _ _ => decodeWord_eq ⟨rfl, rfl, append_fieldSrc_fieldDst (by omega)⟩,
    fun _ _ => decodeWord_eq ⟨rfl, rfl, append_fieldByte (by omega)⟩,
    fun _ _ => decodeWord_eq ⟨rfl, rfl, append_fieldByte (by omega)⟩,
    fun _ _ => decodeWord_eq ⟨rfl, rfl, append_fieldByte (by omega)⟩,
    fun _ _ => decodeWord_eq ⟨rfl, rfl, append_fieldByte (by omega)⟩,
    fun _ _ => decodeWord_eq ⟨rfl, rfl, append_fieldByte (by omega)⟩,
    fun _ _ => decodeWord_eq ⟨rfl, rfl, append_fieldByte (by omega)⟩,
    fun _ _ => decodeWord_eq ⟨rfl, rfl, append_fieldByte (by omega)⟩,
    fun _ _ => decodeWord_eq ⟨rfl, rfl, append_fieldByte (by omega)⟩,
    fun _ _ => decodeWord_eq ⟨rfl, rfl, append_fieldByte (by omega)⟩,
    fun _ _ => decodeWord_eq ⟨rfl, rfl, append_fieldByte (by omega)⟩,
    fun _ _ => decodeWord_eq ⟨rfl, rfl, append_fieldDst (by omega)⟩,
    fun _ _ => decodeWord_eq ⟨rfl, rfl, append_fieldDst (by omega)⟩,
    fun _ _ => decodeWord_eq ⟨rfl, rfl, append_fieldDst (by omega)⟩,
    fun _ _ => decodeWord_eq ⟨rfl, rfl, append_fieldDst (by omega)⟩,
    fun _ _ => decodeWord_eq ⟨rfl, rfl, append_fieldDst (by omega)⟩,
    fun _ _ => decodeWord_eq ⟨rfl, rfl, append_fieldDst (by omega)⟩,
    fun _ _ => decodeWord_eq ⟨rfl, rfl, append_fieldDst (by omega)⟩,
    fun _ _ => decodeWord_eq ⟨rfl, rfl, append_fieldDst (by omega)⟩,
    fun _ _ => decodeWord_eq ⟨rfl, rfl, append_fieldDst (by omega)⟩,
    fun _ _ => decodeWord_eq ⟨rfl, rfl, append_fieldDst (by omega)⟩,
    fun _ _ => decodeWord_eq ⟨rfl, rfl, append_fieldDst (by omega)⟩,
    fun _ _ => decodeWord_eq ⟨rfl, rfl, append_fieldDst (by omega)⟩,
    fun _ _ => decodeWord_eq ⟨rfl, rfl, append_fieldSrc_fieldDst (by omega)⟩,
    fun _ _ => decodeWord_eq ⟨rfl, rfl, append_fieldSrc_fieldDst (by omega)⟩,
    fun _ _ => decodeWord_eq ⟨rfl, rfl, append_fieldSrc_fieldDst (by omega)⟩,
    fun _ _ => decodeWord_eq ⟨rfl, rfl, append_fieldSrc_fieldDst (by omega)⟩,
    fun _ _ => decodeWord_eq ⟨rfl, rfl, append_fieldSrc_fieldDst (by omega)⟩,
    fun _ _ => decodeWord_eq ⟨rfl, rfl, append_fieldSrc_fieldDst (by omega)⟩⟩

/-- Settles O7: the words are closed, and the decoder is evaluated on each. -/
theorem sampleWordsDecode : Obligations.SampleWordsDecode := by
  unfold Obligations.SampleWordsDecode
  decide

namespace Machine

/-! ### The illegal and reserved instructions -/

/-- An instruction whose meaning is an instruction trap completes with the trap sequence (R318). -/
theorem completes_of_trap {i : Instr} {v : Word} {s : State} (hi : exec i s = .next (instructionTrap v s))
    (h : entryAnswers v s = true) : Completes i s (entered v s.complete) :=
  ⟨_, hi, instructionTrap_ok h⟩

/-- Settles O51: the words are those of the illegal instructions, and the meaning of every one of these instructions is
the trap through 010. -/
theorem illegalAndReservedInstructions : Obligations.IllegalAndReservedInstructions := by
  unfold Obligations.IllegalAndReservedInstructions
  refine ⟨fun link r s => ⟨decodeWord_encodeWord (i := .jmpRn r) rfl,
    decodeWord_encodeWord (i := .jsrRn link r) rfl, fun h => ?illegal⟩, fun x3 x4 x5 x8 x9 x12 s h => ?reserved⟩
  case illegal =>
    exact ⟨completes_of_trap rfl h, completes_of_trap rfl h, completes_of_trap rfl h, completes_of_trap rfl h⟩
  case reserved =>
    exact ⟨completes_of_trap rfl h, completes_of_trap rfl h, completes_of_trap rfl h, completes_of_trap rfl h,
      completes_of_trap rfl h, completes_of_trap rfl h, completes_of_trap rfl h, completes_of_trap rfl h,
      completes_of_trap rfl h, completes_of_trap rfl h, completes_of_trap rfl h, completes_of_trap rfl h⟩

end Machine

end Sys2Proof

/-! SUPPORT and PROOFS of family 40_addressing_modes: the jumps and calls whose cycles fail, and what operand access
leaves in R10, R11 and R12. -/

namespace Sys2Proof.Machine

/-! ### JMP, JSR and RTS whose cycles fail -/

/-- Mode 0 makes no cycle that could fail. -/
theorem mode_ne_register_of_addressAborted {o : Operand} {s : State} {f : BusFault × State}
    (h : addressAborted o s = some f) : o.mode ≠ .register := by
  intro hm
  unfold addressAborted at h
  rw [hm] at h
  cases h

/-- An instruction that begins with `DstAddress` does nothing else when that fails (R153, R314). -/
theorem finish_dstAddress_aborted {dst : Operand} {s u : State} {e : BusFault} (go : Loc → State → Res Unit)
    (h : addressAborted dst s = some (e, u)) :
    ∃ t, finish ((dstAddress dst s).andThen go) = .next t ∧ t.visible = (u.takeBusError e).visible := by
  obtain ⟨t, ht, hv⟩ := dstAddress_aborted h
  exact finish_aborted (by rw [ht, Res.andThen_err]) hv

theorem execJmp_aborted {dst : Operand} {s u : State} {e : BusFault} (h : addressAborted dst s = some (e, u)) :
    ∃ t, execJmp dst s = .next t ∧ t.visible = (u.takeBusError e).visible := by
  rw [execJmp_of_mode (mode_ne_register_of_addressAborted h)]
  exact finish_dstAddress_aborted _ h

theorem execJsr_aborted {link : Reg} {dst : Operand} {s u : State} {e : BusFault}
    (h : addressAborted dst s = some (e, u)) :
    ∃ t, execJsr link dst s = .next t ∧ t.visible = (u.takeBusError e).visible := by
  rw [execJsr_of_mode (mode_ne_register_of_addressAborted h)]
  exact finish_dstAddress_aborted _ h

/-- A failed push of JSR leaves the linkage register and PC alone (R314 e). -/
theorem linkTo_fails {link : Reg} {a : Word} {s : State} (hl : link ≠ .r6)
    (h : s.writeFails .word (s.sp - 2) = true) : linkTo link a s = .err .busError (unpushed (s.reg link) s) := by
  simp only [linkTo, if_neg hl, push_fails _ h, Res.andThen_err]

/-- A failed push of JSR SP: the free word it offers has been drawn (entry 14). -/
theorem linkTo_sp_fails {a : Word} {s : State} (h : s.writeFails .word (s.sp - 2) = true) :
    linkTo .r6 a s = .err .busError (unpushed s.freeWord s.drawn) := by
  simp only [linkTo, if_true, push_fails (s := s.drawn) s.freeWord h, Res.andThen_err]

/-- JSR whose address is worked out is its linkage, from a state that looks like the one after `DstAddress`. -/
theorem execJsr_linkTo {link : Reg} {dst : Operand} {s : State} (hm : dst.mode ≠ .register)
    (hp : pointersReadable dst s = true) :
    ∃ a t, execJsr link dst s = finish (linkTo link a t) ∧ t.visible = (addressStep dst s).visible := by
  obtain ⟨a, ha⟩ := operandPlace_mem (sz := .word) (s := s) hm
  obtain ⟨t, ht, hv, _⟩ := dstAddress_ok hp
  exact ⟨a, t, by rw [execJsr_of_mode hm, ht, ha, Res.andThen_ok], hv⟩

/-- JSR whose push fails (R267, R314 e). -/
theorem execJsr_push_fails {link : Reg} {dst : Operand} {s : State} (hm : dst.mode ≠ .register)
    (hp : pointersReadable dst s = true)
    (hw : (addressStep dst s).writeFails .word ((addressStep dst s).sp - 2) = true) :
    (link ≠ .r6 → ∃ t, execJsr link dst s = .next t ∧ t.visible =
      ((unpushed ((addressStep dst s).reg link) (addressStep dst s)).takeBusError .busError).visible) ∧
    (link = .r6 → ∃ t w, execJsr link dst s = .next t ∧
      t.visible = ((unpushed w (addressStep dst s).drawn).takeBusError .busError).visible) := by
  obtain ⟨a, t, ht, hv⟩ := execJsr_linkTo (link := link) hm hp
  have hwt : t.writeFails .word (t.sp - 2) = true := by rw [vis_sp hv, vis_writeFails hv]; exact hw
  rw [ht]
  refine ⟨fun hl => ?kept, fun hl => ?stack⟩
  case kept =>
    rw [← vis_reg hv]
    exact finish_aborted (linkTo_fails hl hwt) (vis_unpushed hv _)
  case stack =>
    subst hl
    obtain ⟨w, hw, hwv⟩ := finish_aborted (linkTo_sp_fails hwt) (vis_unpushed (vis_drawn hv) t.freeWord)
    exact ⟨w, t.freeWord, hw, hwv⟩

/-- RTS whose pop fails has loaded PC and has not stepped R6 (R269, D14). -/
theorem execRts_pop_fails {link : Reg} {s : State} {e : BusFault} (h : s.readFails .word s.sp = some e) :
    ∃ t, execRts link s = .next t ∧
      t.visible = (((s.after .dati .word s.sp).setPc (s.reg link)).takeBusError e).visible := by
  obtain ⟨t, ht, hv⟩ := pop_fails (s := s.setPc (s.reg link)) h
  have hpc : (s.setPc (s.reg link)).after .dati .word s.sp = (s.after .dati .word s.sp).setPc (s.reg link) :=
    setReg_after s .r7 (s.reg link) .dati .word s.sp
  exact finish_aborted (by rw [ht, Res.andThen_err]) (hv.trans (congrArg State.visible hpc))

/-- Settles O17: the cycle that fails is one of the address calculation, the push of the linkage, or the pop. -/
theorem jumpAndCallFailures : Obligations.JumpAndCallFailures := by
  unfold Obligations.JumpAndCallFailures
  refine ⟨?address, ?push, ?pop⟩
  case address => exact fun link dst s u e h => ⟨execJmp_aborted h, execJsr_aborted h⟩
  case push => exact fun link dst s hm hp hw => execJsr_push_fails hm hp hw
  case pop => exact fun link s e h => execRts_pop_fails h

/-! ### The scratch-pad words of an operand access -/

theorem operandValue_register {sz : Size} {o : Operand} {s : State} (h : o.mode = .register) :
    operandValue sz o s = s.reg o.reg := by
  unfold operandValue operandPlace
  rw [h]

@[simp] theorem indexStep_scratch (s : State) : (indexStep s).scratch = s.scratch := by unfold indexStep; simp

/-- The scratch pad with a noted address depends on the scratch pad alone. -/
theorem noteAddress_scratch_congr {s t : State} (h : s.scratch = t.scratch) (side : Side) (a : Word) :
    (s.noteAddress side a).scratch = (t.noteAddress side a).scratch := by
  cases side with
  | source => exact congrArg (fun p => { p with r10 := a }) h
  | destination => exact congrArg (fun p => { p with r12 := a }) h

/-- A mode 7 pointer that cannot be read: the address X + Rn that drove the bus stays in the scratch pad (R434;
entry 24). -/
theorem locate_pointer_fails {side : Side} {sz : Size} {r : Reg} {s : State} {e : BusFault}
    (hr : s.readable .word s.pc = true) (hf : s.readFails .word (indexSum ⟨.indexDef, r⟩ s) = some e) :
    ∃ t, locate side sz ⟨.indexDef, r⟩ s = .err e t ∧
      t.scratch = (s.noteAddress side (indexSum ⟨.indexDef, r⟩ s)).scratch := by
  have hx := indexed_ok (o := ⟨.indexDef, r⟩) hr
  generalize indexSum ⟨.indexDef, r⟩ s = p at *
  have hv : (((indexStep s).setB p).noteAddress side p).visible = (indexStep s).visible := noteAddress_visible _ _ _
  have hf' : (indexStep s).readFails .word p = some e := by
    rw [readFails_congr (indexStep_cfg s) (indexStep_parityBad s)]; exact hf
  obtain ⟨t, ht, _⟩ := readAs_vis_fails (k := .dati) hv hf'
  refine ⟨t, by simp only [locate, hx, Res.andThen_ok, memRead, ht, Res.andThen_err], ?_⟩
  rw [readAs_word_scratch.2 e t ht]
  exact noteAddress_scratch_congr (s := (indexStep s).setB p) (indexStep_scratch s) side p

/-- Settles O19: R11 and R12 from the laws of operand access, and the pointer of mode 7 from its address calculation. -/
theorem operandScratchWords : Obligations.OperandScratchWords := by
  unfold Obligations.OperandScratchWords
  refine ⟨fun sz o s h => ?source, fun sz o s a h ha => ?destination, fun o s a h ha => ?address,
    fun sz r s e hr hf => ?pointer⟩
  case source =>
    obtain ⟨t, ht, _, h11, h10⟩ := srcRead_ok h
    exact ⟨t, ht, h11, fun hm => h11.trans (operandValue_register hm), h10⟩
  case destination =>
    obtain ⟨t, ht, _, h12⟩ := dstRead_ok h
    obtain ⟨u, hu, _, k12⟩ := dstModifyRead_ok h
    exact ⟨⟨_, t, ht, h12 a ha⟩, _, u, hu, k12 a ha⟩
  case address =>
    obtain ⟨t, ht, _, h12⟩ := dstAddress_ok h
    exact ⟨_, t, ht, h12 a ha⟩
  case pointer =>
    obtain ⟨t, ht, hsrc⟩ := locate_pointer_fails (side := .source) (sz := sz) hr hf
    obtain ⟨u, hu, hdst⟩ := locate_pointer_fails (side := .destination) (sz := sz) hr hf
    obtain ⟨w, hw, hadr⟩ := locate_pointer_fails (side := .destination) (sz := .word) hr hf
    exact ⟨⟨t, by rw [srcRead, ht, Res.andThen_err], congrArg Scratch.r10 hsrc⟩,
      ⟨u, by rw [dstRead, hu, Res.andThen_err], congrArg Scratch.r12 hdst⟩,
      ⟨u, by rw [dstModifyRead, hu, Res.andThen_err], congrArg Scratch.r12 hdst⟩,
      w, by rw [dstAddress, hw, Res.andThen_err], congrArg Scratch.r12 hadr⟩

end Sys2Proof.Machine

/-! SUPPORT and PROOFS of family 41_single_operand: the single-operand instructions, SWAB and JMP. -/

namespace Sys2Proof.Machine

/-! ### The limits of words and bytes, as the rules write them (R170) -/

theorem allOnes_word : BitVec.allOnes 16 = 0o177777 := by decide
theorem allOnes_byte : BitVec.allOnes 8 = 0o377 := by decide
theorem intMax_word : BitVec.intMax 16 = 0o077777 := by decide
theorem intMax_byte : BitVec.intMax 8 = 0o177 := by decide
theorem intMin_word : BitVec.intMin 16 = 0o100000 := by decide
theorem intMin_byte : BitVec.intMin 8 = 0o200 := by decide

/-! ### Results in the form of the rules -/

/-- SBC_LITERAL chooses the codes alone; the difference is the same (R178; entry 8). -/
theorem aluSbc_eq {w : Nat} (literal : Bool) (f : CC) (d : BitVec w) :
    aluSbc literal f d =
      ⟨d - if f.c then 1 else 0,
        if literal then (codes (d - if f.c then 1 else 0) (d == BitVec.intMin w) (!(d == 0 && f.c))).cc
        else (codes (d - if f.c then 1 else 0) (d == BitVec.intMin w && f.c) (d == 0 && f.c)).cc⟩ := by
  cases literal <;> rfl

/-- The old C comes in at the top (R181). -/
theorem aluRor_eq {w : Nat} (f : CC) (d : BitVec w) :
    aluRor f d = shiftCodes ((if f.c then BitVec.intMin w else 0) ||| (d >>> 1)) (d.getLsbD 0) := by
  rw [aluRor, BitVec.or_comm]

/-- The exchange of the bytes as two shifts (R204). -/
theorem swapBytes_eq_shifts (d : Word) : swapBytes d = (d <<< 8) ||| (d >>> 8) := by
  apply BitVec.eq_of_getLsbD_eq
  intro i hi
  simp only [swapBytes, lowByte, highByte, BitVec.getLsbD_append, BitVec.getLsbD_extractLsb', BitVec.getLsbD_or,
    BitVec.getLsbD_shiftLeft, BitVec.getLsbD_ushiftRight]
  by_cases h : i < 8
  · simp [h]
  · have hlow : i - 8 < 8 := by omega
    have hhigh : d.getLsbD (8 + i) = false := BitVec.getLsbD_of_ge d _ (by omega)
    simp [h, hi, hlow, hhigh]

theorem lowByte_msb (w : Word) : (lowByte w).msb = w.getLsbD 7 := by
  simp [lowByte, BitVec.msb_eq_getLsbD_last]

theorem lowByte_eq_zero_iff (w : Word) : lowByte w = 0 ↔ w &&& 0o377 = 0 := by
  rw [← zext_lowByte]
  exact ⟨congrArg zext, fun h => (lowByte_zext _).symm.trans (congrArg lowByte h)⟩

theorem lowByte_beq_zero (w : Word) : (lowByte w == 0) = (w &&& 0o377 == 0) :=
  Bool.eq_iff_iff.mpr (by rw [beq_iff_eq, beq_iff_eq]; exact lowByte_eq_zero_iff w)

/-- SWAB's codes look at the low byte of the exchanged word (R204). -/
theorem aluSwab_eq (f : CC) (d : Word) :
    aluSwab f d = ⟨(d <<< 8) ||| (d >>> 8), ⟨((d <<< 8) ||| (d >>> 8)).getLsbD 7,
      ((d <<< 8) ||| (d >>> 8)) &&& 0o377 == 0, false, false⟩⟩ := by
  rw [aluSwab, lowByte_msb, lowByte_beq_zero, swapBytes_eq_shifts]

/-! ### An instruction by its template and the result of its ALU step -/

section
variable {i : Instr} {dst : Operand} {s : State}

/-- A modifying instruction on words, by what its ALU step makes of the operand and of the codes after its read. -/
theorem completes_of_modifyWord {op : CC → Word → AluOut 16} {r : Word} {f : CC}
    (hi : exec i s = finish (modifyWord op dst s)) (h : operandWritable .word dst s = true)
    (ho : op (operandStep .datip .word dst s).cc (operandValue .word dst s) = ⟨r, f⟩) :
    Completes i s (afterWord dst r f s) := by
  obtain ⟨t, ht, hv⟩ := modifyWord_completes op h
  rw [ho] at hv
  exact ⟨t, hi.trans ht, hv⟩

/-- A modifying instruction on bytes, likewise. -/
theorem completes_of_modifyByte {op : CC → Byte → AluOut 8} {r : Byte} {f : CC}
    (hi : exec i s = finish (modifyByte op dst s)) (h : operandWritable .byte dst s = true)
    (ho : op (operandStep .datip .byte dst s).cc (operandByte dst s) = ⟨r, f⟩) :
    Completes i s (afterByte dst r f s) := by
  obtain ⟨t, ht, hv⟩ := modifyByte_completes op h
  rw [ho] at hv
  exact ⟨t, hi.trans ht, hv⟩

/-- An instruction that only reads a word: of its ALU step the codes alone are kept (R179). -/
theorem completes_of_testWord {op : CC → Word → AluOut 16} {f : CC}
    (hi : exec i s = finish (testWord op dst s)) (h : operandReadable .word dst s = true)
    (ho : (op (operandStep .dati .word dst s).cc (operandValue .word dst s)).cc = f) :
    Completes i s (afterTest .word dst f s) := by
  obtain ⟨t, ht, hv⟩ := testWord_completes op h
  rw [ho] at hv
  exact ⟨t, hi.trans ht, hv⟩

/-- An instruction that only reads a byte, likewise. -/
theorem completes_of_testByte {op : CC → Byte → AluOut 8} {f : CC}
    (hi : exec i s = finish (testByte op dst s)) (h : operandReadable .byte dst s = true)
    (ho : (op (operandStep .dati .byte dst s).cc (operandByte dst s)).cc = f) :
    Completes i s (afterTest .byte dst f s) := by
  obtain ⟨t, ht, hv⟩ := testByte_completes op h
  rw [ho] at hv
  exact ⟨t, hi.trans ht, hv⟩

end

/-! ### The single-operand instructions -/

/-- Settles O37: the result and the codes of CLR do not depend on what is read. -/
theorem clrResult : Obligations.ClrResult := by
  unfold Obligations.ClrResult
  intro dst s
  exact ⟨decodeWord_encodeWord (i := .clr dst) rfl, decodeWord_encodeWord (i := .clrb dst) rfl,
    fun h => completes_of_modifyWord rfl h rfl, fun h => completes_of_modifyByte rfl h rfl⟩

/-- Settles O38: what is left to see is that the ones of COM and the limit of NEG are those of the size. -/
theorem comNegTstResult : Obligations.ComNegTstResult := by
  unfold Obligations.ComNegTstResult
  intro dst s
  refine ⟨decodeWord_encodeWord (i := .com dst) rfl, decodeWord_encodeWord (i := .comb dst) rfl,
    fun h => completes_of_modifyWord rfl h ?com, fun h => completes_of_modifyByte rfl h ?comb,
    decodeWord_encodeWord (i := .neg dst) rfl, decodeWord_encodeWord (i := .negb dst) rfl,
    fun h => completes_of_modifyWord rfl h ?neg, fun h => completes_of_modifyByte rfl h ?negb,
    decodeWord_encodeWord (i := .tst dst) rfl, decodeWord_encodeWord (i := .tstb dst) rfl,
    fun h => completes_of_testWord rfl h rfl, fun h => completes_of_testByte rfl h rfl⟩
  case com => rw [aluCom, allOnes_word]; rfl
  case comb => rw [aluCom, allOnes_byte]; rfl
  case neg => rw [aluNeg, intMin_word]; rfl
  case negb => rw [aluNeg, intMin_byte]; rfl

/-- Settles O39: V is the signed limit of the size, and C is the one the operand's read leaves. -/
theorem incDecResult : Obligations.IncDecResult := by
  unfold Obligations.IncDecResult
  intro dst s
  refine ⟨decodeWord_encodeWord (i := .inc dst) rfl, decodeWord_encodeWord (i := .incb dst) rfl,
    fun h => completes_of_modifyWord rfl h ?inc, fun h => completes_of_modifyByte rfl h ?incb,
    decodeWord_encodeWord (i := .dec dst) rfl, decodeWord_encodeWord (i := .decb dst) rfl,
    fun h => completes_of_modifyWord rfl h ?dec, fun h => completes_of_modifyByte rfl h ?decb⟩
  case inc => rw [aluInc, intMax_word]; rfl
  case incb => rw [aluInc, intMax_byte]; rfl
  case dec => rw [aluDec, intMin_word]; rfl
  case decb => rw [aluDec, intMin_byte]; rfl

/-- Settles O40: the carry that is added is the one the operand's read leaves. -/
theorem adcResult : Obligations.AdcResult := by
  unfold Obligations.AdcResult
  intro dst s
  refine ⟨decodeWord_encodeWord (i := .adc dst) rfl, decodeWord_encodeWord (i := .adcb dst) rfl,
    fun h => completes_of_modifyWord rfl h ?word, fun h => completes_of_modifyByte rfl h ?byte⟩
  case word => rw [aluAdc, intMax_word, allOnes_word]; rfl
  case byte => rw [aluAdc, intMax_byte, allOnes_byte]; rfl

/-- Settles O41: both readings of SBC_LITERAL are in the ALU step's own choice. -/
theorem sbcResult : Obligations.SbcResult := by
  unfold Obligations.SbcResult
  intro dst s
  refine ⟨decodeWord_encodeWord (i := .sbc dst) rfl, decodeWord_encodeWord (i := .sbcb dst) rfl,
    fun h => completes_of_modifyWord rfl h ?word, fun h => completes_of_modifyByte rfl h ?byte⟩
  case word => rw [aluSbc_eq, intMin_word]; rfl
  case byte => rw [aluSbc_eq, intMin_byte]; rfl

/-- Settles O42: the bit that comes in at the top is the top bit of the size. -/
theorem rotateShiftResult : Obligations.RotateShiftResult := by
  unfold Obligations.RotateShiftResult
  intro dst s
  refine ⟨decodeWord_encodeWord (i := .ror dst) rfl, decodeWord_encodeWord (i := .rorb dst) rfl,
    fun h => completes_of_modifyWord rfl h ?ror, fun h => completes_of_modifyByte rfl h ?rorb,
    decodeWord_encodeWord (i := .rol dst) rfl, decodeWord_encodeWord (i := .rolb dst) rfl,
    fun h => completes_of_modifyWord rfl h rfl, fun h => completes_of_modifyByte rfl h rfl,
    decodeWord_encodeWord (i := .asr dst) rfl, decodeWord_encodeWord (i := .asrb dst) rfl,
    fun h => completes_of_modifyWord rfl h ?asr, fun h => completes_of_modifyByte rfl h ?asrb,
    decodeWord_encodeWord (i := .asl dst) rfl, decodeWord_encodeWord (i := .aslb dst) rfl,
    fun h => completes_of_modifyWord rfl h rfl, fun h => completes_of_modifyByte rfl h rfl⟩
  case ror => rw [aluRor_eq, intMin_word]; rfl
  case rorb => rw [aluRor_eq, intMin_byte]; rfl
  case asr => rw [aluAsr, intMin_word]; rfl
  case asrb => rw [aluAsr, intMin_byte]; rfl

/-! ### SWAB -/

@[simp] theorem storeWord_scratch (l : Loc) (v : Word) (s : State) : (storeWord l v s).scratch = s.scratch := by
  cases l with
  | reg r => rfl
  | mem a => exact withWord_scratch s a v

/-- SWAB completes as a modifying instruction on words does, and the exchanged word stays in R17 (R39, R204; entry
24). -/
theorem execSwab_result {dst : Operand} {s : State} (h : operandWritable .word dst s = true) :
    ∃ t, execSwab dst s = .next t ∧
      let o := aluSwab (operandStep .datip .word dst s).cc (operandValue .word dst s)
      t.visible = (afterWord dst o.r o.cc s).visible ∧ t.scratch.r17 = o.r := by
  obtain ⟨t, ht, hv, _⟩ := dstModifyRead_ok (operandWritable_readable h)
  have hc : t.cfg = s.cfg := (vis_cfg hv).trans (operandStep_cfg _ _ _ _)
  rw [← vis_cc hv]
  generalize ho : aluSwab t.cc (operandValue .word dst s) = o
  have hw := dstWrite_word_after (v := o.r) h (t := (t.loadAlu o).setR17 o.r) hc
  have hov : ((t.loadAlu o).setR17 o.r).visible = ((operandStep .datip .word dst s).setCC o.cc).visible :=
    vis_loadAlu hv o
  refine ⟨_, by rw [execSwab, ht, Res.andThen_ok, ho, hw]; rfl, vis_complete (vis_storeWord hov _ _), ?_⟩
  rw [State.complete_scratch, storeWord_scratch]
  rfl

/-- A word operand at an odd address fails in its own cycle (R65, R153). -/
theorem operandAborted_odd {k : CycleKind} {o : Operand} {s : State} {a : Word}
    (ha : operandPlace .word o s = .mem a) (hodd : isOdd a = true) (hp : pointersReadable o s = true) :
    operandAborted k .word o s = some (.busError, (operandReach .word o s).after k .word a) := by
  simp only [operandAborted, (addressAborted_none o s).mpr hp, ha, abortRead, readFails_odd _ hodd]

/-- An access to SWAB's destination that fails is trapped from the state it leaves (R312, R314). -/
theorem execSwab_aborted {dst : Operand} {s u : State} {e : BusFault}
    (h : operandAborted .datip .word dst s = some (e, u)) :
    ∃ t, execSwab dst s = .next t ∧ t.visible = (u.takeBusError e).visible := by
  obtain ⟨t, ht, hv⟩ := dstModifyRead_aborted h
  exact finish_aborted (by rw [ht, Res.andThen_err]) hv

/-- Settles O43: the exchange by shifts and the low byte by its mask, and the odd destination by its failed access. -/
theorem swabResult : Obligations.SwabResult := by
  unfold Obligations.SwabResult
  intro dst s
  refine ⟨decodeWord_encodeWord (i := .swab dst) rfl, fun h => ?result, fun a ha hodd hp => ?odd⟩
  case result =>
    obtain ⟨t, ht, hv, h17⟩ := execSwab_result h
    rw [aluSwab_eq] at hv h17
    exact ⟨⟨t, ht, hv⟩, t, ht, h17⟩
  case odd =>
    have hab := operandAborted_odd (k := .datip) ha hodd hp
    obtain ⟨t, ht, hv⟩ := execSwab_aborted hab
    exact ⟨t, _, _, ht, hab, rfl, hv⟩

/-! ### JMP -/

/-- JMP whose address is worked out loads PC with it (R200). -/
theorem execJmp_completes {dst : Operand} {s : State} {a : Word} (hm : dst.mode ≠ .register)
    (hp : pointersReadable dst s = true) (ha : operandPlace .word dst s = .mem a) :
    Completes (.jmp dst) s ((addressStep dst s).setPc a).complete := by
  obtain ⟨t, ht, hv, _⟩ := dstAddress_ok hp
  have hr : exec (.jmp dst) s = finish (.ok () (t.setPc a)) := by
    show execJmp dst s = _
    rw [execJmp_of_mode hm, ht, ha, Res.andThen_ok]
  rw [Completes, hr]
  exact finish_completes rfl (vis_setPc hv a)

/-- Settles O52: mode 2 reads nothing, so that its clause is a case of the general one. -/
theorem jmpResult : Obligations.JmpResult := by
  unfold Obligations.JmpResult
  intro dst s a hm
  refine ⟨decodeWord_encodeWord (i := .jmp dst) (bne_iff_ne.mpr hm), execJmp_completes hm, fun hinc => ?mode2⟩
  obtain ⟨m, r⟩ := dst
  obtain rfl : m = .autoInc := hinc
  have hstep : addressStep ⟨.autoInc, r⟩ s = s.setReg r (s.reg r + 2) := rfl
  obtain ⟨t, ht, hv⟩ := execJmp_completes (s := s) (a := s.reg r) hm rfl rfl
  rw [hstep] at hv
  refine ⟨t, ht, (vis_pc hv).trans (State.complete_reg _ .r7), fun hr => ?stepped⟩
  calc t.reg r = ((s.setReg r (s.reg r + 2)).setPc (s.reg r)).reg r := (vis_reg hv r).trans (State.complete_reg _ r)
    _ = (s.setReg r (s.reg r + 2)).reg r := (State.reg_setReg _ .r7 r _).trans (if_neg (Ne.symm hr))
    _ = s.reg r + 2 := State.reg_setReg_same s r _

end Sys2Proof.Machine

/-! SUPPORT and PROOFS of family 42_double_operand: MOV, CMP, BIT, BIC, BIS, ADD and SUB. -/

namespace Sys2Proof.Machine

/-! ### Results in the form of the rules -/

/-- The carry of a subtraction done as `a + ~b + 1` is missing exactly where there is a borrow (R214, R223). -/
theorem not_carryOut_complement {w : Nat} (a b : BitVec w) :
    (!carryOut a (b ^^^ BitVec.allOnes w) true) = decide (a.toNat < b.toNat) := by
  have hb := b.isLt
  have hsum : a.toNat + (2 ^ w - 1 - b.toNat) + 1 + b.toNat = a.toNat + 2 ^ w := by omega
  rw [BitVec.xor_allOnes, carryOut, BitVec.toNat_not, Bool.toNat_true, ← decide_not, decide_eq_decide]
  omega

/-- CMP's borrow as a complemented carry (R214). -/
theorem aluCmp_eq {w : Nat} (f : CC) (v d : BitVec w) :
    aluCmp f v d = codes (v - d) (v.msb != d.msb && d.msb == (v - d).msb)
      (!carryOut v (d ^^^ BitVec.allOnes w) true) := by
  rw [not_carryOut_complement, aluCmp]

/-- SUB's borrow as a complemented carry (R223). -/
theorem aluSub_eq {w : Nat} (f : CC) (v d : BitVec w) :
    aluSub f v d = codes (d - v) (v.msb != d.msb && v.msb == (d - v).msb)
      (!carryOut d (v ^^^ BitVec.allOnes w) true) := by
  rw [not_carryOut_complement, aluSub]

/-- ADD's carry, with none coming in (R222). -/
theorem aluAdd_eq {w : Nat} (f : CC) (v d : BitVec w) :
    aluAdd f v d = codes (v + d) (v.msb == d.msb && (v + d).msb != v.msb) (carryOut v d false) := rfl

/-! ### An instruction by its template and the result of its ALU step -/

section
variable {i : Instr} {src dst : Operand} {s : State}

/-- A modifying instruction on words, by what its ALU step makes of the source, of the destination after all source
steps, and of the codes after its read (R152, R210). -/
theorem completes_of_combineWord {op : CC → Word → Word → AluOut 16} {r : Word} {f : CC}
    (hi : exec i s = finish (combineWord op src dst s)) (hs : operandReadable .word src s = true)
    (hd : operandWritable .word dst (operandStep .dati .word src s) = true)
    (ho : op (operandStep .datip .word dst (operandStep .dati .word src s)).cc (operandValue .word src s)
      (operandValue .word dst (operandStep .dati .word src s)) = ⟨r, f⟩) :
    Completes i s (afterWord dst r f (operandStep .dati .word src s)) := by
  obtain ⟨t, ht, hv⟩ := combineWord_completes op hs hd
  dsimp only at hv
  rw [ho] at hv
  exact ⟨t, hi.trans ht, hv⟩

/-- A modifying instruction on bytes, likewise (R211). -/
theorem completes_of_combineByte {op : CC → Byte → Byte → AluOut 8} {r : Byte} {f : CC}
    (hi : exec i s = finish (combineByte op src dst s)) (hs : operandReadable .byte src s = true)
    (hd : operandWritable .byte dst (operandStep .dati .byte src s) = true)
    (ho : op (operandStep .datip .byte dst (operandStep .dati .byte src s)).cc (operandByte src s)
      (operandByte dst (operandStep .dati .byte src s)) = ⟨r, f⟩) :
    Completes i s (afterByte dst r f (operandStep .dati .byte src s)) := by
  obtain ⟨t, ht, hv⟩ := combineByte_completes op hs hd
  dsimp only at hv
  rw [ho] at hv
  exact ⟨t, hi.trans ht, hv⟩

/-- An instruction that only reads its two words: of its ALU step the codes alone are kept (R210). -/
theorem completes_of_compareWord {op : CC → Word → Word → AluOut 16} {f : CC}
    (hi : exec i s = finish (compareWord op src dst s)) (hs : operandReadable .word src s = true)
    (hd : operandReadable .word dst (operandStep .dati .word src s) = true)
    (ho : (op (operandStep .dati .word dst (operandStep .dati .word src s)).cc (operandValue .word src s)
      (operandValue .word dst (operandStep .dati .word src s))).cc = f) :
    Completes i s (afterTest .word dst f (operandStep .dati .word src s)) := by
  obtain ⟨t, ht, hv⟩ := compareWord_completes op hs hd
  dsimp only at hv
  rw [ho] at hv
  exact ⟨t, hi.trans ht, hv⟩

/-- An instruction that only reads its two bytes, likewise (R211). -/
theorem completes_of_compareByte {op : CC → Byte → Byte → AluOut 8} {f : CC}
    (hi : exec i s = finish (compareByte op src dst s)) (hs : operandReadable .byte src s = true)
    (hd : operandReadable .byte dst (operandStep .dati .byte src s) = true)
    (ho : (op (operandStep .dati .byte dst (operandStep .dati .byte src s)).cc (operandByte src s)
      (operandByte dst (operandStep .dati .byte src s))).cc = f) :
    Completes i s (afterTest .byte dst f (operandStep .dati .byte src s)) := by
  obtain ⟨t, ht, hv⟩ := compareByte_completes op hs hd
  dsimp only at hv
  rw [ho] at hv
  exact ⟨t, hi.trans ht, hv⟩

/-! ### MOV and MOVB -/

/-- MOV stores the source word at the destination worked out once the codes are set (R150, R212). -/
theorem execMov_completes (hs : operandReadable .word src s = true)
    (hd : operandWritable .word dst (moved .word src s) = true) :
    Completes (.mov src dst) s (storeWord (operandPlace .word dst (moved .word src s)) (operandValue .word src s)
      (operandStep .datip .word dst (moved .word src s))).complete := by
  obtain ⟨t, ht, hv, _⟩ := srcRead_ok hs
  have hm := moved_word_of_srcRead hv
  obtain ⟨u, hu, huv⟩ := dstWriteOnly_word (v := operandValue .word src s)
    ((vis_operandWritable hm .word dst).trans hd)
  rw [vis_operandPlace hm] at huv
  have hr : exec (.mov src dst) s = finish (.ok () u) := by
    show execMov src dst s = _
    rw [execMov, ht, Res.andThen_ok, hu]
  rw [Completes, hr]
  exact finish_completes rfl (huv.trans (vis_storeWord (vis_operandStep hm .datip .word dst) _ _))

/-- MOVB to a register writes all 16 bits of it (R213). -/
theorem execMovb_register_completes (hs : operandReadable .byte src s = true) (hm : dst.mode = .register) :
    Completes (.movb src dst) s
      ((moved .byte src s).setReg dst.reg ((operandByte src s).signExtend 16)).complete := by
  obtain ⟨t, ht, hv, _⟩ := srcRead_ok hs
  have hc := moved_byte_of_srcRead hv
  generalize hu : t.setCC (aluMov t.cc (lowByte (operandValue .byte src s))).cc = u at hc
  have hr : exec (.movb src dst) s = finish (.ok () ((u.setB (operandValue .byte src s)).setReg dst.reg
      ((operandByte src s).signExtend 16))) := by
    show execMovb src dst s = _
    rw [execMovb, ht, Res.andThen_ok, if_pos hm, hu]
    rfl
  rw [Completes, hr]
  exact finish_completes rfl (vis_setReg (s := u.setB (operandValue .byte src s)) hc dst.reg _)

/-- MOVB outside mode 0 stores the source byte at the destination worked out once the codes are set (R150, R213). -/
theorem execMovb_memory_completes (hs : operandReadable .byte src s = true) (hm : dst.mode ≠ .register)
    (hd : operandWritable .byte dst (moved .byte src s) = true) :
    Completes (.movb src dst) s (storeByte (operandPlace .byte dst (moved .byte src s)) (operandByte src s)
      (operandStep .datip .byte dst (moved .byte src s))).complete := by
  obtain ⟨t, ht, hv, _⟩ := srcRead_ok hs
  have hc := moved_byte_of_srcRead hv
  obtain ⟨u, hu, huv⟩ := dstWriteOnly_byte (v := operandValue .byte src s)
    ((vis_operandWritable hc .byte dst).trans hd)
  rw [vis_operandPlace hc] at huv
  have hr : exec (.movb src dst) s = finish (.ok () u) := by
    show execMovb src dst s = _
    rw [execMovb, ht, Res.andThen_ok, if_neg hm, hu]
  rw [Completes, hr]
  exact finish_completes rfl (huv.trans (vis_storeByte (vis_operandStep hc .datip .byte dst) _ _))

end

/-- Settles O44: the state in which the destination is worked out is `moved`'s, and MOVB's mode 0 is apart. -/
theorem movResult : Obligations.MovResult := by
  unfold Obligations.MovResult
  intro src dst s
  exact ⟨decodeWord_encodeWord (i := .mov src dst) rfl, execMov_completes,
    decodeWord_encodeWord (i := .movb src dst) rfl,
    fun hs => ⟨execMovb_register_completes hs, execMovb_memory_completes hs⟩⟩

/-! ### The other double-operand instructions -/

/-- Settles O45: the borrow of source minus destination is the complement of the carry. -/
theorem cmpResult : Obligations.CmpResult := by
  unfold Obligations.CmpResult
  intro src dst s
  refine ⟨decodeWord_encodeWord (i := .cmp src dst) rfl, fun hs hd => completes_of_compareWord rfl hs hd ?cmp,
    decodeWord_encodeWord (i := .cmpb src dst) rfl, fun hs hd => completes_of_compareByte rfl hs hd ?cmpb⟩
  case cmp => rw [aluCmp_eq, allOnes_word]; rfl
  case cmpb => rw [aluCmp_eq, allOnes_byte]; rfl

/-- Settles O46: C is the one the destination's read leaves, and the complement of BIC is that of the size. -/
theorem logicalResult : Obligations.LogicalResult := by
  unfold Obligations.LogicalResult
  intro src dst s
  refine ⟨decodeWord_encodeWord (i := .bit src dst) rfl, fun hs hd => completes_of_compareWord rfl hs hd rfl,
    decodeWord_encodeWord (i := .bitb src dst) rfl, fun hs hd => completes_of_compareByte rfl hs hd rfl,
    decodeWord_encodeWord (i := .bic src dst) rfl, fun hs hd => completes_of_combineWord rfl hs hd ?bic,
    decodeWord_encodeWord (i := .bicb src dst) rfl, fun hs hd => completes_of_combineByte rfl hs hd ?bicb,
    decodeWord_encodeWord (i := .bis src dst) rfl, fun hs hd => completes_of_combineWord rfl hs hd rfl,
    decodeWord_encodeWord (i := .bisb src dst) rfl, fun hs hd => completes_of_combineByte rfl hs hd rfl⟩
  case bic => rw [aluBic, allOnes_word]; rfl
  case bicb => rw [aluBic, allOnes_byte]; rfl

/-- Settles O47: ADD's C is a carry with none coming in, SUB's is the complement of a carry. -/
theorem addSubResult : Obligations.AddSubResult := by
  unfold Obligations.AddSubResult
  intro src dst s
  refine ⟨decodeWord_encodeWord (i := .add src dst) rfl, fun hs hd => completes_of_combineWord rfl hs hd ?add,
    decodeWord_encodeWord (i := .sub src dst) rfl, fun hs hd => completes_of_combineWord rfl hs hd ?sub⟩
  case add => rw [aluAdd_eq]; rfl
  case sub => rw [aluSub_eq, allOnes_word]; rfl

end Sys2Proof.Machine

/-! SUPPORT and PROOFS of family 43_program_control: the branches, the trap instructions, JSR and RTS. -/

namespace Sys2Proof.Machine

/-! ### The branches -/

/-- A branch completes with the PC its rule works out over the integers (R240). -/
theorem branchIf_eq (taken : Bool) (offset : BitVec 8) (s : State) :
    branchIf taken offset s = .next (branched taken offset s).complete := by
  rw [branchIf, branched, branch_target]
  rfl

/-- The model leaves B alone, which is one of the values the rules leave open (entry 24). -/
theorem exec_branch {i : Instr} {taken : Bool} {offset : BitVec 8} {s : State}
    (hi : exec i s = branchIf taken offset s) :
    ∃ b, exec i s = .next { (branched taken offset s).complete with b := b } :=
  ⟨(branched taken offset s).complete.b, hi.trans (branchIf_eq taken offset s)⟩

/-- Settles O48: each instruction is `branchIf` on the condition of its rule. -/
theorem signedBranches : Obligations.SignedBranches := by
  unfold Obligations.SignedBranches
  intro offset s
  exact ⟨decodeWord_encodeWord (i := .br offset) rfl, exec_branch rfl,
    decodeWord_encodeWord (i := .bne offset) rfl, exec_branch rfl,
    decodeWord_encodeWord (i := .beq offset) rfl, exec_branch rfl,
    decodeWord_encodeWord (i := .bge offset) rfl, exec_branch rfl,
    decodeWord_encodeWord (i := .blt offset) rfl, exec_branch rfl,
    decodeWord_encodeWord (i := .bgt offset) rfl, exec_branch rfl,
    decodeWord_encodeWord (i := .ble offset) rfl, exec_branch rfl⟩

/-- Settles O49: likewise, and the second names BHIS and BLO have the words and the conditions of BCC and BCS. -/
theorem flagBranches : Obligations.FlagBranches := by
  unfold Obligations.FlagBranches
  intro offset s
  exact ⟨decodeWord_encodeWord (i := .bpl offset) rfl, exec_branch rfl,
    decodeWord_encodeWord (i := .bmi offset) rfl, exec_branch rfl,
    decodeWord_encodeWord (i := .bhi offset) rfl, exec_branch rfl,
    decodeWord_encodeWord (i := .blos offset) rfl, exec_branch rfl,
    decodeWord_encodeWord (i := .bvc offset) rfl, exec_branch rfl,
    decodeWord_encodeWord (i := .bvs offset) rfl, exec_branch rfl,
    decodeWord_encodeWord (i := .bcc offset) rfl, exec_branch rfl,
    decodeWord_encodeWord (i := .bcs offset) rfl, exec_branch rfl,
    exec_branch rfl, rfl, exec_branch rfl, rfl⟩

/-! ### The trap instructions -/

/-- Settles O50: the meaning of each is the trap through its own vector, whatever the low byte of EMT and TRAP. -/
theorem trapInstructions : Obligations.TrapInstructions := by
  unfold Obligations.TrapInstructions
  intro code s
  exact ⟨decodeWord_encodeWord (i := .bpt) rfl, decodeWord_encodeWord (i := .iot) rfl,
    decodeWord_encodeWord (i := .emt code) rfl, decodeWord_encodeWord (i := .trap code) rfl,
    completes_of_trap rfl, completes_of_trap rfl, completes_of_trap rfl, completes_of_trap rfl⟩

/-! ### JSR -/

/-- JSR whose address is worked out is its linkage to that address, from a state that looks like the one after
`DstAddress`, in which the push is taken too (R266). -/
theorem execJsr_place {link : Reg} {dst : Operand} {s : State} {a : Word} (hm : dst.mode ≠ .register)
    (hp : pointersReadable dst s = true) (ha : operandPlace .word dst s = .mem a)
    (hw : (addressStep dst s).writable .word ((addressStep dst s).sp - 2) = true) :
    ∃ t, exec (.jsr link dst) s = finish (linkTo link a t) ∧ t.visible = (addressStep dst s).visible ∧
      t.writable .word (t.sp - 2) = true := by
  obtain ⟨t, ht, hv, _⟩ := dstAddress_ok hp
  refine ⟨t, ?_, hv, by rw [vis_sp hv, vis_writable hv]; exact hw⟩
  show execJsr link dst s = _
  rw [execJsr_of_mode hm, ht, ha, Res.andThen_ok]

/-- JSR with a linkage register other than R6 (R266). -/
theorem execJsr_completes {link : Reg} {dst : Operand} {s : State} {a : Word} (hm : dst.mode ≠ .register)
    (hl : link ≠ .r6) (hp : pointersReadable dst s = true) (ha : operandPlace .word dst s = .mem a)
    (hw : (addressStep dst s).writable .word ((addressStep dst s).sp - 2) = true) :
    Completes (.jsr link dst) s (((pushed ((addressStep dst s).reg link) (addressStep dst s)).setReg link
      (addressStep dst s).pc).setPc a).complete := by
  obtain ⟨t, ht, hv, hwt⟩ := execJsr_place (link := link) hm hp ha hw
  rw [Completes, ht, ← vis_reg hv, ← vis_pc hv]
  exact finish_completes (linkTo_ok hl hwt) (vis_setPc (vis_setReg (vis_pushed hv _) link _) a)

/-- Settles O53: the linkage begins in the state the address calculation leaves. -/
theorem jsrResult : Obligations.JsrResult := by
  unfold Obligations.JsrResult
  intro link dst s a hm
  exact ⟨decodeWord_encodeWord (i := .jsr link dst) (bne_iff_ne.mpr hm), execJsr_completes hm⟩

/-! ### RTS -/

/-- A pop does not look at PC, which RTS loads before it (R268). -/
theorem popped_setPc (s : State) (v : Word) : popped (s.setPc v) = (popped s).setPc v := by
  have hafter : (s.setPc v).after .dati .word s.sp = (s.after .dati .word s.sp).setPc v :=
    setReg_after s .r7 v .dati .word s.sp
  show ((s.setPc v).after .dati .word s.sp).setSp (s.sp + 2) = _
  rw [hafter]
  rfl

/-- RTS whose pop is answered: PC is loaded, the word popped stands in B, and the linkage register is still to be
written (R268, R269). -/
theorem execRts_popped {link : Reg} {s : State} (h : s.readable .word s.sp = true) :
    let t := ((popped s).setPc (s.reg link)).setB (s.gets .word s.sp)
    exec (.rts link) s =
      finish (if link = .r6 then .ok () (t.drawn.setReg .r6 t.freeWord)
        else .ok () (t.setReg link (s.gets .word s.sp))) := by
  intro t
  have hpop := pop_readable (s := s.setPc (s.reg link)) h
  rw [State.sp_setPc, setPc_gets, popped_setPc] at hpop
  show execRts link s = _
  rw [execRts, hpop, Res.andThen_ok]

/-- RTS with a register other than R6 (R268). -/
theorem execRts_completes {link : Reg} {s : State} (hl : link ≠ .r6) (h : s.readable .word s.sp = true) :
    Completes (.rts link) s
      (((popped s).setPc (s.reg link)).setReg link (s.gets .word s.sp)).complete := by
  rw [Completes, execRts_popped h, if_neg hl]
  exact finish_completes rfl rfl

/-- Settles O54: PC is loaded before the pop and the register after it. -/
theorem rtsResult : Obligations.RtsResult := by
  unfold Obligations.RtsResult
  intro link s
  exact ⟨decodeWord_encodeWord (i := .rts link) rfl, execRts_completes⟩

/-! ### R6 as the linkage register -/

theorem vis_withDraws {s t : State} (h : s.visible = t.visible) (n : Nat) :
    ({ s with draws := n } : State).visible = ({ t with draws := n } : State).visible :=
  congrArg (fun u => ({ u with draws := n } : State)) h

/-- JSR SP: the word pushed and the final R6 are the two free words the model draws (R267 d, D14; entry 14). -/
theorem execJsr_sp_completes {dst : Operand} {s : State} {a : Word} (hm : dst.mode ≠ .register)
    (hp : pointersReadable dst s = true) (ha : operandPlace .word dst s = .mem a)
    (hw : (addressStep dst s).writable .word ((addressStep dst s).sp - 2) = true) :
    ∃ (w v : Word) (n : Nat), Completes (.jsr .r6 dst) s
      ({ ((pushed w (addressStep dst s).drawn).setSp v).setPc a with draws := n } : State).complete := by
  obtain ⟨t, ht, hv, hwt⟩ := execJsr_place (link := .r6) hm hp ha hw
  have hpushed := vis_pushed (vis_drawn hv) t.freeWord
  refine ⟨t.freeWord, (pushed t.freeWord t.drawn).freeWord, (pushed t.freeWord t.drawn).draws + 1, ?_⟩
  rw [Completes, ht]
  exact finish_completes (linkTo_sp hwt) (vis_withDraws (vis_setPc (vis_setSp hpushed _) a) _)

/-- RTS SP: the final R6 is the free word the model draws after the pop (R269 c, D14; entry 14). -/
theorem execRts_sp_completes {s : State} (h : s.readable .word s.sp = true) :
    ∃ (v : Word) (n : Nat), Completes (.rts .r6) s
      ({ ((popped s).setPc s.sp).setSp v with draws := n } : State).complete := by
  refine ⟨(popped s).freeWord, (popped s).draws + 1, ?_⟩
  rw [Completes, execRts_popped h, if_pos rfl]
  exact finish_completes rfl rfl

/-- Settles O55: the open values are witnessed by the free words that the model draws. -/
theorem stackPointerLinkageIsOpen : Obligations.StackPointerLinkageIsOpen := by
  unfold Obligations.StackPointerLinkageIsOpen
  exact ⟨fun dst s a hm hp ha hw => execJsr_sp_completes hm hp ha hw, fun s h => execRts_sp_completes h⟩

end Sys2Proof.Machine

/-! SUPPORT and PROOFS of family 44_operate_and_cc: HALT, WAIT, RESET and the condition-code operators, the HALTED run
state, and the two returns from a trap with the trace flag. -/

namespace Sys2Proof.Machine

/-! ### Completion -/

/-- The trace flag after a completion: set by the T bit, else as it was (R322, D10). -/
theorem State.complete_tbitFlag (s : State) : s.complete.tbitFlag = (s.flagT || s.tbitFlag) := by
  unfold State.complete
  split
  case isTrue hT => rw [hT, Bool.true_or]
  case isFalse hT => rw [Bool.eq_false_iff.mpr hT, Bool.false_or]

theorem State.complete_flagT (s : State) : s.complete.flagT = s.flagT :=
  congrArg (·.getLsbD 4) (State.complete_psw s)

section
variable {s t : State} (h : s.visible = t.visible)
include h

theorem vis_be : s.be = t.be := congrArg (fun u => u.be) h

theorem vis_tbitFlag : s.tbitFlag = t.tbitFlag := congrArg (fun u => u.tbitFlag) h

theorem vis_run : s.run = t.run := congrArg (fun u => u.run) h

theorem vis_inputs : s.inputs = t.inputs := congrArg (fun u => u.inputs) h

theorem vis_flagT : s.flagT = t.flagT := congrArg (fun u => u.flagT) h

theorem vis_withRun (r : RunState) : ({ s with run := r } : State).visible = ({ t with run := r } : State).visible :=
  congrArg (fun u => ({ u with run := r } : State)) h

end

/-- An instruction whose completion is seen has set the trace flag where the T bit after it is set. -/
theorem Completes.traces {i : Instr} {s u : State} (h : Completes i s u.complete) :
    ∃ t, exec i s = .next t ∧ (t.flagT = true → t.tbitFlag = true) := by
  obtain ⟨t, ht, hv⟩ := h
  refine ⟨t, ht, fun hT => ?_⟩
  rw [vis_flagT hv, State.complete_flagT] at hT
  rw [vis_tbitFlag hv, State.complete_tbitFlag, hT, Bool.true_or]

/-! ### HALT, WAIT and RESET -/

/-- The model leaves B alone where the rules leave it open (entry 24). -/
theorem exec_finish_ok {i : Instr} {s u : State} (h : exec i s = finish (.ok () u)) :
    ∃ b, exec i s = .next { u.complete with b := b } := ⟨u.complete.b, h⟩

/-- The instruction at PC, fetched with a read that is answered. -/
theorem step_fetches {s : State} (hs : s.ready = true) (hr : s.readable .word s.pc = true) :
    ∃ u, step s = exec (decodeWord (s.gets .word s.pc)) u ∧
      u.visible = ((s.after .dati .word s.pc).setPc (s.pc + 2)).visible := by
  obtain ⟨hin, hrun, hpend⟩ := (ready_iff s).mp hs
  exact ⟨_, (step_runs hin hrun hpend).trans (runInstruction_ok (fetch_ok hr)), rfl⟩

/-- Settles O57: HALT is the completion of the state with the clock stopped, from its own fetch as from any state. -/
theorem haltResult : Obligations.HaltResult := by
  unfold Obligations.HaltResult
  refine ⟨decodeWord_encodeWord (i := .halt) rfl, fun s => exec_finish_ok rfl, fun s hs hr hz => ?fetched⟩
  case fetched =>
    obtain ⟨u, hu, hv⟩ := step_fetches hs hr
    rw [hz] at hu
    exact ⟨({ u with run := .halted } : State).complete, hu, State.complete_run _,
      vis_complete (vis_withRun hv .halted)⟩

/-- Settles O58: a waiting processor serves what SERVICE finds, and otherwise stays. -/
theorem waitResult : Obligations.WaitResult := by
  unfold Obligations.WaitResult
  exact ⟨decodeWord_encodeWord (i := .wait) rfl, fun s => exec_finish_ok rfl,
    fun s hr hin hc => ⟨s.b, step_waits hin hr hc⟩, fun s c hr hin hc => step_serves hin (.inr hr) hc⟩

/-- Settles O59: the pulse forces the IR and drops the requests, and the completion looks at the T bit alone. -/
theorem resetInstruction : Obligations.ResetInstruction := by
  unfold Obligations.ResetInstruction
  exact ⟨decodeWord_encodeWord (i := .reset) rfl, fun s =>
    ⟨({ s.busReset with initPulses := s.initPulses + 1 } : State).complete, rfl, State.complete_ir _,
      State.complete_scratch _, State.complete_b _, vis_complete rfl⟩⟩

/-! ### HALTED -/

/-- Continue, the only event before a step of a halted processor (R282, R285, D15). -/
theorem takeInputs_goOn {s : State} {later : List (List Input)} (hr : s.run = .halted)
    (hin : s.inputs = [.goOn] :: later) :
    s.takeInputs = { s with run := if s.waitHeld then .wait else .run, waitHeld := false, inputs := later } := by
  rw [takeInputs_one hin]
  exact if_pos hr

/-- SERVICE looks neither at the run state nor at the events to come. -/
theorem pendingService_goOn (s : State) (r : RunState) (held : Bool) (later : List (List Input)) :
    pendingService { s with run := r, waitHeld := held, inputs := later } = pendingService s := rfl

theorem stepAfterInputs_runs {s : State} (hr : s.run = .run) (hc : pendingService s = none) :
    stepAfterInputs s = runInstruction s := by
  rw [stepAfterInputs, hr]
  dsimp only
  rw [hc]

theorem stepAfterInputs_waits {s : State} (hr : s.run = .wait) (hc : pendingService s = none) :
    stepAfterInputs s = .next s := by
  rw [stepAfterInputs, hr]
  dsimp only
  rw [hc]

/-- Settles O36: after Continue the step is that of the run state the processor goes back to. -/
theorem haltedUntilTheConsoleGoesOn : Obligations.HaltedUntilTheConsoleGoesOn := by
  unfold Obligations.HaltedUntilTheConsoleGoesOn
  refine ⟨fun s hr hin => step_halted hin hr, fun s later hr hheld hin hc => ?running,
    fun s later hr hheld hin hc => ?waiting⟩
  case running =>
    have htake : s.takeInputs = { s with run := .run, inputs := later } := by
      rw [takeInputs_goOn hr hin, hheld, if_neg Bool.false_ne_true, ← hheld]
    rw [step, htake]
    exact stepAfterInputs_runs rfl ((pendingService_goOn s .run s.waitHeld later).trans hc)
  case waiting =>
    have htake : s.takeInputs = { s with run := .wait, waitHeld := false, inputs := later } := by
      rw [takeInputs_goOn hr hin, hheld, if_pos rfl]
    rw [step, htake]
    exact ⟨s.b, stepAfterInputs_waits rfl ((pendingService_goOn s .wait false later).trans hc)⟩

/-! ### The condition-code operators -/

theorem CC.bits_getElem (f : CC) : f.bits[0] = f.c ∧ f.bits[1] = f.v ∧ f.bits[2] = f.z ∧ f.bits[3] = f.n := by
  obtain ⟨n, z, v, c⟩ := f
  revert n z v c
  decide

/-- The operator's own bits are the fields of the instruction (R295). -/
theorem decodeWord_ccop (w : BitVec 5) : decodeWord (0b00000000101#11 ++ w : BitVec 16) =
    .ccop (w.getLsbD 4) (w.getLsbD 3) (w.getLsbD 2) (w.getLsbD 1) (w.getLsbD 0) := by
  revert w
  decide

/-- The selected codes set or cleared one by one are the PSW OR its mask, or the PSW AND NOT its mask; both leave bits
7:4 alone (R295). -/
theorem setCC_ccOperate (w : BitVec 5) (s : State) :
    s.setCC (ccOperate (w.getLsbD 4) ⟨w.getLsbD 3, w.getLsbD 2, w.getLsbD 1, w.getLsbD 0⟩ s.cc) =
      { s with psw := if w.getLsbD 4 then s.psw ||| (w.extractLsb' 0 4).setWidth 8
                      else s.psw &&& ~~~((w.extractLsb' 0 4).setWidth 8) } := by
  unfold State.setCC ccOperate
  congr 1
  apply BitVec.eq_of_getLsbD_eq
  intro k hk
  rw [BitVec.getLsbD_append]
  by_cases hset : w.getLsbD 4 = true
  case pos =>
    rw [if_pos hset, if_pos hset]
    interval_cases k <;> simp [CC.bits_getElem, State.cc, State.flagN, State.flagZ, State.flagV, State.flagC]
  case neg =>
    rw [if_neg hset, if_neg hset]
    interval_cases k <;> simp [CC.bits_getElem, State.cc, State.flagN, State.flagZ, State.flagV, State.flagC]

/-- Settles O60: the decoded fields select the codes, and the completion looks at the T bit, which no mask selects. -/
theorem conditionCodeOperators : Obligations.ConditionCodeOperators := by
  unfold Obligations.ConditionCodeOperators
  intro w s
  rw [decodeWord_ccop, ← setCC_ccOperate]
  refine ⟨exec_finish_ok rfl, fun set n z v c => ?fields⟩
  case fields =>
    rw [Instr.ccop.injEq]
    simp only [eq_comm]

/-! ### RTI and RTT -/

/-- The first pop has loaded PC, and the second is still to be made (R288, D13). -/
def pcPopped (s : State) : State := (popped s).setPc (s.gets .word s.sp)

/-- Both pops done, PC and the whole PSW loaded (R288, R289). -/
def returned (s : State) : State :=
  { popped (pcPopped s) with psw := lowByte ((pcPopped s).gets .word (pcPopped s).sp) }

theorem pcPopped_readFails (s : State) (sz : Size) (a : Word) : (pcPopped s).readFails sz a = s.readFails sz a :=
  readFails_congr (by simp [pcPopped, popped]) (by simp [pcPopped, popped]) sz a

@[simp] theorem returned_pc (s : State) : (returned s).pc = s.gets .word s.sp :=
  ((pcPopped s).after_pc .dati .word (pcPopped s).sp).trans (State.pc_setPc _ _)

@[simp] theorem returned_be (s : State) : (returned s).be = s.be := by simp [returned, pcPopped, popped]

@[simp] theorem returned_tbitFlag (s : State) : (returned s).tbitFlag = s.tbitFlag := by
  simp [returned, pcPopped, popped]

@[simp] theorem returned_run (s : State) : (returned s).run = s.run := by simp [returned, pcPopped, popped]

@[simp] theorem returned_inputs (s : State) : (returned s).inputs = s.inputs := by simp [returned, pcPopped, popped]

theorem returnFromTrap_returned {s : State} (h1 : s.readable .word s.sp = true)
    (h2 : s.readable .word (s.sp + 2) = true) :
    ∃ t, returnFromTrap s = .ok () t ∧ t.visible = (returned s).visible := returnFromTrap_ok h1 h2

/-- A first pop that fails has changed no register and nothing of the PSW (D13). -/
theorem returnFromTrap_pc_fails {s : State} {e : BusFault} (h : s.readFails .word s.sp = some e) :
    ∃ t, returnFromTrap s = .err e t ∧ t.visible = (s.after .dati .word s.sp).visible := by
  obtain ⟨t, ht, hv⟩ := pop_fails h
  exact ⟨t, by rw [returnFromTrap, ht, Res.andThen_err], hv⟩

/-- A second pop that fails finds PC loaded and R6 raised by the first (D13). -/
theorem returnFromTrap_psw_fails {s : State} {e : BusFault} (h1 : s.readable .word s.sp = true)
    (h2 : s.readFails .word (s.sp + 2) = some e) :
    ∃ t, returnFromTrap s = .err e t ∧
      t.visible = ((pcPopped s).after .dati .word (pcPopped s).sp).visible := by
  have hv : (((popped s).setB (s.gets .word s.sp)).setPc (s.gets .word s.sp)).visible = (pcPopped s).visible := rfl
  obtain ⟨t, ht, htv⟩ := pop_fails (s := ((popped s).setB (s.gets .word s.sp)).setPc (s.gets .word s.sp)) (e := e)
    (by rw [vis_readFails hv, vis_sp hv, pcPopped_readFails]; exact h2)
  refine ⟨t, by rw [returnFromTrap, pop_readable h1, Res.andThen_ok, ht, Res.andThen_err], htv.trans ?_⟩
  rw [vis_sp hv]
  exact vis_after hv .dati .word _

/-- RTI completes where RTT only ends (R290, R291). -/
theorem completes_of_returnFromTrap {s t u : State} (h : returnFromTrap s = .ok () t) (hv : t.visible = u.visible) :
    Completes .rti s u.complete ∧ Completes .rtt s u := by
  refine ⟨finish_completes h hv, t, ?_, hv⟩
  show execRtt s = _
  rw [execRtt, h]

/-- RTI and RTT take the same bus-error trap. -/
theorem aborts_of_returnFromTrap {s t u : State} {e : BusFault} (h : returnFromTrap s = .err e t)
    (hv : t.visible = u.visible) :
    Completes .rti s (u.takeBusError e) ∧ Completes .rtt s (u.takeBusError e) := by
  refine ⟨finish_aborted h hv, t.takeBusError e, ?_, vis_takeBusError hv e⟩
  show execRtt s = _
  rw [execRtt, h]

theorem return_completes {s : State} (h1 : s.readable .word s.sp = true) (h2 : s.readable .word (s.sp + 2) = true) :
    Completes .rti s (returned s).complete ∧ Completes .rtt s (returned s) := by
  obtain ⟨t, ht, hv⟩ := returnFromTrap_returned h1 h2
  exact completes_of_returnFromTrap ht hv

/-- Settles O56: the two pops, and what the first leaves for the second. -/
theorem returnFromTrapResult : Obligations.ReturnFromTrapResult := by
  unfold Obligations.ReturnFromTrapResult
  refine ⟨decodeWord_encodeWord (i := .rti) rfl, decodeWord_encodeWord (i := .rtt) rfl, fun s =>
    ⟨return_completes, fun e h => ?pc, fun e h1 h2 => ?psw⟩⟩
  case pc =>
    obtain ⟨t, ht, hv⟩ := returnFromTrap_pc_fails h
    exact aborts_of_returnFromTrap ht hv
  case psw =>
    obtain ⟨t, ht, hv⟩ := returnFromTrap_psw_fails h1 h2
    exact aborts_of_returnFromTrap ht hv

/-! ### The trace trap after RTI -/

theorem pendingService_trace {s : State} (hbe : s.be = false) (ht : s.tbitFlag = true) :
    pendingService s = some .trace := by
  unfold pendingService
  rw [hbe, ht]
  rfl

/-- The trace flag of a running processor is taken before anything but a bus error (R325 order 4, D2). -/
theorem step_traces {s : State} (hbe : s.be = false) (ht : s.tbitFlag = true) (hin : s.inputs = [])
    (hr : s.run = .run) : step s = .next (trapSequence 0o14 { s with tbitFlag := false }) := by
  rw [step_serves hin (.inl hr) (pendingService_trace hbe ht), serve_trace, ← hr]

theorem wordAt_memory {s : State} {a : Word} (h : s.targetOf a = .slave .memory) (ho : isOdd a = false) :
    s.wordAt a = s.mem.readWord (addr18 s.cfg a).toNat := by
  unfold State.wordAt
  rw [h, wordBase_addr18_even _ a ho]

/-- Two words at even addresses do not overlap. -/
theorem addr18_even_apart (c : Config) {a b : Word} (ha : isOdd a = false) (hb : isOdd b = false) (h : a ≠ b) :
    (addr18 c a).toNat + 1 < (addr18 c b).toNat ∨ (addr18 c b).toNat + 1 < (addr18 c a).toNat := by
  have hne : (addr18 c a).toNat ≠ (addr18 c b).toNat := fun e => h (addr18_inj e)
  have hea := wordBase_even (addr18 c a)
  have heb := wordBase_even (addr18 c b)
  rw [wordBase_addr18_even c a ha] at hea
  rw [wordBase_addr18_even c b hb] at heb
  omega

theorem sub_four_ne_sub_two (x : Word) : x - 4 ≠ x - 2 := by bv_omega

theorem entered_cfg (v : Word) (s : State) : (entered v s).cfg = s.cfg := by simp [entered]

section
variable {s : State} (hn : s.npr = []) (h2 : s.targetOf (s.sp - 2) = .slave .memory)
include hn

/-- With the bus to itself a trap sequence leaves in memory what its two pushes store. -/
theorem entered_mem_alone (v : Word) : (entered v s).mem = (saved s).mem := by
  have hnpr : (saved s).npr = [] := pushed_npr _ (pushed_npr _ hn)
  rw [entered_mem, State.granted_nil (by rw [State.after_npr, hnpr]; rfl), State.after_mem, State.granted_nil hnpr]

theorem lowered_psw_alone : (lowered s).psw = s.psw := (alone_lowered (s := s) (t := s) ⟨hn, rfl, rfl⟩).2.2

include h2

/-- The PSW stored below R6, and PC below it (R340). -/
theorem saved_mem (h4 : s.targetOf (s.sp - 4) = .slave .memory) :
    (saved s).mem = (s.mem.writeWord (addr18 s.cfg (s.sp - 2)).toNat (zext s.psw)).writeWord
      (addr18 s.cfg (s.sp - 4)).toNat s.pc := by
  unfold saved
  rw [lowered_psw_alone hn, pushed_mem _ (pushed_npr _ hn)
    (by rw [pushed_sp, sp_sub_four, targetOf_congr (pushed_cfg _ _)]; exact h4), pushed_sp, sp_sub_four, pushed_cfg,
    pushed_mem _ hn h2]

/-- The two words of a trap entry, read back off the stack. -/
theorem entered_stack {v : Word} (h4 : s.targetOf (s.sp - 4) = .slave .memory) (hwf : s.mem.wf = true)
    (h : entryAnswers v s = true) :
    (entered v s).wordAt (s.sp - 4) = s.pc ∧ (entered v s).wordAt (s.sp - 2) = zext s.psw := by
  have h' := h
  unfold entryAnswers at h'
  simp only [Bool.and_eq_true] at h'
  obtain ⟨⟨⟨hw2, hw4⟩, _⟩, _⟩ := h'
  have ho2 := writable_even hw2
  have ho4 := writable_even hw4
  have hlt2 := addr18_lt_of_even s.cfg ho2
  have hlt4 := addr18_lt_of_even s.cfg ho4
  have hcfg := entered_cfg v s
  have hwf2 := Memory.writeWord_wf s.mem _ (zext s.psw) hwf hlt2
  rw [wordAt_memory ((targetOf_congr hcfg _).trans h4) ho4, wordAt_memory ((targetOf_congr hcfg _).trans h2) ho2, hcfg,
    entered_mem_alone hn, saved_mem hn h2 h4, Memory.readWord_writeWord _ _ _ hwf2 hlt4,
    Memory.readWord_writeWord_ne _ _ _ _ hwf2 hlt4 (addr18_even_apart _ ho4 ho2 (sub_four_ne_sub_two _)),
    Memory.readWord_writeWord _ _ _ hwf hlt2]
  exact ⟨rfl, rfl⟩

end

theorem lowByte_getLsbD (w : Word) {k : Nat} (hk : k < 8) : (lowByte w).getLsbD k = w.getLsbD k := by
  unfold lowByte
  rw [BitVec.getLsbD_extractLsb', decide_eq_true hk, Bool.true_and, Nat.zero_add]

theorem zext_getLsbD (v : Byte) {k : Nat} (hk : k < 16) : (zext v).getLsbD k = v.getLsbD k := by
  unfold zext
  rw [BitVec.getLsbD_setWidth, decide_eq_true hk, Bool.true_and]

/-- Settles O29: the completion of RTI looks at the T bit it has popped, and the trace trap saves what RTI restored. -/
theorem rtiTracesAtOnce : Obligations.RtiTracesAtOnce := by
  unfold Obligations.RtiTracesAtOnce
  intro s h1 h2 x w hT
  obtain ⟨t, ht, hv⟩ := (return_completes h1 h2).1
  have hpc : t.pc = s.gets .word s.sp := (vis_pc hv).trans ((State.complete_reg _ .r7).trans (returned_pc s))
  have hpsw : t.psw = lowByte w := (vis_psw hv).trans (State.complete_psw _)
  have hbit : (lowByte w).getLsbD 4 = true := (lowByte_getLsbD w (by decide)).trans hT
  have htrace : t.tbitFlag = true := by
    have hflag : (returned s).flagT = true := hbit
    rw [vis_tbitFlag hv, State.complete_tbitFlag, hflag, Bool.true_or]
  refine ⟨t, ht, htrace, hpc, hpsw, fun hbe hin hr => ?next⟩
  case next =>
    have hbe' : t.be = false := by rw [vis_be hv, State.complete_be, returned_be, hbe]
    have hin' : t.inputs = [] := by rw [vis_inputs hv, State.complete_inputs, returned_inputs, hin]
    have hr' : t.run = .run := by rw [vis_run hv, State.complete_run, returned_run, hr]
    refine ⟨_, step_traces hbe' htrace hin' hr', rfl, fun hans => ?entered⟩
    have hent := (trapSequence_ok (v := 0o14) (s := { t with tbitFlag := false }) hans).1
    refine ⟨hent, fun hwf hn hm2 hm4 => ?stack⟩
    obtain ⟨hstackpc, hstackpsw⟩ := entered_stack (s := { t with tbitFlag := false }) hn hm2 hm4 hwf hans
    have hword2 := (vis_wordAt hent (t.sp - 2)).trans hstackpsw
    have hword4 := (vis_wordAt hent (t.sp - 4)).trans hstackpc
    have hzext : zext t.psw = zext (lowByte w) := congrArg zext hpsw
    exact ⟨hword4.trans hpc, hword2.trans hzext, by
      rw [hword2.trans hzext, zext_getLsbD _ (by decide)]
      exact hbit⟩

/-! ### Every answered instruction completes -/

theorem exec_of_plain {i : Instr} (s : State) (h : shapeOf i = .plain) :
    ∃ u : State, exec i s = finish (.ok () u) := by
  cases i with
  | halt | wait | reset | ccop => exact ⟨_, rfl⟩
  | br | bne | beq | bge | blt | bgt | ble | bpl | bmi | bhi | blos | bvc | bvs | bcc | bhis | bcs | blo =>
    exact ⟨_, rfl⟩
  | _ => cases h

theorem eq_of_jump {i : Instr} {dst : Operand} (h : shapeOf i = .jump dst) : i = .jmp dst := by
  cases i with
  | jmp d => cases h; rfl
  | _ => cases h

theorem eq_of_call {i : Instr} {link : Reg} {dst : Operand} (h : shapeOf i = .call link dst) : i = .jsr link dst := by
  cases i with
  | jsr l d => cases h; rfl
  | _ => cases h

theorem eq_of_ret {i : Instr} {link : Reg} (h : shapeOf i = .ret link) : i = .rts link := by
  cases i with
  | rts l => cases h; rfl
  | _ => cases h

theorem eq_of_unwind {i : Instr} (h : shapeOf i = .unwind) : i = .rti ∨ i = .rtt := by
  cases i with
  | rti => exact .inl rfl
  | rtt => exact .inr rfl
  | _ => cases h

/-- A modifying instruction completes, wherever its destination is. -/
theorem modify_completes {i : Instr} {sz : Size} {dst : Operand} {s : State} (hi : shapeOf i = .modify sz dst)
    (h : operandWritable sz dst s = true) : ∃ u : State, Completes i s u.complete := by
  rcases exec_of_modify s hi with ⟨rfl, op, he⟩ | ⟨rfl, op, he⟩ | ⟨rfl, rfl⟩
  · exact ⟨_, completes_of_modifyWord he h rfl⟩
  · exact ⟨_, completes_of_modifyByte he h rfl⟩
  · obtain ⟨t, r, f, ht, hv⟩ := execSwab_completes h
    exact ⟨_, t, ht, hv⟩

theorem combine_completes {i : Instr} {sz : Size} {src dst : Operand} {s : State} (hi : shapeOf i = .combine sz src dst)
    (hs : operandReadable sz src s = true) (hd : operandWritable sz dst (operandStep .dati sz src s) = true) :
    ∃ u : State, Completes i s u.complete := by
  rcases exec_of_combine s hi with ⟨rfl, op, he⟩ | ⟨rfl, op, he⟩
  · exact ⟨_, completes_of_combineWord he hs hd rfl⟩
  · exact ⟨_, completes_of_combineByte he hs hd rfl⟩

theorem move_completes {i : Instr} {sz : Size} {src dst : Operand} {s : State} (hi : shapeOf i = .move sz src dst)
    (hs : operandReadable sz src s = true) (hd : operandWritable sz dst (moved sz src s) = true) :
    ∃ u : State, Completes i s u.complete := by
  rcases exec_of_move hi with ⟨rfl, rfl⟩ | ⟨rfl, rfl⟩
  · exact ⟨_, execMov_completes hs hd⟩
  · by_cases hm : dst.mode = .register
    · exact ⟨_, execMovb_register_completes hs hm⟩
    · exact ⟨_, execMovb_memory_completes hs hm hd⟩

theorem call_completes {link : Reg} {dst : Operand} {s : State} (h : Shape.answered s (.call link dst) = true) :
    ∃ u : State, Completes (.jsr link dst) s u.complete := by
  obtain ⟨hmp, hpush⟩ := Bool.and_eq_true_iff.mp h
  obtain ⟨hm, hp⟩ := Bool.and_eq_true_iff.mp hmp
  have hmode : dst.mode ≠ .register := bne_iff_ne.mp hm
  have hw : (addressStep dst s).writable .word ((addressStep dst s).sp - 2) = true := by
    rw [writable_congr (keeps_addressStep dst s).cfg]
    exact hpush
  obtain ⟨a, ha⟩ := operandPlace_mem (sz := .word) (s := s) hmode
  by_cases hl : link = .r6
  · subst hl
    obtain ⟨w, v, n, hc⟩ := execJsr_sp_completes hmode hp ha hw
    exact ⟨_, hc⟩
  · exact ⟨_, execJsr_completes hmode hl hp ha hw⟩

theorem ret_completes {link : Reg} {s : State} (h : s.readable .word s.sp = true) :
    ∃ u : State, Completes (.rts link) s u.complete := by
  by_cases hl : link = .r6
  · subst hl
    obtain ⟨v, n, hc⟩ := execRts_sp_completes h
    exact ⟨_, hc⟩
  · exact ⟨_, execRts_completes hl h⟩

/-- Every instruction whose bus cycles are answered ends in a completion, but for RTT and the instruction traps (R310,
R291, R323 e). -/
theorem exec_completes {i : Instr} {s : State} (hrtt : i ≠ .rtt) (htrap : ∀ v, shapeOf i ≠ .trap v)
    (h : (shapeOf i).answered s = true) : ∃ u : State, Completes i s u.complete := by
  cases hi : shapeOf i <;> rw [hi] at h
  case plain =>
    obtain ⟨u, hu⟩ := exec_of_plain s hi
    exact ⟨u, u.complete, hu, rfl⟩
  case test sz dst =>
    obtain ⟨t, f, ht, hv⟩ := exec_test_completes hi h
    exact ⟨_, t, ht, hv⟩
  case modify sz dst => exact modify_completes hi h
  case compare sz src dst =>
    obtain ⟨hs, hd⟩ := Bool.and_eq_true_iff.mp h
    obtain ⟨t, f, ht, hv⟩ := exec_compare_completes hi hs hd
    exact ⟨_, t, ht, hv⟩
  case combine sz src dst =>
    obtain ⟨hs, hd⟩ := Bool.and_eq_true_iff.mp h
    exact combine_completes hi hs hd
  case move sz src dst =>
    obtain ⟨hs, hd⟩ := Bool.and_eq_true_iff.mp h
    exact move_completes hi hs hd
  case jump dst =>
    obtain ⟨hm, hp⟩ := Bool.and_eq_true_iff.mp h
    have hmode : dst.mode ≠ .register := bne_iff_ne.mp hm
    obtain ⟨a, ha⟩ := operandPlace_mem (sz := .word) (s := s) hmode
    exact ⟨_, eq_of_jump hi ▸ execJmp_completes hmode hp ha⟩
  case call link dst => exact eq_of_call hi ▸ call_completes h
  case ret link => exact eq_of_ret hi ▸ ret_completes h
  case unwind =>
    obtain ⟨h1, h2⟩ := Bool.and_eq_true_iff.mp h
    exact ⟨_, (eq_of_unwind hi).resolve_right hrtt ▸ (return_completes h1 h2).1⟩
  case trap v => exact absurd hi (htrap v)

/-! ### RTT -/

/-- Settles O30: RTT ends without a completion, and the instruction that runs next has one of its own. -/
theorem rttLetsOneInstructionRun : Obligations.RttLetsOneInstructionRun := by
  unfold Obligations.RttLetsOneInstructionRun
  intro s h1 h2
  obtain ⟨t, ht, hv⟩ := (return_completes h1 h2).2
  refine ⟨t, ht, (vis_tbitFlag hv).trans (returned_tbitFlag s), (vis_pc hv).trans (returned_pc s), vis_psw hv,
    fun hready => ?next, fun hin hr c hc => step_serves hin (.inl hr) hc⟩
  case next =>
    obtain ⟨hin, hr, hc⟩ := (ready_iff t).mp hready
    have hstep := step_runs hin hr hc
    refine ⟨hstep, fun w u hf hrtt htrap hans => ?_⟩
    obtain ⟨y, hy⟩ := exec_completes hrtt htrap hans
    rw [hstep, runInstruction_ok hf]
    exact hy.traces

end Sys2Proof.Machine

/-! SUPPORT and PROOFS of family 60_exceptions: the fetch, and instructions whose operand cycles fail. -/

namespace Sys2Proof.Machine

/-! ### The fetch -/

/-- The two bytes of a word at an even address stand at that address and the next (R61). -/
theorem wordAt_bytes (s : State) {a : Word} (h : isOdd a = false) :
    lowByte (s.wordAt a) = s.byteAt a ∧ highByte (s.wordAt a) = s.byteAt (a + 1) := by
  have hodd : isOdd (a + 1) = true := by
    have heven : ¬ a.toNat % 2 = 1 := fun h1 => by rw [(isOdd_iff a).mpr h1] at h; cases h
    rw [isOdd_iff]
    bv_omega
  have hword : s.wordAt (a + 1) = s.wordAt a := by
    unfold State.wordAt State.targetOf
    rw [wordBase_addr18_succ _ h]
  rw [byteAt_eq, byteAt_eq, h, hodd, hword]
  exact ⟨rfl, rfl⟩

/-- Settles O8: the step is the fetch, and the decoder puts the word's two bytes together again. -/
theorem stepRunsDecodedInstruction : Obligations.StepRunsDecodedInstruction := by
  unfold Obligations.StepRunsDecodedInstruction
  intro s i hs hr w
  refine ⟨fun hn => ?bytes, fun hd => ?runs⟩
  case bytes =>
    have hw : w = s.wordAt s.pc := gets_nil hn .word s.pc
    rw [hw]
    exact wordAt_bytes s (readable_even hr)
  case runs =>
    have hi : decodeWord w = i := by
      rw [decode, highByte_append_lowByte] at hd
      exact congrArg Prod.fst (Except.ok.inj hd)
    obtain ⟨hin, hrun, hpend⟩ := (ready_iff s).mp hs
    rw [step_runs hin hrun hpend, runInstruction_ok (fetch_ok hr), ← hi]

/-- A failed fetch is trapped from the state its cycle left (R313). -/
theorem step_fetch_fails {s : State} {e : BusFault} (hs : s.ready = true) (hf : s.readFails .word s.pc = some e) :
    ∃ t, step s = .next t ∧ t.visible = ((s.after .dati .word s.pc).takeBusError e).visible := by
  obtain ⟨hin, hrun, hpend⟩ := (ready_iff s).mp hs
  obtain ⟨t, ht, hv, _⟩ := fetch_fails hf
  refine ⟨t.takeBusError e, ?_, vis_takeBusError hv e⟩
  rw [step_runs hin hrun hpend, runInstruction, ht]

/-- The trap's four cycles are answered after a read as they are before it. -/
theorem after_entryAnswers (s : State) (k : CycleKind) (sz : Size) (a v : Word) :
    entryAnswers v (s.after k sz a) = entryAnswers v s := by
  unfold entryAnswers
  rw [State.after_sp, writable_congr (s.after_cfg k sz a), writable_congr (s.after_cfg k sz a), after_readable,
    after_readable]

theorem abortRead_fails {k : CycleKind} {sz : Size} {a : Word} {s : State} {e : BusFault}
    (h : s.readFails sz a = some e) (go : Option (BusFault × State)) :
    abortRead k sz a s go = some (e, s.after k sz a) := by
  unfold abortRead
  rw [h]

/-- An operand whose mode takes a word from the instruction stream fails at PC, with its own cycle in mode 2 and with
the index or pointer word in the others (R144, R153). -/
theorem operandAborted_stream {k : CycleKind} {o : Operand} {s : State} {e : BusFault}
    (hf : s.readFails .word s.pc = some e)
    (ho : o.mode = .index ∨ o.mode = .indexDef ∨ (o.reg = .r7 ∧ (o.mode = .autoInc ∨ o.mode = .autoIncDef))) :
    operandAborted k .word o s = some (e, s.after (if o.mode = .autoInc then k else .dati) .word s.pc) := by
  obtain ⟨m, r⟩ := o
  dsimp only at ho
  rcases ho with rfl | rfl | ⟨rfl, rfl | rfl⟩
  · simp [operandAborted, addressAborted, abortRead_fails hf]
  · simp [operandAborted, addressAborted, abortRead_fails hf]
  · exact abortRead_fails hf none
  · have hp : addressAborted ⟨.autoIncDef, .r7⟩ s = some (e, s.after .dati .word s.pc) := abortRead_fails hf none
    simp [operandAborted, hp]

/-- What looks like the state after a read has the registers of the state before it. -/
theorem regs_of_after {s t : State} {k : CycleKind} {sz : Size} {a : Word}
    (h : t.visible = (s.after k sz a).visible) : t.regs = s.regs :=
  (congrArg State.regs h).trans (s.after_regs k sz a)

/-- Settles O9: a fetch that fails, and an operand's word at PC that fails, leave every register. -/
theorem fetchFailureKeepsPc : Obligations.FetchFailureKeepsPc := by
  unfold Obligations.FetchFailureKeepsPc
  refine ⟨fun s e hs hf => ?instruction, fun s o e hf ho => ?operand⟩
  case instruction =>
    obtain ⟨t, ht, hv⟩ := step_fetch_fails hs hf
    refine ⟨s.after_regs .dati .word s.pc, t, ht, hv, fun hans => hv.trans ?_⟩
    rw [← after_entryAnswers s .dati .word s.pc] at hans
    exact (trapSequence_ok hans).1
  case operand =>
    have hdati := operandAborted_stream (k := .dati) hf ho
    rw [ite_self] at hdati
    obtain ⟨t, ht, htv⟩ := srcRead_aborted hdati
    obtain ⟨u, hu, huv⟩ := dstRead_aborted hdati
    obtain ⟨w, hw, hwv⟩ := dstModifyRead_aborted (operandAborted_stream hf ho)
    exact ⟨⟨t, ht, htv, regs_of_after htv⟩, ⟨u, hu, huv, regs_of_after huv⟩, w, hw, regs_of_after hwv, hwv⟩

/-! ### Failed accesses from states that look the same -/

/-- What is seen of an access: the failed cycle and the state it leaves. -/
def seenAbort (x : Option (BusFault × State)) : Option (BusFault × State) := x.map fun f => (f.1, f.2.visible)

theorem seenAbort_some {e : BusFault} {u : State} {x : Option (BusFault × State)}
    (h : seenAbort x = seenAbort (some (e, u))) : ∃ w, x = some (e, w) ∧ w.visible = u.visible := by
  cases x with
  | none => cases h
  | some f =>
    obtain ⟨e', w⟩ := f
    obtain ⟨rfl, hw⟩ := Prod.mk.inj (Option.some.inj h)
    exact ⟨w, rfl, hw⟩

section
variable {s t : State} (h : s.visible = t.visible)
include h

theorem seenAbort_abortRead {go go' : Option (BusFault × State)} (hgo : seenAbort go = seenAbort go')
    (k : CycleKind) (sz : Size) (a : Word) :
    seenAbort (abortRead k sz a s go) = seenAbort (abortRead k sz a t go') := by
  unfold abortRead
  rw [vis_readFails h]
  cases t.readFails sz a with
  | none => exact hgo
  | some e => exact congrArg (fun u => some (e, u)) (vis_after h k sz a)

theorem seenAbort_addressAborted (o : Operand) :
    seenAbort (addressAborted o s) = seenAbort (addressAborted o t) := by
  unfold addressAborted
  rw [vis_reg h, vis_pc h, vis_indexSum h]
  cases o.mode with
  | register | deferred | autoInc | autoDec => rfl
  | autoIncDef => exact seenAbort_abortRead h rfl _ _ _
  | autoDecDef => exact seenAbort_abortRead (vis_decremented h _ _) rfl _ _ _
  | index => exact seenAbort_abortRead h rfl _ _ _
  | indexDef => exact seenAbort_abortRead h (seenAbort_abortRead (vis_indexStep h) rfl _ _ _) _ _ _

theorem seenAbort_operandAborted (k : CycleKind) (sz : Size) (o : Operand) :
    seenAbort (operandAborted k sz o s) = seenAbort (operandAborted k sz o t) := by
  have ha := seenAbort_addressAborted h o
  unfold operandAborted
  rw [vis_operandPlace h]
  cases hs : addressAborted o s <;> cases ht : addressAborted o t <;> rw [hs, ht] at ha
  case none.none =>
    cases operandPlace sz o t with
    | reg r => rfl
    | mem a => exact seenAbort_abortRead (vis_operandReach h sz o) rfl k sz a
  case some.some => exact ha
  all_goals cases ha

/-- An operand access fails alike from two states that look the same. -/
theorem vis_operandAborted {k : CycleKind} {sz : Size} {o : Operand} {e : BusFault} {u : State}
    (ha : operandAborted k sz o t = some (e, u)) :
    ∃ w, operandAborted k sz o s = some (e, w) ∧ w.visible = u.visible :=
  seenAbort_some ((seenAbort_operandAborted h k sz o).trans (congrArg seenAbort ha))

end

/-! ### An operand that cannot be read -/

/-- The microsteps end in the failed cycle `e`, in a state that looks like `u`. -/
def Fails {α : Type} (r : Res α) (e : BusFault) (u : State) : Prop := ∃ t, r = .err e t ∧ t.visible = u.visible

theorem Fails.andThen {α β : Type} {r : Res α} {e : BusFault} {u : State} (h : Fails r e u)
    (go : α → State → Res β) : Fails (r.andThen go) e u := by
  obtain ⟨t, ht, hv⟩ := h
  exact ⟨t, by rw [ht, Res.andThen_err], hv⟩

theorem Fails.vis {α : Type} {r : Res α} {e : BusFault} {u w : State} (h : Fails r e u)
    (hv : u.visible = w.visible) : Fails r e w := by
  obtain ⟨t, ht, htv⟩ := h
  exact ⟨t, ht, htv.trans hv⟩

/-- The instruction ends in the trap for a failed cycle, taken from a state that looks like `u` (R312). -/
def Traps (i : Instr) (s : State) (e : BusFault) (u : State) : Prop :=
  ∃ t, exec i s = .next t ∧ t.visible = (u.takeBusError e).visible

theorem Fails.traps {i : Instr} {s u : State} {e : BusFault} {r : Res Unit} (h : Fails r e u)
    (hi : exec i s = finish r) : Traps i s e u := by
  obtain ⟨t, ht, hv⟩ := h
  rw [Traps, hi]
  exact finish_aborted ht hv

/-- A destination access fails from any state that looks like the one it was worked out for. -/
theorem dstRead_aborted_vis {sz : Size} {o : Operand} {s t u : State} {e : BusFault} (hv : t.visible = s.visible)
    (h : operandAborted .dati sz o s = some (e, u)) : Fails (dstRead sz o t) e u := by
  obtain ⟨w, hw, hwv⟩ := vis_operandAborted hv h
  exact Fails.vis (dstRead_aborted hw) hwv

theorem dstModifyRead_aborted_vis {sz : Size} {o : Operand} {s t u : State} {e : BusFault}
    (hv : t.visible = s.visible) (h : operandAborted .datip sz o s = some (e, u)) : Fails (dstModifyRead sz o t) e u := by
  obtain ⟨w, hw, hwv⟩ := vis_operandAborted hv h
  exact Fails.vis (dstModifyRead_aborted hw) hwv

/-- A single-operand instruction begins with the read of its destination. -/
theorem exec_test_eq {i : Instr} {sz : Size} {dst : Operand} (s : State) (h : shapeOf i = .test sz dst) :
    ∃ go, exec i s = finish ((dstRead sz dst s).andThen go) := by
  rcases exec_of_test s h with ⟨rfl, op, he⟩ | ⟨rfl, op, he⟩ <;> exact ⟨_, he⟩

theorem exec_modify_eq {i : Instr} {sz : Size} {dst : Operand} (s : State) (h : shapeOf i = .modify sz dst) :
    ∃ go, exec i s = finish ((dstModifyRead sz dst s).andThen go) := by
  rcases exec_of_modify s h with ⟨rfl, op, he⟩ | ⟨rfl, op, he⟩ | ⟨rfl, rfl⟩
  · exact ⟨_, he⟩
  · exact ⟨_, he⟩
  · exact ⟨_, rfl⟩

/-- A double-operand instruction begins with the read of its source, and goes on with that of its destination. -/
theorem exec_compare_eq {i : Instr} {sz : Size} {src dst : Operand} (s : State)
    (h : shapeOf i = .compare sz src dst) :
    ∃ go : Word → Word → State → Res Unit,
      exec i s = finish ((srcRead sz src s).andThen fun v t => (dstRead sz dst t).andThen (go v)) := by
  rcases exec_of_compare s h with ⟨rfl, op, he⟩ | ⟨rfl, op, he⟩ <;> exact ⟨fun v => _, he⟩

theorem exec_combine_eq {i : Instr} {sz : Size} {src dst : Operand} (s : State)
    (h : shapeOf i = .combine sz src dst) :
    ∃ go : Word → Dest → State → Res Unit,
      exec i s = finish ((srcRead sz src s).andThen fun v t => (dstModifyRead sz dst t).andThen (go v)) := by
  rcases exec_of_combine s h with ⟨rfl, op, he⟩ | ⟨rfl, op, he⟩ <;> exact ⟨fun v => _, he⟩

theorem exec_move_eq {i : Instr} {sz : Size} {src dst : Operand} (s : State) (h : shapeOf i = .move sz src dst) :
    ∃ go, exec i s = finish ((srcRead sz src s).andThen go) := by
  rcases exec_of_move h with ⟨rfl, rfl⟩ | ⟨rfl, rfl⟩ <;> exact ⟨_, rfl⟩

/-- MOV and MOVB reach their destination outside mode 0 with the codes set (R212, R213; entry 9). -/
theorem exec_move_writeOnly {i : Instr} {sz : Size} {src dst : Operand} {s : State} (hi : shapeOf i = .move sz src dst)
    (hs : operandReadable sz src s = true) (hm : dst.mode ≠ .register) :
    ∃ t, exec i s = finish (dstWriteOnly sz dst (operandValue sz src s) t) ∧ t.visible = (moved sz src s).visible := by
  obtain ⟨t, ht, hv, _⟩ := srcRead_ok hs
  rcases exec_of_move hi with ⟨rfl, rfl⟩ | ⟨rfl, rfl⟩
  · refine ⟨_, ?_, moved_word_of_srcRead hv⟩
    show execMov src dst s = _
    rw [execMov, ht, Res.andThen_ok]
  · refine ⟨_, ?_, moved_byte_of_srcRead hv⟩
    show execMovb src dst s = _
    rw [execMovb, ht, Res.andThen_ok, if_neg hm]

/-- Mode 0 makes no cycle that could fail. -/
theorem mode_ne_register_of_operandAborted {k : CycleKind} {sz : Size} {o : Operand} {s : State}
    {f : BusFault × State} (h : operandAborted k sz o s = some f) : o.mode ≠ .register := by
  intro hm
  have ha : addressAborted o s = none := by unfold addressAborted; rw [hm]
  have hp : operandPlace sz o s = .reg o.reg := by unfold operandPlace; rw [hm]
  unfold operandAborted at h
  rw [ha, hp] at h
  cases h

/-- Settles O16: each shape begins with the read that fails, of its source or, from a state that looks like the one
after its source, of its destination. -/
theorem abortedOperandTakesTheTrap : Obligations.AbortedOperandTakesTheTrap := by
  unfold Obligations.AbortedOperandTakesTheTrap
  refine ⟨fun i k sz dst s u e hi ha => ?single, fun i sz src dst s u e hi ha => ?source,
    fun i k sz src dst s u e hi hs ha => ?destination, fun i sz src dst s u e hi hs ha => ?move⟩
  case single =>
    rcases hi with ⟨hi, rfl⟩ | ⟨hi, rfl⟩
    · obtain ⟨go, he⟩ := exec_test_eq s hi
      exact (Fails.andThen (dstRead_aborted ha) go).traps he
    · obtain ⟨go, he⟩ := exec_modify_eq s hi
      exact (Fails.andThen (dstModifyRead_aborted ha) go).traps he
  case source =>
    have hsrc : Fails (srcRead sz src s) e u := srcRead_aborted ha
    rcases hi with hi | hi | hi
    · obtain ⟨go, he⟩ := exec_compare_eq s hi
      exact (hsrc.andThen _).traps he
    · obtain ⟨go, he⟩ := exec_combine_eq s hi
      exact (hsrc.andThen _).traps he
    · obtain ⟨go, he⟩ := exec_move_eq s hi
      exact (hsrc.andThen go).traps he
  case destination =>
    obtain ⟨t, ht, hv, _⟩ := srcRead_ok hs
    rcases hi with ⟨hi, rfl⟩ | ⟨hi, rfl⟩
    · obtain ⟨go, he⟩ := exec_compare_eq s hi
      rw [ht, Res.andThen_ok] at he
      exact ((dstRead_aborted_vis hv ha).andThen _).traps he
    · obtain ⟨go, he⟩ := exec_combine_eq s hi
      rw [ht, Res.andThen_ok] at he
      exact ((dstModifyRead_aborted_vis hv ha).andThen _).traps he
  case move =>
    obtain ⟨t, he, hv⟩ := exec_move_writeOnly hi hs (mode_ne_register_of_operandAborted ha)
    exact ((dstModifyRead_aborted_vis hv ha).andThen _).traps he

/-! ### A write-back that fails -/

section
variable {dst : Operand} {s : State} {a : Word}

/-- The write-back of a word fails after the destination's read: the state it is made in looks like `u`. -/
theorem dstWrite_word_fails_vis {t u : State} {v : Word} (hv : t.visible = u.visible)
    (hw : u.writeFails .word a = true) : Fails (dstWrite .word (.mem a) v t) .busError (u.withoutWord a v) :=
  ⟨_, dstWrite_word_fails ((vis_writeFails hv _ _).trans hw), vis_withoutWord hv a v⟩

theorem dstWrite_byte_fails_vis {t u : State} {v : Word} (hv : t.visible = u.visible)
    (hw : u.writeFails .byte a = true) :
    Fails (dstWrite .byte (.mem a) v t) .busError (u.withoutByte a (lowByte v)) := by
  obtain ⟨w, hwr, hwv⟩ := dstWrite_byte_fails (v := v) ((vis_writeFails hv _ _).trans hw)
  exact ⟨w, hwr, hwv.trans (vis_withoutByte hv a _)⟩

theorem operandStep_writeFails {k : CycleKind} {sz sz' : Size} (hw : s.writeFails sz' a = true) :
    (operandStep k sz dst s).writeFails sz' a = true :=
  (writeFails_congr (operandStep_cfg k sz dst s) sz' a).trans hw

/-- A modifying instruction on words whose write-back fails has set the codes of its result (R171, R314). -/
theorem modifyWord_fails (op : CC → Word → AluOut 16) (hr : operandReadable .word dst s = true)
    (ha : operandPlace .word dst s = .mem a) (hw : s.writeFails .word a = true) :
    let u := operandStep .datip .word dst s
    let o := op u.cc (operandValue .word dst s)
    Fails (modifyWord op dst s) .busError ((u.setCC o.cc).withoutWord a o.r) := by
  obtain ⟨t, ht, hv, _⟩ := dstModifyRead_ok hr
  dsimp only
  rw [modifyWord, ht, Res.andThen_ok, ha, vis_cc hv]
  exact dstWrite_word_fails_vis (vis_loadAlu hv _) (operandStep_writeFails hw)

/-- Likewise on bytes. -/
theorem modifyByte_fails (op : CC → Byte → AluOut 8) (hr : operandReadable .byte dst s = true)
    (ha : operandPlace .byte dst s = .mem a) (hw : s.writeFails .byte a = true) :
    let u := operandStep .datip .byte dst s
    let o := op u.cc (operandByte dst s)
    Fails (modifyByte op dst s) .busError ((u.setCC o.cc).withoutByte a o.r) := by
  obtain ⟨t, ht, hv, _⟩ := dstModifyRead_ok hr
  dsimp only
  rw [modifyByte, ht, Res.andThen_ok, ha, vis_cc hv]
  have hfail := dstWrite_byte_fails_vis (a := a)
    (v := zext (op (operandStep .datip .byte dst s).cc (operandByte dst s)).r)
    (vis_loadAlu hv (op (operandStep .datip .byte dst s).cc (operandByte dst s))) (operandStep_writeFails hw)
  rw [lowByte_zext] at hfail
  exact hfail

/-- SWAB's write-back fails as that of every modifying instruction on words does; R17 is not seen. -/
theorem execSwab_write_fails (hr : operandReadable .word dst s = true) (ha : operandPlace .word dst s = .mem a)
    (hw : s.writeFails .word a = true) :
    let u := operandStep .datip .word dst s
    let o := aluSwab u.cc (operandValue .word dst s)
    Traps (.swab dst) s .busError ((u.setCC o.cc).withoutWord a o.r) := by
  obtain ⟨t, ht, hv, _⟩ := dstModifyRead_ok hr
  dsimp only
  rw [← vis_cc hv]
  generalize ho : aluSwab t.cc (operandValue .word dst s) = o
  have hov : ((t.loadAlu o).setR17 o.r).visible = ((operandStep .datip .word dst s).setCC o.cc).visible :=
    vis_loadAlu hv o
  refine Fails.traps (dstWrite_word_fails_vis (v := o.r) hov (operandStep_writeFails hw)) ?_
  show execSwab dst s = _
  rw [execSwab, ht, Res.andThen_ok, ha, ho]

/-- The destination of a double-operand instruction on words: worked out, read and not written, after the source
(R152). -/
theorem combineWord_fails (op : CC → Word → Word → AluOut 16) {src : Operand}
    (hs : operandReadable .word src s = true) :
    let x := operandStep .dati .word src s
    operandReadable .word dst x = true → operandPlace .word dst x = .mem a → x.writeFails .word a = true →
    let u := operandStep .datip .word dst x
    let o := op u.cc (operandValue .word src s) (operandValue .word dst x)
    Fails (combineWord op src dst s) .busError ((u.setCC o.cc).withoutWord a o.r) := by
  intro x hr ha hw
  obtain ⟨t, ht, hv, _⟩ := srcRead_ok hs
  have hfail := modifyWord_fails (fun f d => op f (operandValue .word src s) d)
    ((vis_operandReadable hv .word dst).trans hr) ((vis_operandPlace hv .word dst).trans ha)
    ((vis_writeFails hv .word a).trans hw)
  have hstep := vis_operandStep hv .datip .word dst
  dsimp only at hfail ⊢
  rw [vis_cc hstep, vis_operandValue hv] at hfail
  rw [combineWord, ht, Res.andThen_ok]
  exact hfail.vis (vis_withoutWord (vis_setCC hstep _) a _)

/-- Likewise on bytes. -/
theorem combineByte_fails (op : CC → Byte → Byte → AluOut 8) {src : Operand}
    (hs : operandReadable .byte src s = true) :
    let x := operandStep .dati .byte src s
    operandReadable .byte dst x = true → operandPlace .byte dst x = .mem a → x.writeFails .byte a = true →
    let u := operandStep .datip .byte dst x
    let o := op u.cc (operandByte src s) (operandByte dst x)
    Fails (combineByte op src dst s) .busError ((u.setCC o.cc).withoutByte a o.r) := by
  intro x hr ha hw
  obtain ⟨t, ht, hv, _⟩ := srcRead_ok hs
  have hfail := modifyByte_fails (fun f d => op f (operandByte src s) d)
    ((vis_operandReadable hv .byte dst).trans hr) ((vis_operandPlace hv .byte dst).trans ha)
    ((vis_writeFails hv .byte a).trans hw)
  have hstep := vis_operandStep hv .datip .byte dst
  dsimp only at hfail ⊢
  rw [vis_cc hstep, vis_operandByte hv] at hfail
  rw [combineByte, ht, Res.andThen_ok]
  exact hfail.vis (vis_withoutByte (vis_setCC hstep _) a _)

/-- The destination of MOV and MOVB, read and not written; they have no codes to set any more (R150, D9). -/
theorem dstWriteOnly_word_fails {t : State} {v : Word} (hv : t.visible = s.visible)
    (hr : operandReadable .word dst s = true) (ha : operandPlace .word dst s = .mem a)
    (hw : s.writeFails .word a = true) :
    Fails (dstWriteOnly .word dst v t) .busError ((operandStep .datip .word dst s).withoutWord a v) := by
  obtain ⟨u, hu, huv, _⟩ := dstModifyRead_ok ((vis_operandReadable hv .word dst).trans hr)
  have hstep := huv.trans (vis_operandStep hv .datip .word dst)
  rw [dstWriteOnly, hu, Res.andThen_ok, vis_operandPlace hv, ha]
  exact dstWrite_word_fails_vis (t := u.setB v) hstep (operandStep_writeFails hw)

theorem dstWriteOnly_byte_fails {t : State} {v : Word} (hv : t.visible = s.visible)
    (hr : operandReadable .byte dst s = true) (ha : operandPlace .byte dst s = .mem a)
    (hw : s.writeFails .byte a = true) :
    Fails (dstWriteOnly .byte dst v t) .busError ((operandStep .datip .byte dst s).withoutByte a (lowByte v)) := by
  obtain ⟨u, hu, huv, _⟩ := dstModifyRead_ok ((vis_operandReadable hv .byte dst).trans hr)
  have hstep := huv.trans (vis_operandStep hv .datip .byte dst)
  rw [dstWriteOnly, hu, Res.andThen_ok, vis_operandPlace hv, ha]
  exact dstWrite_byte_fails_vis (t := u.setB v) hstep (operandStep_writeFails hw)

end

/-- An operand in memory is outside mode 0. -/
theorem mode_ne_register_of_place {sz : Size} {o : Operand} {s : State} {a : Word}
    (h : operandPlace sz o s = .mem a) : o.mode ≠ .register := by
  intro hm
  unfold operandPlace at h
  rw [hm] at h
  cases h

/-- Settles O18: every instruction of a list is its template on its own ALU step, but for SWAB, and the template's
write-back fails behind the codes. -/
theorem failedWriteKeepsNewCodes : Obligations.FailedWriteKeepsNewCodes := by
  unfold Obligations.FailedWriteKeepsNewCodes
  refine ⟨fun p hp dst s a hr ha hw => ?word, fun p hp dst s a hr ha hw => ?byte,
    fun p hp src dst s a hs hr ha hw => ?words, fun p hp src dst s a hs hr ha hw => ?bytes,
    fun src dst s a hs hr ha hw => ?mov, fun src dst s a hs hr ha hw => ?movb⟩
  case word =>
    simp only [List.mem_cons, List.not_mem_nil, or_false] at hp
    rcases hp with rfl | rfl | rfl | rfl | rfl | rfl | rfl | rfl | rfl | rfl | rfl | rfl
    on_goal 12 => exact execSwab_write_fails hr ha hw
    all_goals exact (modifyWord_fails _ hr ha hw).traps rfl
  case byte =>
    simp only [List.mem_cons, List.not_mem_nil, or_false] at hp
    rcases hp with rfl | rfl | rfl | rfl | rfl | rfl | rfl | rfl | rfl | rfl | rfl
    all_goals exact (modifyByte_fails _ hr ha hw).traps rfl
  case words =>
    simp only [List.mem_cons, List.not_mem_nil, or_false] at hp
    rcases hp with rfl | rfl | rfl | rfl
    all_goals exact (combineWord_fails _ hs hr ha hw).traps rfl
  case bytes =>
    simp only [List.mem_cons, List.not_mem_nil, or_false] at hp
    rcases hp with rfl | rfl
    all_goals exact (combineByte_fails _ hs hr ha hw).traps rfl
  case mov =>
    obtain ⟨t, he, hv⟩ := exec_move_writeOnly (i := .mov src dst) rfl hs (mode_ne_register_of_place ha)
    exact (dstWriteOnly_word_fails hv hr ha hw).traps he
  case movb =>
    obtain ⟨t, he, hv⟩ := exec_move_writeOnly (i := .movb src dst) rfl hs (mode_ne_register_of_place ha)
    exact (dstWriteOnly_byte_fails hv hr ha hw).traps he

end Sys2Proof.Machine

/-! SUPPORT and PROOFS of family 60_exceptions: the trap sequence, answered and abandoned at each of its cycles. -/

namespace Sys2Proof.Machine

/-! ### The completed entry -/

@[simp] theorem saved_sp (s : State) : (saved s).sp = s.sp - 4 := by
  rw [saved, pushed_sp, pushed_sp, sp_sub_four]

@[simp] theorem entered_sp (v : Word) (s : State) : (entered v s).sp = s.sp - 4 := by
  show (((saved s).after .dati .word v).setPc _ |>.after .dati .word (v + 2)).sp = _
  rw [State.after_sp, State.sp_setPc, State.after_sp, saved_sp]

/-- Settles O22: the sequence looks like the computed entry, whose two pushes are read back off the stack. -/
theorem trapSequenceEntry : Obligations.TrapSequenceEntry := by
  unfold Obligations.TrapSequenceEntry
  intro v s h
  obtain ⟨hv, hscratch⟩ := trapSequence_ok h
  refine ⟨hv, hscratch, (vis_sp hv).trans (entered_sp v s), fun hwf hn h2 h4 => ?stack⟩
  case stack =>
    obtain ⟨hpc, hpsw⟩ := entered_stack hn h2 h4 hwf h
    exact ⟨(vis_wordAt hv _).trans hpsw, (vis_wordAt hv _).trans hpc⟩

/-! ### The first push fails -/

/-- A word write at an odd address, or where nothing answers, stores nothing; at most it is on the bus (R65, R312). -/
theorem withoutWord_unanswered {s : State} {a : Word} (v : Word) (h : isOdd a = true ∨ s.targetOf a = .absent) :
    ∃ l, s.withoutWord a v = { s with bus := l } := by
  cases ho : isOdd a with
  | true => exact ⟨s.bus, withoutWord_odd s v ho⟩
  | false =>
    have ht : s.targetOf a = .absent := by rcases h with h | h <;> simp_all
    unfold State.withoutWord
    rw [ho, ht]
    exact ⟨_, rfl⟩

theorem writeFails_unanswered {s : State} {a : Word} (h : isOdd a = true ∨ s.targetOf a = .absent) :
    s.writeFails .word a = true := by
  rcases h with h | h
  · exact writeFails_odd s h
  · simp [State.writeFails, h]

@[simp] theorem lowered_mem (s : State) : (lowered s).mem = s.granted.mem :=
  (granted_congr (s := decremented .r6 2 s) (t := s) (by simp) (by simp) (by simp) (by simp) (by simp)).1

@[simp] theorem lowered_psw (s : State) : (lowered s).psw = s.granted.psw :=
  (granted_congr (s := decremented .r6 2 s) (t := s) (by simp) (by simp) (by simp) (by simp) (by simp)).2.1

/-- TRAP-1: the vector in B and in R13 (R340). -/
def vectorNoted (v : Word) (s : State) : State := (s.setB v).setR13 v

theorem vectorNoted_visible (v : Word) (s : State) : (vectorNoted v s).visible = s.visible := rfl

/-- The double bus error, where nothing was stored: R6 is lowered, the IR cleared and the processor halted (R315). -/
theorem trapSequence_halts {v : Word} {s : State} (h : isOdd (s.sp - 2) = true ∨ s.targetOf (s.sp - 2) = .absent) :
    ∃ l, trapSequence v s = { lowered (vectorNoted v s) with bus := l, ir := 0, run := .halted } := by
  have hl : isOdd (s.sp - 2) = true ∨ (lowered (vectorNoted v s)).targetOf (s.sp - 2) = .absent :=
    h.imp_right (targetOf_congr (lowered_cfg (vectorNoted v s)) _).trans
  obtain ⟨l, hl⟩ := withoutWord_unanswered (zext (lowered s).psw) hl
  refine ⟨l, (trapSequence_double (writeFails_unanswered h)).trans ?_⟩
  show ((lowered (vectorNoted v s)).withoutWord (s.sp - 2) (zext (lowered s).psw)).doubleBusError = _
  rw [hl]
  rfl

/-! ### A later cycle fails -/

/-- The push of PC fails: the PSW is on the stack and R6 is lowered twice (R345, D17). -/
theorem trapSequence_pc_fails {v : Word} {s : State} (h1 : s.writable .word (s.sp - 2) = true)
    (h2 : s.writeFails .word (s.sp - 4) = true) :
    (trapSequence v s).visible =
      ((unpushed s.pc (pushed (zext (lowered s).psw) s)).pendBusError .busError).visible := by
  have hs : ((s.setB v).setR13 v).visible = s.visible := rfl
  unfold trapSequence
  generalize (s.setB v).setR13 v = p at hs ⊢
  have hpush := push_writable (zext (lowered s).psw) (s := p) (by rw [vis_sp hs, vis_writable hs]; exact h1)
  have hpushed := vis_pushed hs (zext (lowered s).psw)
  rw [pushPsw_eq, vis_psw (vis_lowered hs), hpush]
  dsimp only
  rw [pushed_pc, vis_pc hs]
  generalize pushed (zext (lowered s).psw) p = q at hpushed ⊢
  have hcfg : (q.setB s.pc).cfg = s.cfg := (vis_cfg hpushed).trans (pushed_cfg _ s)
  have hfail : (q.setB s.pc).writeFails .word ((q.setB s.pc).sp - 2) = true := by
    rw [State.setB_sp, vis_sp hpushed, pushed_sp, sp_sub_four, writeFails_congr hcfg]
    exact h2
  rw [push_fails (s := q.setB s.pc) s.pc hfail]
  exact vis_pendBusError (vis_unpushed (s := q.setB s.pc) hpushed s.pc) .busError

/-- The vector's first word fails: PC is kept (R345, D17). -/
theorem loadVector_pc_fails {v : Word} {s : State} {e : BusFault} (h : s.readFails .word v = some e) :
    (loadVector v s).visible = ((s.after .dati .word v).pendBusError e).visible := by
  obtain ⟨t, ht, hv⟩ := readAs_fails (k := .dati) h
  unfold loadVector memRead
  rw [ht]
  exact vis_pendBusError hv e

/-- The vector's second word fails: PC is the new one and the PSW the old one (R345, D17). -/
theorem loadVector_psw_fails {v : Word} {s : State} {e : BusFault} (h1 : s.readable .word v = true)
    (h2 : s.readFails .word (v + 2) = some e) :
    (loadVector v s).visible = ((((s.after .dati .word v).setPc (s.gets .word v)).after .dati .word
      (v + 2)).pendBusError e).visible := by
  have hv : ((((s.after .dati .word v).setB (s.gets .word v)).setR13 (v + 2)).setPc (s.gets .word v)).visible =
      ((s.after .dati .word v).setPc (s.gets .word v)).visible := rfl
  have hf : ((s.after .dati .word v).setPc (s.gets .word v)).readFails .word (v + 2) = some e :=
    (readFails_congr (by simp) (by simp) _ _).trans h2
  obtain ⟨t, ht, htv⟩ := readAs_vis_fails (k := .dati) hv hf
  unfold loadVector
  rw [memRead_word h1]
  dsimp only
  rw [memRead, ht]
  exact vis_pendBusError htv e

theorem saved_readFails (s : State) (sz : Size) (a : Word) : (saved s).readFails sz a = s.readFails sz a :=
  readFails_congr (saved_cfg s) (saved_parityBad s) sz a

theorem saved_readable (s : State) (sz : Size) (a : Word) : (saved s).readable sz a = s.readable sz a :=
  readable_congr (saved_cfg s) (saved_parityBad s) sz a

/-- With both pushes done, what is left of the sequence is the load of the vector. -/
theorem trapSequence_loads {v : Word} {s : State} (h1 : s.writable .word (s.sp - 2) = true)
    (h2 : s.writable .word (s.sp - 4) = true) :
    (trapSequence v s).visible = (loadVector v (saved s)).visible := by
  obtain ⟨t, ht, hv, _⟩ := trapSequence_saves (v := v) h1 h2
  rw [ht]
  exact vis_loadVector hv v

/-! ### The run state -/

theorem readable_of_not_fails {s : State} {sz : Size} {a : Word} (h : s.readFails sz a = none) :
    s.readable sz a = true := Option.isNone_iff_eq_none.mpr h

theorem writable_of_not_fails {s : State} {sz : Size} {a : Word} (h : s.writeFails sz a = false) :
    s.writable sz a = true := by
  rw [State.writable, h]
  rfl

/-- The load of the vector, whatever its two reads bring, leaves the run state. -/
theorem loadVector_run (v : Word) (s : State) : (loadVector v s).run = s.run := by
  cases h1 : s.readFails .word v with
  | some e => exact (vis_run (loadVector_pc_fails h1)).trans (s.after_run _ _ _)
  | none =>
    have hr1 := readable_of_not_fails h1
    have hrun : ((s.after .dati .word v).setPc (s.gets .word v)).run = s.run := s.after_run _ _ _
    cases h2 : s.readFails .word (v + 2) with
    | some e => exact (vis_run (loadVector_psw_fails hr1 h2)).trans ((State.after_run _ _ _ _).trans hrun)
    | none =>
      have hr2 := readable_of_not_fails h2
      exact (vis_run (loadVector_ok hr1 hr2).1).trans ((State.after_run _ _ _ _).trans hrun)

/-- Only a failed first push halts (R315, D17). -/
theorem trapSequence_run {v : Word} {s : State} (h : s.writeFails .word (s.sp - 2) = false) :
    (trapSequence v s).run = s.run := by
  have h1 := writable_of_not_fails h
  have hpushed := (keeps_pushed (zext (lowered s).psw) s h1).run
  cases h2 : s.writeFails .word (s.sp - 4) with
  | true =>
    obtain ⟨m, n, l, he⟩ := withoutWord_eq (lowered (pushed (zext (lowered s).psw) s))
      ((pushed (zext (lowered s).psw) s).sp - 2) s.pc
    have hfail := vis_run (trapSequence_pc_fails (v := v) h1 h2)
    rw [unpushed, he] at hfail
    exact hfail.trans ((keeps_lowered _).run.trans hpushed)
  | false =>
    have h4 := writable_of_not_fails h2
    exact (vis_run (trapSequence_loads h1 h4)).trans ((loadVector_run v _).trans (touches_saved h1 h4).keeps.run)

/-- Settles O23: the halted state is spelled out from the failed first push, and no later cycle touches the run
state. -/
theorem doubleBusErrorHalts : Obligations.DoubleBusErrorHalts := by
  unfold Obligations.DoubleBusErrorHalts
  refine ⟨fun v s h => ?halts, fun v s h => trapSequence_run h⟩
  case halts =>
    obtain ⟨l, hl⟩ := trapSequence_halts (v := v) h
    have hreg : ∀ r, (lowered (vectorNoted v s)).reg r = if .r6 = r then s.sp - 2 else s.reg r :=
      lowered_reg (vectorNoted v s)
    have hvis := vis_lowered (vectorNoted_visible v s)
    have hmem := (vis_mem hvis).trans (lowered_mem s)
    have hpsw := (vis_psw hvis).trans (lowered_psw s)
    rw [hl]
    refine ⟨rfl, rfl, hreg .r6, hreg .r7, fun r hr => (hreg r).trans (if_neg hr.symm), hmem, hpsw,
      fun hn => ⟨?_, ?_, ?_⟩⟩
    · exact hmem.trans (by rw [State.granted_nil hn])
    · exact hpsw.trans (by rw [State.granted_nil hn])
    · have hlow : lowered s = decremented .r6 2 s := State.granted_nil (by rw [decremented_npr, hn])
      rw [hlow] at hvis
      exact congrArg (fun u : State => { u with run := .halted, bus := l }) hvis

/-! ### A pending bus error -/

/-- SERVICE takes a pending bus or parity error before anything else, through its own vector (R325 order 2, R345). -/
theorem step_busError {s : State} (hbe : s.be = true) (hin : s.inputs = []) (hr : s.run = .run) :
    step s = .next (trapSequence (if s.pe then 0o114 else 0o4) { s with be := false, pe := false }) := by
  have hp : pendingService s = some .busError := by rw [pendingService, if_pos hbe]
  rw [step_serves hin (.inl hr) hp, serve_busError, ← hr]

theorem BusFault.vector_eq (e : BusFault) : e.vector = if (e == .parityError) = true then 0o114 else 0o4 := by
  cases e <;> rfl

/-- Settles O24: the sequence is abandoned at the push of PC or at either word of the vector, and SERVICE takes the
pending error of any state. -/
theorem laterTrapErrorIsServedNext : Obligations.LaterTrapErrorIsServedNext := by
  unfold Obligations.LaterTrapErrorIsServedNext
  refine ⟨fun v s h1 => ⟨trapSequence_pc_fails h1, fun h2 => ⟨fun e hf => ?vector, fun e hr hf => ?second⟩⟩,
    fun s e hin hr => ?next, fun v s h => ?first⟩
  case vector =>
    rw [trapSequence_loads h1 h2]
    exact loadVector_pc_fails ((saved_readFails s _ _).trans hf)
  case second =>
    rw [trapSequence_loads h1 h2]
    exact loadVector_psw_fails ((saved_readable s _ _).trans hr) ((saved_readFails s _ _).trans hf)
  case next =>
    rw [step_busError (s := s.pendBusError e) rfl hin hr, BusFault.vector_eq]
    rfl
  case first =>
    have hv := vis_unpushed (vectorNoted_visible v s) (zext (lowered s).psw)
    rw [trapSequence_double h]
    exact congrArg (fun u : State => { u with run := .halted }) hv

end Sys2Proof.Machine

/-! SUPPORT and PROOFS of family 60_exceptions: the order of SERVICE, interrupts, power fail and the halt request. -/

namespace Sys2Proof.Machine

/-! ### The order of SERVICE above the bus requests -/

section
variable {s : State} (hbe : s.be = false)
include hbe

theorem pendingService_untraced (ht : s.tbitFlag = false) : pendingService s =
    if s.stov then some .stackOverflow else if s.pfail then some .powerFail
    else if s.haltRequest then some .haltSwitch else arbitrate s := by
  rw [pendingService, hbe, ht]
  rfl

variable (ht : s.tbitFlag = false)
include ht

theorem pendingService_stackOverflow (hs : s.stov = true) : pendingService s = some .stackOverflow := by
  rw [pendingService_untraced hbe ht, if_pos hs]

variable (hs : s.stov = false)
include hs

theorem pendingService_powerFail (hp : s.pfail = true) : pendingService s = some .powerFail := by
  rw [pendingService_untraced hbe ht, hs, hp]
  rfl

variable (hp : s.pfail = false)
include hp

theorem pendingService_haltSwitch (hh : s.haltRequest = true) : pendingService s = some .haltSwitch := by
  rw [pendingService_untraced hbe ht, hs, hp, hh]
  rfl

theorem pendingService_arbitrate (hh : s.haltRequest = false) : pendingService s = arbitrate s := by
  rw [pendingService_untraced hbe ht, hs, hp, hh]
  rfl

end

/-! ### The bus-request lines -/

theorem grant_some_iff {s : State} {l : BrLevel} {c : Service} :
    grant l s = some c ↔ ∃ r rest, s.requests l = r :: rest ∧ s.priority < l.number ∧ c = .interrupt l r rest := by
  unfold grant
  cases s.requests l with
  | nil => simp
  | cons r rest => simp [eq_comm]

theorem grant_none_iff {s : State} {l : BrLevel} :
    grant l s = none ↔ s.requests l = [] ∨ l.number ≤ s.priority := by
  unfold grant
  cases s.requests l with
  | nil => simp
  | cons r rest => simp

theorem BrLevel.forall_iff {p : BrLevel → Prop} : (∀ l, p l) ↔ p .br7 ∧ p .br6 ∧ p .br5 ∧ p .br4 :=
  ⟨fun h => ⟨h _, h _, h _, h _⟩, fun ⟨h7, h6, h5, h4⟩ l => by cases l <;> assumption⟩

theorem BrLevel.exists_iff {p : BrLevel → Prop} : (∃ l, p l) ↔ p .br7 ∨ p .br6 ∨ p .br5 ∨ p .br4 := by
  have h := not_congr (BrLevel.forall_iff (p := fun l => ¬ p l))
  rw [not_forall_not, not_and_or, not_and_or, not_and_or] at h
  simpa only [not_not] using h

/-- The lines are asked from the highest down (R325 orders 8 to 11). -/
theorem arbitrate_eq (s : State) :
    arbitrate s = (grant .br7 s).or ((grant .br6 s).or ((grant .br5 s).or (grant .br4 s))) := by
  unfold arbitrate
  cases grant .br7 s with
  | some c => rfl
  | none =>
    cases grant .br6 s with
    | some c => rfl
    | none => cases grant .br5 s <;> rfl

/-- What the arbitration grants is the grant of one line, with no grant on any line above it (R326). -/
theorem arbitrate_some_iff {s : State} {c : Service} : arbitrate s = some c ↔
    ∃ l : BrLevel, grant l s = some c ∧ ∀ m : BrLevel, l.number < m.number → grant m s = none := by
  rw [arbitrate_eq, BrLevel.exists_iff]
  simp only [Option.or_eq_some_iff, BrLevel.forall_iff, BrLevel.number]
  grind

theorem arbitrate_none_iff {s : State} : arbitrate s = none ↔ ∀ l, grant l s = none := by
  rw [arbitrate_eq, BrLevel.forall_iff]
  simp only [Option.or_eq_none_iff]

/-- The grant by the requests on the lines and the priority (R326). -/
theorem arbitrate_interrupt_iff {s : State} {l : BrLevel} {r : BusRequest} {rest : List BusRequest} :
    arbitrate s = some (.interrupt l r rest) ↔ s.requests l = r :: rest ∧ s.priority < l.number ∧
      ∀ m : BrLevel, l.number < m.number → s.requests m = [] := by
  rw [arbitrate_some_iff]
  constructor
  case mp =>
    rintro ⟨l', hl, habove⟩
    obtain ⟨r', rest', hq, hprio, he⟩ := grant_some_iff.mp hl
    obtain ⟨rfl, rfl, rfl⟩ := Service.interrupt.inj he
    exact ⟨hq, hprio, fun m hm => (grant_none_iff.mp (habove m hm)).resolve_right (by omega)⟩
  case mpr =>
    rintro ⟨hq, hprio, habove⟩
    exact ⟨l, grant_some_iff.mpr ⟨r, rest, hq, hprio, rfl⟩, fun m hm => grant_none_iff.mpr (.inl (habove m hm))⟩

theorem BrLevel.number_bounds (l : BrLevel) : 4 ≤ l.number ∧ l.number ≤ 7 := by
  cases l <;> decide

/-- Settles O26: the grants are those of the lines, and a priority is compared with the numbers 4 to 7. -/
theorem busRequestPriority : Obligations.BusRequestPriority := by
  unfold Obligations.BusRequestPriority
  refine ⟨fun s l r rest => arbitrate_interrupt_iff, fun s hprio => ?masked, fun s l hprio hq => ?granted,
    fun s hr hin hbe ht hs hp hh hq => ?waits⟩
  case masked =>
    exact arbitrate_none_iff.mpr fun l => grant_none_iff.mpr (.inr (by rw [hprio]; exact l.number_bounds.2))
  case granted =>
    have hlow : s.priority < l.number := by have := l.number_bounds.1; omega
    refine Option.ne_none_iff_exists'.mp fun hnone => ?_
    exact (grant_none_iff.mp (arbitrate_none_iff.mp hnone l)).elim hq (Nat.not_le.mpr hlow)
  case waits =>
    have hnone : arbitrate s = none := arbitrate_none_iff.mpr fun l =>
      grant_none_iff.mpr (Classical.or_iff_not_imp_left.mpr (hq l))
    exact ⟨s.b, step_waits hin hr ((pendingService_arbitrate hbe ht hs hp hh).trans hnone)⟩

/-! ### One step of SERVICE -/

section
variable {s : State} (hin : s.inputs = []) (hr : s.run = .run ∨ s.run = .wait) (hbe : s.be = false)
include hin hr hbe

theorem step_trace (ht : s.tbitFlag = true) :
    step s = .next (trapSequence 0o14 { s with tbitFlag := false, run := .run }) :=
  step_serves hin hr (pendingService_trace hbe ht)

variable (ht : s.tbitFlag = false)
include ht

theorem step_stackOverflow (hs : s.stov = true) :
    step s = .next (trapSequence 0o4 { s with stov := false, run := .run }) :=
  step_serves hin hr (pendingService_stackOverflow hbe ht hs)

variable (hs : s.stov = false)
include hs

theorem step_powerFail (hp : s.pfail = true) :
    step s = .next (trapSequence 0o24 { s with pfail := false, run := .run }) :=
  step_serves hin hr (pendingService_powerFail hbe ht hs hp)

variable (hp : s.pfail = false)
include hp

theorem step_haltSwitch (hh : s.haltRequest = true) :
    step s = .next { s with haltRequest := false, waitHeld := s.run == .wait, run := .halted } :=
  step_serves hin hr (pendingService_haltSwitch hbe ht hs hp hh)

variable (hh : s.haltRequest = false)
include hh

theorem step_interrupt {l : BrLevel} {v : Word} {rest : List BusRequest}
    (ha : arbitrate s = some (.interrupt l (.vector v) rest)) :
    step s = .next (trapSequence v ({ s with run := .run }.setRequests l rest)) :=
  step_serves hin hr ((pendingService_arbitrate hbe ht hs hp hh).trans ha)

/-- The head request of one line, where no higher line is asserted, interrupts through its own vector (R327). -/
theorem step_requests {l : BrLevel} {v : Word} {rest : List BusRequest} (hq : s.requests l = .vector v :: rest)
    (hprio : s.priority < l.number) (habove : ∀ m : BrLevel, l.number < m.number → s.requests m = []) :
    step s = .next (trapSequence v ({ s with run := .run }.setRequests l rest)) :=
  step_interrupt hin hr hbe ht hs hp hh (arbitrate_interrupt_iff.mpr ⟨hq, hprio, habove⟩)

end

/-- Settles O25: each condition by its place in the order, and each line by what is asserted above it. -/
theorem serviceOrder : Obligations.ServiceOrder := by
  unfold Obligations.ServiceOrder
  intro s hin hr
  have hrun : ({ s with run := .run } : State) = s := by rw [← hr]
  refine ⟨fun hbe => step_busError hbe hin hr, fun hbe ht => step_traces hbe ht hin hr, fun hbe ht hs => ?overflow,
    fun hbe ht hs hp => ?power, fun hbe ht hs hp hh => ⟨_, step_haltSwitch hin (.inl hr) hbe ht hs hp hh, rfl⟩,
    fun hbe ht hs hp hh => ?lines⟩
  case overflow => rw [step_stackOverflow hin (.inl hr) hbe ht hs, ← hr]
  case power => rw [step_powerFail hin (.inl hr) hbe ht hs hp, ← hr]
  case lines =>
    have line := @step_requests s hin (.inl hr) hbe ht hs hp hh
    rw [hrun] at line
    refine ⟨fun v rest hq hprio => line (l := .br7) hq hprio ?_, fun h7 v rest hq hprio => line (l := .br6) hq hprio ?_,
      fun h7 h6 v rest hq hprio => line (l := .br5) hq hprio ?_,
      fun h7 h6 h5 v rest hq hprio => line (l := .br4) hq hprio ?_, fun h7 h6 h5 h4 => ?fetch⟩
    case fetch =>
      have hnone : arbitrate s = none := arbitrate_none_iff.mpr (BrLevel.forall_iff.mpr
        ⟨grant_none_iff.mpr (.inl h7), grant_none_iff.mpr (.inl h6), grant_none_iff.mpr (.inl h5),
          grant_none_iff.mpr (.inl h4)⟩)
      exact step_runs hin hr ((pendingService_arbitrate hbe ht hs hp hh).trans hnone)
    all_goals simp_all [BrLevel.forall_iff, BrLevel.number, State.requests]

/-! ### Power fail and the halt request -/

/-- Settles O31: the edge of AC LO is seen outside INIT and OFF, and SERVICE takes the flag in its place. -/
theorem powerFailTrap : Obligations.PowerFailTrap := by
  unfold Obligations.PowerFailTrap
  refine ⟨fun s hr hac hpup => ?edge, fun s h => ?ignored, fun s hp hin hbe ht hs hr =>
    ⟨step_powerFail hin hr hbe ht hs hp, fun hans => ?entered⟩⟩
  case edge =>
    refine if_pos ?_
    rcases hr with h | h | h <;> rw [hac, hpup, h] <;> rfl
  case ignored =>
    refine if_neg ?_
    rcases h with h | h <;> simp [h]
  case entered =>
    have hans' : entryAnswers 0o24 ({ s with pfail := false, run := .run } : State) = true := hans
    exact (trapSequence_ok hans').1

/-- Settles O35: the grant of the halt changes the run state and takes the request back, and power fail goes first. -/
theorem haltRequestGranted : Obligations.HaltRequestGranted := by
  unfold Obligations.HaltRequestGranted
  intro s hh hin hr hbe ht hs
  exact ⟨fun hp => ⟨_, step_haltSwitch hin hr hbe ht hs hp hh, rfl, rfl, rfl, rfl, rfl, rfl, rfl, rfl, rfl⟩,
    step_powerFail hin hr hbe ht hs⟩

/-! ### An interrupt -/

section
variable (s : State) (l : BrLevel) (q : List BusRequest)

@[simp] theorem setRequests_cfg : (s.setRequests l q).cfg = s.cfg := by cases l <;> rfl
@[simp] theorem setRequests_mem : (s.setRequests l q).mem = s.mem := by cases l <;> rfl
@[simp] theorem setRequests_psw : (s.setRequests l q).psw = s.psw := by cases l <;> rfl
@[simp] theorem setRequests_draws : (s.setRequests l q).draws = s.draws := by cases l <;> rfl
@[simp] theorem setRequests_npr : (s.setRequests l q).npr = s.npr := by cases l <;> rfl
@[simp] theorem setRequests_bus : (s.setRequests l q).bus = s.bus := by cases l <;> rfl
@[simp] theorem setRequests_regs : (s.setRequests l q).regs = s.regs := by cases l <;> rfl
@[simp] theorem setRequests_parityBad : (s.setRequests l q).parityBad = s.parityBad := by cases l <;> rfl
@[simp] theorem setRequests_reg (r : Reg) : (s.setRequests l q).reg r = s.reg r := by cases l <;> rfl
@[simp] theorem setRequests_pc : (s.setRequests l q).pc = s.pc := setRequests_reg s l q .r7
@[simp] theorem setRequests_sp : (s.setRequests l q).sp = s.sp := setRequests_reg s l q .r6

/-- No cycle and no register update looks at the lines, so that they may be changed before it or after it. -/
theorem setRequests_setReg (r : Reg) (v : Word) :
    (s.setRequests l q).setReg r v = (s.setReg r v).setRequests l q := by cases l <;> rfl

theorem setRequests_granted : (s.setRequests l q).granted = s.granted.setRequests l q := by
  rw [granted_like (s := s) (t := s.setRequests l q) (by simp) (by simp) (by simp) (by simp) (by simp)]
  obtain ⟨m, p, n, h⟩ := s.granted_eq
  rw [h]
  cases l <;> rfl

theorem setRequests_after (k : CycleKind) (sz : Size) (a : Word) :
    (s.setRequests l q).after k sz a = (s.after k sz a).setRequests l q := by
  rw [after_like (s := s) (t := s.setRequests l q) (by simp) (by simp) (by simp) (by simp) (by simp) (by simp)]
  obtain ⟨c, n, h⟩ := s.after_eq k sz a
  obtain ⟨m, p, n', h'⟩ := s.granted_eq
  rw [h, h']
  cases l <;> rfl

theorem setRequests_gets (sz : Size) (a : Word) : (s.setRequests l q).gets sz a = s.gets sz a :=
  gets_congr (by simp) (by simp) (by simp) (by simp) (by simp) sz a

theorem setRequests_decremented (r : Reg) (n : Word) :
    decremented r n (s.setRequests l q) = (decremented r n s).setRequests l q := by
  unfold decremented
  rw [setRequests_reg, setRequests_setReg]
  split
  · cases l <;> rfl
  · rfl

theorem setRequests_withWord (a v : Word) :
    (s.setRequests l q).withWord a v = (s.withWord a v).setRequests l q := by
  unfold State.withWord
  rw [targetOf_congr (setRequests_cfg s l q)]
  dsimp only
  split <;> cases l <;> rfl

theorem setRequests_lowered : lowered (s.setRequests l q) = (lowered s).setRequests l q := by
  rw [lowered, setRequests_decremented, setRequests_granted, lowered]

theorem setRequests_pushed (v : Word) : pushed v (s.setRequests l q) = (pushed v s).setRequests l q := by
  rw [pushed, setRequests_lowered, setRequests_sp, setRequests_withWord, pushed]

theorem setRequests_saved : saved (s.setRequests l q) = (saved s).setRequests l q := by
  rw [saved, setRequests_lowered, setRequests_psw, setRequests_pc, setRequests_pushed, setRequests_pushed, saved]

/-- A trap entry does not look at the bus-request lines (R340). -/
theorem setRequests_entered (v : Word) : entered v (s.setRequests l q) = (entered v s).setRequests l q := by
  unfold entered
  dsimp only
  rw [setRequests_saved, setRequests_after, setRequests_gets, ← State.setReg_r7, setRequests_setReg,
    setRequests_after, setRequests_gets]
  cases l <;> rfl

theorem setRequests_entryAnswers (v : Word) : entryAnswers v (s.setRequests l q) = entryAnswers v s := by
  unfold entryAnswers
  rw [setRequests_sp, writable_congr (setRequests_cfg s l q), writable_congr (setRequests_cfg s l q),
    readable_congr (setRequests_cfg s l q) (setRequests_parityBad s l q),
    readable_congr (setRequests_cfg s l q) (setRequests_parityBad s l q)]

end

/-- Settles O27: the granted request's vector is entered, and the entry does not look at the lines. -/
theorem interruptEntry : Obligations.InterruptEntry := by
  unfold Obligations.InterruptEntry
  intro s l v rest hr hin hbe ht hs hp hh ha hans
  refine ⟨_, step_interrupt hin hr hbe ht hs hp hh ha, ?_⟩
  have hans' : entryAnswers v (({ s with run := .run } : State).setRequests l rest) = true :=
    (setRequests_entryAnswers _ l rest v).trans hans
  rw [(trapSequence_ok hans').1, setRequests_entered]

end Sys2Proof.Machine

/-! SUPPORT and PROOFS of family 60_exceptions: the trace flag at the completion of an instruction. -/

namespace Sys2Proof.Machine

/-! ### What does not look at the trace flag -/

section
variable (s : State)

@[simp] theorem decremented_tbitFlag (r : Reg) (n : Word) : (decremented r n s).tbitFlag = s.tbitFlag := by
  obtain ⟨f, h⟩ := decremented_eq r n s; rw [h]; rfl

@[simp] theorem indexStep_tbitFlag : (indexStep s).tbitFlag = s.tbitFlag := by simp [indexStep]

@[simp] theorem stepped_tbitFlag (sz : Size) (o : Operand) : (stepped sz o s).tbitFlag = s.tbitFlag := by
  unfold stepped; split <;> rfl

@[simp] theorem operandReach_tbitFlag (sz : Size) (o : Operand) : (operandReach sz o s).tbitFlag = s.tbitFlag := by
  unfold operandReach; split <;> simp

@[simp] theorem operandStep_tbitFlag (k : CycleKind) (sz : Size) (o : Operand) :
    (operandStep k sz o s).tbitFlag = s.tbitFlag := by
  unfold operandStep; split <;> simp

@[simp] theorem addressStep_tbitFlag (o : Operand) : (addressStep o s).tbitFlag = s.tbitFlag := by simp [addressStep]

@[simp] theorem moved_tbitFlag (sz : Size) (o : Operand) : (moved sz o s).tbitFlag = s.tbitFlag := by
  cases sz <;> simp [moved]

@[simp] theorem withWord_tbitFlag (a v : Word) : (s.withWord a v).tbitFlag = s.tbitFlag := by
  obtain ⟨m, p, n, l, h⟩ := withWord_eq s a v; rw [h]

@[simp] theorem withByte_tbitFlag (a : Word) (v : Byte) : (s.withByte a v).tbitFlag = s.tbitFlag := by
  obtain ⟨m, p, n, l, h⟩ := withByte_eq s a v; rw [h]

@[simp] theorem storeWord_tbitFlag (l : Loc) (v : Word) : (storeWord l v s).tbitFlag = s.tbitFlag := by
  cases l <;> simp [storeWord]

@[simp] theorem storeByte_tbitFlag (l : Loc) (v : Byte) : (storeByte l v s).tbitFlag = s.tbitFlag := by
  cases l <;> simp [storeByte]

@[simp] theorem pushed_tbitFlag (v : Word) : (pushed v s).tbitFlag = s.tbitFlag := by simp [pushed, lowered]

@[simp] theorem popped_tbitFlag : (popped s).tbitFlag = s.tbitFlag := by simp [popped]

@[simp] theorem entered_tbitFlag (v : Word) : (entered v s).tbitFlag = s.tbitFlag := by simp [entered, saved]

end

/-! ### Every answered instruction completes with the trace flag it found -/

/-- The instruction ends in a completion of a state whose trace flag is that of `s` (R310, R322). -/
def TraceKept (i : Instr) (s : State) : Prop := ∃ u : State, Completes i s u.complete ∧ u.tbitFlag = s.tbitFlag

/-- The completion then decides the trace flag by the T bit after the instruction (D10). -/
theorem TraceKept.next {i : Instr} {s : State} (h : TraceKept i s) :
    ∃ t, exec i s = .next t ∧ t.tbitFlag = (t.flagT || s.tbitFlag) := by
  obtain ⟨u, ⟨t, ht, hv⟩, hu⟩ := h
  refine ⟨t, ht, ?_⟩
  rw [vis_tbitFlag hv, vis_flagT hv, State.complete_tbitFlag, State.complete_flagT, hu]

theorem traceKept_plain {i : Instr} (s : State) (hi : shapeOf i = .plain) : TraceKept i s := by
  cases i with
  | halt | wait | reset | ccop => exact ⟨_, ⟨_, rfl, rfl⟩, rfl⟩
  | br | bne | beq | bge | blt | bgt | ble | bpl | bmi | bhi | blos | bvc | bvs | bcc | bhis | bcs | blo =>
    exact ⟨_, ⟨_, rfl, rfl⟩, by split <;> rfl⟩
  | _ => cases hi

theorem traceKept_test {i : Instr} {sz : Size} {dst : Operand} {s : State} (hi : shapeOf i = .test sz dst)
    (h : operandReadable sz dst s = true) : TraceKept i s := by
  obtain ⟨t, f, ht, hv⟩ := exec_test_completes hi h
  exact ⟨(operandStep .dati sz dst s).setCC f, ⟨t, ht, hv⟩, by simp⟩

theorem traceKept_compare {i : Instr} {sz : Size} {src dst : Operand} {s : State} (hi : shapeOf i = .compare sz src dst)
    (hs : operandReadable sz src s = true) (hd : operandReadable sz dst (operandStep .dati sz src s) = true) :
    TraceKept i s := by
  obtain ⟨t, f, ht, hv⟩ := exec_compare_completes hi hs hd
  exact ⟨(operandStep .dati sz dst (operandStep .dati sz src s)).setCC f, ⟨t, ht, hv⟩, by simp⟩

theorem traceKept_modify {i : Instr} {sz : Size} {dst : Operand} {s : State} (hi : shapeOf i = .modify sz dst)
    (h : operandWritable sz dst s = true) : TraceKept i s := by
  rcases exec_of_modify s hi with ⟨rfl, op, he⟩ | ⟨rfl, op, he⟩ | ⟨rfl, rfl⟩
  · exact ⟨_, completes_of_modifyWord he h rfl, by simp⟩
  · exact ⟨_, completes_of_modifyByte he h rfl, by simp⟩
  · obtain ⟨t, r, f, ht, hv⟩ := execSwab_completes h
    exact ⟨storeWord (operandPlace .word dst s) r ((operandStep .datip .word dst s).setCC f), ⟨t, ht, hv⟩, by simp⟩

theorem traceKept_combine {i : Instr} {sz : Size} {src dst : Operand} {s : State} (hi : shapeOf i = .combine sz src dst)
    (hs : operandReadable sz src s = true) (hd : operandWritable sz dst (operandStep .dati sz src s) = true) :
    TraceKept i s := by
  rcases exec_of_combine s hi with ⟨rfl, op, he⟩ | ⟨rfl, op, he⟩
  · exact ⟨_, completes_of_combineWord he hs hd rfl, by simp⟩
  · exact ⟨_, completes_of_combineByte he hs hd rfl, by simp⟩

theorem traceKept_move {i : Instr} {sz : Size} {src dst : Operand} {s : State} (hi : shapeOf i = .move sz src dst)
    (hs : operandReadable sz src s = true) (hd : operandWritable sz dst (moved sz src s) = true) : TraceKept i s := by
  rcases exec_of_move hi with ⟨rfl, rfl⟩ | ⟨rfl, rfl⟩
  · exact ⟨_, execMov_completes hs hd, by simp⟩
  · by_cases hm : dst.mode = .register
    · exact ⟨_, execMovb_register_completes hs hm, by simp⟩
    · exact ⟨_, execMovb_memory_completes hs hm hd, by simp⟩

theorem traceKept_jump {dst : Operand} {s : State} (h : Shape.answered s (.jump dst) = true) :
    TraceKept (.jmp dst) s := by
  obtain ⟨hm, hp⟩ := Bool.and_eq_true_iff.mp h
  have hmode : dst.mode ≠ .register := bne_iff_ne.mp hm
  obtain ⟨a, ha⟩ := operandPlace_mem (sz := .word) (s := s) hmode
  exact ⟨_, execJmp_completes hmode hp ha, by simp⟩

theorem traceKept_call {link : Reg} {dst : Operand} {s : State} (h : Shape.answered s (.call link dst) = true) :
    TraceKept (.jsr link dst) s := by
  obtain ⟨hmp, hpush⟩ := Bool.and_eq_true_iff.mp h
  obtain ⟨hm, hp⟩ := Bool.and_eq_true_iff.mp hmp
  have hmode : dst.mode ≠ .register := bne_iff_ne.mp hm
  have hw : (addressStep dst s).writable .word ((addressStep dst s).sp - 2) = true := by
    rw [writable_congr (keeps_addressStep dst s).cfg]
    exact hpush
  obtain ⟨a, ha⟩ := operandPlace_mem (sz := .word) (s := s) hmode
  by_cases hl : link = .r6
  · subst hl
    obtain ⟨w, v, n, hc⟩ := execJsr_sp_completes hmode hp ha hw
    exact ⟨_, hc, by simp⟩
  · exact ⟨_, execJsr_completes hmode hl hp ha hw, by simp⟩

theorem traceKept_ret {link : Reg} {s : State} (h : s.readable .word s.sp = true) : TraceKept (.rts link) s := by
  by_cases hl : link = .r6
  · subst hl
    obtain ⟨v, n, hc⟩ := execRts_sp_completes h
    exact ⟨_, hc, by simp⟩
  · exact ⟨_, execRts_completes hl h, by simp⟩

theorem traceKept_of_answered {i : Instr} {s : State} (hrtt : i ≠ .rtt) (htrap : ∀ v, shapeOf i ≠ .trap v)
    (h : (shapeOf i).answered s = true) : TraceKept i s := by
  cases hi : shapeOf i <;> rw [hi] at h
  case plain => exact traceKept_plain s hi
  case test sz dst => exact traceKept_test hi h
  case modify sz dst => exact traceKept_modify hi h
  case compare sz src dst =>
    obtain ⟨hs, hd⟩ := Bool.and_eq_true_iff.mp h
    exact traceKept_compare hi hs hd
  case combine sz src dst =>
    obtain ⟨hs, hd⟩ := Bool.and_eq_true_iff.mp h
    exact traceKept_combine hi hs hd
  case move sz src dst =>
    obtain ⟨hs, hd⟩ := Bool.and_eq_true_iff.mp h
    exact traceKept_move hi hs hd
  case jump dst => exact eq_of_jump hi ▸ traceKept_jump h
  case call link dst => exact eq_of_call hi ▸ traceKept_call h
  case ret link => exact eq_of_ret hi ▸ traceKept_ret h
  case unwind =>
    obtain ⟨h1, h2⟩ := Bool.and_eq_true_iff.mp h
    exact (eq_of_unwind hi).resolve_right hrtt ▸ ⟨returned s, (return_completes h1 h2).1, returned_tbitFlag s⟩
  case trap v => exact absurd hi (htrap v)

/-! ### The trapping instructions -/

theorem exec_of_trap {i : Instr} {v : Word} (s : State) (hi : shapeOf i = .trap v) :
    exec i s = .next (instructionTrap v s) := by
  cases i with
  | bpt | iot | emt | trap | jmpRn | jsrRn => cases hi; rfl
  | reserved000007 | reserved000010 | reserved000020 | reserved000040 | reserved000210 | reserved000220
  | reserved006400 | reserved007000 | reserved070000 | reserved106400 | reserved107000 | reserved170000 =>
    cases hi; rfl
  | _ => cases hi

/-- Settles O28: between the fetch and the completion nothing sets the trace flag, and a trapping instruction completes
before its sequence. -/
theorem traceFlagAtCompletion : Obligations.TraceFlagAtCompletion := by
  unfold Obligations.TraceFlagAtCompletion
  refine ⟨fun i s hrtt htrap h => (traceKept_of_answered hrtt htrap h).next, fun i v s hi hans => ?trap,
    fun s ht hbe hin hr => step_trace hin hr hbe ht⟩
  case trap =>
    obtain ⟨t, ht, hv⟩ := completes_of_trap (exec_of_trap s hi) hans
    exact ⟨t, ht, by rw [vis_tbitFlag hv, entered_tbitFlag, State.complete_tbitFlag]⟩

end Sys2Proof.Machine

/-! SUPPORT and PROOFS of family 70_reset_and_hazards: the restart routine, and the two ways into it, the end of PDWN
and a power-up. -/

namespace Sys2Proof.Machine

/-! ### The load of the restart vector -/

/-- PC and PSW taken from the two words of a vector, with nothing pushed (R340, R382). -/
def vectorTaken (v : Word) (s : State) : State :=
  let u := (s.after .dati .word v).setPc (s.gets .word v)
  { u.after .dati .word (v + 2) with psw := lowByte (u.gets .word (v + 2)) }

/-- A read cycle works on memory, the PSW, the free values, the schedule and the record of the bus alone. -/
theorem State.after_rest (s : State) (k : CycleKind) (sz : Size) (a : Word) : ∃ m p n q l,
    s.after k sz a = { s with mem := m, psw := p, draws := n, npr := q, bus := l } :=
  ⟨_, _, _, _, _, after_like rfl rfl rfl rfl rfl rfl k sz a⟩

theorem vectorTaken_eq (v : Word) (s : State) : ∃ m p n q l,
    vectorTaken v s = { s.setPc (s.gets .word v) with mem := m, psw := p, draws := n, npr := q, bus := l } := by
  obtain ⟨_, _, _, _, _, hfirst⟩ := s.after_rest .dati .word v
  obtain ⟨_, _, _, _, _, hsecond⟩ :=
    ((s.after .dati .word v).setPc (s.gets .word v)).after_rest .dati .word (v + 2)
  unfold vectorTaken
  dsimp only
  rw [hsecond, hfirst]
  exact ⟨_, _, _, _, _, rfl⟩

theorem vectorTaken_psw (v : Word) (s : State) :
    (vectorTaken v s).psw = lowByte ((s.after .dati .word v).gets .word (v + 2)) := by
  rw [← setPc_gets (s.after .dati .word v) (s.gets .word v)]
  rfl

/-- With no other master on the bus the two read cycles leave memory as it is. -/
theorem vectorTaken_mem {v : Word} {s : State} (hn : s.npr = []) : (vectorTaken v s).mem = s.mem := by
  have hfirst : Alone s (s.after .dati .word v) := alone_after ⟨hn, rfl, rfl⟩ .dati .word v
  obtain ⟨_, hmem, _⟩ := alone_after (alone_setReg hfirst .r7 (s.gets .word v)) .dati .word (v + 2)
  exact hmem

/-! ### What the restart routine leaves -/

/-- Words 24 and 26 can be read, so that the restart routine ends (R382). -/
structure RestartAnswers (s : State) : Prop where
  word24 : s.readable .word 0o24 = true
  word26 : s.readable .word 0o26 = true

section
variable {s : State} (h : RestartAnswers s)
include h

theorem RestartAnswers.visible : (restart s).visible = (restarted s.pc (vectorTaken 0o24 s)).visible :=
  (restart_ok h.word24 h.word26).2

theorem RestartAnswers.r13 : (restart s).scratch.r13 = 0o26 := (restart_ok h.word24 h.word26).1

/-- What no read cycle works on is what the routine found, but for PC, R5, PUP and the run state. -/
theorem RestartAnswers.rest : ∃ m p n q l, (restart s).visible =
    ({ (s.setPc (s.gets .word 0o24)).setReg .r5 s.pc with
      pup := true, run := .run, mem := m, psw := p, draws := n, npr := q, bus := l } : State).visible := by
  obtain ⟨m, p, n, q, l, e⟩ := vectorTaken_eq 0o24 s
  rw [h.visible, e]
  exact ⟨m, p, n, q, l, rfl⟩

theorem RestartAnswers.psw_eq : (restart s).psw = lowByte ((s.after .dati .word 0o24).gets .word 0o26) :=
  (vis_psw h.visible).trans (vectorTaken_psw 0o24 s)

theorem RestartAnswers.mem_eq (hn : s.npr = []) : (restart s).mem = s.mem :=
  (vis_mem h.visible).trans (vectorTaken_mem hn)

theorem RestartAnswers.r5 : (restart s).reg .r5 = s.pc := by
  obtain ⟨_, _, _, _, _, e⟩ := h.rest
  exact vis_reg e .r5

theorem RestartAnswers.pc_eq : (restart s).pc = s.gets .word 0o24 := by
  obtain ⟨_, _, _, _, _, e⟩ := h.rest
  exact vis_pc e

theorem RestartAnswers.reg_eq {r : Reg} (h5 : r ≠ .r5) (h7 : r ≠ .r7) : (restart s).reg r = s.reg r := by
  obtain ⟨_, _, _, _, _, e⟩ := h.rest
  cases r with
  | r5 => exact absurd rfl h5
  | r7 => exact absurd rfl h7
  | _ => exact vis_reg e _

end

/-- Where the events leave the machine in INIT with AC LO negated, the step is the restart routine (R381). -/
theorem step_restarts {s t : State} (ht : s.takeInputs = t) (hr : t.run = .init) (ha : t.acLo = false) :
    step s = .next (restart t) := by
  unfold step stepAfterInputs
  rw [ht, hr]
  dsimp only
  rw [ha]
  rfl

/-- Settles O32: what the restart routine leaves is what the step leaves. -/
theorem restartRoutine : Obligations.RestartRoutine := by
  unfold Obligations.RestartRoutine
  intro s hr hin ha h24 h26
  have h : RestartAnswers s := ⟨h24, h26⟩
  exact ⟨restart s, step_restarts (takeInputs_nil hin) hr ha, h.r13, h.visible⟩

/-! ### The end of PDWN -/

theorem accept_pdwnEnds {s : State} (h : s.pdwn = true) : s.accept .pdwnEnds = s.powerInit := if_pos h

/-- The INIT of a power-up or of the end of PDWN, in a state whose later events are `later`. -/
def initialised (later : List (List Input)) (s : State) : State := ({ s with inputs := later } : State).powerInit

section
variable (later : List (List Input)) (s : State)

/-- INIT leaves what decides the answer of a read cycle. -/
theorem initialised_answers (h24 : s.readable .word 0o24 = true) (h26 : s.readable .word 0o26 = true) :
    RestartAnswers (initialised later s) := ⟨h24, h26⟩

theorem initialised_gets (sz : Size) (a : Word) : (initialised later s).gets sz a = s.gets sz a :=
  gets_congr (s := initialised later s) (t := s) (by rfl) (by rfl) (by rfl) (by rfl) (by rfl) sz a

theorem initialised_after_gets (k : CycleKind) (sz z : Size) (a b : Word) :
    ((initialised later s).after k sz a).gets z b = (s.after k sz a).gets z b := by
  have hlike := after_like (s := s) (t := initialised later s) rfl rfl rfl rfl rfl rfl k sz a
  exact gets_congr (by rw [State.after_cfg, State.after_cfg]; rfl) (by rw [hlike]) (by rw [hlike]) (by rw [hlike])
    (by rw [hlike]) z b

end

/-- Settles O33: the end of PDWN is an INIT pulse, which leaves registers and memory to the restart routine. -/
theorem momentaryPowerFailureRestarts : Obligations.MomentaryPowerFailureRestarts := by
  unfold Obligations.MomentaryPowerFailureRestarts
  intro s later hpdwn _ ha hin h24 h26
  have hinit : s.takeInputs = initialised later s := (takeInputs_one hin).trans (accept_pdwnEnds hpdwn)
  have h := initialised_answers later s h24 h26
  have hpc := h.pc_eq.trans (initialised_gets later s _ _)
  have hpsw := h.psw_eq.trans (congrArg lowByte (initialised_after_gets later s _ _ _ _ _))
  obtain ⟨_, _, _, _, _, hrest⟩ := h.rest
  exact ⟨restart (initialised later s), step_restarts hinit rfl ha, vis_run hrest, congrArg State.initPulses hrest,
    h.mem_eq, h.r5, hpc, hpsw, fun _ => h.reg_eq⟩

/-! ### A power-up -/

/-- Once power is off, the negation of DC LO is a cold power-up (R381). -/
theorem accept_dcLo_negated {s : State} (h : s.run = .off) : s.accept (.dcLo false) = s.coldRegisters.powerInit :=
  if_pos h

/-- The bus addresses of program addresses below 177700 are none of the processor's own. -/
theorem targetOf_low {s : State} {a : Word} (ha : a.toNat < 0o177700) :
    s.targetOf a ≠ .psw ∧ s.targetOf a ≠ .registers := by
  have hbus := addr18_toNat s.cfg a
  have hbase : wordBase (addr18 s.cfg a) = (addr18 s.cfg a).toNat / 2 * 2 := rfl
  have hhigh := (highBits s.cfg.addr18 (a.toNat / 2 * 2)).isLt
  unfold State.targetOf target
  rw [if_neg (by omega), if_neg (by omega)]
  split <;> exact ⟨Target.noConfusion, Target.noConfusion⟩

theorem targetOf_ne_absent {s : State} {sz : Size} {a : Word} (hr : s.readable sz a = true) :
    s.targetOf a ≠ .absent := by
  intro ht
  unfold State.readable State.readFails at hr
  rw [ht] at hr
  split at hr <;> cases hr

/-! ### Words of memory, once other registers hold free values -/

section
variable {s t : State} {a : Word} (ha : a.toNat < 0o177700) (hr : s.readable .word a = true)
  (hd : s.targetOf a ≠ .slave .device) (hc : t.cfg = s.cfg) (hm : t.mem = s.mem)
include ha hr hd hc hm

/-- A word of memory that can be read depends on memory alone: not on the registers, the PSW or the free values. -/
theorem wordAt_of_mem : t.wordAt a = s.wordAt a := by
  obtain ⟨hpsw, hregs⟩ := targetOf_low (s := s) ha
  have habsent := targetOf_ne_absent hr
  unfold State.wordAt
  rw [targetOf_congr hc, hc, hm]
  cases ht : s.targetOf a with
  | psw => exact absurd ht hpsw
  | registers => exact absurd ht hregs
  | absent => exact absurd ht habsent
  | slave k =>
    cases k with
    | device => exact absurd ht hd
    | _ => rfl

theorem gets_of_mem (hn : t.npr = []) : t.gets .word a = s.wordAt a :=
  (gets_nil hn .word a).trans (wordAt_of_mem ha hr hd hc hm)

theorem after_gets_of_mem (hn : t.npr = []) (k : CycleKind) (sz : Size) (b : Word) :
    (t.after k sz b).gets .word a = s.wordAt a := by
  obtain ⟨hn', hm', _⟩ := alone_after (s := t) ⟨hn, rfl, rfl⟩ k sz b
  exact gets_of_mem ha hr hd ((t.after_cfg k sz b).trans hc) (hm'.trans hm) hn'

end

/-- Settles O34: the cold registers are drawn, the INIT pulse clears the flags, and the restart routine reads its two
words from the memory that was there. -/
theorem powerUpThroughDcLo : Obligations.PowerUpThroughDcLo := by
  unfold Obligations.PowerUpThroughDcLo
  refine ⟨fun s hr hin => step_off hin hr, fun s later hr hin ha hn h24 h26 hd24 hd26 => ?negated⟩
  case negated =>
    have haccept : ({ s with inputs := later } : State).accept (.dcLo false) = initialised later s.coldRegisters :=
      accept_dcLo_negated hr
    have h := initialised_answers later s.coldRegisters h24 h26
    have hpc : (restart (initialised later s.coldRegisters)).pc = s.wordAt 0o24 :=
      h.pc_eq.trans (gets_of_mem (s := s) (by decide) h24 hd24 rfl rfl hn)
    have hword : ((initialised later s.coldRegisters).after .dati .word 0o24).gets .word 0o26 = s.wordAt 0o26 :=
      after_gets_of_mem (s := s) (t := initialised later s.coldRegisters) (by decide) h26 hd26 rfl rfl hn _ _ _
    have hpsw := h.psw_eq.trans (congrArg lowByte hword)
    obtain ⟨_, _, _, _, _, hrest⟩ := h.rest
    exact ⟨restart (initialised later s.coldRegisters), step_restarts ((takeInputs_one hin).trans haccept) rfl ha,
      vis_run hrest, congrArg State.pup hrest, congrArg State.initPulses hrest, hpc, hpsw, h.r13,
      h.r5.trans (congrArg State.pc haccept).symm, vis_be hrest, congrArg State.pe hrest, congrArg State.stov hrest,
      vis_tbitFlag hrest, congrArg State.pfail hrest, congrArg State.pdwn hrest, congrArg State.waitHeld hrest,
      h.mem_eq hn, vis_inputs hrest⟩

end Sys2Proof.Machine
